-- ==== Sys2Proof/Word.lean ====
section
/-! DEFINITION. The word types of the hardware: bytes, 16-bit and 32-bit words, the exact non-negative rationals of
40_profile_table.md R155, and clamped subtraction (00_scope.md R9). -/

namespace Sys2Proof

/-- A byte is 8 bits (00_scope.md R9). -/
abbrev Byte := BitVec 8

/-- Sector numbers (00_scope.md R13). -/
abbrev Word16 := BitVec 16

/-- The state cursor, fence and receive ids, `rotationCount`, the weak-bit LFSR (00_scope.md R13, R24, R57). -/
abbrev Word32 := BitVec 32

/-- Unsigned count of machine cycles (00_scope.md R9). A natural number: the spec's formulas are over naturals, and
the step refuses a clock at 2^63 or above (R176, R514; log 17). -/
abbrev Cycle := Nat

/-- An exact non-negative rational, the only non-integer quantity of the block (40_profile_table.md R155). -/
structure Frac where
  num : Nat
  den : Nat
deriving DecidableEq, Repr, Inhabited

/-- The floor of `f * n`: the one rounding of R245 and R448. -/
def Frac.scale (f : Frac) (n : Nat) : Nat := f.num * n / f.den

/-- The fraction lies in [0, 1). -/
def Frac.belowOne (f : Frac) : Bool := decide (f.num < f.den)

/-- `sat_sub(a, b)`: subtraction clamped at zero (00_scope.md R9). Natural subtraction is exactly that. -/
def satSub (a b : Nat) : Nat := a - b

end Sys2Proof
end

