-- ==== Sys2Proof/Config.lean ====
section
/-! DEFINITION. The implementation parameters of 00_scope.md R8 as plain data (a profile column, the opcodes, the
tables of the OPEN functions, the parameter record), the literal constants the spec prints, and the free values. -/

namespace Sys2Proof

/-! ### Literal constants -/

/-- `FDC_CMD_EXTRA`: a constant of the source (00_scope.md R8, 40_profile_table.md R148). -/
def Config.fdcCmdExtra : Nat := 5756

/-- `SEND_BUF_SIZE`, also the size of RECV (10_state.md R60, R61). -/
def Config.bufSize : Nat := 8192

/-- `FDC_OK` (10_state.md R41, from the source). -/
def Config.fdcOk : Byte := 0xFF

/-- `FDC_WRITE_PROTECT` (10_state.md R41, from the source). -/
def Config.fdcWriteProtect : Byte := 0xBF

/-- `FDC_NOT_READY_BIT` (10_state.md R41). PRESUMED: the spec marks it as general knowledge (log 23). -/
def Config.fdcNotReadyBit : Byte := 0x80

/-- DEDUCED: the head positions that the rules reach lie below this: 65535 cylinders, the bound of 49_facade.md R449 and
00_scope.md R8, in half-track steps (10_state.md R27; log 34, which names the parameters that can bring the head beyond). -/
def Config.trackLimit : Nat := 2 * 65535

/-- Smallest clock value a run may not reach (93_implementation_defined.md I26). -/
def Config.clockLimit : Nat := 2 ^ 63

/-! ### Free values

Nothing constrains them: the spec states that a value results and not which (logs 9, 10, 25, 32, 36, 38, 42, 45, 46). -/

/-- Byte `off` of physical sector `p` of the image left by the format that drew the free value number `n`. -/
opaque Config.formattedByte (n p off : Nat) : BitVec 8

/-- Numerator of the rotational position of physical sector `p` of the image left by format `n`. -/
opaque Config.formattedRotNum (n p : Nat) : Nat

/-- One less than the denominator of the same position. -/
opaque Config.formattedRotDen (n p : Nat) : Nat

/-- The image layer's high-density verdict on the image left by format `n`. -/
opaque Config.formattedHighDensity (n : Nat) : Bool

/-- `CylinderOf` where the second-side mapping of 43_rw_common.md R241 would be negative: `t` is the track number and at
least twice the track count (log 36). -/
opaque Config.cylinderPastEnd (trackCount t : Nat) : Nat

/-- Byte `index` of the PERCOM block of a geometry whose field there, `value`, is more than the byte can hold or, for the
sides, 0 (47_cmd_status_percom_misc.md R365; log 42). -/
opaque Config.unstatedPercomByte (index value : Nat) : BitVec 8

/-- Byte `off` of a physical sector after the write that drew free value `n` failed, or did not cover that byte. -/
opaque Config.freeImageByte (n off : Nat) : BitVec 8

/-- The track number of sector 0, and of a sector in a geometry with no sectors per track (43_rw_common.md R241; log 32). -/
opaque Config.unstatedTrack (sectorsPerTrack sector : Nat) : Nat

/-- `CylinderOf` where `MAX_TRACKS` is 0, so that its bound `MAX_TRACKS - 1` has no value (43_rw_common.md R241): `t` is the
track number after the second-side mapping (log 46). -/
opaque Config.cylinderWithoutTracks (t : Nat) : Nat

/-- `cmd.physPos` after the attempt that found no copy and drew free value `n` (43_rw_common.md R258; log 38). -/
opaque Config.missingPos (n : Nat) : Nat

/-- `cmd.physWeakOffset` after the same attempt. -/
opaque Config.missingWeak (n : Nat) : Option Nat

/-- `cmd.physSize` after the same attempt. -/
opaque Config.missingSize (n : Nat) : Nat

/-- The drive-RAM address of a loaded window write that has none (45_cmd_write.md R320; log 45). -/
opaque Config.unsavedRamAddr (n : Nat) : Nat

/-! What the Disk Interface answers of a sector its tables do not list, or list with an impossible position
(20_memory.md R81, R91; log 25): `n` is the count of free values drawn so far. -/

/-- `D.VirtSectorInfo(v)`: the first copy. -/
opaque Config.unlistedStart (n v : Nat) : Nat

/-- `D.VirtSectorInfo(v)`: the number of copies. -/
opaque Config.unlistedCount (n v : Nat) : Nat

/-- `D.PhysSectorInfo(p)`: the numerator of the rotational position. -/
opaque Config.unlistedRotNum (n p : Nat) : Nat

/-- One less than the denominator of the same position. -/
opaque Config.unlistedRotDen (n p : Nat) : Nat

/-- `D.PhysSectorInfo(p)`: the FDC status. -/
opaque Config.unlistedStatus (n p : Nat) : BitVec 8

/-- `D.PhysSectorInfo(p)`: the weak region. -/
opaque Config.unlistedWeak (n p : Nat) : Option Nat

/-- `D.PhysSectorInfo(p)`: the size. -/
opaque Config.unlistedSize (n p : Nat) : Nat

/-- `D.PhysSectorInfo(p)`: the density. -/
opaque Config.unlistedMfm (n p : Nat) : Bool

/-- Byte `off` that `D.ReadPhysicalSector(p, …)` gives. -/
opaque Config.unlistedByte (n p off : Nat) : BitVec 8

/-- `D.ReadPhysicalSector(p, …)` throws. -/
opaque Config.unlistedReadError (n p : Nat) : Bool

/-- `D.WritePhysicalSector(p, …)` throws. -/
opaque Config.unlistedWriteError (n p : Nat) : Bool

/-! ### Names -/

/-- The `family` attribute of a profile (40_profile_table.md R147). -/
inductive Family where
  | plain
  | xf551
  | indusGT
  | happy
deriving DecidableEq, Repr, Inhabited

/-- `st.indusVariant` (10_state.md R22). -/
inductive IndusVariant where
  | base
  | synchromesh
  | superSynchromesh
deriving DecidableEq, Repr, Inhabited

/-- What `IndusFirmwareClassify` recognises (47_cmd_status_percom_misc.md R377). -/
inductive IndusFirmware where
  | synchromesh
  | superSynchromesh
deriving DecidableEq, Repr

/-- What a search attempt ended in (43_rw_common.md R250, R252). -/
inductive SearchKind where
  | ok
  | dataError
  | missing
deriving DecidableEq, Repr

/-! ### Profile columns -/

/-- One row of the profile table before `Finalize`: every field of 40_profile_table.md R142 to R147 but the derived
ones, and `cyclesMotorSpinUp` (00_scope.md R8, D21), which may depend on the profile. -/
structure Column where
  family : Family
  -- R142 capability flags
  supportsNotReady : Bool
  supportsHighSpeedCmdBit : Bool
  supportsHighSpeedCmdFrame : Bool
  supportsPERCOM : Bool
  supportsFormatSkewed : Bool
  supportsFormatBootTrack : Bool
  supportsGetHighSpeedIndex : Bool
  -- R143 speed parameters
  highSpeedIndex : Byte
  cyclesPerSIOByte : Nat
  cyclesPerSIOBit : Nat
  cyclesPerSIOByteHighSpeed : Nat
  cyclesPerSIOBitHighSpeed : Nat
  cyclesPerSIOBitHighSpeedF : Frac
  -- R144 timing constants
  cyclesToACKSent : Nat
  cyclesToNAKFromFrameEnd : Nat
  cyclesToNAKFromCmdDeassert : Nat
  cyclesPerDiskRotation : Nat
  cyclesPerTrackStep : Nat
  cyclesForHeadSettle : Nat
  cyclesPostReadToCE : Nat
  cyclesCEToDataFrame : Nat
  cyclesCEToDataFramePBDiv256 : Nat
  cyclesCEToDataFrameHighSpeed : Nat
  cyclesCEToDataFrameHighSpeedPBDiv256 : Nat
  cyclesACKStopBitToStatusComplete : Nat
  cyclesACKStopBitToReadPERCOMComplete : Nat
  cyclesToMotorOff : Nat
  -- R145 behavioural flags
  seekHalfTracks : Bool
  retryMode1050 : Bool
  reverseOnForwardSeeks : Bool
  waitForLongSectors : Bool
  writePERCOMChangesDensity : Bool
  bufferTrackReads : Bool
  bufferTrackReadErrors : Bool
  bufferSector1 : Bool
  -- R146, and the spin-up delay of R8
  powerOnFDCStatus : Byte
  cyclesMotorSpinUp : Nat
deriving DecidableEq, Repr, Inhabited

/-- An active profile: a column with the fields `Finalize` derives (40_profile_table.md R148, R149). The divisors are
integers because a window may hold none. -/
structure Profile extends Column where
  cyclesToFDCCommand : Nat
  hsFrameCpbMin : Nat
  hsFrameCpbMax : Nat
  hsCmdFrameRateLo : Int
  hsCmdFrameRateHi : Int
deriving DecidableEq, Repr, Inhabited

/-- The "speed/format constants" a derived Indus GT profile overrides, bounded as 40_profile_table.md R151 bounds
them. -/
structure SpeedSet where
  highSpeedIndex : Byte
  cyclesPerSIOByte : Nat
  cyclesPerSIOBit : Nat
  cyclesPerSIOByteHighSpeed : Nat
  cyclesPerSIOBitHighSpeed : Nat
  cyclesPerSIOBitHighSpeedF : Frac
  supportsHighSpeedCmdFrame : Bool
  supportsHighSpeedCmdBit : Bool
  supportsFormatSkewed : Bool
  supportsFormatBootTrack : Bool
  supportsGetHighSpeedIndex : Bool
  cyclesCEToDataFrameHighSpeed : Nat
  cyclesCEToDataFrameHighSpeedPBDiv256 : Nat
deriving DecidableEq, Repr, Inhabited

/-- Which profile a unit runs: the argument `prof` of the OPEN functions, as data. -/
structure ProfileKey where
  mode : Nat
  variant : IndusVariant
deriving DecidableEq, Repr

/-! ### Geometry and the PERCOM block -/

/-- The part of a geometry a PERCOM block describes (47_cmd_status_percom_misc.md R364). -/
structure Layout where
  trackCount : Nat
  sectorsPerTrack : Nat
  sideCount : Nat
  mfm : Bool
  bytesPerSector : Nat
deriving DecidableEq, Repr, Inhabited

/-- The geometry fields of 10_state.md R28; also the answer of `D.Geometry()` (20_memory.md R91). -/
structure Geometry extends Layout where
  totalSectors : Nat
  bootSectorCount : Nat
  highDensity : Bool
deriving DecidableEq, Repr, Inhabited

/-- The PERCOM block, 12 bytes (10_state.md R50): 0 tracks, 1 step rate, 2-3 sectors per track (high, low), 4 sides
minus one, 5 recording (bit 2 MFM), 6-7 bytes per sector (high, low), 8 drive present, 9-11 reserved. -/
structure Percom where
  b0 : Byte
  b1 : Byte
  b2 : Byte
  b3 : Byte
  b4 : Byte
  b5 : Byte
  b6 : Byte
  b7 : Byte
  b8 : Byte
  b9 : Byte
  b10 : Byte
  b11 : Byte
deriving DecidableEq, Repr, Inhabited

/-! ### The opcodes and the OPEN functions -/

/-- The parameters `CMD_*`, the base opcode of each row of 30_encoding.md R118: an OPEN row is `none` while its parameter
is unset. -/
structure Opcodes where
  status : BitVec 7
  read : BitVec 7
  put : BitVec 7
  write : BitVec 7
  format : BitVec 7
  formatSkewed : BitVec 7
  readPercom : BitVec 7
  writePercom : BitVec 7
  getHsIndex : BitVec 7
  formatBoot : Option (BitVec 7)
  happyQuiet : Option (BitVec 7)
  happyRamtest : Option (BitVec 7)
  happyHeadpos : Option (BitVec 7)
  happyRpmtest : Option (BitVec 7)
  indusExecute : Option (BitVec 7)
deriving DecidableEq, Repr, Inhabited

/-- The values 30_encoding.md R118 prints; no OPEN opcode is set, as the spec gives none a value. PRESUMED: all but 0x53
and 0x21 are marked as general knowledge (log 23). -/
def Opcodes.spec : Opcodes :=
  { status := 0x53, read := 0x52, put := 0x50, write := 0x57, format := 0x21, formatSkewed := 0x66,
    readPercom := 0x4E, writePercom := 0x4F, getHsIndex := 0x3F,
    formatBoot := none, happyQuiet := none, happyRamtest := none, happyHeadpos := none, happyRpmtest := none,
    indusExecute := none }

/-- The OPEN configuration functions of 00_scope.md R8 as finite tables: an argument with an entry gets the entry's
value, any other the default the spec's rule gives (log 3). State is plain data, so a function is held this way. -/
structure Tables where
  /-- `CylinderOf` (43_rw_common.md R241), keyed by sector and working layout. -/
  cylinderOf : List ((Nat × Layout) × Nat)
  /-- `RetryPenalty` (R257): cycles and steps by profile, attempt and kind. -/
  retryPenalty : List ((ProfileKey × Nat × SearchKind) × (Nat × Nat))
  /-- `SectorXferCycles` (R259). -/
  sectorXferCycles : List ((ProfileKey × Bool × Nat) × Nat)
  /-- `PostReadToCECycles` (44_cmd_read.md R297). -/
  postReadToCE : List ((ProfileKey × Bool) × Nat)
  /-- `LongSectorQuirk` (43_rw_common.md R251), consulted for long sectors only. -/
  longSectorQuirk : List ((Bool × Byte) × Byte)
  /-- `VendorRamWindow` (20_memory.md R96), keyed by mode, sector, isWrite. -/
  vendorRamWindow : List ((Nat × Word16 × Bool) × Nat)
  /-- `IndusFirmwareClassify` (47_cmd_status_percom_misc.md R377). -/
  indusClassify : List (List Byte × IndusFirmware)
  /-- `UsesVendorNativeSpeed` (48_transfer.md R393): the pairs for which it is true. -/
  nativeSpeed : List (ProfileKey × Byte)
  /-- `XF551Normalize` (47_cmd_status_percom_misc.md R368): which of the three geometries. -/
  xf551Normalize : List (Percom × Fin 3)
  /-- `FormatOverride` (46_cmd_format.md R336). -/
  formatOverride : List ((ProfileKey × Byte × Layout) × Layout)
  /-- `WeakLfsrStep` (43_rw_common.md R262). -/
  weakLfsrStep : List (Word32 × (Byte × Word32))
  /-- `initialRotationOffset(seed, unit)` (70_reset_and_hazards.md R504). -/
  initialRotationOffset : List ((Nat × Byte) × Nat)
deriving DecidableEq, Repr, Inhabited

/-- No entry: every OPEN function is at the default of its rule. -/
def Tables.empty : Tables := ⟨[], [], [], [], [], [], [], [], [], [], [], []⟩

/-- The parameter record of 00_scope.md R8. -/
structure Params where
  /-- `NUM_MODES`. -/
  numModes : Nat
  /-- `ModeName[m]`, mode 0 first; read by no rule. -/
  modeNames : List String
  /-- `Profile[m]` before `Finalize`, mode 0 first. -/
  columns : List Column
  /-- The mode of the base Indus GT profile (40_profile_table.md R151). DESIGN CHOICE: no test requires that the table has
this row or that the row's family is `IndusGT` (log 31). -/
  indusGTMode : Nat
  indusSync : SpeedSet
  indusSuperSync : SpeedSet
  /-- `CMD_*`. -/
  opcodes : Opcodes
  /-- `INDUS_EXEC_LEN`. -/
  indusExecLen : Nat
  /-- `CLOCK_HZ`. -/
  clockHz : Frac
  /-- `DEVICE_BASE`: device id of unit 0. -/
  deviceBase : Byte
  /-- `NUM_UNITS`. -/
  numUnits : Nat
  /-- `BOOT_RANGE_MAX`. -/
  bootRangeMax : Nat
  /-- `BOOT_SECTOR_COUNT`. -/
  bootSectorCount : Nat
  /-- `END_OF_TRAVEL_TRACK`. -/
  endOfTravelTrack : Nat
  /-- `MAX_TRACKS`; for 0 see `defaultCylinderOf` (log 46). -/
  maxTracks : Nat
  /-- `DRIVE_RAM_SIZE`. -/
  driveRamSize : Nat
  /-- `WEAK_LFSR_SEED`. -/
  weakLfsrSeed : Word32
  /-- `VENDOR_HS_CPB`. -/
  vendorHsCpb : Nat
  /-- `VENDOR_HS_CPBYTE`. -/
  vendorHsCpByte : Nat
  /-- `DefaultPERCOM[m]`, mode 0 first. -/
  defaultPercom : List Percom
  /-- `XF551_GEOMETRY[0..2]`. -/
  xf551Geometry0 : Layout
  xf551Geometry1 : Layout
  xf551Geometry2 : Layout
  /-- `FDC_RNF` (10_state.md R41). -/
  fdcRnf : Byte
  /-- `FDC_CRC`. -/
  fdcCrc : Byte
  /-- `FDC_ADDR_CRC`. -/
  fdcAddrCrc : Byte
  /-- Raw track bytes of the default `SectorXferCycles`, FM and MFM (43_rw_common.md R259). -/
  rawTrackBytesFM : Nat
  rawTrackBytesMFM : Nat
  /-- The process-wide randomization seed (70_reset_and_hazards.md R504). -/
  seed : Nat
  tables : Tables
deriving DecidableEq, Repr, Inhabited

end Sys2Proof
end

