-- ==== Sys2Proof/Syntax.lean ====
section
/-! DEFINITION. The instructions: the command frames of 30_encoding.md R118, one constructor per row of the command
table, each with the fields of the format CF (R111) that the row leaves open. -/

namespace Sys2Proof

/-- The fields of a command frame besides its base opcode (30_encoding.md R111): the device id, the high-speed bit
(command-byte bit 7) and the two auxiliary bytes. -/
structure Operands where
  device : Byte
  h : Bool
  aux1 : Byte
  aux2 : Byte
deriving DecidableEq, Repr, Inhabited

/-- The fifteen rows of the command table (30_encoding.md R118). `PUT` and `WRITE` are two opcodes (R127). -/
inductive Instr where
  | status (f : Operands)
  | read (f : Operands)
  | put (f : Operands)
  | write (f : Operands)
  | format (f : Operands)
  | formatSkewed (f : Operands)
  | formatBoot (f : Operands)
  | readPercom (f : Operands)
  | writePercom (f : Operands)
  | getHsIndex (f : Operands)
  | happyQuiet (f : Operands)
  | happyRamtest (f : Operands)
  | happyHeadpos (f : Operands)
  | happyRpmtest (f : Operands)
  | indusExecute (f : Operands)
deriving DecidableEq, Repr

/-- The operand fields of an instruction. -/
def Instr.operands : Instr → Operands
  | .status f => f
  | .read f => f
  | .put f => f
  | .write f => f
  | .format f => f
  | .formatSkewed f => f
  | .formatBoot f => f
  | .readPercom f => f
  | .writePercom f => f
  | .getHsIndex f => f
  | .happyQuiet f => f
  | .happyRamtest f => f
  | .happyHeadpos f => f
  | .happyRpmtest f => f
  | .indusExecute f => f

end Sys2Proof
end

