-- ==== Sys2Proof/Machine/Opcodes.lean ====
section
/-! DEFINITION. The command table of 30_encoding.md R118: the base opcode of every row, in the table's order, and the
packing of the command byte (R111). -/

namespace Sys2Proof

/-- Base opcode of a row; `none` for an OPEN row whose parameter is unset (30_encoding.md R118). -/
def Instr.opcode (ops : Opcodes) : Instr → Option (BitVec 7)
  | .status _ => some ops.status
  | .read _ => some ops.read
  | .put _ => some ops.put
  | .write _ => some ops.write
  | .format _ => some ops.format
  | .formatSkewed _ => some ops.formatSkewed
  | .formatBoot _ => ops.formatBoot
  | .readPercom _ => some ops.readPercom
  | .writePercom _ => some ops.writePercom
  | .getHsIndex _ => some ops.getHsIndex
  | .happyQuiet _ => ops.happyQuiet
  | .happyRamtest _ => ops.happyRamtest
  | .happyHeadpos _ => ops.happyHeadpos
  | .happyRpmtest _ => ops.happyRpmtest
  | .indusExecute _ => ops.indusExecute

/-- The rows of the command table in the table's order, as instructions with the given operands. -/
def commandRows (f : Operands) : List Instr :=
  [.status f, .read f, .put f, .write f, .format f, .formatSkewed f, .formatBoot f, .readPercom f, .writePercom f,
   .getHsIndex f, .happyQuiet f, .happyRamtest f, .happyHeadpos f, .happyRpmtest f, .indusExecute f]

/-- The first row with base opcode `op`: "if parameters collide the earlier row wins" (30_encoding.md R118). -/
def firstRow (ops : Opcodes) (op : BitVec 7) : List Instr → Option Instr
  | [] => none
  | i :: rest => if i.opcode ops = some op then some i else firstRow ops op rest

/-- The command byte: bit 7 is `h`, bits 6:0 the base opcode (30_encoding.md R111). -/
def commandByte (h : Bool) (op : BitVec 7) : Byte := BitVec.ofBool h ++ op

/-- `command[7]`. -/
def highSpeedBit (command : Byte) : Bool := command.getLsbD 7

/-- `command[6:0]`. -/
def baseOpcode (command : Byte) : BitVec 7 := command.extractLsb' 0 7

end Sys2Proof
end

