-- ==== Sys2Proof/WellFormed.lean ====
section
/-! DEFINITION. Well-formed instructions: those some command frame stands for (30_encoding.md R118). -/

namespace Sys2Proof

/-- The rows before `i`'s own in the command table, with `i`'s operands. -/
def Instr.earlierRows (i : Instr) : List Instr :=
  (commandRows i.operands).takeWhile (fun j => decide (j ≠ i))

/-- The row's opcode parameter is set: "while it is unset, the row is unreachable" (30_encoding.md R118). -/
def Instr.opcodeSet (ops : Opcodes) (i : Instr) : Bool := (i.opcode ops).isSome

/-- No earlier row has the same opcode: "if parameters collide the earlier row wins" (30_encoding.md R118). -/
def Instr.notShadowed (ops : Opcodes) (i : Instr) : Bool :=
  i.earlierRows.all (fun j => decide (j.opcode ops ≠ i.opcode ops))

/-- An instruction is well formed for an assignment of the OPEN opcodes when some frame decodes to it. -/
def Instr.wellFormed (ops : Opcodes) (i : Instr) : Bool := i.opcodeSet ops && i.notShadowed ops

end Sys2Proof
end

