-- ==== Sys2Proof/Decode.lean ====
section
/-! DEFINITION. Decoding and encoding of command frames (30_encoding.md R110 to R118): total on any byte string,
rejecting by name. The checks of R117 that depend on the active profile and on the frame's rate are not decoding of
bits; they stand in Machine/Operands.lean. -/

namespace Sys2Proof

/-- Why four bytes (or another number of them) are no row of the command table. -/
inductive DecodeReject where
  /-- A frame is exactly four bytes: device, command, aux1, aux2 (30_encoding.md R110, R112). -/
  | wrongLength (n : Nat)
  /-- The base opcode has no row; the unit takes the Unsupported path (30_encoding.md R117, R120). -/
  | noRow (op : BitVec 7)
deriving DecidableEq, Repr

/-- The operand fields of four frame bytes (30_encoding.md R111). -/
def operandsOf (device command aux1 aux2 : Byte) : Operands :=
  ⟨device, highSpeedBit command, aux1, aux2⟩

/-- Step (3) of `Decode` (30_encoding.md R117): the row of the command table. -/
def decode (ops : Opcodes) : List Byte → Except DecodeReject Instr
  | [device, command, aux1, aux2] =>
    match firstRow ops (baseOpcode command) (commandRows (operandsOf device command aux1 aux2)) with
    | some i => .ok i
    | none => .error (.noRow (baseOpcode command))
  | bytes => .error (.wrongLength bytes.length)

/-- The four bytes of an instruction, first-transmitted first (30_encoding.md R110, R111); `none` while the row's
opcode is unset. -/
def encode (ops : Opcodes) (i : Instr) : Option (List Byte) :=
  (i.opcode ops).map fun op =>
    [i.operands.device, commandByte i.operands.h op, i.operands.aux1, i.operands.aux2]

/-- The bytes of the word `W` of 30_encoding.md R111: device is W[31:24], command W[23:16], aux1 W[15:8], aux2
W[7:0]. -/
def frameBytes (w : Word32) : List Byte :=
  [w.extractLsb' 24 8, w.extractLsb' 16 8, w.extractLsb' 8 8, w.extractLsb' 0 8]

/-- The frame word whose low `nbits` bits are those of `w` and whose other bits are 0. -/
def tableWord (nbits w : Nat) : Word32 := BitVec.ofNat 32 (w % 2 ^ nbits)

/-- The instruction the decoder reads from a word numbered as the opcode table numbers it. The opcodes are
those the spec prints, the OPEN ones unset (log 2). -/
def decodeTableWord (nbits w : Nat) : Option Instr :=
  match decode Opcodes.spec (frameBytes (tableWord nbits w)) with
  | .ok i => some i
  | .error _ => none

end Sys2Proof
end

