-- ==== Sys2Proof/Machine/Defaults.lean ====
section
/-! DEFINITION. The parameter values of the reset state. The spec leaves every one of them OPEN (00_scope.md R8, R18);
the suggestions it prints are taken where it prints one, else the values of its vectors, else a value of the model's own,
which the docstrings name (log 1, 2, 3, 12, 16, 23, 31). No rule of the model depends on a value of this file. -/

namespace Sys2Proof.Defaults

/-- The 810-style column of 95_test_vectors.md Part 2 (T810). DESIGN CHOICE: two departures from the vectors,
which leave what they do not list at 0. The high-speed fields are positive, because R143 and R153 of 40_profile_table.md
require it (log 16); the stop-bit-to-PERCOM delay is 700, the value of the status delay, because the modes with the PERCOM
commands share this column (log 16). -/
def t810 : Column :=
  { family := .plain
    supportsNotReady := false
    supportsHighSpeedCmdBit := false
    supportsHighSpeedCmdFrame := false
    supportsPERCOM := false
    supportsFormatSkewed := false
    supportsFormatBootTrack := false
    supportsGetHighSpeedIndex := false
    highSpeedIndex := 6
    cyclesPerSIOByte := 940
    cyclesPerSIOBit := 94
    cyclesPerSIOByteHighSpeed := 265
    cyclesPerSIOBitHighSpeed := 26
    cyclesPerSIOBitHighSpeedF := ⟨53, 2⟩
    cyclesToACKSent := 500
    cyclesToNAKFromFrameEnd := 600
    cyclesToNAKFromCmdDeassert := 900
    cyclesPerDiskRotation := 100000
    cyclesPerTrackStep := 1000
    cyclesForHeadSettle := 2000
    cyclesPostReadToCE := 300
    cyclesCEToDataFrame := 400
    cyclesCEToDataFramePBDiv256 := 256
    cyclesCEToDataFrameHighSpeed := 200
    cyclesCEToDataFrameHighSpeedPBDiv256 := 128
    cyclesACKStopBitToStatusComplete := 700
    cyclesACKStopBitToReadPERCOMComplete := 700
    cyclesToMotorOff := 3000000
    seekHalfTracks := false
    retryMode1050 := false
    reverseOnForwardSeeks := false
    waitForLongSectors := false
    writePERCOMChangesDensity := false
    bufferTrackReads := false
    bufferTrackReadErrors := false
    bufferSector1 := false
    powerOnFDCStatus := 0xFF
    cyclesMotorSpinUp := 50000 }

/-- The 1050-style column of 95_test_vectors.md Part 2 (T1050). -/
def t1050 : Column :=
  { t810 with
    retryMode1050 := true
    seekHalfTracks := true
    reverseOnForwardSeeks := true
    powerOnFDCStatus := 0xDF }

/-- A column with every capability of 40_profile_table.md R142, so that each row of the command table whose opcode is
set runs on some mode. -/
def capable (c : Column) : Column :=
  { c with
    supportsHighSpeedCmdBit := true
    supportsHighSpeedCmdFrame := true
    supportsPERCOM := true
    supportsFormatSkewed := true
    supportsFormatBootTrack := true
    supportsGetHighSpeedIndex := true }

/-- A column whose firmware buffers tracks (00_scope.md R14: Happy, ISP, Speedy). -/
def buffering (c : Column) : Column := { c with bufferTrackReads := true }

/-- The names of the modes, the suggestion of 40_profile_table.md R141 (log 31). -/
def modeNames : List String :=
  ["Generic", "Generic 57600 baud", "Fastest possible", "810", "1050", "XF551", "US Doubler", "Speedy 1050", "Indus GT",
   "Happy 810", "Happy 1050", "1050 Turbo"]

/-- The twelve rows, in the order of those names. DESIGN CHOICE: which mode has which column, and what `capable` and
`buffering` set, is the model's; the spec gives no profile (log 1). -/
def columns : List Column :=
  [capable t810, capable t810, capable t810, t810, t1050,
   { capable t1050 with family := .xf551 }, capable t1050, buffering (capable t1050),
   { capable t1050 with family := .indusGT }, { buffering (capable t810) with family := .happy },
   { buffering (capable t1050) with family := .happy }, capable t1050]

/-- The index of Indus GT in that order. -/
def indusGTMode : Nat := 8

/-- The overrides of the two derived profiles. DESIGN CHOICE: the spec gives none; the speeds are those of `t810` and every
capability is set (log 1). -/
def speedSet : SpeedSet :=
  { highSpeedIndex := 6
    cyclesPerSIOByte := 940
    cyclesPerSIOBit := 94
    cyclesPerSIOByteHighSpeed := 265
    cyclesPerSIOBitHighSpeed := 26
    cyclesPerSIOBitHighSpeedF := ⟨53, 2⟩
    supportsHighSpeedCmdFrame := true
    supportsHighSpeedCmdBit := true
    supportsFormatSkewed := true
    supportsFormatBootTrack := true
    supportsGetHighSpeedIndex := true
    cyclesCEToDataFrameHighSpeed := 200
    cyclesCEToDataFrameHighSpeedPBDiv256 := 128 }

/-- The suggested default PERCOM block of 10_state.md R52. -/
def percom : Percom := ⟨0x28, 0x01, 0x00, 0x12, 0x00, 0x00, 0x00, 0x80, 0xFF, 0x00, 0x00, 0x00⟩

/-- The parameter record of the reset state. DESIGN CHOICE: `indusExecLen`, `driveRamSize`, `vendorHsCpb`, `vendorHsCpByte`
and the `SpeedSet`s have neither a printed suggestion nor a value in the vectors; 256, 4096 and the high-speed rate of
`t810` are the model's own (log 1). -/
def params : Params :=
  { numModes := 12
    modeNames := modeNames
    columns := columns
    indusGTMode := indusGTMode
    indusSync := speedSet
    indusSuperSync := speedSet
    opcodes := Opcodes.spec
    indusExecLen := 256
    clockHz := ⟨3579545, 2⟩
    deviceBase := 0x31
    numUnits := 15
    bootRangeMax := 3
    bootSectorCount := 3
    endOfTravelTrack := 39
    maxTracks := 80
    driveRamSize := 4096
    weakLfsrSeed := 1
    vendorHsCpb := 26
    vendorHsCpByte := 265
    defaultPercom := List.replicate 12 percom
    xf551Geometry0 := ⟨40, 18, 1, false, 128⟩
    xf551Geometry1 := ⟨40, 26, 1, true, 128⟩
    xf551Geometry2 := ⟨40, 18, 2, true, 256⟩
    fdcRnf := 0xEF
    fdcCrc := 0xF7
    fdcAddrCrc := 0xE7
    rawTrackBytesFM := 3125
    rawTrackBytesMFM := 6250
    seed := 0
    tables := { Tables.empty with initialRotationOffset := [((0, 0), 10000)] } }

end Sys2Proof.Defaults
end

