-- ==== Sys2Proof/Machine/Memory.lean ====
section
/-! DEFINITION. The byte-addressed spaces of 20_memory.md R80 as canonical lists of cells, and what an unlisted
address reads as. -/

namespace Sys2Proof.Machine

/-- What an address that no cell lists reads as. -/
inductive Blank where
  /-- Zero: the buffers and the drive RAM after `Init` (70_reset_and_hazards.md R500), and image data. -/
  | zero
  /-- Physical sector `p` as the format that drew free value `n` left it: free bytes (log 9). -/
  | formatted (n p : Nat)
  /-- A sector whose bytes the Disk Interface chose when free value `n` was drawn (20_memory.md R98, log 10). -/
  | free (n : Nat)
  /-- Physical sector `p`, which the image does not list, when `n` free values were drawn (log 25). -/
  | unlisted (n p : Nat)
deriving DecidableEq, Repr, Inhabited

/-- The byte an unlisted address reads as. -/
def Blank.byte : Blank → Nat → Byte
  | .zero, _ => 0
  | .formatted n p, a => Config.formattedByte n p a
  | .free n, a => Config.freeImageByte n a
  | .unlisted n p, a => Config.unlistedByte n p a

/-- The value a cell need not list: an unlisted address is known to read as it. A free byte is known to be nothing. -/
def Blank.holds (b : Blank) (v : Byte) : Bool := decide (b = .zero) && decide (v = 0)

/-- A byte-addressed memory. -/
structure Memory where
  blank : Blank
  cells : List Host.Cell
deriving DecidableEq, Repr, Inhabited

/-- The memory that reads as zero everywhere. -/
def Memory.zero : Memory := ⟨.zero, []⟩

/-- The value listed for an address. -/
def Memory.find (a : Nat) : List Host.Cell → Option Byte
  | [] => none
  | (k, v) :: rest => if k = a then some v else Memory.find a rest

/-- The byte at an address. -/
def Memory.read (m : Memory) (a : Nat) : Byte := (Memory.find a m.cells).getD (m.blank.byte a)

/-- `n` bytes from address `a`, in increasing offset order (20_memory.md R82). -/
def Memory.readBytes (m : Memory) (a n : Nat) : List Byte := (List.range' a n).map m.read

/-- The cells a byte string stored from address `a` up needs. -/
def Memory.cellsOf (b : Blank) : Nat → List Byte → List Host.Cell
  | _, [] => []
  | a, v :: rest => if b.holds v then Memory.cellsOf b (a + 1) rest else (a, v) :: Memory.cellsOf b (a + 1) rest

/-- Store a byte string from address `a` up. -/
def Memory.writeBytes (m : Memory) (a : Nat) (bytes : List Byte) : Memory :=
  { m with cells :=
      m.cells.filter (fun c => decide (c.1 < a)) ++ Memory.cellsOf m.blank a bytes
        ++ m.cells.filter (fun c => decide (a + bytes.length ≤ c.1)) }

/-- Store one byte. -/
def Memory.writeByte (m : Memory) (a : Nat) (v : Byte) : Memory := m.writeBytes a [v]

/-- The canonical form: addresses strictly rising, and no cell listing what an unlisted address is known to read. -/
def Memory.wf (m : Memory) : Bool :=
  decide ((m.cells.map Prod.fst).Pairwise (· < ·)) && m.cells.all (fun c => !(m.blank.holds c.2))

/-- The same bytes in canonical form: the cells are stored one by one, so that the first cell of an address wins, as
it does for `read`. Used on data that comes from outside the unit (a saved state, a mounted image). -/
def Memory.normalise (m : Memory) : Memory :=
  m.cells.foldr (fun c acc => acc.writeByte c.1 c.2) ⟨m.blank, []⟩

end Sys2Proof.Machine
end

