-- ==== Sys2Proof/Machine/Profile.lean ====
section
/-! DEFINITION. The drive-profile table (40_profile_table.md): `Finalize`, `GetProfile`, the two derived Indus GT
profiles, and the well-formedness a run requires. -/

namespace Sys2Proof

/-- `CpbOfDivisor(d) = 2 * (d + 7)` (40_profile_table.md R149). PRESUMED: the spec marks it as general knowledge
(log 33). -/
def cpbOfDivisor (d : Int) : Int := 2 * (d + 7)

/-- `ceil(0.95 * f)` (40_profile_table.md R149; `HS_WINDOW` is 5 percent). -/
def hsWindowMin (f : Frac) : Nat := (95 * f.num + (100 * f.den - 1)) / (100 * f.den)

/-- `floor(1.05 * f)` (40_profile_table.md R149). -/
def hsWindowMax (f : Frac) : Nat := 105 * f.num / (100 * f.den)

/-- The least divisor whose bit time is at least `cpb` (40_profile_table.md R149). -/
def leastDivisor (cpb : Nat) : Int := ((cpb + 1) / 2 : Nat) - 7

/-- The greatest divisor whose bit time is at most `cpb` (40_profile_table.md R149). -/
def greatestDivisor (cpb : Nat) : Int := (cpb / 2 : Nat) - 7

/-- `Finalize`: the derived fields of a column (40_profile_table.md R148, R149). -/
def Column.finalize (c : Column) : Profile :=
  { toColumn := c
    cyclesToFDCCommand := c.cyclesToACKSent + Config.fdcCmdExtra
    hsFrameCpbMin := hsWindowMin c.cyclesPerSIOBitHighSpeedF
    hsFrameCpbMax := hsWindowMax c.cyclesPerSIOBitHighSpeedF
    hsCmdFrameRateLo := leastDivisor (hsWindowMin c.cyclesPerSIOBitHighSpeedF)
    hsCmdFrameRateHi := greatestDivisor (hsWindowMax c.cyclesPerSIOBitHighSpeedF) }

/-- A column with the speed and format constants of a derived profile (40_profile_table.md R151). -/
def Column.override (c : Column) (o : SpeedSet) : Column :=
  { c with
    highSpeedIndex := o.highSpeedIndex
    cyclesPerSIOByte := o.cyclesPerSIOByte
    cyclesPerSIOBit := o.cyclesPerSIOBit
    cyclesPerSIOByteHighSpeed := o.cyclesPerSIOByteHighSpeed
    cyclesPerSIOBitHighSpeed := o.cyclesPerSIOBitHighSpeed
    cyclesPerSIOBitHighSpeedF := o.cyclesPerSIOBitHighSpeedF
    supportsHighSpeedCmdFrame := o.supportsHighSpeedCmdFrame
    supportsHighSpeedCmdBit := o.supportsHighSpeedCmdBit
    supportsFormatSkewed := o.supportsFormatSkewed
    supportsFormatBootTrack := o.supportsFormatBootTrack
    supportsGetHighSpeedIndex := o.supportsGetHighSpeedIndex
    cyclesCEToDataFrameHighSpeed := o.cyclesCEToDataFrameHighSpeed
    cyclesCEToDataFrameHighSpeedPBDiv256 := o.cyclesCEToDataFrameHighSpeedPBDiv256 }

/-- The row of the table at an index. A unit's mode is in range, since the step refuses any other (40_profile_table.md R140,
60_exceptions.md R468). DESIGN CHOICE: `indusGTMode` is not tested, and out of range its row is Lean's default column, which
`Profile.wf` refuses (log 31). -/
def Params.column (p : Params) (mode : Nat) : Column := p.columns.getD mode default

/-- `GetProfile(mode)` (40_profile_table.md R140). -/
def Params.getProfile (p : Params) (mode : Nat) : Profile := (p.column mode).finalize

/-- `GetIndusGTSynchromeshProfile()` (40_profile_table.md R151). DESIGN CHOICE: the column is that of `indusGTMode`, and no
test requires its family to be `IndusGT`, so that a unit with a derived variant runs on that column's family (R147)
whatever `st.mode` is (log 31). -/
def Params.indusSyncProfile (p : Params) : Profile := ((p.column p.indusGTMode).override p.indusSync).finalize

/-- `GetIndusGTSuperSynchromeshProfile()` (40_profile_table.md R151). DESIGN CHOICE: as for `indusSyncProfile` (log 31). -/
def Params.indusSuperSyncProfile (p : Params) : Profile :=
  ((p.column p.indusGTMode).override p.indusSuperSync).finalize

/-- The profile a unit runs: "`GetProfile(st.mode)` when `st.indusVariant = Base`, else the matching derived Indus GT
profile" (10_state.md R22). DESIGN CHOICE: a derived variant, which a loaded record can bring in any mode (49_facade.md
R449), takes the column of `indusGTMode` and its family, not those of the mode (log 31). -/
def Params.profile (p : Params) (mode : Nat) : IndusVariant → Profile
  | .base => p.getProfile mode
  | .synchromesh => p.indusSyncProfile
  | .superSynchromesh => p.indusSuperSyncProfile

/-- `MAX_IDLE_TIMER`: `600 * CLOCK_HZ` rounded down (00_scope.md R8). -/
def Params.maxIdleTimer (p : Params) : Nat := 600 * p.clockHz.num / p.clockHz.den

/-- A mode that indexes the table: below `NUM_MODES`, and the table has the row (40_profile_table.md R140). -/
def Params.hasMode (p : Params) (mode : Nat) : Bool :=
  decide (mode < p.numModes) && decide (mode < p.columns.length)

/-- `cycles = floor(us * CLOCK_HZ / 1000000 + 1/2)`, the conversion of a microsecond figure (40_profile_table.md
R150). -/
def Params.cyclesOfMicroseconds (p : Params) (us : Frac) : Nat :=
  (2 * us.num * p.clockHz.num + 1000000 * us.den * p.clockHz.den) / (2 * 1000000 * us.den * p.clockHz.den)

/-- The assertion of 40_profile_table.md R149. -/
def Profile.windowBracketsIndex (q : Profile) : Bool :=
  decide (q.hsCmdFrameRateLo ≤ (q.highSpeedIndex.toNat : Int)) &&
    decide ((q.highSpeedIndex.toNat : Int) ≤ q.hsCmdFrameRateHi)

/-- The well-formedness of 40_profile_table.md R153, with the denominator of the one rational field positive (R155), and
"All positive" of the speed parameters (R143). -/
def Profile.wf (maxIdle : Nat) (q : Profile) : Bool :=
  decide (0 < q.cyclesPerDiskRotation) &&
  decide (0 < q.cyclesPerSIOBit) &&
  decide (0 < q.cyclesPerSIOBitHighSpeed) &&
  decide (q.cyclesPerSIOBit ≤ q.cyclesPerSIOByte) &&
  decide (0 < q.cyclesPerSIOBitHighSpeedF.den) &&
  decide (q.cyclesToFDCCommand = q.cyclesToACKSent + Config.fdcCmdExtra) &&
  (!q.supportsHighSpeedCmdFrame || q.windowBracketsIndex) &&
  decide (0 < q.cyclesToMotorOff) &&
  decide (q.cyclesToMotorOff < maxIdle) &&
  decide (0 < q.cyclesPerSIOByteHighSpeed) &&
  decide (0 < q.cyclesPerSIOBitHighSpeedF.num) &&
  decide (0 < q.highSpeedIndex.toNat) &&
  decide (0 < q.hsCmdFrameRateLo) &&
  decide (0 < q.hsCmdFrameRateHi)

/-- Total sectors of a working layout: "`g.trackCount * g.sectorsPerTrack * g.sideCount`", without wrap
(47_cmd_status_percom_misc.md R364). -/
def Layout.totalSectors (g : Layout) : Nat := g.trackCount * g.sectorsPerTrack * g.sideCount

end Sys2Proof
end

