-- ==== Sys2Proof/Machine/State.lean ====
section
/-! DEFINITION. The state of one drive unit and of the collaborators its step consults, as plain data (10_state.md), the
actions and events of 00_scope.md R11 and R12, the ways a run stops, and the state after reset (10_state.md R70). -/

namespace Sys2Proof.Machine

/-! ### How a run stops -/

/-- The faults. -/
inductive Fault where
  /-- An access past the end of a space: "an access past the end of a space is a programming error" (20_memory.md
  R83). Raised by the operations that move bytes in or out of SEND, RECV and RAM. Safe: the run stops there. -/
  | pastEndOfSpace
deriving DecidableEq, Repr

/-- What broke a precondition the spec states (60_exceptions.md R468). -/
inductive BrokenInvariant where
  /-- `GetProfile(mode)` with a mode that indexes no row (40_profile_table.md R140). -/
  | modeOutOfRange
  /-- A handler entered at a state its table does not list (42_dispatch.md R213, R220). -/
  | unlistedState
  /-- A fence whose id is not the state the active command waits for: "the transport delivering a fence id the unit never
  asked for". -/
  | fenceNotAwaited
  /-- `st.currentTrack` at `Config.trackLimit` or above (10_state.md R27; log 34). -/
  | trackOutOfRange
  /-- `Init` with a unit index that is not below `NUM_UNITS` (10_state.md R21). -/
  | unitOutOfRange
deriving DecidableEq, Repr

/-- The refusals. -/
inductive Refusal where
  /-- An instruction with no meaning yet. Raised by `exec` for an arm that is still refused. Safe. -/
  | notModelled (mnemonic : String)
  /-- X11: a frame for this unit while a command is active; "a model treats [it] as a run outside the contract and
  stops" (60_exceptions.md R469). Raised by the reception of a frame. Safe. -/
  | overlappingCommand
  /-- X12: "fatal/assert, not recoverable at runtime"; "the model's run stops there" (60_exceptions.md R468). Raised
  where the broken precondition is tested. Safe. -/
  | programmingError (what : BrokenInvariant)
  /-- "A profile that violates one is refused, not run" (40_profile_table.md R153). Raised when an event is admitted
  and when a profile is selected. Safe. -/
  | profileNotWellFormed
  /-- A parameter assignment that breaks what the spec requires of one (00_scope.md R8, 20_memory.md R96,
  41_rotation_seek.md R182, 47_cmd_status_percom_misc.md R368, R369; log 41).
  Raised when an event is admitted and when a profile is selected. Safe. -/
  | parametersNotWellFormed
  /-- `now` at 2^63 or above (93_implementation_defined.md I26). Raised when an event is admitted. Safe. -/
  | clockOutOfRange
  /-- The bound of the dispatcher's loop, which no run reaches (42_dispatch.md R218). Raised by `processCommand`.
  Safe. -/
  | dispatcherBound
deriving DecidableEq, Repr

/-- Why an internal operation stops the run. -/
inductive Stop where
  | fault (f : Fault)
  | refused (r : Refusal)
deriving DecidableEq, Repr

/-- What an internal operation answers. -/
abbrev Result (α : Type) := Except Stop α

/-- Stop on a broken precondition. -/
def programmingError {α : Type} (what : BrokenInvariant) : Result α := .error (.refused (.programmingError what))

/-- The host's three outcomes of a result. -/
def Result.toOutcome {σ : Type} : Result σ → Host.Outcome σ Fault Refusal
  | .ok s => .next s
  | .error (.fault f) => .fault f
  | .error (.refused r) => .refused r

/-! ### The disk space -/

/-- The per-copy information and the data of one physical sector (20_memory.md R81, R91). -/
structure PhysSector where
  rotPos : Frac
  fdcStatus : Byte
  weakOffset : Option Nat
  physSize : Nat
  mfm : Bool
  data : Memory
  /-- `D.ReadPhysicalSector` throws on this sector. -/
  readError : Bool
  /-- `D.WritePhysicalSector` throws on this sector. -/
  writeError : Bool
deriving DecidableEq, Repr, Inhabited

/-- `D.VirtSectorInfo(v)`: the copies of a logical sector (20_memory.md R81). -/
structure VirtSector where
  start : Nat
  count : Nat
deriving DecidableEq, Repr, Inhabited

/-- A mounted image: logical sector `v` is entry `v - 1` of `virt`, physical sector `p` entry `p` of `phys`. -/
structure Image where
  geometry : Geometry
  virt : List VirtSector
  phys : List PhysSector
deriving DecidableEq, Repr, Inhabited

/-- The Disk Interface: "an oracle of the step" (00_scope.md R11), its answers as plain data (log 8). -/
structure Disk where
  /-- `D.Image()`. -/
  image : Option Image
  /-- `D.WriteEnabled()`. -/
  writeEnabled : Bool
  /-- `D.FormatEnabled()`. -/
  formatEnabled : Bool
  /-- `D.AccurateTiming()`. -/
  accurateTiming : Bool
  /-- `D.DriveSoundsEnabled()`. -/
  driveSoundsEnabled : Bool
  /-- `D.FormatDisk` throws. -/
  formatError : Bool
deriving DecidableEq, Repr, Inhabited

/-! ### The unit's registers -/

/-- RotationalState (10_state.md R23 to R26). -/
structure Rotation where
  rotationalCounter : Nat
  rotationCount : Word32
  lastUpdateCycle : Cycle
deriving DecidableEq, Repr, Inhabited

/-- The cached collaborator flags and the runtime toggle (10_state.md R31). -/
structure Flags where
  diskPresent : Bool
  writeEnabled : Bool
  formatEnabled : Bool
  accurateSectorTiming : Bool
  driveSoundsEnabled : Bool
  trackBufferingDisabled : Bool
deriving DecidableEq, Repr, Inhabited

/-- The logical commands (10_state.md R71). -/
inductive LogicalCommand where
  | none
  | status
  | read
  | write
  | format
  | readPercom
  | writePercom
  | getHighSpeedIndex
  | happyQuiet
  | happyRamTest
  | happyHeadPosTest
  | happyRpmTest
  | indusExecute
  | unsupported
deriving DecidableEq, Repr, Inhabited

/-- ActiveCommand (10_state.md R32 to R39). -/
structure ActiveCommand where
  /-- `cmd.commandCode`. -/
  code : LogicalCommand
  highSpeedFlag : Bool
  highSpeedFrame : Bool
  sector : Word16
  /-- The program counter of this hardware (R35). -/
  state : Word32
  waiting : Bool
  startRotationalPosition : Cycle
  /-- "`now` at acceptance" (R37). A load can put it before Cycle 0 (log 21). -/
  startTime : Int
  rawCommand : Byte
  isRead : Bool
  verify : Bool
  len : Nat
  targetTrack : Nat
  buffering : Bool
  bufferHit : Bool
  physSector : Option Nat
  physPos : Cycle
  physWeakOffset : Option Nat
  physSize : Nat
  rxChecksumOK : Bool
  rxLen : Nat
  formatTrack : Nat
  ramAddr : Option Nat
deriving DecidableEq, Repr, Inhabited

/-- "Fresh ActiveCommand with every flag false, every option none" (42_dispatch.md R201); its numbers, which R201 does
not name, are 0 (DESIGN CHOICE, log 11). -/
def ActiveCommand.fresh : ActiveCommand :=
  { code := .none, highSpeedFlag := false, highSpeedFrame := false, sector := 0, state := 0, waiting := false,
    startRotationalPosition := 0, startTime := 0, rawCommand := 0, isRead := false, verify := false, len := 0,
    targetTrack := 0, buffering := false, bufferHit := false, physSector := .none, physPos := 0,
    physWeakOffset := .none, physSize := 0, rxChecksumOK := false, rxLen := 0, formatTrack := 0, ramAddr := .none }

/-! ### The transport -/

/-- What the transport recorded of the current command frame, and its clock accessors (20_memory.md R89,
30_encoding.md R110). -/
structure Bus where
  cyclesPerBit : Nat
  standardRate : Bool
  /-- `T.CommandFrameEndTime()`. -/
  frameEnd : Cycle
  /-- `T.CommandDeassertTime()`. -/
  deassert : Cycle
  /-- `T.AccelTimeSkew()`: read by no rule (20_memory.md R89). -/
  accelTimeSkew : Cycle
deriving DecidableEq, Repr, Inhabited

/-- One queued operation of the reference transport (20_memory.md R88), its duration fixed when it was queued. -/
inductive QOp where
  /-- Spend time on the wire: a delay, a control byte or a data frame. -/
  | wait (cycles : Nat)
  /-- `T.BeginCommand()`: the cursor is at `now`, or where the operations before it left it. -/
  | sync (time : Cycle)
  /-- `T.InsertFence(id)`. -/
  | fence (id : Word32)
  /-- `T.ReceiveData`: completes when the host has sent the bytes. -/
  | receive (id : Word32) (len : Nat)
  /-- The end-of-command fence of `T.EndCommand()` (log 5). -/
  | endFence
deriving DecidableEq, Repr, Inhabited

/-- The reference transport: its cursor `tq`, the byte time in force, its queue (20_memory.md R88). -/
structure Wire where
  cursor : Cycle
  cyclesPerByte : Nat
  queue : List QOp
deriving DecidableEq, Repr, Inhabited

/-- The transport's own nested blob of a saved state (10_state.md R67): what is left of its queue, the time from the
save to its cursor, the byte time and the offset of the pending receive. -/
structure WireBlob where
  lead : Cycle
  cyclesPerByte : Nat
  queue : List QOp
  rxOffset : Nat
deriving DecidableEq, Repr, Inhabited

/-! ### Actions -/

/-- The calls on collaborators, in the closed list of 20_memory.md R86 to R92. -/
inductive Action where
  | beginCommand
  | endCommand
  | flushQueue
  | setTransferRate (cyclesPerBit cyclesPerByte : Nat)
  | delay (cycles : Nat)
  | sendACK
  | sendNAK
  | sendComplete
  | sendError
  /-- `T.SendData(SEND, length, computeChecksum)`, with the bytes SEND held at the call. -/
  | sendData (bytes : List Byte) (computeChecksum : Bool)
  | receiveData (offset length : Nat) (expectChecksum : Bool)
  | insertFence (id : Word32)
  | schedule (delay : Cycle)
  | unschedule
  | setActivity (on : Bool)
  | setMotorIndicator (on : Bool)
  | checkSectorBreakpoint (v : Word16)
  | readPhysicalSector (p n : Nat)
  | writePhysicalSector (p : Nat) (bytes : List Byte)
  | formatDisk (g : Layout)
  | motorSound (on : Bool)
  | seekSound (at_ : Cycle)
deriving DecidableEq, Repr

/-! ### Saved state -/

/-- The record of `SaveState` (49_facade.md R446). -/
structure SavedState where
  idleTimerRemaining : Cycle
  activeCommand : Nat
  activeCommandState : Word32
  activeCommandSector : Word16
  activeCommandElapsed : Cycle
  buffering : Bool
  bufferHit : Bool
  trackBufferingDisabled : Bool
  rotationFraction : Frac
  currentTrack : Nat
  bufferedTrack : Option Nat
  lastReadSector : Word16
  transportBlob : WireBlob
  highSpeedFlag : Bool
  highSpeedFrame : Bool
  rawCommand : Byte
  isRead : Bool
  verify : Bool
  len : Nat
  targetTrack : Nat
  physSector : Option Nat
  physPos : Cycle
  physWeakOffset : Option Nat
  physSize : Nat
  rxChecksumOK : Bool
  rxLen : Nat
  formatTrack : Nat
  ramAddr : Option Nat
  fdcStatus : Byte
  lastOpError : Bool
  percom : Percom
  indusVariant : IndusVariant
  weakBitLFSR : Word32
  phantomCounter : List Nat
  forcedOrder : List Byte
  geom : Geometry
  sendBuf : Memory
  recvBuf : Memory
  driveRAM : Memory
deriving DecidableEq, Repr, Inhabited

/-! ### Events -/

/-- The command frame of 30_encoding.md R110. -/
structure Frame where
  device : Byte
  command : Byte
  aux1 : Byte
  aux2 : Byte
  cyclesPerBit : Nat
  standardRate : Bool
deriving DecidableEq, Repr, Inhabited

/-- The events of 00_scope.md R12, and one of the model's own. -/
inductive Event where
  /-- `SerialBeginCommand(frame)`, with what the transport's clock accessors answer for this frame. -/
  | serialBeginCommand (frame : Frame) (frameEnd deassert accelTimeSkew : Cycle)
  | serialAbortCommand
  | serialReceiveComplete (id : Word32) (data : List Byte) (checksumOK : Bool)
  | serialFence (id : Word32)
  | serialAccelCommand (request : Frame)
  | motorOffTimer
  /-- The Disk Interface's answers change and it signals `DiskChanged`. -/
  | diskChanged (disk : Disk)
  | writeModeChanged (writeEnabled formatEnabled : Bool)
  | timingModeChanged (accurateTiming : Bool)
  | audioModeChanged (driveSoundsEnabled : Bool)
  | isImageSupported (image : Image)
  /-- `Init(unit, …)` with the front end's configured mode, if any. -/
  | init (unit : Byte) (configuredMode : Option Nat)
  | reset
  | setEnabled (b : Bool)
  | setEmulationMode (mode : Nat)
  | saveState
  | loadState (blob : SavedState)
  | setForcedPhantomOrder (p : Nat) (k : Byte)
  | setTrackBufferingDisabled (b : Bool)
  /-- The model's own: the oracle's answers change with no notification, for instance a sector starts to throw storage
  errors (log 8). -/
  | diskAnswers (disk : Disk)
deriving DecidableEq, Repr

/-- An event and the Cycle it carries (00_scope.md R12). -/
structure TimedEvent where
  time : Cycle
  event : Event
deriving DecidableEq, Repr

/-- What the last event returned to its caller (20_memory.md R90, 49_facade.md R433, R446, R449). -/
inductive Reply where
  | none
  | notHandled
  | start
  | notAccelerated
  | imageSupported (b : Bool)
  | saved (blob : SavedState)
  | loaded
  | invalidSavedState
deriving DecidableEq, Repr, Inhabited

/-! ### The state -/

/-- The state of one unit (10_state.md R20), the collaborators its step consults, and the model's own fields
(INVENTORY.md, "## State"). DESIGN CHOICE: 10_state.md R21 gives the unit index no width; it has 8 bits here (log 43). -/
structure State where
  -- identity and configuration (R21, R22)
  unit : Byte
  enabled : Bool
  mode : Nat
  indusVariant : IndusVariant
  -- rotation and mechanics (R23 to R30)
  rot : Rotation
  currentTrack : Nat
  geom : Geometry
  motorOffDeadline : Option Cycle
  /-- The spec's -1 is `none` (log 18). -/
  bufferedTrack : Option Nat
  lastReadSector : Word16
  -- cached flags (R31), active command (R32 to R39), status (R40, R42), PERCOM block (R50)
  flags : Flags
  cmd : ActiveCommand
  fdcStatus : Byte
  lastOpError : Bool
  percom : Percom
  -- register files (R55 to R57)
  /-- `phantomCounter[v]` is entry `v - 1`. -/
  phantomCounter : List Nat
  /-- `forcedOrder[p]` is entry `p`. -/
  forcedOrder : List Byte
  weakBitLFSR : Word32
  -- memories and transfer rate (R60 to R63)
  sendBuf : Memory
  recvBuf : Memory
  driveRAM : Memory
  xferCyclesPerBit : Nat
  xferCyclesPerByte : Nat
  -- parameters and collaborators (R20)
  params : Params
  now : Cycle
  bus : Bus
  disk : Disk
  wire : Wire
  rxOffset : Nat
  -- the model's own
  /-- The reference transport and the scheduler deliver their events by themselves (log 4). -/
  selfTimed : Bool
  inbox : List TimedEvent
  out : List Action
  reply : Reply
  freeCtr : Nat
deriving DecidableEq, Repr

/-- `st.profile` (10_state.md R22): derived, not stored. -/
def State.prof (s : State) : Profile := s.params.profile s.mode s.indusVariant

/-- `st.motorRunning` (10_state.md R29): derived from the pending motor-off event. -/
def State.motorRunning (s : State) : Bool := s.motorOffDeadline.isSome

/-- The profile as a key of the tables of the OPEN functions. -/
def State.profileKey (s : State) : ProfileKey := ⟨s.mode, s.indusVariant⟩

/-- "A command is 'active' iff `ActiveCommand.commandCode != 0`" (10_state.md R32). -/
def State.active (s : State) : Bool := s.cmd.code != .none

/-- The machine right after power-on (10_state.md R70: `Init`, which ends in `Reset`), with no image mounted, for unit
0 in mode 0 at Cycle 0, under the parameters of `Defaults.params` (log 1, 11, 12, 13). -/
def State.reset : State :=
  { unit := 0
    enabled := false
    mode := 0
    indusVariant := .base
    rot := { rotationalCounter := 10000, rotationCount := 0, lastUpdateCycle := 0 }
    currentTrack := 39
    geom := { trackCount := 40, sectorsPerTrack := 18, sideCount := 1, mfm := false, bytesPerSector := 128,
              totalSectors := 0, bootSectorCount := 3, highDensity := false }
    motorOffDeadline := none
    bufferedTrack := none
    lastReadSector := 0
    flags := { diskPresent := false, writeEnabled := false, formatEnabled := false, accurateSectorTiming := true,
               driveSoundsEnabled := false, trackBufferingDisabled := false }
    cmd := ActiveCommand.fresh
    fdcStatus := 0xFF
    lastOpError := false
    percom := Defaults.percom
    phantomCounter := []
    forcedOrder := []
    weakBitLFSR := 1
    sendBuf := Memory.zero
    recvBuf := Memory.zero
    driveRAM := Memory.zero
    xferCyclesPerBit := 94
    xferCyclesPerByte := 940
    params := Defaults.params
    now := 0
    bus := { cyclesPerBit := 0, standardRate := true, frameEnd := 0, deassert := 0, accelTimeSkew := 0 }
    disk := { image := none, writeEnabled := false, formatEnabled := false, accurateTiming := true,
              driveSoundsEnabled := false, formatError := false }
    wire := { cursor := 0, cyclesPerByte := 940, queue := [] }
    rxOffset := 0
    selfTimed := true
    inbox := []
    out := []
    reply := .none
    freeCtr := 0 }

end Sys2Proof.Machine
end

