-- ==== Sys2Proof/Machine/Flags.lean ====
section
/-! DEFINITION. The status registers and what is computed from them: the FDC status byte (10_state.md R40, R41), the
classes of copies (43_rw_common.md R260), the long-sector quirk (R251), the two status bytes
(47_cmd_status_percom_misc.md R352, R353), and the weak-bit register (43_rw_common.md R261, R262). -/

namespace Sys2Proof.Machine

/-! ### The FDC status byte -/

/-- `AddrInvalid(p)`: record-not-found together with CRC error, active low (43_rw_common.md R260). -/
def addrInvalid (fdcStatus : Byte) : Bool := !fdcStatus.getLsbD 4 && !fdcStatus.getLsbD 3

/-- `DataMissing(p)`: record-not-found alone, active low (43_rw_common.md R260). -/
def dataMissing (fdcStatus : Byte) : Bool := !fdcStatus.getLsbD 4 && fdcStatus.getLsbD 3

/-- `IsLong(p)` (43_rw_common.md R260). -/
def isLong (physSize bytesPerSector : Nat) : Bool := decide (bytesPerSector < physSize)

/-- `LongSectorQuirk(prof, status, isLong)`: identity unless the parameter table says otherwise, and always for a
sector that is not long (43_rw_common.md R251). -/
def longSectorQuirk (s : State) (status : Byte) (long : Bool) : Byte :=
  if long then (s.params.tables.longSectorQuirk.lookup (s.prof.retryMode1050, status)).getD status else status

/-- Set `st.fdcStatus`. -/
def setFdcStatus (b : Byte) (s : State) : State := { s with fdcStatus := b }

/-- The rule of `st.lastOpError`: written by every command's response but the status command's (10_state.md R42,
48_transfer.md R400, R405). -/
def noteResult (success : Bool) (s : State) : State :=
  if s.cmd.code = .status then s else { s with lastOpError := !success }

/-! ### The status reply -/

/-- A flag as a bit of a byte. -/
def bitIf (c : Bool) (mask : Byte) : Byte := if c then mask else 0

/-- `StatusByte0()` (47_cmd_status_percom_misc.md R352). PRESUMED: the layout is general knowledge (log 23). -/
def statusByte0 (s : State) : Byte :=
  bitIf s.lastOpError 0x04 ||| bitIf (s.flags.diskPresent && !s.flags.writeEnabled) 0x08 |||
    bitIf s.motorRunning 0x10 ||| bitIf (decide (s.geom.bytesPerSector = 256)) 0x20 |||
    bitIf (s.geom.mfm && decide (s.geom.bytesPerSector = 128)) 0x80

/-- `StatusByte1()`: the FDC status with not-ready masking (47_cmd_status_percom_misc.md R353). -/
def statusByte1 (s : State) : Byte :=
  if s.prof.supportsNotReady = false then s.fdcStatus ||| Config.fdcNotReadyBit
  else if s.flags.diskPresent = false then s.fdcStatus &&& ~~~Config.fdcNotReadyBit
  else s.fdcStatus

/-! ### The weak-bit register -/

/-- One shift of the default LFSR: feedback from bits 31 and 3 (43_rw_common.md R262). -/
def lfsrShift (r : Word32) : Word32 :=
  (r <<< 1) + (BitVec.ofBool (r.getLsbD 31 ^^ r.getLsbD 3)).setWidth 32

/-- `n` shifts. -/
def lfsrShifts : Nat → Word32 → Word32
  | 0, r => r
  | n + 1, r => lfsrShifts n (lfsrShift r)

/-- `WeakLfsrStep(s) -> (b, s')`: the default, or the parameter table's entry (43_rw_common.md R262). -/
def weakLfsrStep (p : Params) (r : Word32) : Byte × Word32 :=
  (p.tables.weakLfsrStep.lookup r).getD (r.extractLsb' 0 8, lfsrShifts 8 r)

/-- The bytes of the reply with the register's outputs XORed in, and the register afterwards
(43_rw_common.md R261). -/
def weaken (p : Params) : Word32 → List Byte → List Byte × Word32
  | r, [] => ([], r)
  | r, v :: rest =>
    let o := weakLfsrStep p r
    let t := weaken p o.2 rest
    ((v ^^^ o.1) :: t.1, t.2)

/-- `ApplyWeakBits(off, n)` on SEND (43_rw_common.md R261): offsets `off` to `n - 1`. -/
def applyWeakBits (off n : Nat) (s : State) : State :=
  let t := weaken s.params s.weakBitLFSR (s.sendBuf.readBytes off (n - off))
  { s with sendBuf := s.sendBuf.writeBytes off t.1, weakBitLFSR := t.2 }

end Sys2Proof.Machine
end

