-- ==== Sys2Proof/Machine/Operands.lean ====
section
/-! DEFINITION. The operands of a command frame: the sector number, the device match, the checks of the frame's rate,
of bit 7 and of the row's gate (30_encoding.md R113 to R119), and the functions of the sector number: the transfer
length, the cylinder and the vendor RAM windows. -/

namespace Sys2Proof.Machine

/-- `cmd.sector = zext_16(frame.aux1) + 256 * zext_16(frame.aux2)` (30_encoding.md R114). -/
def sectorOperand (f : Operands) : Word16 := f.aux1.setWidth 16 + 256 * f.aux2.setWidth 16

/-- Device match: "`frame.device = DEVICE_BASE + st.unit`" over naturals, so that a unit whose number takes the sum beyond a
byte claims no frame (30_encoding.md R113). -/
def State.claims (s : State) (f : Operands) : Bool :=
  decide (f.device.toNat = s.params.deviceBase.toNat + s.unit.toNat)

/-! ### Decode, steps 1, 2, 4 and 5 -/

/-- A row of the command table, as `Decode` uses it (30_encoding.md R117, R118): its opcode if set, its gate, its
logical command and the two flags. -/
structure Row where
  opcode : Option (BitVec 7)
  gate : Profile → Bool
  logical : LogicalCommand
  isRead : Bool
  verify : Bool

/-- What `Decode` returns, and the two flags it sets. -/
structure Decoded where
  logical : LogicalCommand
  isRead : Bool
  verify : Bool
  highSpeedFlag : Bool
  highSpeedFrame : Bool
deriving DecidableEq, Repr

/-- The command-frame rate (30_encoding.md R116): `some` of `cmd.highSpeedFrame`, or `none` for the wrong speed. -/
def frameSpeed (q : Profile) (bus : Bus) : Option Bool :=
  if bus.standardRate then some false
  else if q.supportsHighSpeedCmdFrame && decide (q.hsFrameCpbMin ≤ bus.cyclesPerBit) &&
      decide (bus.cyclesPerBit ≤ q.hsFrameCpbMax) then some true
  else none

/-- `Unsupported`, with the speed flags set so far (30_encoding.md R120). -/
def unsupportedAt (flag frame : Bool) : Decoded := ⟨.unsupported, false, false, flag, frame⟩

/-- `Decode(frame)` once the row is known, or that there is none (30_encoding.md R117): rate, bit 7, row, gate. -/
def decodeRow (q : Profile) (bus : Bus) (h : Bool) (row : Option Row) : Decoded :=
  match frameSpeed q bus with
  | none => unsupportedAt false false
  | some fr =>
    if h && !q.supportsHighSpeedCmdBit then unsupportedAt fr fr
    else
      match row with
      | none => unsupportedAt (fr || h) fr
      | some r =>
        if r.opcode.isSome && r.gate q then ⟨r.logical, r.isRead, r.verify, fr || h, fr⟩
        else unsupportedAt (fr || h) fr

/-! ### Functions of the sector number -/

/-- `XferLen(sector)` (20_memory.md R97). -/
def xferLen (g : Geometry) (sector : Nat) : Nat := if sector ≤ g.bootSectorCount then 128 else g.bytesPerSector

/-- The second-side mapping of `CylinderOf`: "second side runs back toward track 0" (43_rw_common.md R241). A track number
beyond both sides makes it negative, and the spec gives no value: a free one (log 36). -/
def secondSide (trackCount t : Nat) : Nat :=
  if t < 2 * trackCount then 2 * trackCount - 1 - t else Config.cylinderPastEnd trackCount t

/-- "`(sector - 1) div st.sectorsPerTrack`" (43_rw_common.md R241). DESIGN CHOICE: with no sectors per track, which
00_scope.md R9 excludes, and for sector 0, which R241 excludes and a loaded record can name (49_facade.md R449), the track
number is a free value (log 32). -/
def trackNumber (g : Layout) (sector : Nat) : Nat :=
  if g.sectorsPerTrack = 0 ∨ sector = 0 then Config.unstatedTrack g.sectorsPerTrack sector
  else (sector - 1) / g.sectorsPerTrack

/-- The bound of `CylinderOf`: "`min(t, MAX_TRACKS - 1)`" (43_rw_common.md R241). DESIGN CHOICE: with a `MAX_TRACKS` of 0,
which 00_scope.md R8 leaves possible, the bound has no unsigned value and the cylinder is a free value below the 65535 of
R8 (log 46). -/
def boundCylinder (maxTracks t : Nat) : Nat :=
  if maxTracks = 0 then Config.cylinderWithoutTracks t % 65535 else min t (maxTracks - 1)

/-- The default of `CylinderOf(sector)` (43_rw_common.md R241). -/
def defaultCylinderOf (maxTracks : Nat) (g : Layout) (sector : Nat) : Nat :=
  let t := trackNumber g sector
  boundCylinder maxTracks (if g.sideCount = 2 ∧ g.trackCount ≤ t then secondSide g.trackCount t else t)

/-- `CylinderOf(sector)`, a configuration function (43_rw_common.md R241). DESIGN CHOICE: the value of a table entry is not
bounded (log 34). -/
def cylinderOf (p : Params) (g : Layout) (sector : Nat) : Nat :=
  (p.tables.cylinderOf.lookup (sector, g)).getD (defaultCylinderOf p.maxTracks g sector)

/-- `VendorRamWindow(mode, sector, isWrite)` (20_memory.md R96), consulted on Happy profiles only
(44_cmd_read.md R292, 45_cmd_write.md R312). -/
def vendorRamWindow (s : State) (isWrite : Bool) : Option Nat :=
  if s.prof.family = .happy then s.params.tables.vendorRamWindow.lookup (s.mode, s.cmd.sector, isWrite) else none

/-- The sector check of read and write state 0 (44_cmd_read.md R292, 45_cmd_write.md R312). -/
def validSector (s : State) : Bool :=
  decide (s.cmd.sector ≠ 0) &&
    (if s.flags.diskPresent then decide (s.cmd.sector.toNat ≤ s.geom.totalSectors)
     else decide (s.cmd.sector.toNat ≤ s.params.bootRangeMax))

end Sys2Proof.Machine
end

