-- ==== Sys2Proof/Machine/Transport.lean ====
section
/-! DEFINITION. The emission of actions, the reference transport of 20_memory.md R88, and the choice of the next event
(60_exceptions.md R475, R476). -/

namespace Sys2Proof.Machine

/-! ### The queue -/

/-- What an action puts on the transport's queue, and what it does to it (20_memory.md R87, R88). A control byte and a
data frame take the byte time in force when they are queued. `id` is the receive id (R88). -/
def Wire.push (w : Wire) (now : Cycle) (id : Word32) : Action → Wire
  | .beginCommand => { w with queue := w.queue ++ [.sync now] }
  | .endCommand => { w with queue := w.queue ++ [.endFence] }
  | .flushQueue => { w with queue := [] }
  | .setTransferRate _ perByte => { w with cyclesPerByte := perByte }
  | .delay c => { w with queue := w.queue ++ [.wait c] }
  | .sendACK => { w with queue := w.queue ++ [.wait w.cyclesPerByte] }
  | .sendNAK => { w with queue := w.queue ++ [.wait w.cyclesPerByte] }
  | .sendComplete => { w with queue := w.queue ++ [.wait w.cyclesPerByte] }
  | .sendError => { w with queue := w.queue ++ [.wait w.cyclesPerByte] }
  | .sendData bytes ck =>
    { w with queue := w.queue ++ [.wait ((bytes.length + (if ck then 1 else 0)) * w.cyclesPerByte)] }
  | .receiveData _ len _ => { w with queue := w.queue ++ [.receive id len] }
  | .insertFence fid => { w with queue := w.queue ++ [.fence fid] }
  | _ => w

/-- Emit an action: it joins the observation of 00_scope.md R17, and the transport's queue if it is a `T.` call. A
receive queued now has the id `cmd.state` has after the increment of 48_transfer.md R410. -/
def State.emit (s : State) (a : Action) : State :=
  { s with out := s.out ++ [a], wire := s.wire.push s.now (s.cmd.state + 1) a }

/-- Emit actions in program order. -/
def State.emitAll (s : State) (as : List Action) : State := as.foldl State.emit s

/-- Performs the queue up to its first fence: the Cycle of the fence, its id, and what stays queued. A receive blocks
the queue until the host has sent the bytes; an end-of-command fence is passed (log 5). -/
def Wire.firstFence (cursor : Cycle) : List QOp → Option (Cycle × Word32 × List QOp)
  | [] => none
  | .wait c :: q => Wire.firstFence (cursor + c) q
  | .sync t :: q => Wire.firstFence (max cursor t) q
  | .endFence :: q => Wire.firstFence cursor q
  | .fence id :: q => some (cursor, id, q)
  | .receive _ _ :: _ => none

/-- A queued receive that is next in the queue: the Cycle from which it can complete, its id and length, and what is
queued behind it. -/
structure DueReceive where
  time : Cycle
  id : Word32
  len : Nat
  rest : List QOp
deriving DecidableEq, Repr

/-- The queue's first receive, if no fence stands before it. -/
def Wire.firstReceive (cursor : Cycle) : List QOp → Option DueReceive
  | [] => none
  | .wait c :: q => Wire.firstReceive (cursor + c) q
  | .sync t :: q => Wire.firstReceive (max cursor t) q
  | .endFence :: q => Wire.firstReceive cursor q
  | .fence _ :: _ => none
  | .receive id len :: q => some ⟨cursor, id, len, q⟩

/-- The queue after its first receive completed at `now`; unchanged if no receive is due. -/
def Wire.completeReceive (w : Wire) (now : Cycle) : Wire :=
  match Wire.firstReceive w.cursor w.queue with
  | some r => { w with cursor := max r.time now, queue := r.rest }
  | none => w

/-! ### The transport's own saved state -/

/-- Drops what the transport has performed by `now`: the cursor it has reached and what is left. -/
def Wire.consume (now cursor : Cycle) : List QOp → Cycle × List QOp
  | .wait c :: q =>
    if cursor + c ≤ now then Wire.consume now (cursor + c) q
    else (max cursor now, .wait (cursor + c - max cursor now) :: q)
  | .sync t :: q => Wire.consume now (max cursor t) q
  | .endFence :: q => Wire.consume now cursor q
  | q => (cursor, q)

/-- The transport's nested blob (10_state.md R67), relative to the Cycle of the save. A `sync` that is still queued
behind an operation in progress has no effect any more and is dropped. -/
def Wire.save (w : Wire) (now : Cycle) (rxOffset : Nat) : WireBlob :=
  let left := Wire.consume now w.cursor w.queue
  { lead := left.1 - now
    cyclesPerByte := w.cyclesPerByte
    queue := left.2.filter (fun o => match o with | .sync _ => false | _ => true)
    rxOffset := rxOffset }

/-- The transport after it is handed the blob at `now` (49_facade.md R447). -/
def WireBlob.load (b : WireBlob) (now : Cycle) : Wire :=
  { cursor := now + b.lead, cyclesPerByte := b.cyclesPerByte, queue := b.queue }

/-! ### The next event -/

/-- The priority of simultaneous events: "transport events before scheduler events before Disk-Interface notifications
before front-end calls, and within the transport `ReceiveComplete` before the `Fence` queued behind it"
(60_exceptions.md R476). -/
def Event.priority : Event → Nat
  | .serialBeginCommand _ _ _ _ => 0
  | .serialAbortCommand => 0
  | .serialReceiveComplete _ _ _ => 0
  | .serialFence _ => 1
  | .serialAccelCommand _ => 0
  | .motorOffTimer => 2
  | .diskChanged _ => 3
  | .writeModeChanged _ _ => 3
  | .timingModeChanged _ => 3
  | .audioModeChanged _ => 3
  | .isImageSupported _ => 3
  | .diskAnswers _ => 3
  | .init _ _ => 4
  | .reset => 4
  | .setEnabled _ => 4
  | .setEmulationMode _ => 4
  | .saveState => 4
  | .loadState _ => 4
  | .setForcedPhantomOrder _ _ => 4
  | .setTrackBufferingDisabled _ => 4

/-- An event that can be delivered, the Cycle it will carry, and the state it leaves behind in the queues. -/
structure Candidate where
  time : Cycle
  event : Event
  rest : State

/-- `a` is delivered before `b`, or may be: earlier, or at the same Cycle and not of lower priority. -/
def Candidate.before (a b : Candidate) : Bool :=
  decide (a.time < b.time) || (decide (a.time = b.time) && decide (a.event.priority ≤ b.event.priority))

/-- The first of two candidates; the left one on a tie. -/
def Candidate.first : Option Candidate → Option Candidate → Option Candidate
  | none, b => b
  | a, none => a
  | some a, some b => if a.before b then some a else some b

/-- The event the transport makes of what the host sends: a payload completes the receive that is next in the queue, at
a Cycle not earlier than `tq`, with that receive's id, if it has that receive's length; otherwise it cannot be delivered
(20_memory.md R88). Any other event, and any event where the environment does the timing, is delivered as it is. -/
def State.offered (s : State) : Event → Option (Cycle × Event)
  | .serialReceiveComplete id data ok =>
    if s.selfTimed then
      match Wire.firstReceive s.wire.cursor s.wire.queue with
      | some r => if data.length = r.len then some (r.time, .serialReceiveComplete r.id data ok) else none
      | none => none
    else some (0, .serialReceiveComplete id data ok)
  | e => some (0, e)

/-- An event of the inbox as a candidate; `others` is the inbox without it. "`now` non-decreasing along any run"
(00_scope.md R12): an event dated earlier is delivered now (log 6). -/
def State.inboxOffer (s : State) (e : TimedEvent) (others : List TimedEvent) : Option Candidate :=
  (s.offered e.event).map fun o => ⟨max (max e.time s.now) o.1, o.2, { s with inbox := others }⟩

/-- The first of the candidates of an inbox `passed ++ left`, among those of `left`. -/
def State.inboxFirst (s : State) (passed : List TimedEvent) : List TimedEvent → Option Candidate
  | [] => none
  | e :: left => Candidate.first (s.inboxOffer e (passed ++ left)) (s.inboxFirst (passed ++ [e]) left)

/-- The event from outside the unit that is delivered next: the earliest, by priority at one Cycle, and in the order of
the inbox where both agree (60_exceptions.md R476; log 6). -/
def State.inboxCandidate (s : State) : Option Candidate := s.inboxFirst [] s.inbox

/-- The next fence of the reference transport. -/
def State.fenceCandidate (s : State) : Option Candidate :=
  if s.selfTimed then
    (Wire.firstFence s.wire.cursor s.wire.queue).map fun (t, id, q) =>
      ⟨max t s.now, .serialFence id, { s with wire := { s.wire with cursor := t, queue := q } }⟩
  else none

/-- The scheduler's one event: "The scheduler delivers `MotorOffTimer` at the scheduled time unless unscheduled first"
(20_memory.md R86). -/
def State.timerCandidate (s : State) : Option Candidate :=
  if s.selfTimed then s.motorOffDeadline.map fun d => ⟨max d s.now, .motorOffTimer, s⟩ else none

/-- The event delivered next (60_exceptions.md R476). -/
def State.nextEvent (s : State) : Option Candidate :=
  Candidate.first s.inboxCandidate (Candidate.first s.fenceCandidate s.timerCandidate)

end Sys2Proof.Machine
end

