-- ==== Sys2Proof/Machine/Rotation.lean ====
section
/-! DEFINITION. The rotational and positional model (41_rotation_seek.md). -/

namespace Sys2Proof.Machine

/-- `P`, the rotation period of the active profile. -/
def State.period (s : State) : Nat := s.prof.cyclesPerDiskRotation

/-- Turn the disk by `c` cycles: the quotient goes into the revolution count, modulo 2^32, the remainder into the
counter (41_rotation_seek.md R171, R174, R182). -/
def Rotation.turn (P c : Nat) (r : Rotation) : Rotation :=
  { r with
    rotationalCounter := (r.rotationalCounter + c) % P
    rotationCount := r.rotationCount + BitVec.ofNat 32 ((r.rotationalCounter + c) / P) }

/-- `AdvanceToNow()` (41_rotation_seek.md R171). -/
def advanceToNow (s : State) : State :=
  if s.motorRunning then
    { s with rot := { s.rot.turn s.period (s.now - s.rot.lastUpdateCycle) with lastUpdateCycle := s.now } }
  else s

/-- `GetSnapshot() -> (counter, count)` (41_rotation_seek.md R172). -/
def getSnapshot (s : State) : Nat × Word32 :=
  if s.motorRunning then
    let r := s.rot.turn s.period (s.now - s.rot.lastUpdateCycle)
    (r.rotationalCounter, r.rotationCount)
  else (s.rot.rotationalCounter, s.rot.rotationCount)

/-- `RotateBy(c)` (41_rotation_seek.md R174). -/
def rotateBy (c : Nat) (s : State) : State :=
  if s.motorRunning then { s with rot := s.rot.turn s.period c } else s

/-- `WarpOrDelay(cycles, minCycles)` (41_rotation_seek.md R173). -/
def warpOrDelay (cycles minCycles : Nat) (s : State) : State :=
  if s.flags.accurateSectorTiming then s.emit (.delay cycles)
  else (rotateBy (cycles - min cycles minCycles) (advanceToNow s)).emit (.delay (min cycles minCycles))

/-- `StepCycles(delta) -> (cycles, steps)` (41_rotation_seek.md R175). -/
def stepCycles (q : Profile) (delta : Int) : Nat × Nat :=
  let steps := delta.natAbs
  let cycles := steps * q.cyclesPerTrackStep
  if q.reverseOnForwardSeeks && decide (0 < delta) then
    (cycles + q.cyclesPerTrackStep + q.cyclesForHeadSettle, steps + 1)
  else (cycles, steps)

/-- The seek sounds of a movement of `steps` steps starting `base` cycles from now (41_rotation_seek.md R177). -/
def seekSounds (q : Profile) (base steps : Nat) : List Action :=
  (List.range steps).map fun i => .seekSound (base + i * q.cyclesPerTrackStep)

/-- "When `st.driveSoundsEnabled`" the sounds are emitted (41_rotation_seek.md R177). -/
def emitSeekSounds (base steps : Nat) (s : State) : State :=
  if s.flags.driveSoundsEnabled then s.emitAll (seekSounds s.prof base steps) else s

/-- The step-unit number of a cylinder (10_state.md R27). -/
def trackOf (q : Profile) (cyl : Nat) : Nat := if q.seekHalfTracks then 2 * cyl else cyl

/-- The cycles `SeekTo(cyl, …)` returns from a given head position (41_rotation_seek.md R178). -/
def seekCycles (q : Profile) (currentTrack cyl : Nat) : Nat :=
  let delta : Int := (trackOf q cyl : Int) - currentTrack
  (stepCycles q delta).1 + (if delta = 0 then 0 else q.cyclesForHeadSettle)

/-- The state effect of `SeekTo(cyl, base)`: the sounds, and the head over the cylinder (41_rotation_seek.md R178). DEDUCED:
the target may lie at `MAX_TRACKS` or above, which 10_state.md R27 excludes; it is the head position all the same, as R178's
pseudocode says (log 34). -/
def seekTo (cyl base : Nat) (s : State) : State :=
  { emitSeekSounds base (stepCycles s.prof ((trackOf s.prof cyl : Int) - s.currentTrack)).2 s with
    currentTrack := trackOf s.prof cyl }

/-- `RotWait(pos)`, after `AdvanceToNow` (41_rotation_seek.md R179). -/
def rotWait (s : State) (pos : Nat) : Nat := (pos + s.period - s.rot.rotationalCounter) % s.period

/-- `WaitFrom(pos, lead)` (43_rw_common.md R245). -/
def waitFrom (s : State) (pos lead : Nat) : Nat :=
  lead + (pos + s.period - (s.rot.rotationalCounter + lead) % s.period) % s.period

/-- `PosCycles(p)` of a copy at rotational position `f` (43_rw_common.md R245). -/
def posCycles (s : State) (f : Frac) : Nat := f.scale s.period

/-- `SnapRotation(pos)` (41_rotation_seek.md R184). -/
def snapRotation (pos : Nat) (s : State) : State :=
  let s := advanceToNow s
  if s.motorRunning then { s with rot := { s.rot with rotationalCounter := pos } } else s

/-! ### The motor timer -/

/-- `A.MotorSound(on)`, emitted only with drive sounds enabled (20_memory.md R92). -/
def emitMotorSound (on : Bool) (s : State) : State :=
  if s.flags.driveSoundsEnabled then s.emit (.motorSound on) else s

/-- `ExtendMotorTimeoutTo(t)` (49_facade.md R437). -/
def extendMotorTimeoutTo (t : Cycle) (s : State) : State :=
  match s.motorOffDeadline with
  | none => s
  | some d =>
    if d < t then ({ s.emit .unschedule with motorOffDeadline := some t }).emit (.schedule (t - s.now)) else s

/-- `ExtendMotorTimeoutBy(d)` (49_facade.md R438). -/
def extendMotorTimeoutBy (c : Cycle) (s : State) : State :=
  match s.motorOffDeadline with
  | none => s
  | some d => extendMotorTimeoutTo (d + c) s

/-- `TurnOnMotor()` (49_facade.md R436). -/
def turnOnMotor (s : State) : State :=
  match s.motorOffDeadline with
  | none =>
    let s := ({ s with rot := { s.rot with lastUpdateCycle := s.now } }).emit (.setMotorIndicator true)
    let s := emitMotorSound true s
    ({ s with motorOffDeadline := some (s.now + s.prof.cyclesToMotorOff) }).emit (.schedule s.prof.cyclesToMotorOff)
  | some _ => extendMotorTimeoutTo (s.now + s.prof.cyclesToMotorOff) s

/-- `TurnOffMotor()` (49_facade.md R441). -/
def turnOffMotor (s : State) : State :=
  match s.motorOffDeadline with
  | none => s
  | some _ =>
    emitMotorSound false
      (({ (advanceToNow s).emit .unschedule with motorOffDeadline := none }).emit (.setMotorIndicator false))

/-- `RearmMotorAfterCommand()` (49_facade.md R440). -/
def rearmMotorAfterCommand (s : State) : State :=
  match s.motorOffDeadline with
  | none => s
  | some _ =>
    ({ s.emit .unschedule with motorOffDeadline := some (s.now + s.prof.cyclesToMotorOff) }).emit
      (.schedule s.prof.cyclesToMotorOff)

/-- The `MotorOffTimer` event (49_facade.md R439). -/
def motorOffTimer (s : State) : State :=
  match s.motorOffDeadline with
  | none => s
  | some _ =>
    if s.active then
      ({ s with motorOffDeadline := some (s.now + s.prof.cyclesToMotorOff) }).emit (.schedule s.prof.cyclesToMotorOff)
    else
      emitMotorSound false (({ advanceToNow s with motorOffDeadline := none }).emit (.setMotorIndicator false))

/-! ### The active profile -/

/-- Scale the counter to a new period, keeping the angle: "`(st.rotationalCounter * newP) div oldP`" (49_facade.md
R425). -/
def rescaleCounter (oldP newP counter : Nat) : Nat := if newP = oldP then counter else counter * newP / oldP

/-- Select a profile, as `SetEmulationMode` does and a recognised Indus GT upload (49_facade.md R425,
47_cmd_status_percom_misc.md R378): advance with the old profile, swap, rescale. -/
def selectProfile (mode : Nat) (variant : IndusVariant) (s : State) : Result State :=
  if s.params.hasMode mode = false then programmingError .modeOutOfRange
  else if (s.params.profile mode variant).wf s.params.maxIdleTimer = false then
    .error (.refused .profileNotWellFormed)
  else
    let s := advanceToNow s
    let newP := (s.params.profile mode variant).cyclesPerDiskRotation
    .ok { s with
      mode := mode
      indusVariant := variant
      rot := { s.rot with rotationalCounter := rescaleCounter s.period newP s.rot.rotationalCounter } }

end Sys2Proof.Machine
end

