-- ==== Sys2Proof/Machine/Ops.lean ====
section
/-! DEFINITION. The shared operations of every command: the bounded access to the buffers and to drive RAM, the
transfer and response builder (48_transfer.md), the moves of the state cursor and the two ends of a command
(42_dispatch.md), taking an exception (60_exceptions.md), and the physical accesses (20_memory.md R98). -/

namespace Sys2Proof.Machine

/-! ### Bounded access -/

/-- "Any offset is legal provided `offset + length` does not exceed the space's size" (20_memory.md R83). -/
def requireWithin (offset length size : Nat) (s : State) : Result State :=
  if offset + length ≤ size then .ok s else .error (.fault .pastEndOfSpace)

/-- `MemWrite(SEND, offset, …)`. -/
def writeSend (offset : Nat) (bytes : List Byte) (s : State) : State :=
  { s with sendBuf := s.sendBuf.writeBytes offset bytes }

/-- `SEND[0..n-1]`. -/
def State.sendBytes (s : State) (n : Nat) : List Byte := s.sendBuf.readBytes 0 n

/-- `RECV[0..n-1]`. -/
def State.recvBytes (s : State) (n : Nat) : List Byte := s.recvBuf.readBytes 0 n

/-! ### Speed (48_transfer.md R392, R393) -/

/-- `UsesVendorNativeSpeed(prof, rawCommand)`: false unless the parameter table lists the pair (48_transfer.md
R393). -/
def usesVendorNativeSpeed (p : Params) (key : ProfileKey) (raw : Byte) : Bool :=
  p.tables.nativeSpeed.contains (key, raw)

/-- The rate `SetupTransferSpeed(highSpeed)` selects for a command byte: cycles per bit, cycles per byte
(48_transfer.md R392). -/
def State.rateOf (s : State) (raw : Byte) (highSpeed : Bool) : Nat × Nat :=
  if highSpeed && usesVendorNativeSpeed s.params s.profileKey raw then (s.params.vendorHsCpb, s.params.vendorHsCpByte)
  else if highSpeed then (s.prof.cyclesPerSIOBitHighSpeed, s.prof.cyclesPerSIOByteHighSpeed)
  else (s.prof.cyclesPerSIOBit, s.prof.cyclesPerSIOByte)

/-- `SetupTransferSpeed(highSpeed)` (48_transfer.md R392). -/
def setupTransferSpeed (highSpeed : Bool) (s : State) : State :=
  let r := s.rateOf s.cmd.rawCommand highSpeed
  ({ s with xferCyclesPerBit := r.1, xferCyclesPerByte := r.2 }).emit (.setTransferRate r.1 r.2)

/-- "Every send/receive call increments the command's sub-state counter" (48_transfer.md R410). -/
def bumpState (s : State) : State := { s with cmd := { s.cmd with state := s.cmd.state + 1 } }

/-- One transport send, with its increment. -/
def send (a : Action) (s : State) : State := bumpState (s.emit a)

/-! ### Responses (48_transfer.md R400 to R411) -/

/-- `BeginTransferACKCmd()` (48_transfer.md R406). DEDUCED: its delay, the data frame's ACK delay and the C/E-to-data-frame
delay are "spent in both timing modes", as R406 and R400 say; 46_cmd_format.md R346 calls them collapsed in fast mode
(log 40). -/
def beginTransferACKCmd (s : State) : State :=
  let s := setupTransferSpeed s.cmd.highSpeedFrame s
  send .sendACK (s.emit (.delay s.prof.cyclesToACKSent))

/-- `BeginTransferACKData()` (48_transfer.md R407). -/
def beginTransferACKData (s : State) : State :=
  let s := setupTransferSpeed s.cmd.highSpeedFlag s
  send .sendACK (s.emit (.delay s.prof.cyclesToACKSent))

/-- `BeginTransferNAKData()` (48_transfer.md R408). -/
def beginTransferNAKData (s : State) : State :=
  let s := setupTransferSpeed s.cmd.highSpeedFlag s
  send .sendNAK (s.emit (.delay s.prof.cyclesToACKSent))

/-- The NAK deadline: the later of the two times of 48_transfer.md R402. -/
def nakDeadline (s : State) : Cycle :=
  max (s.bus.frameEnd + s.prof.cyclesToNAKFromFrameEnd) (s.bus.deassert + s.prof.cyclesToNAKFromCmdDeassert)

/-- `BeginTransferNAKCommand()` (48_transfer.md R402). -/
def beginTransferNAKCommand (s : State) : State :=
  let s := setupTransferSpeed s.cmd.highSpeedFrame s
  send .sendNAK (s.emit (.delay (satSub (nakDeadline s) s.now)))

/-- `BeginTransferComplete()` (48_transfer.md R405). -/
def beginTransferComplete (s : State) : State :=
  noteResult true (send .sendComplete (setupTransferSpeed s.cmd.highSpeedFlag s))

/-- `BeginTransferError()` (48_transfer.md R409): `st.lastOpError` is set whatever the command. -/
def beginTransferError (s : State) : State :=
  { send .sendError (setupTransferSpeed s.cmd.highSpeedFlag s) with lastOpError := true }

/-- The C/E-to-data-frame delay: base and length-scaled term, separately for high speed (48_transfer.md R400,
R401). -/
def dataFrameDelay (q : Profile) (highSpeed : Bool) (length : Nat) : Nat :=
  if highSpeed then
    q.cyclesCEToDataFrameHighSpeed + length * q.cyclesCEToDataFrameHighSpeedPBDiv256 / 256
  else q.cyclesCEToDataFrame + length * q.cyclesCEToDataFramePBDiv256 / 256

/-- The effect of `SendResult(success, length)` (48_transfer.md R400). -/
def sentResult (success : Bool) (length : Nat) (s : State) : State :=
  let s := setupTransferSpeed s.cmd.highSpeedFlag s
  let s := noteResult success (send (if success then .sendComplete else .sendError) s)
  let s := s.emit (.delay (dataFrameDelay s.prof s.cmd.highSpeedFlag length))
  send (.sendData (s.sendBytes length) true) s

/-- `SendResult(success, length)` (48_transfer.md R400), the length within SEND (20_memory.md R83). DESIGN CHOICE: a length
of 0, which is outside R400's operand range, runs the same pseudocode (log 47). -/
def sendResult (success : Bool) (length : Nat) (s : State) : Result State := do
  let s ← requireWithin 0 length Config.bufSize s
  return sentResult success length s

/-- The effect of `ReceivePayload(n)` (48_transfer.md R411). The bytes land at offset 0 of RECV (20_memory.md
R103). -/
def armedReceive (n : Nat) (s : State) : State :=
  let s := setupTransferSpeed s.cmd.highSpeedFlag s
  let s := { s with cmd := { s.cmd with rxChecksumOK := false, rxLen := 0 } }
  { send (.receiveData 0 n true) s with rxOffset := 0 }

/-- `ReceivePayload(n)` (48_transfer.md R411), the length within RECV (20_memory.md R83). -/
def receivePayload (n : Nat) (s : State) : Result State := do
  let s ← requireWithin 0 n Config.bufSize s
  return armedReceive n s

/-- `WarpOrDelayFromStopBit(cycles)` (48_transfer.md R404). -/
def warpOrDelayFromStopBit (cycles : Nat) (s : State) : State :=
  warpOrDelay (satSub cycles s.xferCyclesPerBit) 0 s

/-! ### The state cursor (42_dispatch.md R211, R212) -/

/-- `Wait(nextState)` (42_dispatch.md R211). -/
def wait (n : Word32) (s : State) : State :=
  ({ s with cmd := { s.cmd with state := n, waiting := true } }).emit (.insertFence n)

/-- `Goto(n)` (42_dispatch.md R212). -/
def goto (n : Word32) (s : State) : State := { s with cmd := { s.cmd with state := n } }

/-! ### The ends of a command (42_dispatch.md R214, R216) -/

/-- No active command: the three fields both ends clear. -/
def clearCommand (s : State) : State :=
  { s with cmd := { s.cmd with code := .none, waiting := false, state := 0 } }

/-- `EndCommand()` (42_dispatch.md R214). Only handlers call it, and the dispatcher invokes a handler only while a
command is active, so the rule's assertion holds at every call. -/
def endCommand (s : State) : State :=
  (rearmMotorAfterCommand ((clearCommand s).emit .endCommand)).emit (.setActivity false)

/-- "`elapsed <- now - cmd.startTime`", the cycles a command has run (42_dispatch.md R216, 49_facade.md R446). -/
def State.elapsed (s : State) : Nat := (s.now - s.cmd.startTime).toNat

/-- `AbortCommand(fromTransport)` (42_dispatch.md R216). A transport that aborts flushes its own queue (R207). DESIGN
CHOICE: with no command active nothing is done (R205), and a reply still queued by the command before stays queued
(log 48). -/
def abortCommand (fromTransport : Bool) (s : State) : State :=
  if s.active then
    let s := clearCommand (extendMotorTimeoutBy s.elapsed s)
    let s :=
      if fromTransport then { s with wire := { s.wire with queue := [] } }
      else (s.emit .flushQueue).emit .endCommand
    s.emit (.setActivity false)
  else s

/-! ### Exceptions (60_exceptions.md) -/

/-- The conditions that end a command with a fixed response (60_exceptions.md R461): X1 and X2, X3, and X4, X6 to X9
where no data frame follows or one does. A status of `none` leaves `st.fdcStatus` as the failing state set it. -/
inductive Exception where
  /-- X1, X2: the command frame is NAKed (R462). -/
  | nak
  /-- X3: the data frame is NAKed (R464). -/
  | dataNak
  /-- X4, X6 to X9: an Error byte with no data frame (R463, 48_transfer.md R409). -/
  | errorResponse (status : Option Byte)
  /-- The failure reply of format: an Error byte, then `length` bytes of SEND (R463, 46_cmd_format.md R345). -/
  | errorWithData (status : Option Byte) (length : Nat)
deriving DecidableEq, Repr

/-- The FDC status of a condition, "if the kind has one" (60_exceptions.md R463). -/
def noteStatus : Option Byte → State → State
  | none, s => s
  | some b, s => setFdcStatus b s

/-- TAKING AN EXCEPTION: `raise X(info)` performs the entry actions of X and ends the command (60_exceptions.md R462 to
R464). Nothing is saved and there is no vector; the cursor is 0 afterwards (R477, R480). There is no
return-from-exception: the unit is idle and the next frame starts a fresh command (R478). -/
def takeException (x : Exception) (s : State) : Result State :=
  match x with
  | .nak => .ok (endCommand (beginTransferNAKCommand s))
  | .dataNak => .ok (endCommand (beginTransferNAKData s))
  | .errorResponse status => .ok (endCommand (beginTransferError (noteStatus status s)))
  | .errorWithData status length => do
    let s ← sendResult false length (noteStatus status s)
    return endCommand s

/-! ### Physical access (20_memory.md R91, R98) -/

/-- A free rotational position in `[0, 1)` (20_memory.md R81; log 25). -/
def freePosition (n p : Nat) : Frac :=
  ⟨Config.unlistedRotNum n p % (Config.unlistedRotDen n p + 1), Config.unlistedRotDen n p + 1⟩

/-- What the Disk Interface answers of a physical sector its tables do not list: free values (log 25). -/
def unlistedSector (n p : Nat) : PhysSector :=
  { rotPos := freePosition n p
    fdcStatus := Config.unlistedStatus n p
    weakOffset := Config.unlistedWeak n p
    physSize := Config.unlistedSize n p
    mfm := Config.unlistedMfm n p
    data := ⟨.unlisted n p, []⟩
    readError := Config.unlistedReadError n p
    writeError := Config.unlistedWriteError n p }

/-- `rotPos(p)` is "a rational in `[0, 1)`" (20_memory.md R81). DESIGN CHOICE: a listed position outside is replaced by a
free one inside (log 25). -/
def PhysSector.within (n p : Nat) (x : PhysSector) : PhysSector :=
  if x.rotPos.belowOne then x else { x with rotPos := freePosition n p }

/-- `D.PhysSectorInfo(p)` and the sector's data (20_memory.md R81, R91). DESIGN CHOICE: the answers for a sector that the
image does not list, or with no image, are free values (log 25). -/
def State.physSector (s : State) (p : Nat) : PhysSector :=
  match s.disk.image.bind (fun img => img.phys[p]?) with
  | some x => x.within s.freeCtr p
  | none => unlistedSector s.freeCtr p

/-- The `n` bytes `ReadPhys` leaves in SEND: `min(n, physSize(p))` bytes of the sector and zeros after them, or zeros
on a storage error (20_memory.md R98). -/
def physBytes (x : PhysSector) (n : Nat) : List Byte :=
  if x.readError then List.replicate n 0
  else x.data.readBytes 0 (min n x.physSize) ++ List.replicate (n - min n x.physSize) 0

/-- `ReadPhys(p, n)`: true on a storage error (20_memory.md R98). -/
def readPhys (p n : Nat) (s : State) : Result (Bool × State) := do
  let s ← requireWithin 0 n Config.bufSize s
  let x := s.physSector p
  let s := s.emit (.readPhysicalSector p n)
  return (x.readError, writeSend 0 (physBytes x n) s)

/-- The sector after `D.WritePhysicalSector`: the bytes given, and free values for the bytes they do not cover, or for
every byte when the call throws (45_cmd_write.md R323, 93_implementation_defined.md I16; log 10). The per-copy
information is left as it was (log 8). -/
def PhysSector.store (x : PhysSector) (draw : Nat) (bytes : List Byte) : PhysSector :=
  if x.writeError then { x with data := ⟨.free draw, []⟩ }
  else if x.physSize ≤ bytes.length then { x with data := Memory.zero.writeBytes 0 bytes }
  else { x with data := (⟨.free draw, []⟩ : Memory).writeBytes 0 bytes }

/-- Replace the image the Disk Interface holds. -/
def State.withImage (s : State) (img : Option Image) : State := { s with disk := { s.disk with image := img } }

/-- The image with physical sector `p` replaced; a sector that it does not list has no place in it (log 25). -/
def Image.setPhys (img : Image) (p : Nat) (x : PhysSector) : Image := { img with phys := img.phys.set p x }

/-- `WritePhys(p, n)`: true on a storage error (20_memory.md R98). The bytes are RECV's; "the Disk Interface performs
`D.WritePhysicalSector` … at the moment of the call" (R94). -/
def writePhys (p n : Nat) (s : State) : Result (Bool × State) := do
  let s ← requireWithin 0 n Config.bufSize s
  let x := s.physSector p
  let bytes := s.recvBytes (min n x.physSize)
  let s := s.emit (.writePhysicalSector p bytes)
  let s := s.withImage (s.disk.image.map fun img => img.setPhys p (x.store s.freeCtr bytes))
  return (x.writeError, { s with freeCtr := s.freeCtr + 1 })

/-! ### The geometry and the PERCOM block -/

/-- Two PERCOM bytes, high byte first (10_state.md R50). -/
def beWord (hi lo : Byte) : Nat := 256 * hi.toNat + lo.toNat

/-- `GeometryOfPERCOM(b)` (47_cmd_status_percom_misc.md R364). -/
def geometryOfPercom (b : Percom) : Layout :=
  { trackCount := b.b0.toNat
    sectorsPerTrack := beWord b.b2 b.b3
    sideCount := b.b4.toNat + 1
    mfm := b.b5.getLsbD 2
    bytesPerSector := beWord b.b6 b.b7 }

/-- "`n div 256`" as byte `index` of a block (47_cmd_status_percom_misc.md R365). DESIGN CHOICE: for a number of more than 16
bits, which 10_state.md R28 excludes, it is a free value (log 42). -/
def percomHighByte (index n : Nat) : Byte :=
  if n < 65536 then BitVec.ofNat 8 (n / 256) else Config.unstatedPercomByte index n

/-- "`g.sideCount - 1`" as byte 4 of a block (47_cmd_status_percom_misc.md R365). DESIGN CHOICE: with no sides or more than
256, which 10_state.md R28 excludes, it is a free value (log 42). -/
def percomSidesByte (n : Nat) : Byte :=
  if 1 ≤ n ∧ n ≤ 256 then BitVec.ofNat 8 (n - 1) else Config.unstatedPercomByte 4 n

/-- `PERCOMOfGeometry(g)` (47_cmd_status_percom_misc.md R365); the track count is "stored modulo 256". -/
def percomOfGeometry (g : Layout) : Percom :=
  { b0 := BitVec.ofNat 8 g.trackCount
    b1 := 0x01
    b2 := percomHighByte 2 g.sectorsPerTrack
    b3 := BitVec.ofNat 8 (g.sectorsPerTrack % 256)
    b4 := percomSidesByte g.sideCount
    b5 := if g.mfm then 0x04 else 0x00
    b6 := percomHighByte 6 g.bytesPerSector
    b7 := BitVec.ofNat 8 (g.bytesPerSector % 256)
    b8 := 0xFF
    b9 := 0x00
    b10 := 0x00
    b11 := 0x00 }

/-- The twelve bytes of a block, `MemRead(PERCOM, 0, 12)`. -/
def percomBytes (b : Percom) : List Byte :=
  [b.b0, b.b1, b.b2, b.b3, b.b4, b.b5, b.b6, b.b7, b.b8, b.b9, b.b10, b.b11]

/-- A block from bytes of RECV. -/
def percomAt (m : Memory) : Percom :=
  ⟨m.read 0, m.read 1, m.read 2, m.read 3, m.read 4, m.read 5, m.read 6, m.read 7, m.read 8, m.read 9, m.read 10,
   m.read 11⟩

/-- `DefaultPERCOM[st.mode]` (10_state.md R52). -/
def State.defaultPercom (s : State) : Percom := s.params.defaultPercom.getD s.mode default

/-- `RefreshGeometry()` (49_facade.md R426). DESIGN CHOICE: an image's geometry or a default block outside the ranges of
10_state.md R28 is taken as it comes (log 42). -/
def refreshGeometry (s : State) : State :=
  match s.disk.image with
  | none =>
    { s with
      flags := { s.flags with diskPresent := false }
      percom := s.defaultPercom
      geom := { toLayout := geometryOfPercom s.defaultPercom, totalSectors := 0,
                bootSectorCount := s.params.bootSectorCount, highDensity := false } }
  | some img =>
    { s with
      flags := { s.flags with diskPresent := true }
      percom := percomOfGeometry img.geometry.toLayout
      geom := img.geometry }

/-- `RefreshFlags()` (49_facade.md R427). -/
def refreshFlags (s : State) : State :=
  { s with flags := { s.flags with
      writeEnabled := s.disk.writeEnabled
      formatEnabled := s.disk.formatEnabled
      accurateSectorTiming := s.disk.accurateTiming
      driveSoundsEnabled := s.disk.driveSoundsEnabled } }

/-- The number of physical sectors of the mounted image. -/
def State.physCount (s : State) : Nat :=
  match s.disk.image with
  | none => 0
  | some img => img.phys.length

/-- A register file with entry `i` set to `x`. DESIGN CHOICE: one too short for the entry, as a loaded record can leave it,
grows, the entries between being `zero` (logs 19, 21). -/
def setEntry {α : Type} (zero : α) (i : Nat) (x : α) (l : List α) : List α :=
  (l ++ List.replicate (i + 1 - l.length) zero).set i x

/-- The register files "sized to the mounted image's sector counts", all 0 (10_state.md R55, R56; 49_facade.md
R428). -/
def clearSectorArrays (s : State) : State :=
  { s with phantomCounter := List.replicate s.geom.totalSectors 0, forcedOrder := List.replicate s.physCount 0 }

/-- The vendor RAM window at `a` lies inside drive RAM: "`addr + 128 <= DRIVE_RAM_SIZE` must hold" (20_memory.md
R96). -/
def requireRamWindow (a : Nat) (s : State) : Result State := requireWithin a 128 s.params.driveRamSize s

end Sys2Proof.Machine
end

