-- ==== Sys2Proof/Machine/PercomHandler.lean ====
section
/-! DEFINITION. The PERCOM block's commands and its validation (47_cmd_status_percom_misc.md R360 to R369). -/

namespace Sys2Proof.Machine

/-- `XF551_GEOMETRY[k]` (47_cmd_status_percom_misc.md R368). -/
def xf551Geometry (p : Params) (k : Fin 3) : Layout :=
  if k = 0 then p.xf551Geometry0 else if k = 1 then p.xf551Geometry1 else p.xf551Geometry2

/-- Which geometry the default heuristic picks: the suggestion of 47_cmd_status_percom_misc.md R368, after its one
constraint, that a request for 26 sectors per track gets a geometry with 26 (log 20). -/
def xf551Index (d : Percom) : Fin 3 :=
  if beWord d.b2 d.b3 = 26 then 1
  else if d.b5.getLsbD 2 = false then 0
  else if d.b3 = 26 then 1
  else 2

/-- `XF551Normalize(d)`, a configuration function (47_cmd_status_percom_misc.md R368). -/
def xf551Normalize (p : Params) (d : Percom) : Layout :=
  xf551Geometry p ((p.tables.xf551Normalize.lookup d).getD (xf551Index d))

/-- A sector size the validation admits. -/
def legalSectorSize (n : Nat) : Bool := n = 128 || n = 256 || n = 512 || n = 8192

/-- The five conditions of `SetPERCOMData`, none of which holds (47_cmd_status_percom_misc.md R366). -/
def percomValid (d : Percom) : Bool :=
  let g := geometryOfPercom d
  decide (d.b0 ≠ 0) && decide (g.sectorsPerTrack ≠ 0) && decide (d.b4.toNat < 2) &&
    decide (g.totalSectors ≤ 65535) && legalSectorSize g.bytesPerSector

/-- `ApplyPERCOMDensity()` (47_cmd_status_percom_misc.md R367). -/
def applyPercomDensity (s : State) : State :=
  { s with
    geom := { s.geom with toLayout := geometryOfPercom s.percom }
    bufferedTrack := none }

/-- An accepted block: stored, and in force at once on profiles that say so (47_cmd_status_percom_misc.md R366). -/
def acceptPercom (d : Percom) (s : State) : State :=
  let s := { s with percom := d }
  if s.prof.writePERCOMChangesDensity then applyPercomDensity s else s

/-- `SetPERCOMData(d)` (47_cmd_status_percom_misc.md R366): the verdict, and the state after. -/
def setPercomData (d : Percom) (s : State) : Bool × State :=
  if s.prof.family = .xf551 then (true, acceptPercom (percomOfGeometry (xf551Normalize s.params d)) s)
  else if percomValid d then (true, acceptPercom d s)
  else (false, s)

/-- The handler of `ReadPERCOM` (47_cmd_status_percom_misc.md R361). -/
def readPercomState0 (s : State) : Result State := do
  let s := beginTransferACKCmd s
  let s := warpOrDelayFromStopBit s.prof.cyclesACKStopBitToReadPERCOMComplete s
  let s := writeSend 0 (percomBytes s.percom) s
  let s ← sendResult true 12 s
  return endCommand s

/-- State 0 of `WritePERCOM` (47_cmd_status_percom_misc.md R363). -/
def writePercomState0 (s : State) : Result State := do
  let s ← receivePayload 12 (beginTransferACKCmd s)
  return wait 1 s

/-- State 1 of `WritePERCOM` (47_cmd_status_percom_misc.md R363). -/
def writePercomState1 (s : State) : Result State :=
  if s.cmd.rxChecksumOK = false then takeException .dataNak s
  else
    let r := setPercomData (percomAt s.recvBuf) (beginTransferACKData s)
    if r.1 then .ok (endCommand (beginTransferComplete r.2)) else takeException (.errorResponse none) r.2

/-- The handler of `ReadPERCOM`: one state. -/
def readPercomHandler (s : State) : Result State :=
  match s.cmd.state.toNat with
  | 0 => readPercomState0 s
  | _ => programmingError .unlistedState

/-- The handler of `WritePERCOM`: states 0 and 1. -/
def writePercomHandler (s : State) : Result State :=
  match s.cmd.state.toNat with
  | 0 => writePercomState0 s
  | 1 => writePercomState1 s
  | _ => programmingError .unlistedState

end Sys2Proof.Machine
end

