-- ==== Sys2Proof/Machine/Admission.lean ====
section
/-! DEFINITION. The conditions under which an event is handled: a well-formed parameter assignment (00_scope.md R8), a
clock in range (93_implementation_defined.md I26), a mode of the table and a profile that is well formed
(40_profile_table.md R140, R153), and a head position in range (10_state.md R27, 60_exceptions.md R468). -/

namespace Sys2Proof

open Machine

/-- A layout the twelve bytes of a PERCOM block can hold (10_state.md R50, 47_cmd_status_percom_misc.md R365). -/
abbrev Layout.representable (g : Layout) : Prop :=
  g.trackCount < 256 ∧ g.sectorsPerTrack < 65536 ∧ 1 ≤ g.sideCount ∧ g.sideCount ≤ 256 ∧ g.bytesPerSector < 65536

/-- A PERCOM block that asks for 26 sectors per track. -/
def asksFor26 (d : Percom) : Bool := decide (beWord d.b2 d.b3 = 26)

/-- The one constraint on `XF551Normalize`: "a request for 26 sectors per track must normalize to a geometry with 26
sectors per track" (47_cmd_status_percom_misc.md R368), for the default's geometry 1 and for every entry of the table. -/
def Params.normalizes26 (p : Params) : Bool :=
  decide (p.xf551Geometry1.sectorsPerTrack = 26) &&
    p.tables.xf551Normalize.all fun e => !asksFor26 e.1 || decide ((xf551Geometry p e.2).sectorsPerTrack = 26)

/-- What the spec requires of a parameter assignment beside its profiles (00_scope.md R8, 10_state.md R52, 20_memory.md
R96, 41_rotation_seek.md R182, 47_cmd_status_percom_misc.md R368, R369; log 41): one column and one default block per
mode, a non-zero seed, at most 65535 tracks, an upload and the vendor windows inside their spaces, positive raw track
bytes, which `sectorXferCycles` divides by, and XF551 geometries that a block can hold. DESIGN CHOICE: the row and the
family at `indusGTMode` are not tested (log 31), and a `MAX_TRACKS` of 0 is accepted (log 46). -/
def Params.wf (p : Params) : Bool :=
  decide (p.columns.length = p.numModes) &&
  decide (p.defaultPercom.length = p.numModes) &&
  decide (p.weakLfsrSeed ≠ 0) &&
  decide (p.maxTracks ≤ 65535) &&
  decide (p.indusExecLen ≤ Config.bufSize) &&
  p.tables.vendorRamWindow.all (fun e => decide (e.2 + 128 ≤ p.driveRamSize)) &&
  decide (0 < p.rawTrackBytesFM) &&
  decide (0 < p.rawTrackBytesMFM) &&
  decide p.xf551Geometry0.representable &&
  decide p.xf551Geometry1.representable &&
  decide p.xf551Geometry2.representable &&
  p.normalizes26

end Sys2Proof

namespace Sys2Proof.Machine

/-- The conditions on the clock, the mode, the profile in force and the parameters. -/
def requireProfile (s : State) : Result State :=
  if Config.clockLimit ≤ s.now then .error (.refused .clockOutOfRange)
  else if s.params.hasMode s.mode = false then programmingError .modeOutOfRange
  else if s.prof.wf s.params.maxIdleTimer = false then .error (.refused .profileNotWellFormed)
  else if s.params.wf = false then .error (.refused .parametersNotWellFormed)
  else .ok s

/-- An event is handled only under the conditions above and with the head in range: "the model's run stops there"
(60_exceptions.md R468). DEDUCED: the range is that of the positions which the rules compute, not `MAX_TRACKS` (log 34). -/
def admitEvent (s : State) : Result State := do
  let s ← requireProfile s
  if Config.trackLimit ≤ s.currentTrack then programmingError .trackOutOfRange else return s

end Sys2Proof.Machine
end

