-- ==== Sys2Proof/Machine/Resolve.lean ====
section
/-! DEFINITION. Sector resolution and the phantom-sector policy (43_rw_common.md R245 to R249). -/

namespace Sys2Proof.Machine

/-- A physical sector with its index. -/
abbrev Copy := Nat × PhysSector

/-- `ResolveSector`'s answer. -/
inductive Resolution where
  | found (p : Nat) (x : PhysSector)
  | notFound (status : Byte)
deriving DecidableEq, Repr

/-- `D.VirtSectorInfo(v)` for a sector that exists (20_memory.md R81, R91). DESIGN CHOICE: a free value for a sector that
the tables do not list (log 25). -/
def State.virtSector (s : State) (v : Nat) : VirtSector :=
  (s.disk.image.bind (fun img => img.virt[v - 1]?)).getD
    ⟨Config.unlistedStart s.freeCtr v, Config.unlistedCount s.freeCtr v⟩

/-- The copies of a logical sector in enumeration order, with their indices (20_memory.md R81). -/
def State.copies (s : State) (i : VirtSector) : List Copy :=
  (List.range' i.start i.count).map fun p => (p, s.physSector p)

/-- The copy was recorded in the density in force (43_rw_common.md R246). -/
def Copy.density (mfm : Bool) (c : Copy) : Bool := c.2.mfm == mfm

/-- Same density, with a valid address field. -/
def Copy.addressed (mfm : Bool) (c : Copy) : Bool := c.density mfm && !addrInvalid c.2.fdcStatus

/-- The copies a read or a write can be served from: the list `E` of 43_rw_common.md R246. -/
def Copy.eligible (mfm isRead : Bool) (c : Copy) : Bool :=
  c.addressed mfm && !(isRead && dataMissing c.2.fdcStatus)

/-- The status when no copy is eligible: "if sawDensity and not sawValidAddr" the address-CRC status, else
record-not-found (43_rw_common.md R246, R249). -/
def missingStatus (p : Params) (mfm : Bool) (copies : List Copy) : Byte :=
  if copies.any (Copy.density mfm) && !copies.any (Copy.addressed mfm) then p.fdcAddrCrc else p.fdcRnf

/-- A forced order that names the counter's position (43_rw_common.md R246). DESIGN CHOICE: an entry that the array lacks is
0, "none" (logs 19, 21). -/
def forcedAt (forced : List Byte) (k : Nat) (c : Copy) : Bool :=
  decide (forced.getD c.1 0 ≠ 0) && decide ((forced.getD c.1 0).toNat = k + 1)

/-- "The first p in E whose RotWait(PosCycles(p)) is minimal": a later copy replaces the best one only if it is
strictly nearer (43_rw_common.md R246). -/
def nearest (wait : Copy → Nat) : Copy → List Copy → Copy
  | best, [] => best
  | best, c :: rest => nearest wait (if wait c < wait best then c else best) rest

/-- The wait `ResolveSector` compares copies by. -/
def copyWait (s : State) (c : Copy) : Nat := rotWait s (posCycles s c.2.rotPos)

/-- The selection among the eligible copies `c :: rest` when the counter stands at `k` (43_rw_common.md R246, R247): a
forced order first; then, in a buffer hit or in fast mode, by the counter; else by rotational wait. -/
def chooseCopy (s : State) (k : Nat) (c : Copy) (rest : List Copy) : Copy :=
  match (c :: rest).find? (forcedAt s.forcedOrder k) with
  | some f => f
  | none =>
    if s.flags.accurateSectorTiming && !s.cmd.bufferHit then nearest (copyWait s) c rest
    else (c :: rest).getD (k % (c :: rest).length) c

/-- `st.phantomCounter[v]`. DESIGN CHOICE: a counter that the array lacks, as a loaded record can leave it (49_facade.md
R449), reads 0, its value at a disk change (R428; log 21). -/
def State.phantom (s : State) (v : Nat) : Nat := s.phantomCounter.getD (v - 1) 0

/-- The phantom advance: modulo the number of copies of the sector, eligible or not (43_rw_common.md R248). DESIGN CHOICE: an
array too short for the counter grows to hold it, so that no advance is lost (log 21). -/
def advancePhantom (v n : Nat) (s : State) : State :=
  { s with phantomCounter := setEntry 0 (v - 1) ((s.phantom v + 1) % n) s.phantomCounter }

/-- `ResolveSector(v, isRead)`, called after `AdvanceToNow` (43_rw_common.md R246). -/
def resolveSector (v : Nat) (isRead : Bool) (s : State) : Resolution × State :=
  if !s.flags.diskPresent || decide (v = 0) || decide (s.geom.totalSectors < v) then
    (.notFound s.params.fdcRnf, s)
  else
    let info := s.virtSector v
    let copies := s.copies info
    match copies.filter (Copy.eligible s.geom.mfm isRead) with
    | [] => (.notFound (missingStatus s.params s.geom.mfm copies), s)
    | c :: rest =>
      let chosen := chooseCopy s (s.phantom v) c rest
      (.found chosen.1 chosen.2, advancePhantom v info.count s)

end Sys2Proof.Machine
end

