-- ==== Sys2Proof/Machine/ReadWrite.lean ====
section
/-! DEFINITION. The read/write common path: the seek decision of state 10 and the search states 13 to 16 with their
retries (43_rw_common.md). -/

namespace Sys2Proof.Machine

/-! ### State 10 -/

/-- `BufferingApplies()` (43_rw_common.md R243). -/
def bufferingApplies (s : State) : Bool :=
  s.cmd.isRead && s.prof.bufferTrackReads && !s.flags.trackBufferingDisabled &&
    !(decide (s.cmd.sector = 1) && !s.prof.bufferSector1)

/-- The target cylinder and the two buffering fields of the command (43_rw_common.md R242). -/
def noteTarget (cyl : Nat) (s : State) : State :=
  { s with cmd := { s.cmd with
      targetTrack := cyl
      buffering := bufferingApplies s
      bufferHit := bufferingApplies s && decide (s.bufferedTrack = some cyl) } }

/-- The delay before the seek: FDC command, and spin-up if the motor is off (43_rw_common.md R242). -/
def spinUpDelay (s : State) : Nat :=
  s.prof.cyclesToFDCCommand + (if s.motorRunning then 0 else s.prof.cyclesMotorSpinUp)

/-- The mechanical part of a seek decision: start the motor, move the head, spend the time (43_rw_common.md R242,
46_cmd_format.md R337). -/
def spinAndSeek (cyl : Nat) (s : State) : State :=
  let delay := spinUpDelay s
  let s := turnOnMotor s
  let c := seekCycles s.prof s.currentTrack cyl
  warpOrDelay (delay + c) 0 (seekTo cyl delay s)

/-- The seek decision of state 10, after a write's data-frame check (43_rw_common.md R242). -/
def seekDecision (s : State) : State :=
  let cyl := cylinderOf s.params s.geom.toLayout s.cmd.sector.toNat
  let s := noteTarget cyl s
  wait 13 (if s.cmd.bufferHit then warpOrDelay s.prof.cyclesToFDCCommand 0 s else spinAndSeek cyl s)

/-- State 10: for a write, the data-frame check and its acknowledgement come first (43_rw_common.md R242,
45_cmd_write.md R315). -/
def rwState10 (s : State) : Result State :=
  if s.cmd.code = .write then
    if s.cmd.rxChecksumOK = false then takeException .dataNak s
    else .ok (seekDecision (beginTransferACKData s))
  else .ok (seekDecision s)

/-! ### States 13 to 16 -/

/-- The attempt number is the state number (43_rw_common.md R256). -/
def attempt (pc : Word32) : Nat := pc.toNat - 12

/-- The retry budget (43_rw_common.md R253). -/
def maxAttempts (s : State) : Nat := if s.cmd.bufferHit then 1 else if s.prof.retryMode1050 then 2 else 4

/-- The default of `RetryPenalty(prof, attempt, kind)`: cycles and steps (43_rw_common.md R257). -/
def defaultRetryPenalty (q : Profile) (kind : SearchKind) : Nat × Nat :=
  if kind = .missing then
    let out := stepCycles q (-1)
    let back := stepCycles q 1
    (q.cyclesPerDiskRotation + out.1 + back.1 + q.cyclesForHeadSettle, out.2 + back.2)
  else (q.cyclesPerDiskRotation, 0)

/-- `RetryPenalty`, a configuration function (43_rw_common.md R257). -/
def retryPenalty (s : State) (n : Nat) (kind : SearchKind) : Nat × Nat :=
  (s.params.tables.retryPenalty.lookup (s.profileKey, n, kind)).getD (defaultRetryPenalty s.prof kind)

/-- A copy was found: the command's copy fields and `st.fdcStatus` (43_rw_common.md R250). -/
def noteFound (p : Nat) (x : PhysSector) (s : State) : State :=
  { s with
    cmd := { s.cmd with
      physSector := some p
      physPos := posCycles s x.rotPos
      physWeakOffset := x.weakOffset
      physSize := x.physSize }
    fdcStatus := longSectorQuirk s x.fdcStatus (isLong x.physSize s.geom.bytesPerSector) }

/-- No copy was found (43_rw_common.md R250). Every attempt "overwrites every `cmd.phys*` field" (R258). DESIGN CHOICE: the
new position, weak region and size, which no rule states, are free values (log 38). -/
def noteMissing (status : Byte) (s : State) : State :=
  { s with
    cmd := { s.cmd with
      physSector := none
      physPos := Config.missingPos s.freeCtr
      physWeakOffset := Config.missingWeak s.freeCtr
      physSize := Config.missingSize s.freeCtr }
    fdcStatus := status
    freeCtr := s.freeCtr + 1 }

/-- What the attempt ended in, for the retry decision (43_rw_common.md R252); for a found copy, after `noteFound`. -/
def foundKind (s : State) : SearchKind :=
  if s.cmd.isRead && decide (s.fdcStatus ≠ Config.fdcOk) then .dataError else .ok

/-- What a resolution leaves, its kind, and the rotational delay of the attempt (43_rw_common.md R250, R254). -/
def noteResolution (r : Resolution) (s : State) : State × SearchKind × Nat :=
  match r with
  | .found p x =>
    let s := noteFound p x s
    (s, foundKind s, if s.cmd.bufferHit then 0 else rotWait s s.cmd.physPos)
  | .notFound status => (noteMissing status s, .missing, if s.cmd.bufferHit then 0 else 2 * s.period)

/-- The attempt failed and the budget is not exhausted: the penalty, and the next state (43_rw_common.md R250). -/
def searchAgain (kind : SearchKind) (rotDelay : Nat) (s : State) : State :=
  let pc := s.cmd.state
  let pen := retryPenalty s (attempt pc) kind
  wait (pc + 1) (warpOrDelay (rotDelay + pen.1) 0 (emitSeekSounds rotDelay pen.2 s))

/-- The error of a buffer hit that the buffer does not keep (43_rw_common.md R244). -/
def dropBuffer (kind : SearchKind) (s : State) : State :=
  if s.cmd.bufferHit && decide (kind ≠ .ok) && !s.prof.bufferTrackReadErrors then { s with bufferedTrack := none }
  else s

/-- The search is over: on to the outcome state (43_rw_common.md R250). -/
def searchDone (kind : SearchKind) (rotDelay : Nat) (s : State) : State :=
  wait 20 (warpOrDelay rotDelay 0 (dropBuffer kind s))

/-- States 13 to 16, one attempt (43_rw_common.md R250). -/
def rwSearch (s : State) : State :=
  let s := advanceToNow s
  let (r, s) := resolveSector s.cmd.sector.toNat s.cmd.isRead s
  let (s, kind, rotDelay) := noteResolution r s
  if kind ≠ .ok ∧ attempt s.cmd.state < maxAttempts s then searchAgain kind rotDelay s
  else searchDone kind rotDelay s

/-! ### The time under the head -/

/-- `SectorXferCycles(prof, mfm, nbytes)`, a configuration function (43_rw_common.md R259). -/
def sectorXferCycles (s : State) (nbytes : Nat) : Nat :=
  (s.params.tables.sectorXferCycles.lookup (s.profileKey, s.geom.mfm, nbytes)).getD
    (nbytes * s.period / (if s.geom.mfm then s.params.rawTrackBytesMFM else s.params.rawTrackBytesFM))

end Sys2Proof.Machine
end

