-- ==== Sys2Proof/Machine/FormatHandler.lean ====
section
/-! DEFINITION. The handler of the logical command Format: states 0, 2, 3, 4 and 5 (46_cmd_format.md). -/

namespace Sys2Proof.Machine

/-- `cmd.rawCommand[6:0]` is the opcode of `FORMAT_SKEWED`, 0x66 in the spec's table (46_cmd_format.md R332). -/
def isSkewed (s : State) : Bool := decide (baseOpcode s.cmd.rawCommand = s.params.opcodes.formatSkewed)

/-- The reply length of a format: bytes per sector, capped at 256 (46_cmd_format.md R341). -/
def formatReplyLen (g : Geometry) : Nat := min g.bytesPerSector 256

/-- `SEND[0..cmd.len-1] <- 0xFF` (46_cmd_format.md R340, R345). -/
def fillReply (s : State) : State := writeSend 0 (List.replicate s.cmd.len 0xFF) s

/-- `FormatFail()` (46_cmd_format.md R345), with the FDC status of the condition, if it has one. DEDUCED: the length is the
stored `cmd.len`, as R345's pseudocode says; R341 names the geometry in force when the reply is built, which a skewed block
or a disk change can have altered since (log 44). -/
def formatFail (status : Option Byte) (s : State) : Result State := do
  let s ← requireWithin 0 s.cmd.len Config.bufSize s
  takeException (.errorWithData status s.cmd.len) (fillReply s)

/-- The payload of a skewed format (46_cmd_format.md R332). -/
def formatPayload (s : State) : Result State := if isSkewed s then receivePayload 128 s else .ok s

/-- State 0 (46_cmd_format.md R332). -/
def formatState0 (s : State) : Result State := do
  let s := beginTransferACKCmd { s with cmd := { s.cmd with len := formatReplyLen s.geom } }
  let s ← formatPayload s
  return wait 2 s

/-- The density update and the default block of state 2 (46_cmd_format.md R335, 90_conflicts.md C8): `none` when the
payload's block is rejected. -/
def formatDensity (s : State) : Bool × State :=
  let r := if isSkewed s then setPercomData (percomAt s.recvBuf) s else (true, s)
  if r.1 then
    (true, if r.2.prof.supportsPERCOM then r.2 else { r.2 with percom := r.2.defaultPercom })
  else (false, r.2)

/-- State 2 after the payload check: enable flags, density update (46_cmd_format.md R334, R335). -/
def formatEnabledChecks (s : State) : Result State :=
  if s.flags.diskPresent = false then formatFail (some s.params.fdcRnf) s
  else if (s.flags.writeEnabled && s.flags.formatEnabled) = false then
    formatFail (some Config.fdcWriteProtect) s
  else
    let r := formatDensity s
    if r.1 then .ok (goto 3 r.2) else formatFail none r.2

/-- State 2 (46_cmd_format.md R333 to R335). -/
def formatState2 (s : State) : Result State :=
  if isSkewed s then
    if s.cmd.rxChecksumOK = false then takeException .dataNak s
    else formatEnabledChecks (beginTransferACKData s)
  else formatEnabledChecks s

/-- The default of `FormatOverride(prof, raw, g)`; `op` is the opcode of `FORMAT`, 0x21 in the spec's table
(46_cmd_format.md R336). -/
def defaultFormatOverride (op : BitVec 7) (q : Profile) (raw : Byte) (g : Layout) : Layout :=
  if q.family = .xf551 ∧ baseOpcode raw = op ∧ g.sectorsPerTrack = 26 then
    { g with sectorsPerTrack := 18, bytesPerSector := 128, mfm := false }
  else g

/-- `FormatOverride`, a configuration function (46_cmd_format.md R336). -/
def formatOverride (s : State) (g : Layout) : Layout :=
  (s.params.tables.formatOverride.lookup (s.profileKey, s.cmd.rawCommand, g)).getD
    (defaultFormatOverride s.params.opcodes.format s.prof s.cmd.rawCommand g)

/-- The geometry a format asks for (46_cmd_format.md R337). -/
def formatGeometry (s : State) : Layout := formatOverride s (geometryOfPercom s.percom)

/-- A physical sector as the format that draws free value `n` leaves it: clean, at a free position, with free bytes
(DESIGN CHOICE, log 9). -/
def formattedSector (n : Nat) (g : Layout) (p : Nat) : PhysSector :=
  { rotPos := ⟨Config.formattedRotNum n p % (Config.formattedRotDen n p + 1), Config.formattedRotDen n p + 1⟩
    fdcStatus := Config.fdcOk
    weakOffset := none
    physSize := g.bytesPerSector
    mfm := g.mfm
    data := ⟨.formatted n p, []⟩
    readError := false
    writeError := false }

/-- The image after `D.FormatDisk(g)`: the geometry asked for, one copy per sector (DESIGN CHOICE, log 9, 29). -/
def formattedImage (p : Params) (n : Nat) (g : Layout) : Image :=
  { geometry := { toLayout := g, totalSectors := g.totalSectors, bootSectorCount := p.bootSectorCount,
                  highDensity := Config.formattedHighDensity n }
    virt := (List.range g.totalSectors).map (fun v => ⟨v, 1⟩)
    phys := (List.range g.totalSectors).map (formattedSector n g) }

/-- The image after a `D.FormatDisk` that threw: its bytes are the Disk Interface's own (60_exceptions.md R465;
DESIGN CHOICE: the sector table stays, log 10). -/
def spoiltImage (img : Image) (n : Nat) : Image :=
  { img with phys := img.phys.zipIdx.map (fun x => { x.1 with data := ⟨.formatted n x.2, []⟩ }) }

/-- `D.FormatDisk(g)`: true on a storage error (20_memory.md R91, R94). -/
def formatDisk (g : Layout) (s : State) : Bool × State :=
  let s := s.emit (.formatDisk g)
  let new :=
    if s.disk.formatError then s.disk.image.map (spoiltImage · s.freeCtr)
    else some (formattedImage s.params s.freeCtr g)
  (s.disk.formatError, { s.withImage new with freeCtr := s.freeCtr + 1 })

/-- What state 3 sets once the image is formatted (46_cmd_format.md R337). -/
def formatRefresh (s : State) : State :=
  let s := clearSectorArrays (refreshGeometry s)
  { s with
    bufferedTrack := none
    cmd := { s.cmd with physSector := none, len := formatReplyLen s.geom, formatTrack := 0 } }

/-- State 3 (46_cmd_format.md R337). -/
def formatState3 (s : State) : Result State :=
  let (thrown, s) := formatDisk (formatGeometry s) s
  if thrown then formatFail (some s.params.fdcCrc) s
  else .ok (wait 4 (spinAndSeek 0 (formatRefresh s)))

/-- State 4, the per-track loop (46_cmd_format.md R338). -/
def formatState4 (s : State) : Result State :=
  let t := s.cmd.formatTrack
  if s.geom.trackCount ≤ t then .ok (goto 5 s)
  else
    let c := seekCycles s.prof s.currentTrack t
    let s := seekTo t 0 s
    .ok (wait 4 (warpOrDelay c 0 { s with cmd := { s.cmd with formatTrack := t + 1 } }))

/-- State 5: the all-0xFF reply (46_cmd_format.md R340). -/
def formatState5 (s : State) : Result State := do
  let s ← requireWithin 0 s.cmd.len Config.bufSize s
  let s ← sendResult true s.cmd.len (setFdcStatus Config.fdcOk (fillReply s))
  return endCommand s

/-- The handler of `Format` (46_cmd_format.md R331). -/
def formatHandler (s : State) : Result State :=
  match s.cmd.state.toNat with
  | 0 => formatState0 s
  | 2 => formatState2 s
  | 3 => formatState3 s
  | 4 => formatState4 s
  | 5 => formatState5 s
  | _ => programmingError .unlistedState

end Sys2Proof.Machine
end

