-- ==== Sys2Proof/Machine/MiscHandler.lean ====
section
/-! DEFINITION. The handlers of the status, high-speed-index, vendor and unsupported commands
(47_cmd_status_percom_misc.md). -/

namespace Sys2Proof.Machine

/-- The status reply (47_cmd_status_percom_misc.md R351, R354). -/
def statusReply (s : State) : List Byte := [statusByte0 s, statusByte1 s, 0xE0, 0x00]

/-- `STATUS` (47_cmd_status_percom_misc.md R351). -/
def statusState0 (s : State) : Result State := do
  let s := beginTransferACKCmd s
  let s := warpOrDelayFromStopBit s.prof.cyclesACKStopBitToStatusComplete s
  let s := writeSend 0 (statusReply s) s
  let s ← sendResult true 4 s
  return endCommand s

/-- `GET_HS_INDEX` (47_cmd_status_percom_misc.md R370). -/
def hsIndexState0 (s : State) : Result State := do
  let s := beginTransferACKCmd s
  let s := writeSend 0 [s.prof.highSpeedIndex] s
  let s ← sendResult true 1 s
  return endCommand s

/-- Acknowledge and complete: what the spec gives each of the four Happy commands (47_cmd_status_percom_misc.md
R371). -/
def acknowledgeAndComplete (s : State) : State := endCommand (beginTransferComplete (beginTransferACKCmd s))

/-- `HAPPY_QUIET` (47_cmd_status_percom_misc.md R372). -/
def happyQuietState0 (s : State) : Result State := .ok (acknowledgeAndComplete s)

/-- `HAPPY_RAMTEST` (47_cmd_status_percom_misc.md R373): drive RAM is not modified. -/
def happyRamTestState0 (s : State) : Result State := .ok (acknowledgeAndComplete s)

/-- `HAPPY_HEADPOS` (47_cmd_status_percom_misc.md R374): the head is not moved. -/
def happyHeadPosState0 (s : State) : Result State := .ok (acknowledgeAndComplete s)

/-- `HAPPY_RPMTEST` (47_cmd_status_percom_misc.md R375): the motor is not started. -/
def happyRpmState0 (s : State) : Result State := .ok (acknowledgeAndComplete s)

/-- State 0 of `INDUS_EXECUTE` (47_cmd_status_percom_misc.md R376). -/
def indusState0 (s : State) : Result State := do
  let s := beginTransferACKCmd s
  let s ← receivePayload s.params.indusExecLen s
  return wait 1 s

/-- The variant a recognised firmware selects (47_cmd_status_percom_misc.md R377). -/
def firmwareVariant : IndusFirmware → IndusVariant
  | .synchromesh => .synchromesh
  | .superSynchromesh => .superSynchromesh

/-- `IndusFirmwareClassify(bytes)`, a configuration function: `none` unless the parameter table lists the bytes
(47_cmd_status_percom_misc.md R377). -/
def indusFirmwareClassify (p : Params) (bytes : List Byte) : Option IndusFirmware :=
  p.tables.indusClassify.lookup bytes

/-- "if v != none: st.indusVariant <- v" (47_cmd_status_percom_misc.md R376), with the rescaling of R378 when the
variant changes. -/
def selectFirmware (fw : Option IndusFirmware) (s : State) : Result State :=
  match fw with
  | none => .ok s
  | some f => if firmwareVariant f = s.indusVariant then .ok s else selectProfile s.mode (firmwareVariant f) s

/-- State 1 of `INDUS_EXECUTE` (47_cmd_status_percom_misc.md R376). -/
def indusState1 (s : State) : Result State :=
  if s.cmd.rxChecksumOK = false then takeException .dataNak s
  else do
    let s := beginTransferACKData s
    let s ← requireWithin 0 s.params.indusExecLen Config.bufSize s
    let s ← selectFirmware (indusFirmwareClassify s.params (s.recvBytes s.params.indusExecLen)) s
    return endCommand (beginTransferComplete s)

/-- `ProcessUnsupportedCommand` (47_cmd_status_percom_misc.md R380). The rejection reason is logged; a model omits the
log (42_dispatch.md R222). -/
def unsupportedState0 (s : State) : Result State := takeException .nak s

/-- A command whose only state is 0 (42_dispatch.md R220). -/
def onlyState0 (h : State → Result State) (s : State) : Result State :=
  match s.cmd.state.toNat with
  | 0 => h s
  | _ => programmingError .unlistedState

/-- The handler of `IndusExecute`: states 0 and 1. -/
def indusHandler (s : State) : Result State :=
  match s.cmd.state.toNat with
  | 0 => indusState0 s
  | 1 => indusState1 s
  | _ => programmingError .unlistedState

end Sys2Proof.Machine
end

