-- ==== Sys2Proof/Machine/ReadHandler.lean ====
section
/-! DEFINITION. The handler of the logical command Read: states 0, 20 and 21 (44_cmd_read.md), over the common path. -/

namespace Sys2Proof.Machine

/-- The RAM-window read, "Happy-drive memory peek" (44_cmd_read.md R298). -/
def readRamWindow (a : Nat) (s : State) : Result State := do
  let s := beginTransferACKCmd { s with cmd := { s.cmd with ramAddr := some a, len := 128 } }
  let s ← requireRamWindow a s
  let s := writeSend 0 (s.driveRAM.readBytes a 128) s
  let s ← sendResult true 128 s
  return endCommand s

/-- The accepting part of state 0 (44_cmd_read.md R293). -/
def readAccept (s : State) : State :=
  let s := s.emit (.checkSectorBreakpoint s.cmd.sector)
  let s := { s with cmd := { s.cmd with len := xferLen s.geom s.cmd.sector.toNat } }
  goto 10 (beginTransferACKCmd s)

/-- State 0: RAM window, sector check, acknowledgement (44_cmd_read.md R292, R293). -/
def readState0 (s : State) : Result State :=
  match vendorRamWindow s false with
  | some a => readRamWindow a s
  | none => if validSector s then .ok (readAccept s) else takeException .nak s

/-- `PostReadToCECycles(prof, bufferHit)`, a configuration function (44_cmd_read.md R297). -/
def postReadToCECycles (s : State) : Nat :=
  (s.params.tables.postReadToCE.lookup (s.profileKey, s.cmd.bufferHit)).getD s.prof.cyclesPostReadToCE

/-- The bytes whose time passes under the head (44_cmd_read.md R294, 43_rw_common.md R259). -/
def readTimedBytes (s : State) : Nat :=
  if s.prof.waitForLongSectors then s.cmd.physSize else min s.cmd.physSize s.cmd.len

/-- The time part of state 20: snap to the copy, transfer time, post-read delay (44_cmd_read.md R294). -/
def readOutcomeTime (s : State) : State :=
  match s.cmd.physSector with
  | some _ =>
    let s := snapRotation s.cmd.physPos s
    let xfer := if s.cmd.bufferHit then 0 else sectorXferCycles s (readTimedBytes s)
    warpOrDelay (xfer + postReadToCECycles s) 0 s
  | none => warpOrDelay (postReadToCECycles s) 0 s

/-- Weak-bit corruption, unless the read threw or the copy has no weak region (44_cmd_read.md R294). -/
def readWeak (s : State) : State :=
  match s.cmd.physWeakOffset with
  | some off => applyWeakBits off s.cmd.len s
  | none => s

/-- The data part of state 20: SEND is filled, or retained when no copy was found (44_cmd_read.md R294). -/
def readOutcomeData (s : State) : Result State :=
  match s.cmd.physSector with
  | none => .ok s
  | some p => do
    let (thrown, s) ← readPhys p s.cmd.len s
    return (if thrown then setFdcStatus s.params.fdcCrc s else readWeak s)

/-- "ok": a copy was found and the status is clean (44_cmd_read.md R294). -/
def readOk (s : State) : Bool := s.cmd.physSector.isSome && decide (s.fdcStatus = Config.fdcOk)

/-- End-of-read bookkeeping (44_cmd_read.md R296). -/
def noteRead (ok : Bool) (s : State) : State :=
  { s with
    lastReadSector := s.cmd.sector
    bufferedTrack :=
      if s.cmd.buffering then
        if ok || s.prof.bufferTrackReadErrors then some s.cmd.targetTrack else none
      else s.bufferedTrack }

/-- State 20 (44_cmd_read.md R294). -/
def readState20 (s : State) : Result State := do
  let s ← readOutcomeData (readOutcomeTime s)
  let ok := readOk s
  let s ← sendResult ok s.cmd.len s
  return wait 21 (noteRead ok s)

/-- State 21 (44_cmd_read.md R295). -/
def readState21 (s : State) : Result State := .ok (endCommand s)

/-- The handler of `Read` (44_cmd_read.md R291). -/
def readHandler (s : State) : Result State :=
  match s.cmd.state.toNat with
  | 0 => readState0 s
  | 10 => rwState10 s
  | 13 => .ok (rwSearch s)
  | 14 => .ok (rwSearch s)
  | 15 => .ok (rwSearch s)
  | 16 => .ok (rwSearch s)
  | 20 => readState20 s
  | 21 => readState21 s
  | _ => programmingError .unlistedState

end Sys2Proof.Machine
end

