-- ==== Sys2Proof/Machine/WriteHandler.lean ====
section
/-! DEFINITION. The handler of the logical command Write (put and write-with-verify): states 0, 20, 50 and 60
(45_cmd_write.md), over the common path. -/

namespace Sys2Proof.Machine

/-- The RAM-window write of state 0: acknowledge and receive 128 bytes (45_cmd_write.md R312). -/
def writeRamWindow (a : Nat) (s : State) : Result State := do
  let s := beginTransferACKCmd { s with cmd := { s.cmd with ramAddr := some a, len := 128 } }
  let s ← receivePayload 128 s
  return wait 50 s

/-- The accepting part of state 0 (45_cmd_write.md R313). -/
def writeAccept (s : State) : Result State := do
  let s := s.emit (.checkSectorBreakpoint s.cmd.sector)
  let s := beginTransferACKCmd { s with cmd := { s.cmd with len := xferLen s.geom s.cmd.sector.toNat } }
  let s ← receivePayload s.cmd.len s
  return wait 10 s

/-- State 0: RAM window, sector check, acknowledgement and payload; no write-enable test (45_cmd_write.md R312,
R313, 90_conflicts.md C4). -/
def writeState0 (s : State) : Result State :=
  match vendorRamWindow s true with
  | some a => writeRamWindow a s
  | none => if validSector s then writeAccept s else takeException .nak s

/-- The delay of a performed write: the sector's time, and a full rotation more for write-with-verify
(45_cmd_write.md R318, R322). DEDUCED: the bytes are those of R318 on every profile; 43_rw_common.md R259 counts the whole
physical sector on profiles that wait for long sectors (log 39). -/
def writeDelay (s : State) : Nat :=
  sectorXferCycles s (min s.cmd.physSize s.cmd.len) + (if s.cmd.verify then s.period else 0)

/-- The rotation and the delay after a physical write (45_cmd_write.md R318). -/
def writeTime (s : State) : State :=
  let s := snapRotation s.cmd.physPos s
  warpOrDelay (writeDelay s) 0 s

/-- The response to a physical write (45_cmd_write.md R318). -/
def writeResponse (s : State) : Result State :=
  if s.fdcStatus = Config.fdcOk then .ok (endCommand (beginTransferComplete s))
  else takeException (.errorResponse none) s

/-- The physical write of state 20 and its response (45_cmd_write.md R318). -/
def writeOutcome (p : Nat) (s : State) : Result State := do
  let (thrown, s) ← writePhys p s.cmd.len s
  writeResponse (writeTime (setFdcStatus (if thrown then s.params.fdcCrc else Config.fdcOk) s))

/-- State 20 (45_cmd_write.md R318): disk present, then write-enable, then sector resolved. -/
def writeState20 (s : State) : Result State :=
  let s := { s with bufferedTrack := none }
  if s.flags.diskPresent = false then takeException (.errorResponse none) s
  else if s.flags.writeEnabled = false then takeException (.errorResponse (some Config.fdcWriteProtect)) s
  else
    match s.cmd.physSector with
    | none => takeException (.errorResponse none) s
    | some p => writeOutcome p s

/-- `cmd.ramAddr`. DESIGN CHOICE: a saved state can be loaded at state 50 with no address (49_facade.md R449); the address
is then a free value whose window lies inside drive RAM, if one can (log 45). -/
def State.ramAddress (s : State) : Nat :=
  s.cmd.ramAddr.getD (Config.unsavedRamAddr s.freeCtr % (s.params.driveRamSize - 127))

/-- Store the RAM-window payload (45_cmd_write.md R320). -/
def storeRamWindow (s : State) : Result State := do
  let a := s.ramAddress
  let s ← requireRamWindow a s
  return { s with driveRAM := s.driveRAM.writeBytes a (s.recvBytes 128) }

/-- State 50 (45_cmd_write.md R320). -/
def writeState50 (s : State) : Result State :=
  if s.cmd.rxChecksumOK = false then takeException .dataNak s
  else do
    let s ← storeRamWindow (beginTransferACKData s)
    return wait 60 (beginTransferComplete s)

/-- State 60 (45_cmd_write.md R321). -/
def writeState60 (s : State) : Result State := .ok (endCommand s)

/-- The handler of `Write` (45_cmd_write.md R311). -/
def writeHandler (s : State) : Result State :=
  match s.cmd.state.toNat with
  | 0 => writeState0 s
  | 10 => rwState10 s
  | 13 => .ok (rwSearch s)
  | 14 => .ok (rwSearch s)
  | 15 => .ok (rwSearch s)
  | 16 => .ok (rwSearch s)
  | 20 => writeState20 s
  | 50 => writeState50 s
  | 60 => writeState60 s
  | _ => programmingError .unlistedState

end Sys2Proof.Machine
end

