-- ==== Sys2Proof/Machine/Process.lean ====
section
/-! DEFINITION. The dispatcher, the reception of a command frame, and the events that resume or abort a command
(42_dispatch.md). -/

namespace Sys2Proof.Machine

/-- The handler table (42_dispatch.md R213). -/
def handler (s : State) : Result State :=
  match s.cmd.code with
  | .none => .ok s
  | .status => onlyState0 statusState0 s
  | .read => readHandler s
  | .write => writeHandler s
  | .format => formatHandler s
  | .readPercom => readPercomHandler s
  | .writePercom => writePercomHandler s
  | .getHighSpeedIndex => onlyState0 hsIndexState0 s
  | .happyQuiet => onlyState0 happyQuietState0 s
  | .happyRamTest => onlyState0 happyRamTestState0 s
  | .happyHeadPosTest => onlyState0 happyHeadPosState0 s
  | .happyRpmTest => onlyState0 happyRpmState0 s
  | .indusExecute => indusHandler s
  | .unsupported => onlyState0 unsupportedState0 s

/-- The loop of `ProcessCommand()`, at most `fuel` handler invocations (42_dispatch.md R210). -/
def processLoop : Nat → State → Result State
  | 0, s => if s.active && !s.cmd.waiting then .error (.refused .dispatcherBound) else .ok s
  | fuel + 1, s => if s.active && !s.cmd.waiting then handler s >>= processLoop fuel else .ok s

/-- `ProcessCommand()` (42_dispatch.md R210). Three invocations are more than any event needs: a `Goto` leads to a
state that waits or ends (R218). -/
def processCommand (s : State) : Result State := processLoop 3 s

/-! ### Reception -/

/-- `BeginCommand(logical, frame, isRead, verify)` (42_dispatch.md R202), on the fresh record with the two flags
`Decode` has set. -/
def beginCommand (d : Decoded) (rawCommand : Byte) (sector : Word16) (s : State) : State :=
  let s := advanceToNow s
  ({ s with cmd := { s.cmd with
      code := d.logical
      rawCommand := rawCommand
      sector := sector
      isRead := d.isRead
      verify := d.verify
      state := 0
      waiting := false
      startTime := s.now
      startRotationalPosition := s.rot.rotationalCounter } }).emit (.setActivity true)

/-- The record a frame starts from: fresh, with the flags of `Decode` (42_dispatch.md R201). -/
def freshCommand (d : Decoded) (s : State) : State :=
  { s with cmd := { ActiveCommand.fresh with
      highSpeedFlag := d.highSpeedFlag
      highSpeedFrame := d.highSpeedFrame } }

/-- The claimed part of `OnSerialBeginCommand(frame)` (42_dispatch.md R201): from `Decode` on. -/
def claimFrame (f : Operands) (op : BitVec 7) (row : Option Row) (s : State) : Result State := do
  let d := decodeRow s.prof s.bus f.h row
  let s := (freshCommand d s).emit .beginCommand
  let s := beginCommand d (commandByte f.h op) (sectorOperand f) s
  let s ← processCommand s
  return { s with reply := .start }

/-- `OnSerialBeginCommand(frame)` for a frame whose row is known (42_dispatch.md R201): enabled, device, overlap,
decode, in this order. `op` is the base opcode the frame carries. -/
def receiveFrame (f : Operands) (op : BitVec 7) (row : Option Row) (s : State) : Result State := do
  let s ← admitEvent s
  if s.enabled = false then return { s with reply := .notHandled }
  else if s.claims f = false then return { s with reply := .notHandled }
  else if s.active then .error (.refused .overlappingCommand)
  else claimFrame f op row s

/-- A frame of a row of the command table. A row whose opcode is unset takes the Unsupported path (30_encoding.md
R120; log 24). -/
def runRow (f : Operands) (row : Row) (s : State) : Host.Outcome State Fault Refusal :=
  (receiveFrame f (row.opcode.getD 0) (some row) s).toOutcome

/-- A frame whose base opcode has no row (30_encoding.md R120). -/
def runUnknown (f : Operands) (op : BitVec 7) (s : State) : Host.Outcome State Fault Refusal :=
  (receiveFrame f op none s).toOutcome

/-! ### The other transport events -/

/-- `OnSerialFence(id)` (42_dispatch.md R206, R207). A fence id the command does not wait for, "a fence id the unit never
asked for", stops the run (60_exceptions.md R468). -/
def onSerialFence (id : Word32) (s : State) : Result State :=
  if s.active then
    if s.cmd.waiting ∧ id = s.cmd.state then
      processCommand { s with cmd := { s.cmd with waiting := false, state := id } }
    else programmingError .fenceNotAwaited
  else .ok s

/-- `OnSerialReceiveComplete(id, data, len, checksumOK)` (42_dispatch.md R208, 20_memory.md R103). The id is ignored
(48_transfer.md R410; log 26). The transport's queue goes on behind the receive. -/
def onSerialReceiveComplete (data : List Byte) (checksumOK : Bool) (s : State) : Result State := do
  let s := if s.selfTimed then { s with wire := s.wire.completeReceive s.now } else s
  if s.active then
    let s ← requireWithin s.rxOffset data.length Config.bufSize s
    return { s with
      recvBuf := s.recvBuf.writeBytes s.rxOffset data
      cmd := { s.cmd with rxLen := data.length, rxChecksumOK := checksumOK } }
  else return s

/-- `OnSerialAbortCommand()` (42_dispatch.md R205). -/
def onSerialAbortCommand (s : State) : State := abortCommand true s

/-- `OnSerialAccelCommand(request)`: not accelerated, no state changes (42_dispatch.md R209; log 27). -/
def onSerialAccelCommand (s : State) : State := { s with reply := .notAccelerated }

end Sys2Proof.Machine
end

