-- ==== Sys2Proof/Machine/Facade.lean ====
section
/-! DEFINITION. The lifecycle operations and change notifications (49_facade.md) and reset (70_reset_and_hazards.md). -/

namespace Sys2Proof.Machine

/-! ### Reset and initialisation -/

/-- `initialRotationOffset(seed, unit)`, a configuration function (70_reset_and_hazards.md R504; log 12). -/
def initialRotationOffset (p : Params) (unit : Byte) : Nat :=
  (p.tables.initialRotationOffset.lookup (p.seed, unit)).getD 0

/-- The head position after reset (70_reset_and_hazards.md R506). DESIGN CHOICE: `END_OF_TRAVEL_TRACK` is not bounded
(log 34). -/
def resetTrack (p : Params) (q : Profile) : Nat :=
  if q.retryMode1050 then 0 else p.endOfTravelTrack * (if q.seekHalfTracks then 2 else 1)

/-- The assignments of `Reset()` from the base profile on (70_reset_and_hazards.md R501). -/
def resetRegisters (s : State) : State :=
  let s := { s with
    rot := { rotationalCounter := initialRotationOffset s.params s.unit % s.period
             rotationCount := 0
             lastUpdateCycle := s.now }
    fdcStatus := s.prof.powerOnFDCStatus
    lastOpError := false
    currentTrack := resetTrack s.params s.prof
    bufferedTrack := none
    lastReadSector := 0 }
  let s := refreshFlags (refreshGeometry s)
  { s with
    phantomCounter := List.replicate s.geom.totalSectors 0
    xferCyclesPerBit := s.prof.cyclesPerSIOBit
    xferCyclesPerByte := s.prof.cyclesPerSIOByte }

/-- Select the base profile of the mode, as `Reset` does; an ill-formed profile is refused (40_profile_table.md
R153). -/
def selectBase (s : State) : Result State := requireProfile { s with indusVariant := .base }

/-- `Reset()` (70_reset_and_hazards.md R501). DESIGN CHOICE: the other `cmd.*` fields, unspecified in 10_state.md R70, keep
what an earlier command left (log 11). -/
def resetUnit (s : State) : Result State := do
  let s ← selectBase (turnOffMotor (abortCommand false s))
  return resetRegisters s

/-- `Init(unit, …)` (70_reset_and_hazards.md R500). The bindings and registrations leave no state (log 28).
DESIGN CHOICE: the other `cmd.*` fields, unspecified in 10_state.md R70, keep what an earlier command left (log 11). -/
def initUnit (unit : Byte) (configuredMode : Option Nat) (s : State) : Result State :=
  if s.params.numUnits ≤ unit.toNat then programmingError .unitOutOfRange
  else do
    let s ← selectBase { s with
      unit := unit
      enabled := false
      mode := configuredMode.getD 0
      motorOffDeadline := none
      cmd := { s.cmd with code := .none, waiting := false, state := 0 }
      flags := { s.flags with trackBufferingDisabled := false }
      weakBitLFSR := s.params.weakLfsrSeed
      sendBuf := Memory.zero
      recvBuf := Memory.zero
      driveRAM := Memory.zero
      forcedOrder := List.replicate s.physCount 0 }
    resetUnit s

/-! ### Lifecycle -/

/-- `SetEnabled(b)` (49_facade.md R423). -/
def setEnabled (b : Bool) (s : State) : State :=
  let s := if b then s else turnOffMotor (abortCommand false s)
  { s with enabled := b }

/-- `SetEmulationMode(mode)` (49_facade.md R425). -/
def setEmulationMode (mode : Nat) (s : State) : Result State := selectProfile mode .base s

/-! ### Change notifications -/

/-- The image's data in canonical form; the bytes are the same. -/
def Disk.canonical (d : Disk) : Disk :=
  { d with image := d.image.map fun img =>
      { img with phys := img.phys.map fun x => { x with data := x.data.normalise } } }

/-- `OnDiskChanged()` (49_facade.md R428). -/
def onDiskChanged (s : State) : State :=
  let s := clearSectorArrays (refreshFlags (refreshGeometry s))
  let s := { s with bufferedTrack := none }
  if s.cmd.code = .read ∨ s.cmd.code = .write then
    { s with cmd := { s.cmd with physSector := none, physWeakOffset := none }, fdcStatus := s.params.fdcRnf }
  else s

/-- `OnWriteModeChanged()` (49_facade.md R429). -/
def onWriteModeChanged (s : State) : State :=
  { s with flags := { s.flags with writeEnabled := s.disk.writeEnabled, formatEnabled := s.disk.formatEnabled } }

/-- `OnTimingModeChanged()` (49_facade.md R430). -/
def onTimingModeChanged (s : State) : State :=
  { s with flags := { s.flags with accurateSectorTiming := s.disk.accurateTiming } }

/-- `OnAudioModeChanged()` (49_facade.md R431), its sound call "only when `st.driveSoundsEnabled`" (20_memory.md R92).
DEDUCED: so no call is made when the new flag is false (log 35). -/
def onAudioModeChanged (s : State) : State :=
  let s := { s with flags := { s.flags with driveSoundsEnabled := s.disk.driveSoundsEnabled } }
  if s.motorRunning then emitMotorSound s.flags.driveSoundsEnabled s else s

/-- `SetTrackBufferingDisabled(b)` (49_facade.md R432). -/
def setTrackBufferingDisabled (b : Bool) (s : State) : State :=
  { s with
    flags := { s.flags with trackBufferingDisabled := b }
    bufferedTrack := if b then none else s.bufferedTrack }

/-- `IsImageSupported(image)`, the default (49_facade.md R433). -/
def isImageSupported (img : Image) : Bool :=
  legalSectorSize img.geometry.bytesPerSector && decide (1 ≤ img.geometry.totalSectors) &&
    decide (img.geometry.totalSectors ≤ 65535)

/-- `SetForcedPhantomOrder(p, k)` (49_facade.md R434). DESIGN CHOICE: for a physical sector the image does not have, the
list grows to hold the entry, the entries between being 0, "none" (10_state.md R56; log 19). -/
def setForcedPhantomOrder (p : Nat) (k : Byte) (s : State) : State :=
  { s with forcedOrder := setEntry 0 p k s.forcedOrder }

end Sys2Proof.Machine
end

