-- ==== Sys2Proof/Machine/SavedState.lean ====
section
/-! DEFINITION. `SaveState` and `LoadState` (49_facade.md R445 to R450). -/

namespace Sys2Proof.Machine

/-- The number of a logical command (10_state.md R71). -/
def LogicalCommand.number : LogicalCommand → Nat
  | .none => 0
  | .status => 1
  | .read => 2
  | .write => 3
  | .format => 4
  | .readPercom => 5
  | .writePercom => 6
  | .getHighSpeedIndex => 7
  | .happyQuiet => 8
  | .happyRamTest => 9
  | .happyHeadPosTest => 10
  | .happyRpmTest => 11
  | .indusExecute => 12
  | .unsupported => 13

/-- The logical command with a number; `none` above 13. -/
def LogicalCommand.ofNumber : Nat → Option LogicalCommand
  | 0 => some .none
  | 1 => some .status
  | 2 => some .read
  | 3 => some .write
  | 4 => some .format
  | 5 => some .readPercom
  | 6 => some .writePercom
  | 7 => some .getHighSpeedIndex
  | 8 => some .happyQuiet
  | 9 => some .happyRamTest
  | 10 => some .happyHeadPosTest
  | 11 => some .happyRpmTest
  | 12 => some .indusExecute
  | 13 => some .unsupported
  | _ => Option.none

/-- The states 42_dispatch.md R220 lists for a command; the cursor of no command is 0 (10_state.md R70). -/
def LogicalCommand.states : LogicalCommand → List Nat
  | .none => [0]
  | .status => [0]
  | .read => [0, 10, 13, 14, 15, 16, 20, 21]
  | .write => [0, 10, 13, 14, 15, 16, 20, 50, 60]
  | .format => [0, 2, 3, 4, 5]
  | .readPercom => [0]
  | .writePercom => [0, 1]
  | .getHighSpeedIndex => [0]
  | .happyQuiet => [0]
  | .happyRamTest => [0]
  | .happyHeadPosTest => [0]
  | .happyRpmTest => [0]
  | .indusExecute => [0, 1]
  | .unsupported => [0]

/-- "`GetSnapshot().counter / prof.cyclesPerDiskRotation`, an exact rational" (49_facade.md R446). -/
def rotationFraction (s : State) : Frac := ⟨(getSnapshot s).1, s.period⟩

/-- `SaveState() -> blob` (49_facade.md R446): a pure read. -/
def saveState (s : State) : SavedState :=
  { idleTimerRemaining := match s.motorOffDeadline with
      | none => 0
      | some d => d - s.now
    activeCommand := s.cmd.code.number
    activeCommandState := s.cmd.state
    activeCommandSector := s.cmd.sector
    activeCommandElapsed := s.elapsed
    buffering := s.cmd.buffering
    bufferHit := s.cmd.bufferHit
    trackBufferingDisabled := s.flags.trackBufferingDisabled
    rotationFraction := rotationFraction s
    currentTrack := s.currentTrack
    bufferedTrack := s.bufferedTrack
    lastReadSector := s.lastReadSector
    transportBlob := s.wire.save s.now s.rxOffset
    highSpeedFlag := s.cmd.highSpeedFlag
    highSpeedFrame := s.cmd.highSpeedFrame
    rawCommand := s.cmd.rawCommand
    isRead := s.cmd.isRead
    verify := s.cmd.verify
    len := s.cmd.len
    targetTrack := s.cmd.targetTrack
    physSector := s.cmd.physSector
    physPos := s.cmd.physPos
    physWeakOffset := s.cmd.physWeakOffset
    physSize := s.cmd.physSize
    rxChecksumOK := s.cmd.rxChecksumOK
    rxLen := s.cmd.rxLen
    formatTrack := s.cmd.formatTrack
    ramAddr := s.cmd.ramAddr
    fdcStatus := s.fdcStatus
    lastOpError := s.lastOpError
    percom := s.percom
    indusVariant := s.indusVariant
    weakBitLFSR := s.weakBitLFSR
    phantomCounter := s.phantomCounter
    forcedOrder := s.forcedOrder
    geom := s.geom
    sendBuf := s.sendBuf
    recvBuf := s.recvBuf
    driveRAM := s.driveRAM }

/-- The states a command may be saved in. -/
def SavedState.listedState (b : SavedState) : Bool :=
  match LogicalCommand.ofNumber b.activeCommand with
  | none => false
  | some c => c.states.contains b.activeCommandState.toNat

/-- The validation of 49_facade.md R449, in the order of 60_exceptions.md R476: idle timer, track, then the added
checks. -/
def SavedState.valid (p : Params) (b : SavedState) : Bool :=
  decide (b.idleTimerRemaining < p.maxIdleTimer) && decide (b.currentTrack < 65535) &&
    decide (b.activeCommand ≤ 13) && b.rotationFraction.belowOne && b.listedState

/-- "Copy every saved field into st and cmd" (49_facade.md R447). `cmd.startRotationalPosition` is not a saved field.
"`cmd.startTime <- now - blob.activeCommandElapsed`" is an integer, so that a unit younger than the command keeps its
elapsed time (R450; log 21). -/
def restoreFields (b : SavedState) (s : State) : State :=
  { s with
    indusVariant := b.indusVariant
    currentTrack := b.currentTrack
    geom := b.geom
    bufferedTrack := b.bufferedTrack
    lastReadSector := b.lastReadSector
    flags := { s.flags with trackBufferingDisabled := b.trackBufferingDisabled }
    cmd := { s.cmd with
      code := (LogicalCommand.ofNumber b.activeCommand).getD .none
      highSpeedFlag := b.highSpeedFlag
      highSpeedFrame := b.highSpeedFrame
      sector := b.activeCommandSector
      state := b.activeCommandState
      waiting := decide (b.activeCommand ≠ 0)
      startTime := if b.activeCommand ≠ 0 then (s.now : Int) - b.activeCommandElapsed else s.cmd.startTime
      rawCommand := b.rawCommand
      isRead := b.isRead
      verify := b.verify
      len := b.len
      targetTrack := b.targetTrack
      buffering := b.buffering
      bufferHit := b.bufferHit
      physSector := b.physSector
      physPos := b.physPos
      physWeakOffset := b.physWeakOffset
      physSize := b.physSize
      rxChecksumOK := b.rxChecksumOK
      rxLen := b.rxLen
      formatTrack := b.formatTrack
      ramAddr := b.ramAddr }
    fdcStatus := b.fdcStatus
    lastOpError := b.lastOpError
    percom := b.percom
    phantomCounter := b.phantomCounter
    forcedOrder := b.forcedOrder
    weakBitLFSR := b.weakBitLFSR
    sendBuf := b.sendBuf.normalise
    recvBuf := b.recvBuf.normalise
    driveRAM := b.driveRAM.normalise }

/-- The rotational state and the motor timer of `LoadState` (49_facade.md R447, R448). -/
def restoreTimers (b : SavedState) (s : State) : State :=
  let s := { s with rot := { rotationalCounter := b.rotationFraction.scale s.period
                             rotationCount := 0
                             lastUpdateCycle := s.now } }
  if 0 < b.idleTimerRemaining then
    ({ s with motorOffDeadline := some (s.now + b.idleTimerRemaining) }).emit (.schedule b.idleTimerRemaining)
  else { s with motorOffDeadline := none }

/-- Drop whatever was running, and the motor-off event (49_facade.md R447). -/
def dropRunning (s : State) : State :=
  let s := abortCommand false s
  if s.motorRunning then s.emit .unschedule else s

/-- A valid blob replaces the state (49_facade.md R447). -/
def restore (b : SavedState) (s : State) : Result State := do
  let s ← requireProfile (restoreFields b (dropRunning s))
  let s := restoreTimers b s
  return { s with wire := b.transportBlob.load s.now, rxOffset := b.transportBlob.rxOffset, reply := .loaded }

/-- `LoadState(blob)` (49_facade.md R447): X10 returns `InvalidSavedState` to the caller and leaves the unit as it was
(60_exceptions.md R466; log 22). -/
def loadState (b : SavedState) (s : State) : Result State :=
  if b.valid s.params then restore b s else .ok { s with reply := .invalidSavedState }

end Sys2Proof.Machine
end

