-- ==== Sys2Proof/Machine/Deliver.lean ====
section
/-! DEFINITION. The handling of the events that are not command frames (00_scope.md R12, 30_encoding.md R125), and the
record of a command frame. -/

namespace Sys2Proof.Machine

/-- The four bytes of a frame, first-transmitted first (30_encoding.md R110, R111). -/
def Frame.bytes (f : Frame) : List Byte := [f.device, f.command, f.aux1, f.aux2]

/-- What the transport records of a command frame: its rate and its clock accessors (30_encoding.md R110,
20_memory.md R89). -/
def State.withFrame (s : State) (f : Frame) (frameEnd deassert skew : Cycle) : State :=
  { s with bus := { cyclesPerBit := f.cyclesPerBit, standardRate := f.standardRate, frameEnd := frameEnd,
                    deassert := deassert, accelTimeSkew := skew } }

/-- The Disk Interface's answers change. -/
def State.withDisk (s : State) (d : Disk) : State := { s with disk := d.canonical }

/-- The handler of an event that is not a command frame. -/
def handleEvent : Event → State → Result State
  | .serialBeginCommand _ _ _ _, s => .ok s
  | .serialAbortCommand, s => .ok (onSerialAbortCommand s)
  | .serialReceiveComplete _ data ok, s => onSerialReceiveComplete data ok s
  | .serialFence id, s => onSerialFence id s
  | .serialAccelCommand _, s => .ok (onSerialAccelCommand s)
  | .motorOffTimer, s => .ok (motorOffTimer s)
  | .diskChanged d, s => .ok (onDiskChanged (s.withDisk d))
  | .writeModeChanged w f, s =>
    .ok (onWriteModeChanged { s with disk := { s.disk with writeEnabled := w, formatEnabled := f } })
  | .timingModeChanged a, s => .ok (onTimingModeChanged { s with disk := { s.disk with accurateTiming := a } })
  | .audioModeChanged a, s => .ok (onAudioModeChanged { s with disk := { s.disk with driveSoundsEnabled := a } })
  | .isImageSupported img, s => .ok { s with reply := .imageSupported (isImageSupported img) }
  | .init unit configuredMode, s => initUnit unit configuredMode s
  | .reset, s => resetUnit s
  | .setEnabled b, s => .ok (setEnabled b s)
  | .setEmulationMode mode, s => setEmulationMode mode s
  | .saveState, s => .ok { s with reply := .saved (saveState s) }
  | .loadState blob, s => loadState blob s
  | .setForcedPhantomOrder p k, s => .ok (setForcedPhantomOrder p k s)
  | .setTrackBufferingDisabled b, s => .ok (setTrackBufferingDisabled b s)
  | .diskAnswers d, s => .ok (s.withDisk d)

/-- An admitted event is handled. -/
def deliver (e : Event) (s : State) : Result State := admitEvent s >>= handleEvent e

end Sys2Proof.Machine
end

