-- ==== Sys2Proof/Machine/FormatCommands.lean ====
section
/-! DEFINITION. The meanings of the format commands (46_cmd_format.md): the reception of the frame, by the row of the command
table of each (30_encoding.md R117 to R119). The later checkpoints of a command run when its fence is delivered, by the
same handlers (42_dispatch.md R206). -/

namespace Sys2Proof.Machine

/-- `FORMAT`: (46_cmd_format.md R331). -/
def execFormat (f : Operands) (s : State) : Host.Outcome State Fault Refusal :=
  runRow f ⟨(Instr.format f).opcode s.params.opcodes, fun _ => true, .format, false, false⟩ s

/-- `FORMAT_SKEWED`: gated by `supportsFormatSkewed` (46_cmd_format.md R331, 30_encoding.md R119). -/
def execFormatSkewed (f : Operands) (s : State) : Host.Outcome State Fault Refusal :=
  runRow f ⟨(Instr.formatSkewed f).opcode s.params.opcodes, fun q => q.supportsFormatSkewed, .format, false, false⟩ s

/-- `FORMAT_BOOT`: gated by `supportsFormatBootTrack`; it runs exactly as FORMAT (46_cmd_format.md R331, R344). -/
def execFormatBoot (f : Operands) (s : State) : Host.Outcome State Fault Refusal :=
  runRow f ⟨(Instr.formatBoot f).opcode s.params.opcodes, fun q => q.supportsFormatBootTrack, .format, false, false⟩ s

end Sys2Proof.Machine
end

