-- ==== Sys2Proof/Machine/SectorCommands.lean ====
section
/-! DEFINITION. The meanings of the sector commands READ, PUT and WRITE (44_cmd_read.md, 45_cmd_write.md): the
reception of the frame, by the row of the command
table of each (30_encoding.md R117 to R119). The later checkpoints of a command run when its fence is delivered, by the
same handlers (42_dispatch.md R206). -/

namespace Sys2Proof.Machine

/-- `READ`: the handler runs states 0 and 10 in this event (44_cmd_read.md R291). -/
def execRead (f : Operands) (s : State) : Host.Outcome State Fault Refusal :=
  runRow f ⟨(Instr.read f).opcode s.params.opcodes, fun _ => true, .read, true, false⟩ s

/-- `PUT`: write without verify: state 0 runs in this event (45_cmd_write.md R311). -/
def execPut (f : Operands) (s : State) : Host.Outcome State Fault Refusal :=
  runRow f ⟨(Instr.put f).opcode s.params.opcodes, fun _ => true, .write, false, false⟩ s

/-- `WRITE`: write with verify (45_cmd_write.md R311). -/
def execWrite (f : Operands) (s : State) : Host.Outcome State Fault Refusal :=
  runRow f ⟨(Instr.write f).opcode s.params.opcodes, fun _ => true, .write, false, true⟩ s

end Sys2Proof.Machine
end

