-- ==== Sys2Proof/Machine/StatusCommands.lean ====
section
/-! DEFINITION. The meanings of the status, PERCOM and high-speed-index commands (47_cmd_status_percom_misc.md): the reception of the frame, by the row of the command
table of each (30_encoding.md R117 to R119). The later checkpoints of a command run when its fence is delivered, by the
same handlers (42_dispatch.md R206). -/

namespace Sys2Proof.Machine

/-- `STATUS`: the whole command runs in this event (47_cmd_status_percom_misc.md R351). -/
def execStatus (f : Operands) (s : State) : Host.Outcome State Fault Refusal :=
  runRow f ⟨(Instr.status f).opcode s.params.opcodes, fun _ => true, .status, false, false⟩ s

/-- `READ_PERCOM`: gated by `supportsPERCOM` (47_cmd_status_percom_misc.md R361). -/
def execReadPercom (f : Operands) (s : State) : Host.Outcome State Fault Refusal :=
  runRow f ⟨(Instr.readPercom f).opcode s.params.opcodes, fun q => q.supportsPERCOM, .readPercom, false, false⟩ s

/-- `WRITE_PERCOM`: gated by `supportsPERCOM` (47_cmd_status_percom_misc.md R363). -/
def execWritePercom (f : Operands) (s : State) : Host.Outcome State Fault Refusal :=
  runRow f ⟨(Instr.writePercom f).opcode s.params.opcodes, fun q => q.supportsPERCOM, .writePercom, false, false⟩ s

/-- `GET_HS_INDEX`: gated by `supportsGetHighSpeedIndex` (47_cmd_status_percom_misc.md R370). -/
def execGetHsIndex (f : Operands) (s : State) : Host.Outcome State Fault Refusal :=
  runRow f ⟨(Instr.getHsIndex f).opcode s.params.opcodes, fun q => q.supportsGetHighSpeedIndex, .getHighSpeedIndex, false, false⟩ s

end Sys2Proof.Machine
end

