-- ==== Sys2Proof/Machine/VendorCommands.lean ====
section
/-! DEFINITION. The meanings of the vendor commands (47_cmd_status_percom_misc.md R371 to R378): the reception of the frame, by the row of the command
table of each (30_encoding.md R117 to R119). The later checkpoints of a command run when its fence is delivered, by the
same handlers (42_dispatch.md R206). -/

namespace Sys2Proof.Machine

/-- `HAPPY_QUIET`: gated by the Happy family (47_cmd_status_percom_misc.md R372). -/
def execHappyQuiet (f : Operands) (s : State) : Host.Outcome State Fault Refusal :=
  runRow f ⟨(Instr.happyQuiet f).opcode s.params.opcodes, fun q => decide (q.family = .happy), .happyQuiet, false, false⟩ s

/-- `HAPPY_RAMTEST`: gated by the Happy family (47_cmd_status_percom_misc.md R373). -/
def execHappyRamtest (f : Operands) (s : State) : Host.Outcome State Fault Refusal :=
  runRow f ⟨(Instr.happyRamtest f).opcode s.params.opcodes, fun q => decide (q.family = .happy), .happyRamTest, false, false⟩ s

/-- `HAPPY_HEADPOS`: gated by the Happy family (47_cmd_status_percom_misc.md R374). -/
def execHappyHeadpos (f : Operands) (s : State) : Host.Outcome State Fault Refusal :=
  runRow f ⟨(Instr.happyHeadpos f).opcode s.params.opcodes, fun q => decide (q.family = .happy), .happyHeadPosTest, false, false⟩ s

/-- `HAPPY_RPMTEST`: gated by the Happy family (47_cmd_status_percom_misc.md R375). -/
def execHappyRpmtest (f : Operands) (s : State) : Host.Outcome State Fault Refusal :=
  runRow f ⟨(Instr.happyRpmtest f).opcode s.params.opcodes, fun q => decide (q.family = .happy), .happyRpmTest, false, false⟩ s

/-- `INDUS_EXECUTE`: gated by the Indus GT family (47_cmd_status_percom_misc.md R376). -/
def execIndusExecute (f : Operands) (s : State) : Host.Outcome State Fault Refusal :=
  runRow f ⟨(Instr.indusExecute f).opcode s.params.opcodes, fun q => decide (q.family = .indusGT), .indusExecute, false, false⟩ s

end Sys2Proof.Machine
end

