-- ==== Sys2Proof/Machine/Dispatch.lean ====
section
/-! DEFINITION. One arm per instruction. -/

namespace Sys2Proof.Machine

def exec (i : Instr) (s : State) : Host.Outcome State Fault Refusal :=
  match i with
  | .status f => Sys2Proof.Machine.execStatus f s
  | .read f => Sys2Proof.Machine.execRead f s
  | .put f => Sys2Proof.Machine.execPut f s
  | .write f => Sys2Proof.Machine.execWrite f s
  | .format f => Sys2Proof.Machine.execFormat f s
  | .formatSkewed f => Sys2Proof.Machine.execFormatSkewed f s
  | .formatBoot f => Sys2Proof.Machine.execFormatBoot f s
  | .readPercom f => Sys2Proof.Machine.execReadPercom f s
  | .writePercom f => Sys2Proof.Machine.execWritePercom f s
  | .getHsIndex f => Sys2Proof.Machine.execGetHsIndex f s
  | .happyQuiet f => Sys2Proof.Machine.execHappyQuiet f s
  | .happyRamtest f => Sys2Proof.Machine.execHappyRamtest f s
  | .happyHeadpos f => Sys2Proof.Machine.execHappyHeadpos f s
  | .happyRpmtest f => Sys2Proof.Machine.execHappyRpmtest f s
  | .indusExecute f => Sys2Proof.Machine.execIndusExecute f s

end Sys2Proof.Machine
end

