-- ==== Sys2Proof/Machine/Frames.lean ====
section
/-! DEFINITION. From an event to the instruction it carries: the frame is recorded, decoded and executed
(30_encoding.md R110 to R120). -/

namespace Sys2Proof.Machine

/-- `SerialBeginCommand(frame)`: the instruction the frame decodes to is executed; a frame that decodes to no row takes
the Unsupported path (30_encoding.md R120). -/
def beginFrame (f : Frame) (frameEnd deassert skew : Cycle) (s : State) : Host.Outcome State Fault Refusal :=
  let s := s.withFrame f frameEnd deassert skew
  match decode s.params.opcodes f.bytes with
  | .ok i => exec i s
  | .error _ => runUnknown (operandsOf f.device f.command f.aux1 f.aux2) (baseOpcode f.command) s

/-- Handle one event at the Cycle in `now`. -/
def handle : Event → State → Host.Outcome State Fault Refusal
  | .serialBeginCommand f frameEnd deassert skew, s => beginFrame f frameEnd deassert skew s
  | e, s => (deliver e s).toOutcome

/-- The state an event is handled in: at the event's Cycle, with no answer given yet. -/
def Candidate.state (c : Candidate) : State := { c.rest with now := c.time, reply := .none }

/-- The device byte of a word (30_encoding.md R111). -/
def deviceOfWord (w : Word32) : Byte := w.extractLsb' 24 8

/-- The frame whose bytes are the word `w`, received at the standard rate (30_encoding.md R111). -/
def frameOfWord (w : Word32) (cyclesPerBit : Nat) : Frame :=
  { device := deviceOfWord w, command := w.extractLsb' 16 8, aux1 := w.extractLsb' 8 8,
    aux2 := w.extractLsb' 0 8, cyclesPerBit := cyclesPerBit, standardRate := true }

/-- The event that a frame of word `w` was received at `now`, the command line released at once (log 14). -/
def frameEvent (w : Word32) (s : State) : TimedEvent :=
  ⟨s.now, .serialBeginCommand (frameOfWord w s.prof.cyclesPerSIOBit) s.now s.now 0⟩

/-- The unit number a device id names, 0 for one below `DEVICE_BASE` (30_encoding.md R113; log 37). -/
def unitOfWord (p : Params) (w : Word32) : Byte :=
  if (deviceOfWord w).toNat < p.deviceBase.toNat then 0 else deviceOfWord w - p.deviceBase

/-- The `DEVICE_BASE` under which that unit has that id: `p`'s own, or the id where it lies below (log 37). -/
def baseOfWord (p : Params) (w : Word32) : Byte :=
  if (deviceOfWord w).toNat < p.deviceBase.toNat then deviceOfWord w else p.deviceBase

end Sys2Proof.Machine
end

