-- ==== Sys2Proof/Machine/Step.lean ====
section
/-! DEFINITION. One step: the next event is taken from the inbox, the reference transport or the scheduler and handled
to completion (00_scope.md R12, 60_exceptions.md R475, R476). -/

namespace Sys2Proof.Machine

/-- One step. With no event due the unit stays as it is. -/
def step (s : State) : Host.Outcome State Fault Refusal :=
  match s.nextEvent with
  | none => .next s
  | some c => handle c.event c.state

/-- The state with the frame of a table word as the next event: received now at the standard rate and addressed to
this unit, which is enabled and has the unit number the frame's device byte names (log 14). DESIGN CHOICE: a device byte
below `DEVICE_BASE` names no unit, so `DEVICE_BASE` is lowered to it (log 37). -/
def State.withFetchWord (s : State) (nbits w : Nat) : State :=
  { s with
    unit := unitOfWord s.params (tableWord nbits w)
    params := { s.params with deviceBase := baseOfWord s.params (tableWord nbits w) }
    enabled := true
    inbox := frameEvent (tableWord nbits w) s :: s.inbox }

end Sys2Proof.Machine
end

