-- ==== Sys2Proof/Safety.lean ====
section
/-! DEFINITION. What counts as a sound state and a claimable frame, in the terms the statements use. -/

namespace Sys2Proof.Machine

/-- A command is finished or suspended: idle with the cursor at 0, or waiting on a fence at a state listed for the
command (42_dispatch.md R217, R218, R220; 49_facade.md R447: "an active command between events is always waiting"). -/
def State.settled (s : State) : Bool :=
  if s.active then s.cmd.waiting && s.cmd.code.states.contains s.cmd.state.toNat
  else !s.cmd.waiting && decide (s.cmd.state = 0)

/-- Every sector's data is canonical. -/
def Disk.dataWf (d : Disk) : Bool :=
  match d.image with
  | none => true
  | some img => img.phys.all (fun x => x.data.wf)

/-- Every memory is canonical. -/
def State.memoriesWf (s : State) : Bool :=
  s.sendBuf.wf && s.recvBuf.wf && s.driveRAM.wf && s.disk.dataWf

/-- The invariant that every step keeps. -/
def State.Inv (s : State) : Prop := s.settled = true ∧ s.memoriesWf = true

/-- The conditions under which an event is handled: the clock, the mode, the profile in force, the parameters and the
head position (93_implementation_defined.md I26, 60_exceptions.md R468, 40_profile_table.md R153, 00_scope.md R8,
10_state.md R27). -/
def State.admitted (s : State) : Prop :=
  s.now < Config.clockLimit ∧ s.params.hasMode s.mode = true ∧ s.prof.wf s.params.maxIdleTimer = true ∧
    s.params.wf = true ∧ s.currentTrack < Config.trackLimit

/-- The active command waits for the fence `id` (42_dispatch.md R206, R211; 60_exceptions.md R468). -/
def State.awaits (s : State) (id : Word32) : Prop := s.admitted ∧ s.cmd.waiting = true ∧ s.cmd.state = id

/-- The frame is this unit's to claim: enabled, addressed, and no command active (42_dispatch.md R201). -/
def State.ready (s : State) (f : Operands) : Prop :=
  s.admitted ∧ s.enabled = true ∧ f.device.toNat = s.params.deviceBase.toNat + s.unit.toNat ∧ s.cmd.code = .none

/-- The frame arrived at a rate the profile accepts, and its bit 7 is clear or supported (30_encoding.md R115,
R116). -/
def State.speedAccepted (s : State) (f : Operands) : Prop :=
  (s.bus.standardRate = true ∨
    (s.prof.supportsHighSpeedCmdFrame = true ∧ s.prof.hsFrameCpbMin ≤ s.bus.cyclesPerBit ∧
      s.bus.cyclesPerBit ≤ s.prof.hsFrameCpbMax)) ∧
  (f.h = true → s.prof.supportsHighSpeedCmdBit = true)

/-- `cmd.highSpeedFrame` of an accepted frame (30_encoding.md R116). -/
def State.frameFast (s : State) : Bool := !s.bus.standardRate

/-- `cmd.highSpeedFlag` of an accepted frame (30_encoding.md R115, R116). -/
def State.replyFast (s : State) (f : Operands) : Bool := !s.bus.standardRate || f.h

/-- The command record of an accepted frame, at state 0 (42_dispatch.md R201, R202). -/
def State.startedCommand (s : State) (f : Operands) (op : BitVec 7) (logical : LogicalCommand)
    (isRead verify : Bool) : ActiveCommand :=
  { ActiveCommand.fresh with
    code := logical
    highSpeedFlag := s.replyFast f
    highSpeedFrame := s.frameFast
    sector := sectorOperand f
    rawCommand := commandByte f.h op
    isRead := isRead
    verify := verify
    startTime := s.now
    startRotationalPosition := (advanceToNow s).rot.rotationalCounter }

/-- The actions that begin every accepted or rejected command (42_dispatch.md R201, R202). -/
def startActions : List Action := [.beginCommand, .setActivity true]

/-- The action of `WarpOrDelay(cycles, 0)` (41_rotation_seek.md R173). -/
def State.warpAction (s : State) (cycles : Nat) : Action :=
  .delay (if s.flags.accurateSectorTiming then cycles else 0)

/-- The rotation after `AdvanceToNow` and `WarpOrDelay(cycles, 0)` (41_rotation_seek.md R171, R173). -/
def State.warped (s : State) (cycles : Nat) : Rotation :=
  if s.flags.accurateSectorTiming then (advanceToNow s).rot else (rotateBy cycles (advanceToNow s)).rot

/-- The transport after the actions of one event, in program order (20_memory.md R88, R94); `id` is the id of the
receive among them, if there is one (48_transfer.md R410). -/
def Wire.after (w : Wire) (now : Cycle) (id : Word32) (as : List Action) : Wire :=
  as.foldl (fun w a => w.push now id a) w

/-- The unit when the handler of an accepted frame is first invoked (42_dispatch.md R201, R202). -/
def State.started (s : State) (f : Operands) (op : BitVec 7) (logical : LogicalCommand) (isRead verify : Bool) :
    State :=
  { s with
    rot := (advanceToNow s).rot
    cmd := s.startedCommand f op logical isRead verify
    out := s.out ++ startActions
    wire := s.wire.after s.now 0 startActions }

/-- The record after `EndCommand`: no command, no wait, cursor 0 (42_dispatch.md R214). -/
def ActiveCommand.ended (c : ActiveCommand) : ActiveCommand := { c with code := .none, waiting := false, state := 0 }

/-- The set of an `ACK`: the rate, the delay, the byte (48_transfer.md R406, R407). -/
def ackActions (rate : Nat × Nat) (delay : Nat) : List Action :=
  [.setTransferRate rate.1 rate.2, .delay delay, .sendACK]

/-- The set of a result with its data frame (48_transfer.md R400). -/
def resultActions (rate : Nat × Nat) (success : Bool) (delay : Nat) (bytes : List Byte) : List Action :=
  [.setTransferRate rate.1 rate.2, if success then .sendComplete else .sendError, .delay delay, .sendData bytes true]

/-- The set of a `NAK` (48_transfer.md R402, R408). -/
def nakActions (rate : Nat × Nat) (delay : Nat) : List Action :=
  [.setTransferRate rate.1 rate.2, .delay delay, .sendNAK]

/-- The set of a Complete byte with no data frame (48_transfer.md R405). -/
def completeActions (rate : Nat × Nat) : List Action := [.setTransferRate rate.1 rate.2, .sendComplete]

/-- The set of an Error byte with no data frame (48_transfer.md R409). -/
def errorActions (rate : Nat × Nat) : List Action := [.setTransferRate rate.1 rate.2, .sendError]

/-- The set of `ReceivePayload(n)` (48_transfer.md R411). -/
def receiveActions (rate : Nat × Nat) (n : Nat) : List Action :=
  [.setTransferRate rate.1 rate.2, .receiveData 0 n true]

/-! ### The motor and the head -/

/-- The actions of `TurnOnMotor()` (49_facade.md R436, R437). -/
def motorOnActions (s : State) : List Action :=
  match s.motorOffDeadline with
  | none =>
    [.setMotorIndicator true] ++ (if s.flags.driveSoundsEnabled then [.motorSound true] else []) ++
      [.schedule s.prof.cyclesToMotorOff]
  | some d => if d < s.now + s.prof.cyclesToMotorOff then [.unschedule, .schedule s.prof.cyclesToMotorOff] else []

/-- The motor-off deadline after `TurnOnMotor()`: never earlier than it was (49_facade.md R436, R437). -/
def motorOnDeadline (s : State) : Cycle :=
  match s.motorOffDeadline with
  | none => s.now + s.prof.cyclesToMotorOff
  | some d => max d (s.now + s.prof.cyclesToMotorOff)

/-- The rotation when the motor runs from now on: a stopped disk starts at the angle it was left at (49_facade.md
R436). -/
def motorOnRot (s : State) : Rotation :=
  if s.motorRunning then (advanceToNow s).rot else { s.rot with lastUpdateCycle := s.now }

/-- The rotation after `TurnOnMotor()` and `WarpOrDelay(cycles, 0)` (41_rotation_seek.md R173). -/
def State.spun (s : State) (cycles : Nat) : Rotation :=
  if s.flags.accurateSectorTiming then motorOnRot s else (motorOnRot s).turn s.period cycles

/-- The same, in an event that has not called `AdvanceToNow`: with accurate timing a running disk is brought up to date
later (41_rotation_seek.md R170, R173). -/
def State.spunLater (s : State) (cycles : Nat) : Rotation :=
  if s.flags.accurateSectorTiming then
    (if s.motorRunning then s.rot else { s.rot with lastUpdateCycle := s.now })
  else (motorOnRot s).turn s.period cycles

/-- The rotation after `SnapRotation(pos)` and `WarpOrDelay(cycles, 0)` (41_rotation_seek.md R173, R184). -/
def State.snapped (s : State) (pos cycles : Nat) : Rotation :=
  if s.motorRunning then
    let r := { (advanceToNow s).rot with rotationalCounter := pos }
    if s.flags.accurateSectorTiming then r else r.turn s.period cycles
  else s.rot

/-- The unit as a fence resumes its command: not waiting, the cursor at the fence's id (42_dispatch.md R206). -/
def State.fenced (s : State) (id : Word32) : State := { s with cmd := { s.cmd with waiting := false, state := id } }

/-- The sounds of `steps` steps that start `base` cycles from now, when they are enabled (41_rotation_seek.md R177). -/
def stepActions (s : State) (base steps : Nat) : List Action :=
  if s.flags.driveSoundsEnabled then seekSounds s.prof base steps else []

/-- The sounds of `SeekTo(cyl, base)`, when they are enabled (41_rotation_seek.md R177, R178). -/
def seekActions (s : State) (cyl base : Nat) : List Action :=
  if s.flags.driveSoundsEnabled then
    seekSounds s.prof base (stepCycles s.prof ((trackOf s.prof cyl : Int) - s.currentTrack)).2
  else []

/-- The actions of a seek decision without a buffer hit (43_rw_common.md R242). -/
def spinActions (s : State) (cyl : Nat) : List Action :=
  motorOnActions s ++ seekActions s cyl (spinUpDelay s) ++
    [s.warpAction (spinUpDelay s + seekCycles s.prof s.currentTrack cyl)]

/-! ### Operands of the sector commands -/

/-- `VendorRamWindow` for a sector, on Happy profiles (20_memory.md R96, 44_cmd_read.md R292, 45_cmd_write.md
R312). -/
def State.ramWindowAt (s : State) (v : Word16) (isWrite : Bool) : Option Nat :=
  if s.prof.family = .happy then s.params.tables.vendorRamWindow.lookup (s.mode, v, isWrite) else none

/-- A sector a read or a write accepts (44_cmd_read.md R292, 45_cmd_write.md R312). -/
def State.sectorValid (s : State) (v : Word16) : Prop :=
  v ≠ 0 ∧ v.toNat ≤ (if s.flags.diskPresent then s.geom.totalSectors else s.params.bootRangeMax)

/-- A read of this sector is served through the track buffer (43_rw_common.md R243). -/
def State.buffers (s : State) (v : Word16) : Bool :=
  s.prof.bufferTrackReads && !s.flags.trackBufferingDisabled && (decide (v ≠ 1) || s.prof.bufferSector1)

/-! ### The end of a command -/

/-- The actions of `EndCommand`: the motor is re-armed only if it runs (42_dispatch.md R214, 49_facade.md R440). -/
def endActions (s : State) : List Action :=
  [.endCommand] ++ (if s.motorRunning then [.unschedule, .schedule s.prof.cyclesToMotorOff] else []) ++
    [.setActivity false]

/-- The motor-off deadline after a command ends now (49_facade.md R440). -/
def endDeadline (s : State) : Option Cycle :=
  if s.motorRunning then some (s.now + s.prof.cyclesToMotorOff) else none

/-! ### Rejected frames -/

/-- The gate of an instruction's row (30_encoding.md R118, R119). -/
def gateOf (q : Profile) : Instr → Bool
  | .status _ => true
  | .read _ => true
  | .put _ => true
  | .write _ => true
  | .format _ => true
  | .formatSkewed _ => q.supportsFormatSkewed
  | .formatBoot _ => q.supportsFormatBootTrack
  | .readPercom _ => q.supportsPERCOM
  | .writePercom _ => q.supportsPERCOM
  | .getHsIndex _ => q.supportsGetHighSpeedIndex
  | .happyQuiet _ => decide (q.family = .happy)
  | .happyRamtest _ => decide (q.family = .happy)
  | .happyHeadpos _ => decide (q.family = .happy)
  | .happyRpmtest _ => decide (q.family = .happy)
  | .indusExecute _ => decide (q.family = .indusGT)

/-- `cmd.highSpeedFlag` and `cmd.highSpeedFrame` of a rejected frame: what `Decode` had set when it rejected
(30_encoding.md R115 to R117). -/
def State.rejectedSpeed (s : State) (f : Operands) : Bool × Bool :=
  match frameSpeed s.prof s.bus with
  | none => (false, false)
  | some fast => if f.h && !s.prof.supportsHighSpeedCmdBit then (fast, fast) else (fast || f.h, fast)

/-- The actions of a frame that is answered with a `NAK` (60_exceptions.md R462, 48_transfer.md R402). -/
def rejectActions (s : State) (rate : Nat × Nat) : List Action :=
  startActions ++ nakActions rate (satSub (nakDeadline s) s.now) ++ endActions s

/-- The unit after a frame was answered with a `NAK`: nothing but the command record, the rotation's clock, the
transfer rate and the motor-off event has changed (60_exceptions.md R462). -/
def State.rejected (s : State) (f : Operands) (op : BitVec 7) (logical : LogicalCommand) (isRead verify : Bool)
    (speed : Bool × Bool) : State :=
  let rate := s.rateOf (commandByte f.h op) speed.2
  { s with
    rot := (advanceToNow s).rot
    cmd := { (s.startedCommand f op logical isRead verify).ended with
      highSpeedFlag := speed.1
      highSpeedFrame := speed.2 }
    xferCyclesPerBit := rate.1
    xferCyclesPerByte := rate.2
    motorOffDeadline := endDeadline s
    out := s.out ++ rejectActions s rate
    wire := s.wire.after s.now 0 (rejectActions s rate)
    reply := .start }

/-! ### Events that are not frames -/

/-- The actions of `ExtendMotorTimeoutBy` in an abort: a running motor's event moves out by the elapsed time
(42_dispatch.md R216, 49_facade.md R437, R438). -/
def extendActions (s : State) : List Action :=
  match s.motorOffDeadline with
  | none => []
  | some d => if 0 < s.elapsed then [.unschedule, .schedule (d + s.elapsed - s.now)] else []

/-- The actions of an abort that does not come from the transport (42_dispatch.md R216). -/
def abortActions (s : State) : List Action :=
  if s.active then extendActions s ++ [.flushQueue, .endCommand, .setActivity false] else []

/-- The actions of `TurnOffMotor()` (49_facade.md R441). -/
def motorOffActions (s : State) : List Action :=
  if s.motorRunning then
    [.unschedule, .setMotorIndicator false] ++ (if s.flags.driveSoundsEnabled then [.motorSound false] else [])
  else []

/-- The flags with the Disk Interface's answers (49_facade.md R426, R427). -/
def State.refreshedFlags (s : State) : Flags :=
  { diskPresent := s.disk.image.isSome
    writeEnabled := s.disk.writeEnabled
    formatEnabled := s.disk.formatEnabled
    accurateSectorTiming := s.disk.accurateTiming
    driveSoundsEnabled := s.disk.driveSoundsEnabled
    trackBufferingDisabled := s.flags.trackBufferingDisabled }

/-- The PERCOM block `RefreshGeometry` leaves (49_facade.md R426). -/
def State.refreshedPercom (s : State) : Percom :=
  match s.disk.image with
  | none => s.defaultPercom
  | some img => percomOfGeometry img.geometry.toLayout

/-- The geometry `RefreshGeometry` leaves (49_facade.md R426). -/
def State.refreshedGeometry (s : State) : Geometry :=
  match s.disk.image with
  | none => { toLayout := geometryOfPercom s.defaultPercom, totalSectors := 0,
              bootSectorCount := s.params.bootSectorCount, highDensity := false }
  | some img => img.geometry

/-- The sum of the delays among some actions. -/
def delaySum : List Action → Nat
  | [] => 0
  | .delay c :: as => c + delaySum as
  | _ :: as => delaySum as

/-- A sequence of `WarpOrDelay(cycles, minCycles)` calls. -/
def runWarps (cs : List (Nat × Nat)) (s : State) : State := cs.foldl (fun t c => warpOrDelay c.1 c.2 t) s

/-- `n` consecutive resolutions of a sector: the physical sectors chosen, in order, and the state afterwards. -/
def resolveTimes (v : Nat) (isRead : Bool) : Nat → State → List Nat × State
  | 0, s => ([], s)
  | n + 1, s =>
    match resolveSector v isRead s with
    | (.found p _, t) => (p :: (resolveTimes v isRead n t).1, (resolveTimes v isRead n t).2)
    | (.notFound _, t) => ([], t)

/-! ### Formatting -/

/-- The block an accepted skewed payload, or an accepted PERCOM write, leaves (47_cmd_status_percom_misc.md R366). -/
def State.storedPercom (s : State) (d : Percom) : Percom :=
  if s.prof.family = .xf551 then percomOfGeometry (xf551Normalize s.params d) else d

/-- The block `SetPERCOMData` accepts (47_cmd_status_percom_misc.md R366). -/
def State.acceptsPercom (s : State) (d : Percom) : Prop := s.prof.family = .xf551 ∨ percomValid d = true

/-- The active command is the skewed format (46_cmd_format.md R332). -/
abbrev State.skewed (s : State) : Prop := baseOpcode s.cmd.rawCommand = s.params.opcodes.formatSkewed

/-- The PERCOM block in force when state 3 of a format begins (46_cmd_format.md R335). -/
def State.formatPercom (s : State) : Percom :=
  if s.prof.supportsPERCOM = false then s.defaultPercom
  else if baseOpcode s.cmd.rawCommand = s.params.opcodes.formatSkewed then s.storedPercom (percomAt s.recvBuf) else s.percom

/-- The actions before state 2's checks of a format: a skewed payload is acknowledged (46_cmd_format.md R333). -/
def formatAckActions (s : State) : List Action :=
  if baseOpcode s.cmd.rawCommand = s.params.opcodes.formatSkewed then
    ackActions (s.rateOf s.cmd.rawCommand s.cmd.highSpeedFlag) s.prof.cyclesToACKSent
  else []

/-- The 0xFF bytes of a format's reply (46_cmd_format.md R340, R345). -/
def formatReply (n : Nat) : List Byte := List.replicate n 0xFF

end Sys2Proof.Machine
end

