-- ==== Sys2Proof/Certificates/Slice0/Obligations.lean ====
section
/-! DEFINITION. The statements: what an instruction or the machine does, from the numbered rules of the spec. A next
state is given as an update of the state before, so every field the update does not name is unchanged. -/

open Sys2Proof Sys2Proof.Machine

/-! ### What each instruction does -/

/-- STATUS (47_cmd_status_percom_misc.md R351): acknowledged, a profile-timed wait, four bytes, end. -/
def Obligations.StatusResult : Prop :=
  ∀ (s : State) (f : Operands), s.ready f → s.speedAccepted f →
    let raw := commandByte f.h s.params.opcodes.status
    let ackRate := s.rateOf raw s.frameFast
    let rate := s.rateOf raw (s.replyFast f)
    let lag := satSub s.prof.cyclesACKStopBitToStatusComplete ackRate.1
    let acts := startActions ++ ackActions ackRate s.prof.cyclesToACKSent ++ [s.warpAction lag] ++
      resultActions rate true (dataFrameDelay s.prof (s.replyFast f) 4) (statusReply s) ++ endActions s
    exec (.status f) s = .next { s with
      rot := s.warped lag
      cmd := (s.startedCommand f s.params.opcodes.status .status false false).ended
      sendBuf := s.sendBuf.writeBytes 0 (statusReply s)
      xferCyclesPerBit := rate.1
      xferCyclesPerByte := rate.2
      motorOffDeadline := endDeadline s
      out := s.out ++ acts
      wire := s.wire.after s.now 0 acts
      reply := .start }

/-- READ_PERCOM (R361): acknowledged, a profile-timed wait, the twelve bytes of the block, end. The opcode is general
knowledge (log 23). -/
def Obligations.ReadPercomResult : Prop :=
  ∀ (s : State) (f : Operands), s.ready f → s.speedAccepted f → s.prof.supportsPERCOM = true →
    let raw := commandByte f.h s.params.opcodes.readPercom
    let ackRate := s.rateOf raw s.frameFast
    let rate := s.rateOf raw (s.replyFast f)
    let lag := satSub s.prof.cyclesACKStopBitToReadPERCOMComplete ackRate.1
    let acts := startActions ++ ackActions ackRate s.prof.cyclesToACKSent ++ [s.warpAction lag] ++
      resultActions rate true (dataFrameDelay s.prof (s.replyFast f) 12) (percomBytes s.percom) ++ endActions s
    exec (.readPercom f) s = .next { s with
      rot := s.warped lag
      cmd := (s.startedCommand f s.params.opcodes.readPercom .readPercom false false).ended
      lastOpError := false
      sendBuf := s.sendBuf.writeBytes 0 (percomBytes s.percom)
      xferCyclesPerBit := rate.1
      xferCyclesPerByte := rate.2
      motorOffDeadline := endDeadline s
      out := s.out ++ acts
      wire := s.wire.after s.now 0 acts
      reply := .start }

/-- GET_HS_INDEX (R370): acknowledged, one byte, end. The opcode is general knowledge (log 23). -/
def Obligations.HighSpeedIndexResult : Prop :=
  ∀ (s : State) (f : Operands), s.ready f → s.speedAccepted f → s.prof.supportsGetHighSpeedIndex = true →
    let raw := commandByte f.h s.params.opcodes.getHsIndex
    let rate := s.rateOf raw (s.replyFast f)
    let acts := startActions ++ ackActions (s.rateOf raw s.frameFast) s.prof.cyclesToACKSent ++
      resultActions rate true (dataFrameDelay s.prof (s.replyFast f) 1) [s.prof.highSpeedIndex] ++ endActions s
    exec (.getHsIndex f) s = .next { s with
      rot := (advanceToNow s).rot
      cmd := (s.startedCommand f s.params.opcodes.getHsIndex .getHighSpeedIndex false false).ended
      lastOpError := false
      sendBuf := s.sendBuf.writeBytes 0 [s.prof.highSpeedIndex]
      xferCyclesPerBit := rate.1
      xferCyclesPerByte := rate.2
      motorOffDeadline := endDeadline s
      out := s.out ++ acts
      wire := s.wire.after s.now 0 acts
      reply := .start }

/-- The four Happy commands (R371 to R375): acknowledged and completed, and nothing else. The head, the motor and
drive RAM are as they were. -/
def Obligations.HappyResult : Prop :=
  ∀ (s : State) (f : Operands) (op : BitVec 7) (i : Instr) (logical : LogicalCommand),
    (i, logical) ∈ [(Instr.happyQuiet f, LogicalCommand.happyQuiet), (Instr.happyRamtest f, LogicalCommand.happyRamTest),
      (Instr.happyHeadpos f, LogicalCommand.happyHeadPosTest), (Instr.happyRpmtest f, LogicalCommand.happyRpmTest)] →
    s.ready f → s.speedAccepted f → s.prof.family = .happy → i.opcode s.params.opcodes = some op →
    let raw := commandByte f.h op
    let rate := s.rateOf raw (s.replyFast f)
    let acts := startActions ++ ackActions (s.rateOf raw s.frameFast) s.prof.cyclesToACKSent ++
      completeActions rate ++ endActions s
    exec i s = .next { s with
      rot := (advanceToNow s).rot
      cmd := (s.startedCommand f op logical false false).ended
      lastOpError := false
      xferCyclesPerBit := rate.1
      xferCyclesPerByte := rate.2
      motorOffDeadline := endDeadline s
      out := s.out ++ acts
      wire := s.wire.after s.now 0 acts
      reply := .start }

/-- READ of a sector that the track buffer does not hold (44_cmd_read.md R293, 43_rw_common.md R242): acknowledged, the
motor on, the head over the cylinder, waiting for the search. -/
def Obligations.ReadSeeks : Prop :=
  ∀ (s : State) (f : Operands) (cyl : Nat), s.ready f → s.speedAccepted f →
    s.ramWindowAt (sectorOperand f) false = none → s.sectorValid (sectorOperand f) →
    cylinderOf s.params s.geom.toLayout (sectorOperand f).toNat = cyl →
    ¬(s.buffers (sectorOperand f) = true ∧ s.bufferedTrack = some cyl) →
    let ackRate := s.rateOf (commandByte f.h s.params.opcodes.read) s.frameFast
    let acts := startActions ++ [.checkSectorBreakpoint (sectorOperand f)] ++
      ackActions ackRate s.prof.cyclesToACKSent ++ spinActions s cyl ++ [.insertFence 13]
    exec (.read f) s = .next { s with
      rot := s.spun (spinUpDelay s + seekCycles s.prof s.currentTrack cyl)
      currentTrack := trackOf s.prof cyl
      cmd := { s.startedCommand f s.params.opcodes.read .read true false with
        len := xferLen s.geom (sectorOperand f).toNat
        targetTrack := cyl
        buffering := s.buffers (sectorOperand f)
        bufferHit := false
        state := 13
        waiting := true }
      xferCyclesPerBit := ackRate.1
      xferCyclesPerByte := ackRate.2
      motorOffDeadline := some (motorOnDeadline s)
      out := s.out ++ acts
      wire := s.wire.after s.now 0 acts
      reply := .start }

/-- READ of a sector whose track the buffer holds (43_rw_common.md R242 to R244): neither the motor nor the head
moves. -/
def Obligations.ReadBufferHit : Prop :=
  ∀ (s : State) (f : Operands) (cyl : Nat), s.ready f → s.speedAccepted f →
    s.ramWindowAt (sectorOperand f) false = none → s.sectorValid (sectorOperand f) →
    cylinderOf s.params s.geom.toLayout (sectorOperand f).toNat = cyl →
    s.buffers (sectorOperand f) = true → s.bufferedTrack = some cyl →
    let ackRate := s.rateOf (commandByte f.h s.params.opcodes.read) s.frameFast
    let acts := startActions ++ [.checkSectorBreakpoint (sectorOperand f)] ++
      ackActions ackRate s.prof.cyclesToACKSent ++ [s.warpAction s.prof.cyclesToFDCCommand] ++ [.insertFence 13]
    exec (.read f) s = .next { s with
      rot := s.warped s.prof.cyclesToFDCCommand
      cmd := { s.startedCommand f s.params.opcodes.read .read true false with
        len := xferLen s.geom (sectorOperand f).toNat
        targetTrack := cyl
        buffering := true
        bufferHit := true
        state := 13
        waiting := true }
      xferCyclesPerBit := ackRate.1
      xferCyclesPerByte := ackRate.2
      out := s.out ++ acts
      wire := s.wire.after s.now 0 acts
      reply := .start }

/-- READ in a vendor RAM window (44_cmd_read.md R292, R298): 128 bytes of drive RAM, no disk access. -/
def Obligations.ReadRamWindow : Prop :=
  ∀ (s : State) (f : Operands) (a : Nat), s.ready f → s.speedAccepted f →
    s.ramWindowAt (sectorOperand f) false = some a →
    let raw := commandByte f.h s.params.opcodes.read
    let rate := s.rateOf raw (s.replyFast f)
    let bytes := s.driveRAM.readBytes a 128
    let acts := startActions ++ ackActions (s.rateOf raw s.frameFast) s.prof.cyclesToACKSent ++
      resultActions rate true (dataFrameDelay s.prof (s.replyFast f) 128) bytes ++ endActions s
    exec (.read f) s = .next { s with
      rot := (advanceToNow s).rot
      cmd := { (s.startedCommand f s.params.opcodes.read .read true false).ended with ramAddr := some a, len := 128 }
      lastOpError := false
      sendBuf := s.sendBuf.writeBytes 0 bytes
      xferCyclesPerBit := rate.1
      xferCyclesPerByte := rate.2
      motorOffDeadline := endDeadline s
      out := s.out ++ acts
      wire := s.wire.after s.now 0 acts
      reply := .start }

/-- PUT and WRITE (45_cmd_write.md R312, R313): acknowledged, the payload received, waiting. The write-enable is not
tested here (90_conflicts.md C4). -/
def Obligations.WriteAccepted : Prop :=
  ∀ (s : State) (f : Operands) (i : Instr) (op : BitVec 7) (verify : Bool),
    (i, op, verify) ∈ [(Instr.put f, s.params.opcodes.put, false), (Instr.write f, s.params.opcodes.write, true)] →
    s.ready f → s.speedAccepted f → s.ramWindowAt (sectorOperand f) true = none → s.sectorValid (sectorOperand f) →
    xferLen s.geom (sectorOperand f).toNat ≤ Config.bufSize →
    let raw := commandByte f.h op
    let rate := s.rateOf raw (s.replyFast f)
    let len := xferLen s.geom (sectorOperand f).toNat
    let acts := startActions ++ [.checkSectorBreakpoint (sectorOperand f)] ++
      ackActions (s.rateOf raw s.frameFast) s.prof.cyclesToACKSent ++ receiveActions rate len ++ [.insertFence 10]
    exec i s = .next { s with
      rot := (advanceToNow s).rot
      cmd := { s.startedCommand f op .write false verify with len := len, state := 10, waiting := true }
      xferCyclesPerBit := rate.1
      xferCyclesPerByte := rate.2
      rxOffset := 0
      out := s.out ++ acts
      wire := s.wire.after s.now 2 acts
      reply := .start }

/-- PUT and WRITE in a vendor RAM window (45_cmd_write.md R312): 128 bytes are received; drive RAM is written
later. -/
def Obligations.WriteRamWindow : Prop :=
  ∀ (s : State) (f : Operands) (i : Instr) (op : BitVec 7) (verify : Bool) (a : Nat),
    (i, op, verify) ∈ [(Instr.put f, s.params.opcodes.put, false), (Instr.write f, s.params.opcodes.write, true)] →
    s.ready f → s.speedAccepted f → s.ramWindowAt (sectorOperand f) true = some a →
    let raw := commandByte f.h op
    let rate := s.rateOf raw (s.replyFast f)
    let acts := startActions ++ ackActions (s.rateOf raw s.frameFast) s.prof.cyclesToACKSent ++
      receiveActions rate 128 ++ [.insertFence 50]
    exec i s = .next { s with
      rot := (advanceToNow s).rot
      cmd := { s.startedCommand f op .write false verify with
        ramAddr := some a, len := 128, state := 50, waiting := true }
      xferCyclesPerBit := rate.1
      xferCyclesPerByte := rate.2
      rxOffset := 0
      out := s.out ++ acts
      wire := s.wire.after s.now 2 acts
      reply := .start }

/-- FORMAT and FORMAT_BOOT (46_cmd_format.md R332): acknowledged, waiting for state 2. That the ACK delay is spent in both
timing modes is log 40. -/
def Obligations.FormatAccepted : Prop :=
  ∀ (s : State) (f : Operands) (i : Instr) (op : BitVec 7), i ∈ [Instr.format f, Instr.formatBoot f] →
    s.ready f → s.speedAccepted f → i.opcode s.params.opcodes = some op → gateOf s.prof i = true →
    op ≠ s.params.opcodes.formatSkewed →
    let ackRate := s.rateOf (commandByte f.h op) s.frameFast
    let acts := startActions ++ ackActions ackRate s.prof.cyclesToACKSent ++ [.insertFence 2]
    exec i s = .next { s with
      rot := (advanceToNow s).rot
      cmd := { s.startedCommand f op .format false false with
        len := min s.geom.bytesPerSector 256, state := 2, waiting := true }
      xferCyclesPerBit := ackRate.1
      xferCyclesPerByte := ackRate.2
      out := s.out ++ acts
      wire := s.wire.after s.now 0 acts
      reply := .start }

/-- FORMAT_SKEWED, and a format row whose parameter is set to the same opcode (46_cmd_format.md R332): acknowledged, 128
bytes received, waiting for state 2. That the ACK delay is spent in both timing modes is log 40. -/
def Obligations.FormatSkewedAccepted : Prop :=
  ∀ (s : State) (f : Operands) (i : Instr), i ∈ [Instr.format f, Instr.formatSkewed f, Instr.formatBoot f] →
    s.ready f → s.speedAccepted f → i.opcode s.params.opcodes = some s.params.opcodes.formatSkewed →
    gateOf s.prof i = true →
    let op := s.params.opcodes.formatSkewed
    let rate := s.rateOf (commandByte f.h op) (s.replyFast f)
    let acts := startActions ++ ackActions (s.rateOf (commandByte f.h op) s.frameFast) s.prof.cyclesToACKSent ++
      receiveActions rate 128 ++ [.insertFence 2]
    exec i s = .next { s with
      rot := (advanceToNow s).rot
      cmd := { s.startedCommand f op .format false false with
        len := min s.geom.bytesPerSector 256, state := 2, waiting := true }
      xferCyclesPerBit := rate.1
      xferCyclesPerByte := rate.2
      rxOffset := 0
      out := s.out ++ acts
      wire := s.wire.after s.now 2 acts
      reply := .start }

/-- WRITE_PERCOM (R363) and INDUS_EXECUTE (R376): acknowledged, the payload received, waiting for state 1. -/
def Obligations.UploadAccepted : Prop :=
  ∀ (s : State) (f : Operands) (i : Instr) (op : BitVec 7) (logical : LogicalCommand) (n : Nat),
    (i, logical, n) ∈ [(Instr.writePercom f, LogicalCommand.writePercom, 12),
      (Instr.indusExecute f, LogicalCommand.indusExecute, s.params.indusExecLen)] →
    s.ready f → s.speedAccepted f → i.opcode s.params.opcodes = some op → gateOf s.prof i = true →
    let raw := commandByte f.h op
    let rate := s.rateOf raw (s.replyFast f)
    let acts := startActions ++ ackActions (s.rateOf raw s.frameFast) s.prof.cyclesToACKSent ++
      receiveActions rate n ++ [.insertFence 1]
    exec i s = .next { s with
      rot := (advanceToNow s).rot
      cmd := { s.startedCommand f op logical false false with state := 1, waiting := true }
      xferCyclesPerBit := rate.1
      xferCyclesPerByte := rate.2
      rxOffset := 0
      out := s.out ++ acts
      wire := s.wire.after s.now 2 acts
      reply := .start }

/-! ### Frames that are not executed -/

/-- A frame for this unit that is rejected is answered with a `NAK`, whatever its instruction (30_encoding.md R117, R119,
60_exceptions.md R462); so is a frame whose base opcode no row has, the last row of the table (30_encoding.md R118, R120,
47_cmd_status_percom_misc.md R380). The clause of a row whose opcode is unset is the model's choice (log 24). -/
def Obligations.FrameRejected : Prop :=
  ∀ (s : State),
    (∀ i : Instr, s.ready i.operands →
      ¬(s.speedAccepted i.operands ∧ (i.opcode s.params.opcodes).isSome = true ∧ gateOf s.prof i = true) →
      exec i s = .next (s.rejected i.operands ((i.opcode s.params.opcodes).getD 0) .unsupported false false
        (s.rejectedSpeed i.operands))) ∧
    ∀ (fr : Frame) (frameEnd deassert skew : Sys2Proof.Cycle),
      let u := s.withFrame fr frameEnd deassert skew
      let f := operandsOf fr.device fr.command fr.aux1 fr.aux2
      s.ready f → (∀ i : Instr, i.opcode s.params.opcodes ≠ some (baseOpcode fr.command)) →
      handle (.serialBeginCommand fr frameEnd deassert skew) s =
        .next (u.rejected f (baseOpcode fr.command) .unsupported false false (u.rejectedSpeed f))

/-- READ, PUT and WRITE of an illegal sector are answered with a `NAK` (44_cmd_read.md R292, 45_cmd_write.md R312,
60_exceptions.md X2). -/
def Obligations.SectorRejected : Prop :=
  ∀ (s : State) (f : Operands) (i : Instr) (op : BitVec 7) (logical : LogicalCommand) (isRead verify : Bool),
    (i, op, logical, isRead, verify) ∈ [(Instr.read f, s.params.opcodes.read, LogicalCommand.read, true, false),
      (Instr.put f, s.params.opcodes.put, LogicalCommand.write, false, false),
      (Instr.write f, s.params.opcodes.write, LogicalCommand.write, false, true)] →
    s.ready f → s.speedAccepted f → s.ramWindowAt (sectorOperand f) (!isRead) = none →
    ¬s.sectorValid (sectorOperand f) →
    exec i s = .next (s.rejected f op logical isRead verify (s.replyFast f, s.frameFast))

/-- The runs outside the contract stop: a frame for this unit while a command is active (60_exceptions.md R469), and any
frame with a profile in force that 40_profile_table.md R153 or R143 refuses, with ill-formed parameters (log 41), or with a
head position at 131070 or above (60_exceptions.md R468; that bound is log 34). That the profile is tested
when an event is admitted, for the positive speed fields of R143 too, is the model's choice (log 16, DESIGN CHOICE). -/
def Obligations.OverlapRefused : Prop :=
  ∀ (s : State) (i : Instr),
    (s.admitted → s.enabled = true → i.operands.device.toNat = s.params.deviceBase.toNat + s.unit.toNat →
      s.cmd.code ≠ .none →
      exec i s = .refused .overlappingCommand) ∧
    (s.now < Config.clockLimit → s.params.hasMode s.mode = true →
      (s.prof.wf s.params.maxIdleTimer = false → exec i s = .refused .profileNotWellFormed) ∧
      (s.prof.wf s.params.maxIdleTimer = true →
        (s.params.wf = false → exec i s = .refused .parametersNotWellFormed) ∧
        (s.params.wf = true → Config.trackLimit ≤ s.currentTrack →
          exec i s = .refused (.programmingError .trackOutOfRange))))

/-- A frame for another device, or for a disabled unit, changes nothing: not a byte, not a register, no action
(30_encoding.md R113, 42_dispatch.md R201). -/
def Obligations.FrameNotHandled : Prop :=
  ∀ (s : State) (i : Instr), s.admitted →
    (s.enabled = false ∨ i.operands.device.toNat ≠ s.params.deviceBase.toNat + s.unit.toNat) →
    exec i s = .next { s with reply := .notHandled }

/-! ### A command between its fences

`handle (.serialFence id) s` is the event that resumes the command in `s` (42_dispatch.md R206). -/

/-- A fence that arrives while no command is active changes nothing (42_dispatch.md R207); one that the active command
does not wait for stops the run (60_exceptions.md R468). -/
def Obligations.StaleFence : Prop :=
  ∀ (s : State) (id : Word32), s.admitted →
    (s.cmd.code = .none → handle (.serialFence id) s = .next s) ∧
    (s.cmd.code ≠ .none → ¬(s.cmd.waiting = true ∧ s.cmd.state = id) →
      handle (.serialFence id) s = .refused (.programmingError .fenceNotAwaited))

/-- Read state 21 and write state 60 end the command (44_cmd_read.md R295, 45_cmd_write.md R321, 42_dispatch.md
R214). -/
def Obligations.CommandEnds : Prop :=
  ∀ (s : State) (id : Word32), s.awaits id →
    (s.cmd.code = .read ∧ id = 21 ∨ s.cmd.code = .write ∧ id = 60) →
    handle (.serialFence id) s = .next { s with
      cmd := s.cmd.ended
      motorOffDeadline := endDeadline s
      out := s.out ++ endActions s
      wire := s.wire.after s.now 0 (endActions s) }

/-- A data frame with a bad checksum is answered with a `NAK` and ends the command with none of its effect: no byte of
SEND, RECV, drive RAM, the PERCOM block or the disk changes, nor the FDC status (60_exceptions.md X3, R464). -/
def Obligations.DataFrameRejected : Prop :=
  ∀ (s : State) (id : Word32), s.awaits id → s.cmd.rxChecksumOK = false →
    ((s.cmd.code, id) ∈ [(LogicalCommand.write, (10 : Word32)), (.write, 50), (.writePercom, 1), (.indusExecute, 1)] ∨
      s.cmd.code = .format ∧ id = 2 ∧ s.skewed) →
    let rate := s.rateOf s.cmd.rawCommand s.cmd.highSpeedFlag
    let acts := nakActions rate s.prof.cyclesToACKSent ++ endActions s
    handle (.serialFence id) s = .next { s with
      cmd := s.cmd.ended
      xferCyclesPerBit := rate.1
      xferCyclesPerByte := rate.2
      motorOffDeadline := endDeadline s
      out := s.out ++ acts
      wire := s.wire.after s.now 0 acts }

/-- State 10 of a write with a good data frame: acknowledged, the motor on, the head over the cylinder, waiting for the
search (43_rw_common.md R242). -/
def Obligations.WriteSeeks : Prop :=
  ∀ (s : State) (cyl : Nat), s.awaits 10 → s.cmd.code = .write → s.cmd.isRead = false → s.cmd.rxChecksumOK = true →
    cylinderOf s.params s.geom.toLayout s.cmd.sector.toNat = cyl →
    let rate := s.rateOf s.cmd.rawCommand s.cmd.highSpeedFlag
    let acts := ackActions rate s.prof.cyclesToACKSent ++ spinActions s cyl ++ [.insertFence 13]
    handle (.serialFence 10) s = .next { s with
      rot := s.spunLater (spinUpDelay s + seekCycles s.prof s.currentTrack cyl)
      currentTrack := trackOf s.prof cyl
      cmd := { s.cmd with targetTrack := cyl, buffering := false, bufferHit := false, state := 13, waiting := true }
      xferCyclesPerBit := rate.1
      xferCyclesPerByte := rate.2
      motorOffDeadline := some (motorOnDeadline s)
      out := s.out ++ acts
      wire := s.wire.after s.now 0 acts }

/-- States 13 to 16 when no copy can be used (43_rw_common.md R250, R253 to R256): two rotations pass; the next attempt
follows with its penalty while the budget lasts, else the outcome state. The attempt number is the cursor's. The position,
the size and the weak region are overwritten too (R258), with free values (log 38, DESIGN CHOICE). -/
def Obligations.SearchMisses : Prop :=
  ∀ (s : State) (id : Word32) (status : Byte), s.awaits id → (s.cmd.code = .read ∨ s.cmd.code = .write) →
    13 ≤ id.toNat → id.toNat ≤ 16 →
    let w := advanceToNow (s.fenced id)
    resolveSector s.cmd.sector.toNat s.cmd.isRead w = (.notFound status, w) →
    let pen := retryPenalty s (id.toNat - 12) .missing
    let budget := if s.cmd.bufferHit then 1 else if s.prof.retryMode1050 then 2 else 4
    let again := id.toNat - 12 < budget
    let rotDelay := if s.cmd.bufferHit then 0 else 2 * s.period
    let cycles := rotDelay + (if again then pen.1 else 0)
    let next : Word32 := if again then id + 1 else 20
    let acts := (if again then stepActions s rotDelay pen.2 else []) ++ [s.warpAction cycles] ++ [.insertFence next]
    handle (.serialFence id) s = .next { s with
      rot := s.warped cycles
      bufferedTrack :=
        if ¬again ∧ s.cmd.bufferHit = true ∧ s.prof.bufferTrackReadErrors = false then none else s.bufferedTrack
      cmd := { s.cmd with
        physSector := none
        physPos := Config.missingPos s.freeCtr
        physWeakOffset := Config.missingWeak s.freeCtr
        physSize := Config.missingSize s.freeCtr
        state := next
        waiting := true }
      fdcStatus := status
      freeCtr := s.freeCtr + 1
      out := s.out ++ acts
      wire := s.wire.after s.now 0 acts }

/-- States 13 to 16 when a copy is selected (43_rw_common.md R250 to R253): its place, size, weak region and status
are noted and the phantom counter is advanced; a read of a copy with an unclean status is retried while the budget
lasts; otherwise the rotation brings the copy under the head and the outcome state follows. -/
def Obligations.SearchFinds : Prop :=
  ∀ (s u : State) (id : Word32) (p : Nat) (x : PhysSector), s.awaits id →
    (s.cmd.code = .read ∨ s.cmd.code = .write) → 13 ≤ id.toNat → id.toNat ≤ 16 →
    resolveSector s.cmd.sector.toNat s.cmd.isRead (advanceToNow (s.fenced id)) = (.found p x, u) →
    let status := longSectorQuirk s x.fdcStatus (decide (s.geom.bytesPerSector < x.physSize))
    let pen := retryPenalty s (id.toNat - 12) .dataError
    let budget := if s.cmd.bufferHit then 1 else if s.prof.retryMode1050 then 2 else 4
    let bad := s.cmd.isRead = true ∧ status ≠ Config.fdcOk
    let again := bad ∧ id.toNat - 12 < budget
    let pos := x.rotPos.num * s.period / x.rotPos.den
    let rotDelay := if s.cmd.bufferHit then 0 else (pos + s.period - (advanceToNow s).rot.rotationalCounter) % s.period
    let cycles := rotDelay + (if again then pen.1 else 0)
    let next : Word32 := if again then id + 1 else 20
    let acts := (if again then stepActions s rotDelay pen.2 else []) ++ [s.warpAction cycles] ++ [.insertFence next]
    handle (.serialFence id) s = .next { s with
      rot := s.warped cycles
      bufferedTrack :=
        if bad ∧ ¬again ∧ s.cmd.bufferHit = true ∧ s.prof.bufferTrackReadErrors = false then none
        else s.bufferedTrack
      cmd := { s.cmd with
        physSector := some p
        physPos := pos
        physWeakOffset := x.weakOffset
        physSize := x.physSize
        state := next
        waiting := true }
      fdcStatus := status
      phantomCounter := u.phantomCounter
      out := s.out ++ acts
      wire := s.wire.after s.now 0 acts }

/-- Read state 20 with a copy selected (44_cmd_read.md R294, R296): the rotation snaps to the copy, its time and the
post-read delay pass, SEND holds the sector (zeros if the read throws), the weak region is corrupted, and the result
is sent with the data. SEND beyond the reply and every other memory is as it was. Of a copy that the image does not list
the answers are free values (log 25). With a length of 0, outside R400's range, the effect is the model's choice (log 47). -/
def Obligations.ReadServed : Prop :=
  ∀ (s : State) (p : Nat), s.awaits 20 → s.cmd.code = .read → s.cmd.physSector = some p → s.cmd.len ≤ Config.bufSize →
    let x := s.physSector p
    let n := s.cmd.len
    let rate := s.rateOf s.cmd.rawCommand s.cmd.highSpeedFlag
    let cycles := (if s.cmd.bufferHit then 0 else sectorXferCycles s (readTimedBytes s)) + postReadToCECycles s
    let status := if x.readError then s.params.fdcCrc else s.fdcStatus
    let ok := decide (status = Config.fdcOk)
    let weak := if x.readError then none else s.cmd.physWeakOffset
    let off := (weak.getD n)
    let weakened := weaken s.params s.weakBitLFSR ((physBytes x n).drop off)
    let bytes := (physBytes x n).take off ++ weakened.1
    let acts := [s.warpAction cycles, .readPhysicalSector p n] ++
      resultActions rate ok (dataFrameDelay s.prof s.cmd.highSpeedFlag n) bytes ++ [.insertFence 21]
    ∃ m : Memory, m.readBytes 0 n = bytes ∧ (∀ a, n ≤ a → m.read a = s.sendBuf.read a) ∧
      handle (.serialFence 20) s = .next { s with
        rot := s.snapped s.cmd.physPos cycles
        bufferedTrack :=
          if s.cmd.buffering then (if ok || s.prof.bufferTrackReadErrors then some s.cmd.targetTrack else none)
          else s.bufferedTrack
        lastReadSector := s.cmd.sector
        cmd := { s.cmd with state := 21, waiting := true }
        fdcStatus := status
        lastOpError := !ok
        weakBitLFSR := weakened.2
        sendBuf := m
        xferCyclesPerBit := rate.1
        xferCyclesPerByte := rate.2
        out := s.out ++ acts
        wire := s.wire.after s.now 0 acts }

/-- Read state 20 with no copy selected (44_cmd_read.md R294): an Error response whose data are what SEND holds; no
memory changes. With a length of 0, outside R400's range, the effect is the model's choice (log 47). -/
def Obligations.ReadMissing : Prop :=
  ∀ (s : State), s.awaits 20 → s.cmd.code = .read → s.cmd.physSector = none → s.cmd.len ≤ Config.bufSize →
    let rate := s.rateOf s.cmd.rawCommand s.cmd.highSpeedFlag
    let acts := [s.warpAction (postReadToCECycles s)] ++
      resultActions rate false (dataFrameDelay s.prof s.cmd.highSpeedFlag s.cmd.len) (s.sendBytes s.cmd.len) ++
      [.insertFence 21]
    handle (.serialFence 20) s = .next { s with
      rot := if s.flags.accurateSectorTiming then s.rot else s.warped (postReadToCECycles s)
      bufferedTrack :=
        if s.cmd.buffering then (if s.prof.bufferTrackReadErrors then some s.cmd.targetTrack else none)
        else s.bufferedTrack
      lastReadSector := s.cmd.sector
      cmd := { s.cmd with state := 21, waiting := true }
      lastOpError := true
      xferCyclesPerBit := rate.1
      xferCyclesPerByte := rate.2
      out := s.out ++ acts
      wire := s.wire.after s.now 0 acts }

/-- Write state 20 with a present, writable disk and a copy selected (45_cmd_write.md R318, R322): the copy gets the
payload, the sector's time passes (a rotation more with verify), and the response says whether the write threw. Every
other physical sector is as it was. What a throwing or a short write leaves in the sector is the model's choice (logs 8,
10); the transfer time of `min(physSize, len)` bytes on every profile is log 39; a copy that the image does not list has
free answers and no place in it (log 25). -/
def Obligations.WriteStored : Prop :=
  ∀ (s : State) (p : Nat), s.awaits 20 → s.cmd.code = .write → s.flags.diskPresent = true →
    s.flags.writeEnabled = true → s.cmd.physSector = some p → s.cmd.len ≤ Config.bufSize →
    let x := s.physSector p
    let rate := s.rateOf s.cmd.rawCommand s.cmd.highSpeedFlag
    let bytes := s.recvBytes (min s.cmd.len x.physSize)
    let status := if x.writeError then s.params.fdcCrc else Config.fdcOk
    let cycles := sectorXferCycles s (min s.cmd.physSize s.cmd.len) + (if s.cmd.verify then s.period else 0)
    let acts := [.writePhysicalSector p bytes, s.warpAction cycles] ++
      (if status = Config.fdcOk then completeActions rate else errorActions rate) ++ endActions s
    handle (.serialFence 20) s = .next { s with
      rot := s.snapped s.cmd.physPos cycles
      bufferedTrack := none
      cmd := s.cmd.ended
      fdcStatus := status
      lastOpError := decide (status ≠ Config.fdcOk)
      disk := { s.disk with image := s.disk.image.map fun img =>
        { img with phys := img.phys.set p (x.store s.freeCtr bytes) } }
      freeCtr := s.freeCtr + 1
      xferCyclesPerBit := rate.1
      xferCyclesPerByte := rate.2
      motorOffDeadline := endDeadline s
      out := s.out ++ acts
      wire := s.wire.after s.now 0 acts }

/-- Write state 20 with no disk, with a protected disk, and with no copy, tested in this order (45_cmd_write.md R318,
60_exceptions.md R476): an Error response, and no byte of the disk changes. -/
def Obligations.WriteRefused : Prop :=
  ∀ (s : State), s.awaits 20 → s.cmd.code = .write →
    (s.flags.diskPresent = false ∨ s.flags.writeEnabled = false ∨ s.cmd.physSector = none) →
    let rate := s.rateOf s.cmd.rawCommand s.cmd.highSpeedFlag
    let acts := errorActions rate ++ endActions s
    handle (.serialFence 20) s = .next { s with
      bufferedTrack := none
      cmd := s.cmd.ended
      fdcStatus := if s.flags.diskPresent = true ∧ s.flags.writeEnabled = false then 0xBF else s.fdcStatus
      lastOpError := true
      xferCyclesPerBit := rate.1
      xferCyclesPerByte := rate.2
      motorOffDeadline := endDeadline s
      out := s.out ++ acts
      wire := s.wire.after s.now 0 acts }

/-- Write state 50 with a good data frame (45_cmd_write.md R320): acknowledged, the 128 bytes stored in drive RAM at
the window's address, completed, waiting for state 60. The address that a loaded command without one uses is the model's
choice (log 45). -/
def Obligations.RamWindowStored : Prop :=
  ∀ (s : State) (a : Nat), s.awaits 50 → s.cmd.code = .write → s.cmd.rxChecksumOK = true → s.ramAddress = a →
    a + 128 ≤ s.params.driveRamSize →
    let rate := s.rateOf s.cmd.rawCommand s.cmd.highSpeedFlag
    let acts := ackActions rate s.prof.cyclesToACKSent ++ completeActions rate ++ [.insertFence 60]
    handle (.serialFence 50) s = .next { s with
      cmd := { s.cmd with state := 60, waiting := true }
      lastOpError := false
      driveRAM := s.driveRAM.writeBytes a (s.recvBytes 128)
      xferCyclesPerBit := rate.1
      xferCyclesPerByte := rate.2
      out := s.out ++ acts
      wire := s.wire.after s.now 0 acts }

/-- WritePERCOM state 1 with a good data frame (47_cmd_status_percom_misc.md R363, R366 to R368): the block is validated
(normalised on an XF551; which geometry is picked: log 20), stored, put in force at once on the profiles that say so, and
completed; a rejected block changes nothing and is answered with an Error. -/
def Obligations.PercomWritten : Prop :=
  ∀ (s : State), s.awaits 1 → s.cmd.code = .writePercom → s.cmd.rxChecksumOK = true →
    let d := percomAt s.recvBuf
    let xf := s.prof.family = .xf551
    let stored := if xf then percomOfGeometry (xf551Normalize s.params d) else d
    let accepted := xf ∨ percomValid d = true
    let inForce := accepted ∧ s.prof.writePERCOMChangesDensity = true
    let rate := s.rateOf s.cmd.rawCommand s.cmd.highSpeedFlag
    let acts := ackActions rate s.prof.cyclesToACKSent ++
      (if accepted then completeActions rate else errorActions rate) ++ endActions s
    handle (.serialFence 1) s = .next { s with
      percom := if accepted then stored else s.percom
      geom := if inForce then { s.geom with toLayout := geometryOfPercom stored } else s.geom
      bufferedTrack := if inForce then none else s.bufferedTrack
      cmd := s.cmd.ended
      lastOpError := decide (¬accepted)
      xferCyclesPerBit := rate.1
      xferCyclesPerByte := rate.2
      motorOffDeadline := endDeadline s
      out := s.out ++ acts
      wire := s.wire.after s.now 0 acts }

/-! ### Formatting -/

/-- State 2 of a format that is refused: no disk, a protected or format-disabled disk, a rejected skewed block, tested
in this order (46_cmd_format.md R334, R335, R345): an Error response with the 0xFF frame, of the length state 0 stored (log
44; a length of 0: log 47); neither the disk, the PERCOM block nor the geometry changes. -/
def Obligations.FormatRefused : Prop :=
  ∀ (s : State), s.awaits 2 → s.cmd.code = .format → s.cmd.len ≤ Config.bufSize →
    (s.skewed → s.cmd.rxChecksumOK = true) →
    (s.flags.diskPresent = false ∨ s.flags.writeEnabled = false ∨ s.flags.formatEnabled = false ∨
      s.skewed ∧ ¬s.acceptsPercom (percomAt s.recvBuf)) →
    let rate := s.rateOf s.cmd.rawCommand s.cmd.highSpeedFlag
    let acts := formatAckActions s ++
      resultActions rate false (dataFrameDelay s.prof s.cmd.highSpeedFlag s.cmd.len) (formatReply s.cmd.len) ++
      endActions s
    handle (.serialFence 2) s = .next { s with
      cmd := s.cmd.ended
      fdcStatus :=
        if s.flags.diskPresent = false then s.params.fdcRnf
        else if s.flags.writeEnabled = false ∨ s.flags.formatEnabled = false then 0xBF
        else s.fdcStatus
      lastOpError := true
      sendBuf := s.sendBuf.writeBytes 0 (formatReply s.cmd.len)
      xferCyclesPerBit := rate.1
      xferCyclesPerByte := rate.2
      motorOffDeadline := endDeadline s
      out := s.out ++ acts
      wire := s.wire.after s.now 0 acts }

/-- State 2 of a format that is performed, with state 3 behind it (46_cmd_format.md R335 to R337): the disk holds the
image of the forced geometry, the geometry and the PERCOM block describe it, the phantom counters are cleared, the motor
is on and the head on cylinder 0. What `D.FormatDisk` leaves in the image is the model's choice (logs 9, 19), its boot
sectors and total too (log 29), and so is a PERCOM byte that R365 does not state (log 42); that the data ACK's delay is
spent in both timing modes is log 40. -/
def Obligations.FormatPerformed : Prop :=
  ∀ (s : State), s.awaits 2 → s.cmd.code = .format → (s.skewed → s.cmd.rxChecksumOK = true) →
    s.flags.diskPresent = true → s.flags.writeEnabled = true → s.flags.formatEnabled = true →
    (s.skewed → s.acceptsPercom (percomAt s.recvBuf)) → s.disk.formatError = false →
    let rate := s.rateOf s.cmd.rawCommand s.cmd.highSpeedFlag
    let g := formatOverride s (geometryOfPercom s.formatPercom)
    let new := formattedImage s.params s.freeCtr g
    let acts := formatAckActions s ++ [.formatDisk g] ++ spinActions s 0 ++ [.insertFence 4]
    handle (.serialFence 2) s = .next { s with
      rot := s.spunLater (spinUpDelay s + seekCycles s.prof s.currentTrack 0)
      currentTrack := 0
      geom := new.geometry
      percom := percomOfGeometry g
      bufferedTrack := none
      phantomCounter := List.replicate new.geometry.totalSectors 0
      forcedOrder := List.replicate new.phys.length 0
      disk := { s.disk with image := some new }
      freeCtr := s.freeCtr + 1
      cmd := { s.cmd with
        physSector := none, len := min g.bytesPerSector 256, formatTrack := 0, state := 4, waiting := true }
      xferCyclesPerBit := if s.skewed then rate.1 else s.xferCyclesPerBit
      xferCyclesPerByte := if s.skewed then rate.2 else s.xferCyclesPerByte
      motorOffDeadline := some (motorOnDeadline s)
      out := s.out ++ acts
      wire := s.wire.after s.now 0 acts }

/-- State 2 of a format whose `D.FormatDisk` throws (46_cmd_format.md R337, R345, 60_exceptions.md R465): `FDC_CRC`, an
Error response with the 0xFF frame, the motor and the head as they were. What the throw leaves in the image is the model's
choice (log 10); the frame has the length state 0 stored (log 44; a length of 0: log 47). -/
def Obligations.FormatThrows : Prop :=
  ∀ (s : State), s.awaits 2 → s.cmd.code = .format → s.cmd.len ≤ Config.bufSize →
    (s.skewed → s.cmd.rxChecksumOK = true) →
    s.flags.diskPresent = true → s.flags.writeEnabled = true → s.flags.formatEnabled = true →
    (s.skewed → s.acceptsPercom (percomAt s.recvBuf)) → s.disk.formatError = true →
    let rate := s.rateOf s.cmd.rawCommand s.cmd.highSpeedFlag
    let g := formatOverride s (geometryOfPercom s.formatPercom)
    let inForce := s.skewed ∧ s.prof.writePERCOMChangesDensity = true
    let acts := formatAckActions s ++ [.formatDisk g] ++
      resultActions rate false (dataFrameDelay s.prof s.cmd.highSpeedFlag s.cmd.len) (formatReply s.cmd.len) ++
      endActions s
    handle (.serialFence 2) s = .next { s with
      cmd := s.cmd.ended
      fdcStatus := s.params.fdcCrc
      lastOpError := true
      percom := s.formatPercom
      geom :=
        if inForce then { s.geom with toLayout := geometryOfPercom (s.storedPercom (percomAt s.recvBuf)) } else s.geom
      bufferedTrack := if inForce then none else s.bufferedTrack
      disk := { s.disk with image := s.disk.image.map fun img => spoiltImage img s.freeCtr }
      freeCtr := s.freeCtr + 1
      sendBuf := s.sendBuf.writeBytes 0 (formatReply s.cmd.len)
      xferCyclesPerBit := rate.1
      xferCyclesPerByte := rate.2
      motorOffDeadline := endDeadline s
      out := s.out ++ acts
      wire := s.wire.after s.now 0 acts }

/-- State 4 of a format with a track left (46_cmd_format.md R338): the head moves to it, the movement's time passes, and
the command waits for the next one. -/
def Obligations.FormatTracks : Prop :=
  ∀ (s : State), s.awaits 4 → s.cmd.code = .format → s.cmd.formatTrack < s.geom.trackCount →
    let t := s.cmd.formatTrack
    let cycles := seekCycles s.prof s.currentTrack t
    let acts := seekActions s t 0 ++ [s.warpAction cycles] ++ [.insertFence 4]
    handle (.serialFence 4) s = .next { s with
      rot := if s.flags.accurateSectorTiming then s.rot else s.warped cycles
      currentTrack := trackOf s.prof t
      cmd := { s.cmd with formatTrack := t + 1, state := 4, waiting := true }
      out := s.out ++ acts
      wire := s.wire.after s.now 0 acts }

/-- State 4 of a format with no track left, with state 5 behind it (46_cmd_format.md R338, R340): a clean status, a
Complete response with the 0xFF frame, end. That the delay before the frame is spent in both timing modes is log 40; the
frame has the length state 3 stored (log 44; a length of 0: log 47). -/
def Obligations.FormatReplies : Prop :=
  ∀ (s : State), s.awaits 4 → s.cmd.code = .format → s.geom.trackCount ≤ s.cmd.formatTrack →
    s.cmd.len ≤ Config.bufSize →
    let rate := s.rateOf s.cmd.rawCommand s.cmd.highSpeedFlag
    let acts := resultActions rate true (dataFrameDelay s.prof s.cmd.highSpeedFlag s.cmd.len)
      (formatReply s.cmd.len) ++ endActions s
    handle (.serialFence 4) s = .next { s with
      cmd := s.cmd.ended
      fdcStatus := 0xFF
      lastOpError := false
      sendBuf := s.sendBuf.writeBytes 0 (formatReply s.cmd.len)
      xferCyclesPerBit := rate.1
      xferCyclesPerByte := rate.2
      motorOffDeadline := endDeadline s
      out := s.out ++ acts
      wire := s.wire.after s.now 0 acts }

/-! ### Uploads and payloads -/

/-- State 1 of an Indus GT upload with a good data frame (47_cmd_status_percom_misc.md R376 to R378): acknowledged; a
recognised firmware selects its profile at once, keeping the angle of the disk; the Complete byte is sent at the new
profile's speed. -/
def Obligations.IndusFirmware : Prop :=
  ∀ (s : State), s.awaits 1 → s.cmd.code = .indusExecute → s.cmd.rxChecksumOK = true →
    let v :=
      match indusFirmwareClassify s.params (s.recvBytes s.params.indusExecLen) with
      | none => s.indusVariant
      | some .synchromesh => .synchromesh
      | some .superSynchromesh => .superSynchromesh
    (s.params.profile s.mode v).wf s.params.maxIdleTimer = true →
    let old := (advanceToNow s).rot
    let newP := (s.params.profile s.mode v).cyclesPerDiskRotation
    let u : State := { s with
      indusVariant := v
      rot :=
        if v = s.indusVariant then s.rot
        else { old with rotationalCounter := rescaleCounter s.period newP old.rotationalCounter } }
    let rate := u.rateOf s.cmd.rawCommand s.cmd.highSpeedFlag
    let acts := ackActions (s.rateOf s.cmd.rawCommand s.cmd.highSpeedFlag) s.prof.cyclesToACKSent ++
      completeActions rate ++ endActions u
    handle (.serialFence 1) s = .next { u with
      cmd := s.cmd.ended
      lastOpError := false
      xferCyclesPerBit := rate.1
      xferCyclesPerByte := rate.2
      motorOffDeadline := endDeadline u
      out := s.out ++ acts
      wire := s.wire.after s.now 0 acts }

/-- A data frame has arrived (42_dispatch.md R208, 20_memory.md R103): its bytes are in RECV, its length and its checksum
verdict are noted, and the cursor does not move. With no command active nothing is stored. That the bytes go to the offset
of the last receive, whatever id the event carries, is the model's inference (log 26); bytes past the end of RECV are the
fault of 20_memory.md R83, as log 15 says. -/
def Obligations.PayloadReceived : Prop :=
  ∀ (s : State) (id : Word32) (data : List Byte) (ok : Bool), s.admitted →
    let queue := if s.selfTimed then s.wire.completeReceive s.now else s.wire
    (s.cmd.code = .none ∨ s.rxOffset + data.length ≤ Config.bufSize →
      ∃ m : Memory, handle (.serialReceiveComplete id data ok) s = .next { s with
          recvBuf := m
          cmd := if s.cmd.code = .none then s.cmd else { s.cmd with rxLen := data.length, rxChecksumOK := ok }
          wire := queue } ∧
        (s.cmd.code ≠ .none → m.readBytes s.rxOffset data.length = data) ∧
        ∀ a, (s.cmd.code = .none ∨ a < s.rxOffset ∨ s.rxOffset + data.length ≤ a) → m.read a = s.recvBuf.read a) ∧
    (s.cmd.code ≠ .none → Config.bufSize < s.rxOffset + data.length →
      handle (.serialReceiveComplete id data ok) s = .fault .pastEndOfSpace)

/-! ### Sector resolution and rotation -/

/-- `ResolveSector` (43_rw_common.md R246 to R249): no disk, sector 0 and a sector beyond the disk are not found; so is a
sector with no eligible copy, with the address status when every copy of the density in force has an invalid address
field. Otherwise a copy is chosen: the first whose forced order names the counter's position; else, with accurate timing
and no buffer hit, the first of minimal rotational wait; else the counter's. The counter advances modulo the number of
copies; nothing else changes. A counter or a forced order that its array lacks is 0, and the array of the counters grows to
hold the advanced one: the model's choice (DESIGN CHOICE, log 21). Where the image does not list the sector, a copy or its position, the answers are free values
(log 25). -/
def Obligations.ResolveChoice : Prop :=
  ∀ (s : State) (v : Nat) (isRead : Bool),
    let absent := s.flags.diskPresent = false ∨ v = 0 ∨ s.geom.totalSectors < v
    (absent → resolveSector v isRead s = (.notFound s.params.fdcRnf, s)) ∧
    (¬absent →
      let info := s.virtSector v
      let copies := s.copies info
      let sameDensity := fun c : Copy => c.2.mfm = s.geom.mfm
      let valid := fun c : Copy => sameDensity c ∧ ¬(c.2.fdcStatus.getLsbD 4 = false ∧ c.2.fdcStatus.getLsbD 3 = false)
      let served := fun c : Copy => valid c ∧ ¬(isRead = true ∧ c.2.fdcStatus.getLsbD 4 = false)
      ((∀ c ∈ copies, ¬served c) →
        resolveSector v isRead s =
          (.notFound (if (∃ c ∈ copies, sameDensity c) ∧ ∀ c ∈ copies, ¬valid c then s.params.fdcAddrCrc
                      else s.params.fdcRnf), s)) ∧
      ((∃ c ∈ copies, served c) →
        ∃ E : List Copy, (∀ c, c ∈ E ↔ c ∈ copies ∧ served c) ∧ E.Sublist copies ∧
        ∃ i c, E[i]? = some c ∧
          let k := s.phantomCounter.getD (v - 1) 0
          let forced := fun c : Copy =>
            s.forcedOrder.getD c.1 0 ≠ 0 ∧ (s.forcedOrder.getD c.1 0).toNat = k + 1
          let wait := fun c : Copy =>
            (c.2.rotPos.num * s.period / c.2.rotPos.den + s.period - s.rot.rotationalCounter) % s.period
          (∃ counters : List Nat,
            resolveSector v isRead s = (.found c.1 c.2, { s with phantomCounter := counters }) ∧
            counters.length = max s.phantomCounter.length v ∧ counters.getD (v - 1) 0 = (k + 1) % info.count ∧
            ∀ x, x ≠ v - 1 → counters.getD x 0 = s.phantomCounter.getD x 0) ∧
          if ∃ c ∈ E, forced c then forced c ∧ ∀ j d, j < i → E[j]? = some d → ¬forced d
          else if s.flags.accurateSectorTiming = true ∧ s.cmd.bufferHit = false then
            (∀ d ∈ E, wait c ≤ wait d) ∧ ∀ j d, j < i → E[j]? = some d → wait c < wait d
          else i = k % E.length))

/-- Phantom cycling (43_rw_common.md R263, P4): with fast timing, no forced order and every copy eligible, consecutive
resolutions of a sector choose its copies in a fixed cyclic order, and as many as there are copies choose each once. An
array that lacks the sector's counter counts from 0: the model's choice (DESIGN CHOICE, log 21). Where
the image does not list the sector, its start and count are free values (log 25). -/
def Obligations.PhantomCycle : Prop :=
  ∀ (s : State) (v n : Nat) (isRead : Bool) (info : VirtSector),
    s.flags.diskPresent = true → 1 ≤ v → v ≤ s.geom.totalSectors →
    s.flags.accurateSectorTiming = false → (∀ b ∈ s.forcedOrder, b = 0) → s.virtSector v = info → 0 < info.count →
    (∀ c ∈ s.copies info, c.eligible s.geom.mfm isRead = true) →
    let k := s.phantomCounter.getD (v - 1) 0
    (∃ t, resolveTimes v isRead n s = ((List.range n).map (fun i => info.start + (k + i) % info.count), t)) ∧
    ((List.range info.count).map (fun i => info.start + (k + i) % info.count)).Nodup

/-- Rotational monotonicity (41_rotation_seek.md R180, P1, R171): `AdvanceToNow` at a later Cycle moves the angle by the
cycles that passed and counts each full period crossed once; with the motor stopped nothing moves. -/
def Obligations.RotationAdvances : Prop :=
  ∀ (s : State) (d : Nat), 0 < s.period → s.rot.lastUpdateCycle ≤ s.now →
    let u := advanceToNow s
    let t := advanceToNow { u with now := s.now + d }
    (s.motorRunning = true →
      u.rot.rotationalCounter < s.period ∧
      t.rot.rotationalCounter = (u.rot.rotationalCounter + d) % s.period ∧
      t.rot.lastUpdateCycle = s.now + d ∧
      (∃ n, t.rot.rotationCount = u.rot.rotationCount + BitVec.ofNat 32 n ∧
        n * s.period + t.rot.rotationalCounter = u.rot.rotationalCounter + d) ∧
      t.rot = (advanceToNow { s with now := s.now + d }).rot) ∧
    (s.motorRunning = false → t = { s with now := s.now + d })

/-- Mode equivalence (41_rotation_seek.md R181): after any sequence of `WarpOrDelay` calls with the motor running, once
every forwarded delay has passed, the angle and the revolution count are the same in accurate and in fast mode, and fast
mode forwards no more cycles. -/
def Obligations.WarpEquivalence : Prop :=
  ∀ (s : State) (cs : List (Nat × Nat)), 0 < s.period → s.motorRunning = true → s.rot.lastUpdateCycle ≤ s.now →
    let slow := runWarps cs { s with flags := { s.flags with accurateSectorTiming := true } }
    let fast := runWarps cs { s with flags := { s.flags with accurateSectorTiming := false } }
    ∃ slowDelays fastDelays, slow.out = s.out ++ slowDelays ∧ fast.out = s.out ++ fastDelays ∧
      delaySum fastDelays ≤ delaySum slowDelays ∧
      let slowRot := (advanceToNow { slow with now := s.now + delaySum slowDelays }).rot
      let fastRot := (advanceToNow { fast with now := s.now + delaySum fastDelays }).rot
      slowRot.rotationalCounter = fastRot.rotationalCounter ∧ slowRot.rotationCount = fastRot.rotationCount

/-- `SeekTo` (41_rotation_seek.md R175, R177, R178): the head stands on the cylinder's step unit, one sound per step when
sounds are enabled, nothing else changes; the cycles returned are the steps' time, an extra step and settle on a forward
seek of a reversing profile, and a settle whenever the head moves. -/
def Obligations.SeekTakes : Prop :=
  ∀ (s : State) (cyl base : Nat),
    let q := s.prof
    let target := if q.seekHalfTracks then 2 * cyl else cyl
    let steps : Nat := (target - s.currentTrack) + (s.currentTrack - target)
    let extra := q.reverseOnForwardSeeks = true ∧ s.currentTrack < target
    let sounds := if s.flags.driveSoundsEnabled then
      (List.range (if extra then steps + 1 else steps)).map fun i => Action.seekSound (base + i * q.cyclesPerTrackStep)
      else []
    seekTo cyl base s = { s with
      currentTrack := target
      out := s.out ++ sounds
      wire := s.wire } ∧
    seekCycles q s.currentTrack cyl =
      steps * q.cyclesPerTrackStep + (if extra then q.cyclesPerTrackStep + q.cyclesForHeadSettle else 0) +
        (if target = s.currentTrack then 0 else q.cyclesForHeadSettle)

/-! ### Registers and tables -/

/-- The two status bytes, bit by bit (47_cmd_status_percom_misc.md R352, R353). The layout of the first is general
knowledge the model takes over (log 23). -/
def Obligations.StatusBytes : Prop :=
  ∀ (s : State) (i : Nat), i < 8 →
    ((statusByte0 s).getLsbD i = true ↔
      i = 2 ∧ s.lastOpError = true ∨
      i = 3 ∧ s.flags.diskPresent = true ∧ s.flags.writeEnabled = false ∨
      i = 4 ∧ s.motorRunning = true ∨
      i = 5 ∧ s.geom.bytesPerSector = 256 ∨
      i = 7 ∧ s.geom.mfm = true ∧ s.geom.bytesPerSector = 128) ∧
    ((statusByte1 s).getLsbD i = true ↔
      if i = 7 then
        s.prof.supportsNotReady = false ∨ s.flags.diskPresent = true ∧ s.fdcStatus.getLsbD 7 = true
      else s.fdcStatus.getLsbD i = true)

/-- PERCOM validation (47_cmd_status_percom_misc.md R366, R369, P8): on every profile but the XF551's a block is rejected
exactly when one of the five conditions holds, and then nothing changes; on the XF551's every block is accepted and, with
well-formed parameters (log 41; no event is handled without), the stored one describes one of the three geometries, and one
with 26 sectors per track if it asks for 26 (R368). The byte positions are general knowledge (log 23). -/
def Obligations.PercomValidation : Prop :=
  ∀ (s : State) (d : Percom),
    (s.prof.family ≠ .xf551 →
      ((setPercomData d s).1 = false ↔
        d.b0 = 0 ∨ d.b2 = 0 ∧ d.b3 = 0 ∨ 2 ≤ d.b4.toNat ∨
        65535 < d.b0.toNat * (256 * d.b2.toNat + d.b3.toNat) * (d.b4.toNat + 1) ∨
        256 * d.b6.toNat + d.b7.toNat ∉ [128, 256, 512, 8192]) ∧
      ((setPercomData d s).1 = false → (setPercomData d s).2 = s) ∧
      ((setPercomData d s).1 = true → (setPercomData d s).2.percom = d)) ∧
    (s.prof.family = .xf551 →
      (setPercomData d s).1 = true ∧
      (s.params.wf = true →
        geometryOfPercom (setPercomData d s).2.percom ∈
          [s.params.xf551Geometry0, s.params.xf551Geometry1, s.params.xf551Geometry2] ∧
        (256 * d.b2.toNat + d.b3.toNat = 26 →
          (geometryOfPercom (setPercomData d s).2.percom).sectorsPerTrack = 26)))

/-- `PERCOMOfGeometry` and `GeometryOfPERCOM` are inverse on every geometry a block can hold; a re-derived block names
its step rate, drive-present byte and reserved bytes (47_cmd_status_percom_misc.md R364, R365). The byte positions are
general knowledge (log 23). -/
def Obligations.GeometryRoundTrip : Prop :=
  ∀ (g : Layout),
    (g.representable → geometryOfPercom (percomOfGeometry g) = g) ∧
    (percomOfGeometry g).b1 = 0x01 ∧ (percomOfGeometry g).b8 = 0xFF ∧ (percomOfGeometry g).b9 = 0 ∧
    (percomOfGeometry g).b10 = 0 ∧ (percomOfGeometry g).b11 = 0 ∧
    ∀ b : Percom, (geometryOfPercom b).representable ∧
      percomOfGeometry (geometryOfPercom b) =
        { b with b1 := 0x01, b5 := if b.b5.getLsbD 2 then 0x04 else 0x00, b8 := 0xFF, b9 := 0, b10 := 0, b11 := 0 }

/-- Every profile a unit can run is finalized (40_profile_table.md R148, R149): the FDC-command delay is the ACK delay
and 5756; the frame window is 5 percent about the high-speed bit time, rounded inward; its divisors are the least and
the greatest whose bit time lies in it. The divisor's bit time, 2 (d + 7), is general knowledge (log 33). -/
def Obligations.ProfileFinalized : Prop :=
  ∀ (p : Params) (mode : Nat) (v : IndusVariant),
    let q := p.profile mode v
    let f := q.cyclesPerSIOBitHighSpeedF
    q.cyclesToFDCCommand = q.cyclesToACKSent + 5756 ∧
    (0 < f.den →
      (∀ n, q.hsFrameCpbMin ≤ n ↔ 95 * f.num ≤ 100 * f.den * n) ∧
      (∀ n, n ≤ q.hsFrameCpbMax ↔ 100 * f.den * n ≤ 105 * f.num)) ∧
    (∀ d : Int, q.hsCmdFrameRateLo ≤ d ↔ (q.hsFrameCpbMin : Int) ≤ 2 * (d + 7)) ∧
    (∀ d : Int, d ≤ q.hsCmdFrameRateHi ↔ 2 * (d + 7) ≤ (q.hsFrameCpbMax : Int))

/-- The byte-addressed spaces (20_memory.md R80 to R83): a store puts its bytes in increasing offset order, leaves every
other byte, and keeps the canonical form, which is the model's. -/
def Obligations.MemoryLaws : Prop :=
  ∀ (m : Memory) (a : Nat) (bytes : List Byte),
    (m.writeBytes a bytes).readBytes a bytes.length = bytes ∧
    (∀ x, (x < a ∨ a + bytes.length ≤ x) → (m.writeBytes a bytes).read x = m.read x) ∧
    (m.wf = true → (m.writeBytes a bytes).wf = true) ∧
    m.normalise.wf = true ∧ ∀ x, m.normalise.read x = m.read x

/-! ### Events that are not frames -/

/-- A disk change (49_facade.md R426 to R428): the flags, the geometry and the PERCOM block are re-derived, the phantom
counters, the forced orders and the track buffer are cleared; a read or a write in flight loses its copy and its status
becomes record-not-found. Neither the head, the motor nor the rotation changes, and the command is not aborted. A byte of
the PERCOM block that the geometry's rule does not state is a free value (log 42). -/
def Obligations.DiskChanged : Prop :=
  ∀ (s : State) (d : Disk), s.admitted →
    let u : State := { s with disk := d.canonical }
    let inFlight := s.cmd.code = .read ∨ s.cmd.code = .write
    handle (.diskChanged d) s = .next { u with
      flags := u.refreshedFlags
      geom := u.refreshedGeometry
      percom := u.refreshedPercom
      phantomCounter := List.replicate u.refreshedGeometry.totalSectors 0
      forcedOrder := List.replicate u.physCount 0
      bufferedTrack := none
      fdcStatus := if inFlight then s.params.fdcRnf else s.fdcStatus
      cmd :=
        { s.cmd with
          physSector := if inFlight then none else s.cmd.physSector
          physWeakOffset := if inFlight then none else s.cmd.physWeakOffset } }

/-- The settings the unit is told of. `SetEmulationMode` (49_facade.md R425): the mode and its base profile are in force at
once, the disk keeps its angle in the new period, nothing else changes; a mode beyond the table is a programming error
(60_exceptions.md R468). The change notifications (R429 to R431): the cached flags follow the Disk Interface; a running
motor's sound is called for when the sound flag is set (20_memory.md R92; log 35). `SetTrackBufferingDisabled` (R432): the flag, and the track buffer dropped
when it is set. `SetForcedPhantomOrder` (R434): one entry; that a sector the image does not have gets an entry of its own,
those below it 0, is the model's choice (log 19). -/
def Obligations.ModeChanged : Prop :=
  ∀ (s : State), s.admitted →
    (∀ mode : Nat,
      let old := (advanceToNow s).rot
      let newP := (s.params.getProfile mode).cyclesPerDiskRotation
      (s.params.hasMode mode = true → (s.params.getProfile mode).wf s.params.maxIdleTimer = true →
        handle (.setEmulationMode mode) s = .next { s with
          mode := mode
          indusVariant := .base
          rot := { old with rotationalCounter :=
            if newP = s.period then old.rotationalCounter else old.rotationalCounter * newP / s.period } } ∧
        (old.rotationalCounter < s.period → ∀ t, handle (.setEmulationMode mode) s = .next t →
          t.rot.rotationalCounter < t.period)) ∧
      (s.params.hasMode mode = false →
        handle (.setEmulationMode mode) s = .refused (.programmingError .modeOutOfRange))) ∧
    (∀ w f : Bool, handle (.writeModeChanged w f) s = .next { s with
      disk := { s.disk with writeEnabled := w, formatEnabled := f }
      flags := { s.flags with writeEnabled := w, formatEnabled := f } }) ∧
    (∀ a : Bool, handle (.timingModeChanged a) s = .next { s with
      disk := { s.disk with accurateTiming := a }
      flags := { s.flags with accurateSectorTiming := a } }) ∧
    (∀ a : Bool, handle (.audioModeChanged a) s = .next { s with
      disk := { s.disk with driveSoundsEnabled := a }
      flags := { s.flags with driveSoundsEnabled := a }
      out := s.out ++ (if s.motorRunning ∧ a = true then [.motorSound true] else []) }) ∧
    (∀ b : Bool, handle (.setTrackBufferingDisabled b) s = .next { s with
      flags := { s.flags with trackBufferingDisabled := b }
      bufferedTrack := if b then none else s.bufferedTrack }) ∧
    ∀ (p : Nat) (k : Byte), ∃ order : List Byte,
      handle (.setForcedPhantomOrder p k) s = .next { s with forcedOrder := order } ∧
      order.length = max s.forcedOrder.length (p + 1) ∧ order.getD p 0 = k ∧
      ∀ x, x ≠ p → order.getD x 0 = s.forcedOrder.getD x 0

/-- The motor-off event (49_facade.md R439): during a command it is put off by a full timeout and the motor keeps
running; otherwise the motor stops at the angle the disk has reached; with no event pending it is stale. -/
def Obligations.MotorTimer : Prop :=
  ∀ (s : State), s.admitted →
    (s.motorOffDeadline = none → handle .motorOffTimer s = .next s) ∧
    (s.motorOffDeadline ≠ none → s.cmd.code ≠ .none →
      handle .motorOffTimer s = .next { s with
        motorOffDeadline := some (s.now + s.prof.cyclesToMotorOff)
        out := s.out ++ [.schedule s.prof.cyclesToMotorOff] }) ∧
    (s.motorOffDeadline ≠ none → s.cmd.code = .none →
      handle .motorOffTimer s = .next { s with
        rot := (advanceToNow s).rot
        motorOffDeadline := none
        out := s.out ++ [.setMotorIndicator false] ++
          (if s.flags.driveSoundsEnabled then [.motorSound false] else []) })

/-- An abort by the transport (42_dispatch.md R205, R216): the command is over with no response, a running motor's event
moves out by the command's elapsed time, the transport's queue is empty; the head, the counters, the buffers and the disk
stay as the command left them. With no command active it does nothing; that a reply then still queued stays queued is the
model's choice (log 48). `SetEnabled` (49_facade.md R423): enabling sets the
flag; disabling aborts the command with the transport's queue flushed, and stops the motor at the angle the disk has
reached; everything else is kept. -/
def Obligations.AbortEvent : Prop :=
  ∀ (s : State), s.admitted →
    (s.cmd.code = .none → handle .serialAbortCommand s = .next s) ∧
    (s.cmd.code ≠ .none → handle .serialAbortCommand s = .next { s with
      cmd := s.cmd.ended
      motorOffDeadline := s.motorOffDeadline.map (· + s.elapsed)
      out := s.out ++ extendActions s ++ [.setActivity false]
      wire := { s.wire with queue := [] } }) ∧
    handle (.setEnabled true) s = .next { s with enabled := true } ∧
    handle (.setEnabled false) s = .next { s with
      enabled := false
      rot := if s.motorRunning then (advanceToNow s).rot else s.rot
      cmd := if s.cmd.code = .none then s.cmd else s.cmd.ended
      motorOffDeadline := none
      out := s.out ++ (abortActions s ++ motorOffActions s)
      wire := s.wire.after s.now 0 (abortActions s ++ motorOffActions s) }

/-- `Reset` (70_reset_and_hazards.md R501): the command is aborted, the motor is off, the base profile of the mode is in
force, the rotation, the status, the head, the counters, the buffers' marks, the geometry, the PERCOM block, the flags and
the transfer rate are at their reset values; the unit number, the enable, the mode, the forced orders, the weak-bit
register and the three buffers are unchanged. `Init` (R500): the unit number and the mode are those given, the unit is
disabled and idle, no event is scheduled, the three buffers and the forced orders are zero, the weak-bit register holds its
seed, and then the unit is reset; a unit number that is not below `NUM_UNITS` is a programming error. The initial offset is
a parameter (log 12); that the fields of the command record which R70 calls unspecified keep an earlier command's values is
the model's choice (log 11, DESIGN CHOICE). -/
def Obligations.ResetUnit : Prop :=
  ∀ (s : State), s.admitted →
    let after : State → State := fun v =>
      let q := v.params.getProfile v.mode
      let acts := abortActions v ++ motorOffActions v
      { v with
        indusVariant := .base
        rot := { rotationalCounter := initialRotationOffset v.params v.unit % q.cyclesPerDiskRotation
                 rotationCount := 0
                 lastUpdateCycle := v.now }
        fdcStatus := q.powerOnFDCStatus
        lastOpError := false
        currentTrack :=
          if q.retryMode1050 then 0 else v.params.endOfTravelTrack * (if q.seekHalfTracks then 2 else 1)
        bufferedTrack := none
        lastReadSector := 0
        flags := v.refreshedFlags
        geom := v.refreshedGeometry
        percom := v.refreshedPercom
        phantomCounter := List.replicate v.refreshedGeometry.totalSectors 0
        cmd := if v.cmd.code = .none then v.cmd else v.cmd.ended
        motorOffDeadline := none
        xferCyclesPerBit := q.cyclesPerSIOBit
        xferCyclesPerByte := q.cyclesPerSIOByte
        out := v.out ++ acts
        wire := v.wire.after v.now 0 acts }
    ((s.params.getProfile s.mode).wf s.params.maxIdleTimer = true → handle .reset s = .next (after s)) ∧
    ∀ (unit : Byte) (configured : Option Nat),
      (s.params.numUnits ≤ unit.toNat →
        handle (.init unit configured) s = .refused (.programmingError .unitOutOfRange)) ∧
      (unit.toNat < s.params.numUnits → s.params.hasMode (configured.getD 0) = true →
        (s.params.getProfile (configured.getD 0)).wf s.params.maxIdleTimer = true →
        handle (.init unit configured) s = .next (after { s with
          unit := unit
          enabled := false
          mode := configured.getD 0
          motorOffDeadline := none
          cmd := s.cmd.ended
          flags := { s.flags with trackBufferingDisabled := false }
          weakBitLFSR := s.params.weakLfsrSeed
          sendBuf := Memory.zero
          recvBuf := Memory.zero
          driveRAM := Memory.zero
          forcedOrder := List.replicate s.physCount 0 }))

/-- `LoadState` of a blob with an implausible value (49_facade.md R449, 60_exceptions.md R466): the caller gets the
error, and the unit is exactly as it was. -/
def Obligations.LoadRejected : Prop :=
  ∀ (s : State) (b : SavedState), s.admitted →
    (s.params.maxIdleTimer ≤ b.idleTimerRemaining ∨ 65535 ≤ b.currentTrack ∨ 13 < b.activeCommand ∨
      b.rotationFraction.den ≤ b.rotationFraction.num ∨
      ∃ c, LogicalCommand.ofNumber b.activeCommand = some c ∧ b.activeCommandState.toNat ∉ c.states) →
    handle (.loadState b) s = .next { s with reply := .invalidSavedState }

/-- Saving and loading (49_facade.md R446 to R448, R450, P6): a valid record saved between events, loaded by a unit in
the same mode with the same parameters, gives that unit the saved command, registers, buffer bytes, angle of the disk, time
left on the motor timer and transport queue, whose next fence is as far ahead as it was; the command's elapsed time goes on
from where it was, also in a unit younger than the command. The start position, the start time of no command, and what a
record holds of the transport's queue are the model's choice (logs 4, 21). -/
def Obligations.SaveLoad : Prop :=
  ∀ (s t : State), s.settled = true → s.memoriesWf = true → t.admitted → t.params = s.params → t.mode = s.mode →
    (s.params.profile s.mode s.indusVariant).wf s.params.maxIdleTimer = true →
    (saveState s).valid s.params = true →
    handle .saveState t = .next { t with reply := .saved (saveState t) } ∧
    ∃ u, handle (.loadState (saveState s)) t = .next u ∧
      u.cmd = { s.cmd with
        startTime := if s.cmd.code = .none then t.cmd.startTime else (t.now : Int) - s.elapsed
        startRotationalPosition := t.cmd.startRotationalPosition } ∧
      u.indusVariant = s.indusVariant ∧ u.currentTrack = s.currentTrack ∧ u.geom = s.geom ∧
      u.bufferedTrack = s.bufferedTrack ∧ u.lastReadSector = s.lastReadSector ∧ u.fdcStatus = s.fdcStatus ∧
      u.lastOpError = s.lastOpError ∧ u.percom = s.percom ∧ u.phantomCounter = s.phantomCounter ∧
      u.forcedOrder = s.forcedOrder ∧ u.weakBitLFSR = s.weakBitLFSR ∧
      u.flags.trackBufferingDisabled = s.flags.trackBufferingDisabled ∧
      u.rot = { rotationalCounter := (getSnapshot s).1, rotationCount := 0, lastUpdateCycle := t.now } ∧
      u.motorOffDeadline =
        (match s.motorOffDeadline with
        | none => none
        | some d => if d ≤ s.now then none else some (t.now + (d - s.now))) ∧
      (∀ a, u.sendBuf.read a = s.sendBuf.read a ∧ u.recvBuf.read a = s.recvBuf.read a ∧
        u.driveRAM.read a = s.driveRAM.read a) ∧
      u.wire = (s.wire.save s.now s.rxOffset).load t.now ∧ u.rxOffset = s.rxOffset ∧
      (∀ c id q, (∀ x, QOp.sync x ∈ s.wire.queue → x ≤ s.now) → s.now ≤ c →
        Wire.firstFence s.wire.cursor s.wire.queue = some (c, id, q) →
        ∃ q', Wire.firstFence u.wire.cursor u.wire.queue = some (t.now + (c - s.now), id, q')) ∧
      u.unit = t.unit ∧ u.enabled = t.enabled ∧ u.mode = t.mode ∧ u.params = t.params ∧ u.disk = t.disk ∧
      u.now = t.now

/-! ### The machine -/

/-- Words of the table decode to their rows (30_encoding.md R111, R118); a word with no row to none. -/
def Obligations.DecodedWords : Prop :=
  decodeTableWord 32 0x31530000 = some (.status ⟨0x31, false, 0x00, 0x00⟩) ∧
  decodeTableWord 32 0x31520100 = some (.read ⟨0x31, false, 0x01, 0x00⟩) ∧
  decodeTableWord 32 0x3150D002 = some (.put ⟨0x31, false, 0xD0, 0x02⟩) ∧
  decodeTableWord 32 0x32D76801 = some (.write ⟨0x32, true, 0x68, 0x01⟩) ∧
  decodeTableWord 32 0x31210000 = some (.format ⟨0x31, false, 0x00, 0x00⟩) ∧
  decodeTableWord 32 0x31660000 = some (.formatSkewed ⟨0x31, false, 0x00, 0x00⟩) ∧
  decodeTableWord 32 0x314E0000 = some (.readPercom ⟨0x31, false, 0x00, 0x00⟩) ∧
  decodeTableWord 32 0x31CF0000 = some (.writePercom ⟨0x31, true, 0x00, 0x00⟩) ∧
  decodeTableWord 32 0x313F0000 = some (.getHsIndex ⟨0x31, false, 0x00, 0x00⟩) ∧
  decodeTableWord 32 0x31000000 = none

/-- Every well-formed instruction, with every operand, is what its encoding decodes to (30_encoding.md R111, R118). -/
def Obligations.DecodeEncode : Prop :=
  ∀ (ops : Opcodes) (i : Instr), i.wellFormed ops = true →
    ∃ bytes, encode ops i = some bytes ∧ decode ops bytes = .ok i

/-- Decoding is faithful: the bytes an instruction is decoded from are its encoding, the instruction is well formed, and
four bytes are refused only when no row has their opcode (30_encoding.md R112, R117, R118). -/
def Obligations.EncodeDecode : Prop :=
  ∀ (ops : Opcodes) (bytes : List Byte),
    (∀ i, decode ops bytes = .ok i → encode ops i = some bytes ∧ i.wellFormed ops = true) ∧
    (∀ d c a b, bytes = [d, c, a, b] → ∀ e, decode ops bytes = .error e →
      e = .noRow (baseOpcode c) ∧ ∀ i : Instr, i.opcode ops ≠ some (baseOpcode c)) ∧
    (bytes.length ≠ 4 → decode ops bytes = .error (.wrongLength bytes.length))

/-- A step runs the decoded instruction (00_scope.md R12, 30_encoding.md R110, 60_exceptions.md R476): when the event due
is a command frame whose bytes decode to an instruction, the step is that instruction's meaning in the state that has
recorded the frame, at the event's Cycle, the event taken from the inbox. A frame at the head of the inbox that is due is
the event taken. The inbox and its order are the model's (logs 6, 14). -/
def Obligations.StepRunsInstruction : Prop :=
  ∀ (s : State) (rest : List TimedEvent) (t : Sys2Proof.Cycle) (fr : Frame) (frameEnd deassert skew : Sys2Proof.Cycle) (i : Instr),
    s.inbox = ⟨t, .serialBeginCommand fr frameEnd deassert skew⟩ :: rest → t ≤ s.now →
    decode s.params.opcodes [fr.device, fr.command, fr.aux1, fr.aux2] = .ok i →
    step s = exec i { s with
      inbox := rest
      reply := .none
      bus := { cyclesPerBit := fr.cyclesPerBit, standardRate := fr.standardRate, frameEnd := frameEnd,
               deassert := deassert, accelTimeSkew := skew } }

/-- The dispatcher's loop is bounded (42_dispatch.md R210, R218): from an active command that is not waiting it never
reaches its bound, and where it ends, the command is over or waits at a state listed for it. -/
def Obligations.EventSettles : Prop :=
  ∀ (s : State), s.active = true → s.cmd.waiting = false →
    processCommand s ≠ .error (.refused .dispatcherBound) ∧
    ∀ t, processCommand s = .ok t → t.settled = true

/-- Every step keeps the invariant: an idle unit has its cursor at 0, an active command waits at a listed state
(42_dispatch.md R217, R218, R220), and every memory is in canonical form. -/
def Obligations.StepKeepsInv : Prop :=
  ∀ (s t : State), s.Inv → step s = .next t → t.Inv

/-- The reset state has the invariant. -/
def Obligations.ResetInv : Prop := State.reset.Inv

/-- What can change drive RAM and the disk: drive RAM changes only by `Init` (70_reset_and_hazards.md R500), by `LoadState`
(49_facade.md R447) and at write's state 50 (10_state.md R62, 45_cmd_write.md R320); the disk only at write's state 20
(R318), at format's state 2 (which runs state 3) or 3 (46_cmd_format.md R337), and by an event of the Disk Interface
itself, of which `diskAnswers` is the model's own (log 8). -/
def Obligations.StorageChanges : Prop :=
  ∀ (s t : State) (e : Event), handle e s = .next t →
    (t.driveRAM ≠ s.driveRAM →
      (∃ u m, e = .init u m) ∨ (∃ b, e = .loadState b) ∨ (s.cmd.code = .write ∧ e = .serialFence 50)) ∧
    (t.disk ≠ s.disk →
      (s.cmd.code = .write ∧ e = .serialFence 20) ∨
      (s.cmd.code = .format ∧ (e = .serialFence 2 ∨ e = .serialFence 3)) ∨
      (∃ d, e = .diskChanged d) ∨ (∃ d, e = .diskAnswers d) ∨ (∃ w f, e = .writeModeChanged w f) ∨
      (∃ a, e = .timingModeChanged a) ∨ ∃ a, e = .audioModeChanged a)
end

