-- ==== Sys2Proof/Laws/Arrivals.lean ====
section
/-! SUPPORT. The choice of the next event: what a candidate can be and when an urgent one is chosen; when the next
fence of a saved queue arrives; and that `withFetchWord` addresses its own unit. -/

namespace Sys2Proof.Machine

/-- The first of two candidates is one of them. -/
theorem Candidate.first_elim {P : Candidate → Prop} {a b : Option Candidate} (ha : ∀ c, a = some c → P c)
    (hb : ∀ c, b = some c → P c) (c : Candidate) (h : Candidate.first a b = some c) : P c := by
  unfold Candidate.first at h
  split at h
  · exact hb c h
  · exact ha c h
  · split at h
    · exact ha c h
    · exact hb c h

/-- A candidate due at once, of the highest priority, is delivered before any that is not earlier. -/
theorem Candidate.first_urgent (now : Cycle) (a : Candidate) (b : Option Candidate) (ht : a.time = now)
    (hp : a.event.priority = 0) (hb : ∀ c, b = some c → now ≤ c.time) : Candidate.first (some a) b = some a := by
  cases b with
  | none => rfl
  | some c =>
    have := hb c rfl
    simp only [Candidate.first, Candidate.before, hp, ht, Nat.zero_le, decide_true, Bool.and_true]
    rw [if_pos]
    rcases Nat.lt_or_eq_of_le this with h | h <;> simp [h]

/-- What holds of every event of the inbox that can be delivered holds of the one that is delivered. -/
theorem State.inboxFirst_elim {P : Candidate → Prop} (s : State)
    (h : ∀ e others c, s.inboxOffer e others = some c → P c) (passed left : List TimedEvent) (c : Candidate)
    (hc : s.inboxFirst passed left = some c) : P c := by
  induction left generalizing passed c with
  | nil => simp [State.inboxFirst] at hc
  | cons e left ih => exact Candidate.first_elim (h e _) (ih _) c hc

/-- What an event of the inbox, a fence of the reference transport and the timer all have, the next event has. -/
theorem State.nextEvent_elim {P : Candidate → Prop} (s : State)
    (hi : ∀ e others c, s.inboxOffer e others = some c → P c) (hf : ∀ c, s.fenceCandidate = some c → P c)
    (ht : ∀ c, s.timerCandidate = some c → P c) (c : Candidate) (hc : s.nextEvent = some c) : P c :=
  Candidate.first_elim (s.inboxFirst_elim hi [] s.inbox) (Candidate.first_elim hf ht) c hc

/-- An event of the inbox is not delivered in the past, and leaves everything but the inbox as it is. -/
theorem State.inboxOffer_some (s : State) (e : TimedEvent) (others : List TimedEvent) (c : Candidate)
    (h : s.inboxOffer e others = some c) : s.now ≤ c.time ∧ c.rest = { s with inbox := others } := by
  simp only [State.inboxOffer, Option.map_eq_some_iff] at h
  obtain ⟨o, _, rfl⟩ := h
  exact ⟨Nat.le_trans (Nat.le_max_right _ _) (Nat.le_max_left _ _), rfl⟩

/-- A fence of the reference transport is not delivered in the past, and changes only the transport. -/
theorem State.fenceCandidate_some (s : State) (c : Candidate) (h : s.fenceCandidate = some c) :
    s.now ≤ c.time ∧ ∃ w : Wire, c.rest = { s with wire := w } := by
  unfold State.fenceCandidate at h
  split at h
  · simp only [Option.map_eq_some_iff] at h
    obtain ⟨⟨t, id, q⟩, _, rfl⟩ := h
    exact ⟨Nat.le_max_right _ _, _, rfl⟩
  · simp at h

/-- The timer is not delivered in the past, and changes nothing. -/
theorem State.timerCandidate_some (s : State) (c : Candidate) (h : s.timerCandidate = some c) :
    s.now ≤ c.time ∧ c.rest = s := by
  unfold State.timerCandidate at h
  split at h
  · simp only [Option.map_eq_some_iff] at h
    obtain ⟨d, _, rfl⟩ := h
    exact ⟨Nat.le_max_right _ _, rfl⟩
  · simp at h

/-- No event is delivered in the past (00_scope.md R12). -/
theorem State.nextEvent_time (s : State) (c : Candidate) (h : s.nextEvent = some c) : s.now ≤ c.time :=
  s.nextEvent_elim (P := fun c => s.now ≤ c.time) (fun e o c h => (s.inboxOffer_some e o c h).1)
    (fun c h => (s.fenceCandidate_some c h).1) (fun c h => (s.timerCandidate_some c h).1) c h

/-- A command frame that is due at the head of the inbox is the next event. -/
theorem State.nextEvent_frame (s : State) (t : Cycle) (f : Frame) (frameEnd deassert skew : Cycle)
    (rest : List TimedEvent) (h : s.inbox = ⟨t, .serialBeginCommand f frameEnd deassert skew⟩ :: rest)
    (ht : t ≤ s.now) :
    s.nextEvent = some ⟨s.now, .serialBeginCommand f frameEnd deassert skew, { s with inbox := rest }⟩ := by
  have ho : s.inboxOffer ⟨t, .serialBeginCommand f frameEnd deassert skew⟩ rest =
      some ⟨s.now, .serialBeginCommand f frameEnd deassert skew, { s with inbox := rest }⟩ := by
    simp [State.inboxOffer, State.offered, Nat.max_eq_right ht]
  have hi : s.inboxCandidate =
      some ⟨s.now, .serialBeginCommand f frameEnd deassert skew, { s with inbox := rest }⟩ := by
    unfold State.inboxCandidate
    rw [h]
    unfold State.inboxFirst
    rw [List.nil_append, ho]
    exact Candidate.first_urgent s.now _ _ rfl rfl
      (s.inboxFirst_elim (fun e o c h => (s.inboxOffer_some e o c h).1) _ _)
  unfold State.nextEvent
  rw [hi]
  exact Candidate.first_urgent s.now _ _ rfl rfl
    (Candidate.first_elim (fun c h => (s.fenceCandidate_some c h).1) (fun c h => (s.timerCandidate_some c h).1))

/-! ### The transport's saved queue -/

/-- Dropping what has been performed does not move the next fence. -/
theorem Wire.firstFence_consume (now cursor : Cycle) (q : List QOp) :
    Wire.firstFence (Wire.consume now cursor q).1 (Wire.consume now cursor q).2 = Wire.firstFence cursor q := by
  induction q generalizing cursor with
  | nil => rfl
  | cons o q ih =>
    cases o with
    | wait c =>
      unfold Wire.consume
      split
      · exact ih _
      · rename_i h
        have : max cursor now ≤ cursor + c := Nat.max_le.2 ⟨Nat.le_add_right _ _, Nat.le_of_not_le h⟩
        simp [Wire.firstFence, Nat.add_sub_cancel' this]
    | sync x => exact ih _
    | endFence => exact ih _
    | fence id => rfl
    | receive id n => rfl

/-- What is left begins no earlier than `now`, unless nothing of it takes time. -/
theorem Wire.consume_time (now cursor : Cycle) (q : List QOp) :
    now ≤ (Wire.consume now cursor q).1 ∨
      ∀ c id r, Wire.firstFence (Wire.consume now cursor q).1 (Wire.consume now cursor q).2 = some (c, id, r) →
        c = (Wire.consume now cursor q).1 := by
  induction q generalizing cursor with
  | nil => exact .inr (by simp [Wire.consume, Wire.firstFence])
  | cons o q ih =>
    cases o with
    | wait c =>
      unfold Wire.consume
      split
      · exact ih _
      · exact .inl (Nat.le_max_right _ _)
    | sync x => exact ih _
    | endFence => exact ih _
    | fence id => exact .inr (by simp +contextual [Wire.consume, Wire.firstFence])
    | receive id n => exact .inr (by simp [Wire.consume, Wire.firstFence])

/-- What is left was queued. -/
theorem Wire.consume_sync (now cursor x : Cycle) (q : List QOp) (h : QOp.sync x ∈ (Wire.consume now cursor q).2) :
    QOp.sync x ∈ q := by
  induction q generalizing cursor with
  | nil => simp [Wire.consume] at h
  | cons o q ih =>
    cases o with
    | wait c =>
      unfold Wire.consume at h
      split at h
      · exact List.mem_cons_of_mem _ (ih _ h)
      · simpa using h
    | sync y => exact List.mem_cons_of_mem _ (ih _ h)
    | endFence => exact List.mem_cons_of_mem _ (ih _ h)
    | fence id => simpa [Wire.consume] using h
    | receive id n => simpa [Wire.consume] using h

/-- A queue with its `sync` marks dropped, moved from `now` to `later`: the next fence is as far ahead as it was. -/
theorem Wire.firstFence_shift (now later cursor c : Cycle) (id : Word32) (q r : List QOp) (hn : now ≤ cursor)
    (hs : ∀ x, QOp.sync x ∈ q → x ≤ now) (h : Wire.firstFence cursor q = some (c, id, r)) :
    ∃ r', Wire.firstFence (later + (cursor - now))
      (q.filter (fun o => match o with | .sync _ => false | _ => true)) = some (later + (c - now), id, r') := by
  induction q generalizing cursor with
  | nil => simp [Wire.firstFence] at h
  | cons o q ih =>
    have hs' : ∀ x, QOp.sync x ∈ q → x ≤ now := fun x hx => hs x (List.mem_cons_of_mem _ hx)
    cases o with
    | wait w =>
      have e : later + (cursor - now) + w = later + (cursor + w - now) := by
        rw [Nat.sub_add_comm hn, Nat.add_assoc]
      rw [List.filter_cons_of_pos rfl]
      unfold Wire.firstFence
      rw [e]
      exact ih _ (Nat.le_trans hn (Nat.le_add_right _ _)) hs' h
    | sync x =>
      have hx : max cursor x = cursor := Nat.max_eq_left (Nat.le_trans (hs x (List.mem_cons_self ..)) hn)
      rw [List.filter_cons_of_neg (by simp)]
      unfold Wire.firstFence at h
      rw [hx] at h
      exact ih _ hn hs' h
    | endFence =>
      rw [List.filter_cons_of_pos rfl]
      exact ih _ hn hs' h
    | fence i =>
      simp only [Wire.firstFence, Option.some.injEq, Prod.mk.injEq] at h
      obtain ⟨rfl, rfl, _⟩ := h
      exact ⟨_, rfl⟩
    | receive i n => simp [Wire.firstFence] at h

/-- A saved queue, loaded later: the next fence is as far ahead as it was at the save (49_facade.md R446, R447). -/
theorem Wire.firstFence_load_save (w : Wire) (now later c : Cycle) (rx : Nat) (id : Word32) (r : List QOp)
    (hs : ∀ x, QOp.sync x ∈ w.queue → x ≤ now) (hc : now ≤ c)
    (h : Wire.firstFence w.cursor w.queue = some (c, id, r)) :
    ∃ r', Wire.firstFence ((w.save now rx).load later).cursor ((w.save now rx).load later).queue =
      some (later + (c - now), id, r') := by
  rw [← Wire.firstFence_consume now] at h
  have hn : now ≤ (Wire.consume now w.cursor w.queue).1 := by
    rcases Wire.consume_time now w.cursor w.queue with hx | hx
    · exact hx
    · rw [← hx c id r h]; exact hc
  exact Wire.firstFence_shift now later _ c id _ r hn (fun x hx => hs x (Wire.consume_sync _ _ _ _ hx)) h

/-- The unit of `withFetchWord` claims the frame of its word, whatever device byte the word has (30_encoding.md R113). -/
theorem withFetchWord_claims (s : State) (nbits w : Nat) (f : Operands) (h : f.device = deviceOfWord (tableWord nbits w)) :
    (s.withFetchWord nbits w).claims f = true := by
  unfold State.claims State.withFetchWord unitOfWord baseOfWord
  rw [h]
  split <;> simp only [decide_eq_true_eq]
  · simp
  · rw [BitVec.toNat_sub]; omega

end Sys2Proof.Machine
end

