-- ==== Sys2Proof/Laws/Memory.lean ====
section
/-! SUPPORT. The laws of the byte-addressed spaces: read after write, and the canonical form. -/

namespace Sys2Proof.Machine

theorem Memory.find_append (a : Nat) (xs ys : List Host.Cell) :
    Memory.find a (xs ++ ys) = (Memory.find a xs).or (Memory.find a ys) := by
  induction xs with
  | nil => simp [Memory.find]
  | cons c xs ih =>
    obtain ⟨k, v⟩ := c
    by_cases h : k = a <;> simp [Memory.find, h, ih]

theorem Memory.find_filter_of_pos (a : Nat) (p : Nat → Bool) (hp : p a = true) (xs : List Host.Cell) :
    Memory.find a (xs.filter (fun c => p c.1)) = Memory.find a xs := by
  induction xs with
  | nil => rfl
  | cons c xs ih =>
    obtain ⟨k, v⟩ := c
    by_cases h : k = a
    · subst h; simp [Memory.find, hp]
    · by_cases hk : p k <;> simp [Memory.find, h, hk, ih]

theorem Memory.find_filter_of_neg (a : Nat) (p : Nat → Bool) (hp : p a = false) (xs : List Host.Cell) :
    Memory.find a (xs.filter (fun c => p c.1)) = none := by
  induction xs with
  | nil => rfl
  | cons c xs ih =>
    obtain ⟨k, v⟩ := c
    by_cases h : k = a
    · subst h; simp [hp, ih]
    · by_cases hk : p k <;> simp [Memory.find, h, hk, ih]

theorem Memory.find_cellsOf_lt (b : Blank) (x : Nat) (bytes : List Byte) :
    ∀ a, x < a → Memory.find x (Memory.cellsOf b a bytes) = none := by
  induction bytes with
  | nil => intro a _; rfl
  | cons v rest ih =>
    intro a h
    have := ih (a + 1) (by omega)
    by_cases hb : b.holds v
    · simp [Memory.cellsOf, hb, this]
    · simp [Memory.cellsOf, hb, Memory.find, this]; omega

/-- A stored byte is listed, or is what an unlisted address reads as. -/
theorem Memory.find_cellsOf (b : Blank) (bytes : List Byte) :
    ∀ a i, (Memory.find (a + i) (Memory.cellsOf b a bytes)).getD (b.byte (a + i)) =
      bytes.getD i (b.byte (a + i)) := by
  induction bytes with
  | nil => intro a i; rfl
  | cons v rest ih =>
    intro a i
    cases i with
    | zero =>
      by_cases hb : b.holds v
      · have h0 := hb
        simp only [Blank.holds, Bool.and_eq_true, decide_eq_true_eq] at h0
        simp only [Memory.cellsOf, hb, if_true, Nat.add_zero]
        rw [Memory.find_cellsOf_lt _ a rest (a + 1) (by omega)]
        simp [h0.1, h0.2, Blank.byte]
      · simp [Memory.cellsOf, hb, Memory.find]
    | succ i =>
      have e : a + (i + 1) = a + 1 + i := by omega
      by_cases hb : b.holds v
      · simp only [Memory.cellsOf, hb, if_true]; rw [e, ih]; simp
      · have hne : ¬ a = a + 1 + i := by omega
        simp only [Memory.cellsOf, hb, Bool.false_eq_true, if_false, Memory.find]
        rw [e, if_neg hne, ih]; simp

theorem Memory.find_cellsOf_ge (b : Blank) (bytes : List Byte) :
    ∀ a x, a + bytes.length ≤ x → Memory.find x (Memory.cellsOf b a bytes) = none := by
  induction bytes with
  | nil => intro a x _; rfl
  | cons v rest ih =>
    intro a x h
    simp only [List.length_cons] at h
    have := ih (a + 1) x (by omega)
    by_cases hb : b.holds v
    · simp [Memory.cellsOf, hb, this]
    · simp [Memory.cellsOf, hb, Memory.find, this]; omega

/-- A store leaves every byte outside it as it was. -/
theorem Memory.read_writeBytes_of_not_mem (m : Memory) (a x : Nat) (bytes : List Byte)
    (h : x < a ∨ a + bytes.length ≤ x) : (m.writeBytes a bytes).read x = m.read x := by
  have hl : ∀ xs : List Host.Cell, Memory.find x (xs.filter (fun c => decide (c.1 < a))) =
      if x < a then Memory.find x xs else none := by
    intro xs
    by_cases hx : x < a
    · rw [if_pos hx]; exact Memory.find_filter_of_pos x (fun k => decide (k < a)) (by simpa using hx) xs
    · rw [if_neg hx]; exact Memory.find_filter_of_neg x (fun k => decide (k < a)) (by simpa using hx) xs
  have hr : ∀ xs : List Host.Cell, Memory.find x (xs.filter (fun c => decide (a + bytes.length ≤ c.1))) =
      if a + bytes.length ≤ x then Memory.find x xs else none := by
    intro xs
    by_cases hx : a + bytes.length ≤ x
    · rw [if_pos hx]
      exact Memory.find_filter_of_pos x (fun k => decide (a + bytes.length ≤ k)) (by simpa using hx) xs
    · rw [if_neg hx]
      exact Memory.find_filter_of_neg x (fun k => decide (a + bytes.length ≤ k)) (by simpa using hx) xs
  simp only [Memory.read, Memory.writeBytes, Memory.find_append, hl, hr]
  rcases h with h | h
  · rw [if_pos h, if_neg (by omega), Memory.find_cellsOf_lt _ _ _ _ h]; simp
  · rw [if_neg (by omega), if_pos h, Memory.find_cellsOf_ge _ _ _ _ h]; simp

/-- Reading a stored byte gives the byte stored. -/
theorem Memory.read_writeBytes_mem (m : Memory) (a i : Nat) (bytes : List Byte) (h : i < bytes.length) :
    (m.writeBytes a bytes).read (a + i) = bytes.getD i 0 := by
  have hl : Memory.find (a + i) (m.cells.filter (fun c => decide (c.1 < a))) = none :=
    Memory.find_filter_of_neg (a + i) (fun k => decide (k < a)) (by simp) _
  have hr : Memory.find (a + i) (m.cells.filter (fun c => decide (a + bytes.length ≤ c.1))) = none :=
    Memory.find_filter_of_neg (a + i) (fun k => decide (a + bytes.length ≤ k)) (by simpa using h) _
  simp only [Memory.read, Memory.writeBytes, Memory.find_append, hl, hr]
  simp only [Option.none_or, Option.or_none]
  rw [Memory.find_cellsOf]
  simp [List.getD_eq_getElem?_getD, h]

/-- Reading back the bytes stored. -/
theorem Memory.readBytes_writeBytes (m : Memory) (a : Nat) (bytes : List Byte) :
    (m.writeBytes a bytes).readBytes a bytes.length = bytes := by
  apply List.ext_getElem
  · simp [Memory.readBytes]
  · intro i h1 h2
    simp only [Memory.readBytes, List.getElem_map, List.getElem_range', Nat.one_mul]
    rw [Memory.read_writeBytes_mem _ _ _ _ h2]
    simp [List.getD_eq_getElem?_getD, h2]

@[simp] theorem Memory.length_readBytes (m : Memory) (a n : Nat) : (m.readBytes a n).length = n := by
  simp [Memory.readBytes]

theorem Memory.mem_cellsOf (b : Blank) (bytes : List Byte) :
    ∀ a c, c ∈ Memory.cellsOf b a bytes → a ≤ c.1 ∧ c.1 < a + bytes.length ∧ b.holds c.2 = false := by
  induction bytes with
  | nil => intro a c h; simp [Memory.cellsOf] at h
  | cons v rest ih =>
    intro a c h
    by_cases hb : b.holds v
    · simp only [Memory.cellsOf, hb, if_true] at h
      have := ih _ _ h
      exact ⟨by omega, by simp only [List.length_cons]; omega, this.2.2⟩
    · simp only [Memory.cellsOf, hb] at h
      rcases List.mem_cons.1 h with rfl | h
      · simpa using hb
      · have := ih _ _ h
        exact ⟨by omega, by simp only [List.length_cons]; omega, this.2.2⟩

theorem Memory.pairwise_cellsOf (b : Blank) (bytes : List Byte) :
    ∀ a, (Memory.cellsOf b a bytes).Pairwise (fun c d => c.1 < d.1) := by
  induction bytes with
  | nil => intro a; simp [Memory.cellsOf]
  | cons v rest ih =>
    intro a
    by_cases hb : b.holds v
    · simpa [Memory.cellsOf, hb] using ih (a + 1)
    · simp only [Memory.cellsOf, hb, Bool.false_eq_true, if_false, List.pairwise_cons]
      exact ⟨fun c hc => by have := Memory.mem_cellsOf b rest _ _ hc; omega, ih (a + 1)⟩

/-- The canonical form, as a statement about cells. -/
theorem Memory.wf_iff (m : Memory) :
    m.wf = true ↔ m.cells.Pairwise (fun c d => c.1 < d.1) ∧ ∀ c ∈ m.cells, m.blank.holds c.2 = false := by
  simp [Memory.wf, List.pairwise_map]

@[simp] theorem Memory.zero_wf : Memory.zero.wf = true := by decide

theorem Memory.empty_wf (b : Blank) : (⟨b, []⟩ : Memory).wf = true := by simp [Memory.wf]

/-- A store keeps the canonical form. -/
theorem Memory.writeBytes_wf (m : Memory) (a : Nat) (bytes : List Byte) (h : m.wf = true) :
    (m.writeBytes a bytes).wf = true := by
  rw [Memory.wf_iff] at h ⊢
  obtain ⟨hp, hb⟩ := h
  constructor
  · simp only [Memory.writeBytes, List.pairwise_append]
    refine ⟨⟨hp.filter _, Memory.pairwise_cellsOf _ _ _, ?_⟩, hp.filter _, ?_⟩
    · intro c hc d hd
      have h1 := (List.mem_filter.1 hc).2
      have h2 := Memory.mem_cellsOf _ _ _ _ hd
      simp only [decide_eq_true_eq] at h1
      omega
    · intro c hc d hd
      have h2 := (List.mem_filter.1 hd).2
      simp only [decide_eq_true_eq] at h2
      rcases List.mem_append.1 hc with hc | hc
      · have h1 := (List.mem_filter.1 hc).2
        simp only [decide_eq_true_eq] at h1
        omega
      · have h1 := Memory.mem_cellsOf _ _ _ _ hc
        omega
  · intro c hc
    simp only [Memory.writeBytes, List.mem_append] at hc
    rcases hc with (hc | hc) | hc
    · exact hb c (List.mem_filter.1 hc).1
    · exact (Memory.mem_cellsOf _ _ _ _ hc).2.2
    · exact hb c (List.mem_filter.1 hc).1

theorem Memory.normalise_wf (m : Memory) : m.normalise.wf = true := by
  obtain ⟨b, cells⟩ := m
  simp only [Memory.normalise]
  induction cells with
  | nil => exact Memory.empty_wf b
  | cons c cells ih => exact Memory.writeBytes_wf _ _ _ ih

theorem Memory.normalise_blank (m : Memory) : m.normalise.blank = m.blank := by
  obtain ⟨b, cells⟩ := m
  simp only [Memory.normalise]
  induction cells with
  | nil => rfl
  | cons c cells ih => simpa [Memory.writeByte, Memory.writeBytes] using ih

/-- Normalising changes no byte. -/
theorem Memory.read_normalise (m : Memory) (a : Nat) : m.normalise.read a = m.read a := by
  obtain ⟨b, cells⟩ := m
  simp only [Memory.normalise]
  induction cells with
  | nil => rfl
  | cons c cells ih =>
    obtain ⟨k, v⟩ := c
    simp only [List.foldr_cons, Memory.writeByte]
    by_cases h : a = k
    · subst h
      have := Memory.read_writeBytes_mem
        (List.foldr (fun c acc => acc.writeBytes c.1 [c.2]) (⟨b, []⟩ : Memory) cells) a 0 [v] (by simp)
      simpa [Memory.read, Memory.find] using this
    · have := Memory.read_writeBytes_of_not_mem
        (List.foldr (fun c acc => acc.writeBytes c.1 [c.2]) (⟨b, []⟩ : Memory) cells) k a [v]
        (by simp only [List.length_singleton]; omega)
      rw [this]
      have hne : ¬ k = a := fun e => h e.symm
      simpa [Memory.read, Memory.find, hne, Memory.writeByte] using ih

end Sys2Proof.Machine
end

