-- ==== Sys2Proof/Laws/State.lean ====
section
/-! SUPPORT. One lemma per field and named update, so that no proof unfolds a record update; then, for each operation
built from them, the fields it leaves as they were. -/

set_option linter.unusedSimpArgs false

namespace Sys2Proof.Machine

@[simp] theorem emit_unit (s : State) (a : Action) : (s.emit a).unit = s.unit := rfl
@[simp] theorem emit_enabled (s : State) (a : Action) : (s.emit a).enabled = s.enabled := rfl
@[simp] theorem emit_mode (s : State) (a : Action) : (s.emit a).mode = s.mode := rfl
@[simp] theorem emit_indusVariant (s : State) (a : Action) : (s.emit a).indusVariant = s.indusVariant := rfl
@[simp] theorem emit_rot (s : State) (a : Action) : (s.emit a).rot = s.rot := rfl
@[simp] theorem emit_currentTrack (s : State) (a : Action) : (s.emit a).currentTrack = s.currentTrack := rfl
@[simp] theorem emit_geom (s : State) (a : Action) : (s.emit a).geom = s.geom := rfl
@[simp] theorem emit_motorOffDeadline (s : State) (a : Action) : (s.emit a).motorOffDeadline = s.motorOffDeadline := rfl
@[simp] theorem emit_bufferedTrack (s : State) (a : Action) : (s.emit a).bufferedTrack = s.bufferedTrack := rfl
@[simp] theorem emit_lastReadSector (s : State) (a : Action) : (s.emit a).lastReadSector = s.lastReadSector := rfl
@[simp] theorem emit_flags (s : State) (a : Action) : (s.emit a).flags = s.flags := rfl
@[simp] theorem emit_cmd (s : State) (a : Action) : (s.emit a).cmd = s.cmd := rfl
@[simp] theorem emit_fdcStatus (s : State) (a : Action) : (s.emit a).fdcStatus = s.fdcStatus := rfl
@[simp] theorem emit_lastOpError (s : State) (a : Action) : (s.emit a).lastOpError = s.lastOpError := rfl
@[simp] theorem emit_percom (s : State) (a : Action) : (s.emit a).percom = s.percom := rfl
@[simp] theorem emit_phantomCounter (s : State) (a : Action) : (s.emit a).phantomCounter = s.phantomCounter := rfl
@[simp] theorem emit_forcedOrder (s : State) (a : Action) : (s.emit a).forcedOrder = s.forcedOrder := rfl
@[simp] theorem emit_weakBitLFSR (s : State) (a : Action) : (s.emit a).weakBitLFSR = s.weakBitLFSR := rfl
@[simp] theorem emit_sendBuf (s : State) (a : Action) : (s.emit a).sendBuf = s.sendBuf := rfl
@[simp] theorem emit_recvBuf (s : State) (a : Action) : (s.emit a).recvBuf = s.recvBuf := rfl
@[simp] theorem emit_driveRAM (s : State) (a : Action) : (s.emit a).driveRAM = s.driveRAM := rfl
@[simp] theorem emit_xferCyclesPerBit (s : State) (a : Action) : (s.emit a).xferCyclesPerBit = s.xferCyclesPerBit := rfl
@[simp] theorem emit_xferCyclesPerByte (s : State) (a : Action) : (s.emit a).xferCyclesPerByte = s.xferCyclesPerByte := rfl
@[simp] theorem emit_params (s : State) (a : Action) : (s.emit a).params = s.params := rfl
@[simp] theorem emit_now (s : State) (a : Action) : (s.emit a).now = s.now := rfl
@[simp] theorem emit_bus (s : State) (a : Action) : (s.emit a).bus = s.bus := rfl
@[simp] theorem emit_disk (s : State) (a : Action) : (s.emit a).disk = s.disk := rfl
@[simp] theorem emit_wire (s : State) (a : Action) : (s.emit a).wire = s.wire.push s.now (s.cmd.state + 1) a := rfl
@[simp] theorem emit_rxOffset (s : State) (a : Action) : (s.emit a).rxOffset = s.rxOffset := rfl
@[simp] theorem emit_selfTimed (s : State) (a : Action) : (s.emit a).selfTimed = s.selfTimed := rfl
@[simp] theorem emit_inbox (s : State) (a : Action) : (s.emit a).inbox = s.inbox := rfl
@[simp] theorem emit_out (s : State) (a : Action) : (s.emit a).out = s.out ++ [a] := rfl
@[simp] theorem emit_reply (s : State) (a : Action) : (s.emit a).reply = s.reply := rfl
@[simp] theorem emit_freeCtr (s : State) (a : Action) : (s.emit a).freeCtr = s.freeCtr := rfl
@[simp] theorem emit_prof (s : State) (a : Action) : (s.emit a).prof = s.prof := rfl
@[simp] theorem emit_period (s : State) (a : Action) : (s.emit a).period = s.period := rfl
@[simp] theorem emit_profileKey (s : State) (a : Action) : (s.emit a).profileKey = s.profileKey := rfl
@[simp] theorem emit_motorRunning (s : State) (a : Action) : (s.emit a).motorRunning = s.motorRunning := rfl
@[simp] theorem emit_active (s : State) (a : Action) : (s.emit a).active = s.active := rfl

@[simp] theorem writeSend_unit (s : State) (o : Nat) (b : List Byte) : (writeSend o b s).unit = s.unit := rfl
@[simp] theorem writeSend_enabled (s : State) (o : Nat) (b : List Byte) : (writeSend o b s).enabled = s.enabled := rfl
@[simp] theorem writeSend_mode (s : State) (o : Nat) (b : List Byte) : (writeSend o b s).mode = s.mode := rfl
@[simp] theorem writeSend_indusVariant (s : State) (o : Nat) (b : List Byte) : (writeSend o b s).indusVariant = s.indusVariant := rfl
@[simp] theorem writeSend_rot (s : State) (o : Nat) (b : List Byte) : (writeSend o b s).rot = s.rot := rfl
@[simp] theorem writeSend_currentTrack (s : State) (o : Nat) (b : List Byte) : (writeSend o b s).currentTrack = s.currentTrack := rfl
@[simp] theorem writeSend_geom (s : State) (o : Nat) (b : List Byte) : (writeSend o b s).geom = s.geom := rfl
@[simp] theorem writeSend_motorOffDeadline (s : State) (o : Nat) (b : List Byte) : (writeSend o b s).motorOffDeadline = s.motorOffDeadline := rfl
@[simp] theorem writeSend_bufferedTrack (s : State) (o : Nat) (b : List Byte) : (writeSend o b s).bufferedTrack = s.bufferedTrack := rfl
@[simp] theorem writeSend_lastReadSector (s : State) (o : Nat) (b : List Byte) : (writeSend o b s).lastReadSector = s.lastReadSector := rfl
@[simp] theorem writeSend_flags (s : State) (o : Nat) (b : List Byte) : (writeSend o b s).flags = s.flags := rfl
@[simp] theorem writeSend_cmd (s : State) (o : Nat) (b : List Byte) : (writeSend o b s).cmd = s.cmd := rfl
@[simp] theorem writeSend_fdcStatus (s : State) (o : Nat) (b : List Byte) : (writeSend o b s).fdcStatus = s.fdcStatus := rfl
@[simp] theorem writeSend_lastOpError (s : State) (o : Nat) (b : List Byte) : (writeSend o b s).lastOpError = s.lastOpError := rfl
@[simp] theorem writeSend_percom (s : State) (o : Nat) (b : List Byte) : (writeSend o b s).percom = s.percom := rfl
@[simp] theorem writeSend_phantomCounter (s : State) (o : Nat) (b : List Byte) : (writeSend o b s).phantomCounter = s.phantomCounter := rfl
@[simp] theorem writeSend_forcedOrder (s : State) (o : Nat) (b : List Byte) : (writeSend o b s).forcedOrder = s.forcedOrder := rfl
@[simp] theorem writeSend_weakBitLFSR (s : State) (o : Nat) (b : List Byte) : (writeSend o b s).weakBitLFSR = s.weakBitLFSR := rfl
@[simp] theorem writeSend_sendBuf (s : State) (o : Nat) (b : List Byte) : (writeSend o b s).sendBuf = s.sendBuf.writeBytes o b := rfl
@[simp] theorem writeSend_recvBuf (s : State) (o : Nat) (b : List Byte) : (writeSend o b s).recvBuf = s.recvBuf := rfl
@[simp] theorem writeSend_driveRAM (s : State) (o : Nat) (b : List Byte) : (writeSend o b s).driveRAM = s.driveRAM := rfl
@[simp] theorem writeSend_xferCyclesPerBit (s : State) (o : Nat) (b : List Byte) : (writeSend o b s).xferCyclesPerBit = s.xferCyclesPerBit := rfl
@[simp] theorem writeSend_xferCyclesPerByte (s : State) (o : Nat) (b : List Byte) : (writeSend o b s).xferCyclesPerByte = s.xferCyclesPerByte := rfl
@[simp] theorem writeSend_params (s : State) (o : Nat) (b : List Byte) : (writeSend o b s).params = s.params := rfl
@[simp] theorem writeSend_now (s : State) (o : Nat) (b : List Byte) : (writeSend o b s).now = s.now := rfl
@[simp] theorem writeSend_bus (s : State) (o : Nat) (b : List Byte) : (writeSend o b s).bus = s.bus := rfl
@[simp] theorem writeSend_disk (s : State) (o : Nat) (b : List Byte) : (writeSend o b s).disk = s.disk := rfl
@[simp] theorem writeSend_wire (s : State) (o : Nat) (b : List Byte) : (writeSend o b s).wire = s.wire := rfl
@[simp] theorem writeSend_rxOffset (s : State) (o : Nat) (b : List Byte) : (writeSend o b s).rxOffset = s.rxOffset := rfl
@[simp] theorem writeSend_selfTimed (s : State) (o : Nat) (b : List Byte) : (writeSend o b s).selfTimed = s.selfTimed := rfl
@[simp] theorem writeSend_inbox (s : State) (o : Nat) (b : List Byte) : (writeSend o b s).inbox = s.inbox := rfl
@[simp] theorem writeSend_out (s : State) (o : Nat) (b : List Byte) : (writeSend o b s).out = s.out := rfl
@[simp] theorem writeSend_reply (s : State) (o : Nat) (b : List Byte) : (writeSend o b s).reply = s.reply := rfl
@[simp] theorem writeSend_freeCtr (s : State) (o : Nat) (b : List Byte) : (writeSend o b s).freeCtr = s.freeCtr := rfl
@[simp] theorem writeSend_prof (s : State) (o : Nat) (b : List Byte) : (writeSend o b s).prof = s.prof := rfl
@[simp] theorem writeSend_period (s : State) (o : Nat) (b : List Byte) : (writeSend o b s).period = s.period := rfl
@[simp] theorem writeSend_profileKey (s : State) (o : Nat) (b : List Byte) : (writeSend o b s).profileKey = s.profileKey := rfl
@[simp] theorem writeSend_motorRunning (s : State) (o : Nat) (b : List Byte) : (writeSend o b s).motorRunning = s.motorRunning := rfl
@[simp] theorem writeSend_active (s : State) (o : Nat) (b : List Byte) : (writeSend o b s).active = s.active := rfl

@[simp] theorem setFdcStatus_unit (s : State) (b : Byte) : (setFdcStatus b s).unit = s.unit := rfl
@[simp] theorem setFdcStatus_enabled (s : State) (b : Byte) : (setFdcStatus b s).enabled = s.enabled := rfl
@[simp] theorem setFdcStatus_mode (s : State) (b : Byte) : (setFdcStatus b s).mode = s.mode := rfl
@[simp] theorem setFdcStatus_indusVariant (s : State) (b : Byte) : (setFdcStatus b s).indusVariant = s.indusVariant := rfl
@[simp] theorem setFdcStatus_rot (s : State) (b : Byte) : (setFdcStatus b s).rot = s.rot := rfl
@[simp] theorem setFdcStatus_currentTrack (s : State) (b : Byte) : (setFdcStatus b s).currentTrack = s.currentTrack := rfl
@[simp] theorem setFdcStatus_geom (s : State) (b : Byte) : (setFdcStatus b s).geom = s.geom := rfl
@[simp] theorem setFdcStatus_motorOffDeadline (s : State) (b : Byte) : (setFdcStatus b s).motorOffDeadline = s.motorOffDeadline := rfl
@[simp] theorem setFdcStatus_bufferedTrack (s : State) (b : Byte) : (setFdcStatus b s).bufferedTrack = s.bufferedTrack := rfl
@[simp] theorem setFdcStatus_lastReadSector (s : State) (b : Byte) : (setFdcStatus b s).lastReadSector = s.lastReadSector := rfl
@[simp] theorem setFdcStatus_flags (s : State) (b : Byte) : (setFdcStatus b s).flags = s.flags := rfl
@[simp] theorem setFdcStatus_cmd (s : State) (b : Byte) : (setFdcStatus b s).cmd = s.cmd := rfl
@[simp] theorem setFdcStatus_fdcStatus (s : State) (b : Byte) : (setFdcStatus b s).fdcStatus = b := rfl
@[simp] theorem setFdcStatus_lastOpError (s : State) (b : Byte) : (setFdcStatus b s).lastOpError = s.lastOpError := rfl
@[simp] theorem setFdcStatus_percom (s : State) (b : Byte) : (setFdcStatus b s).percom = s.percom := rfl
@[simp] theorem setFdcStatus_phantomCounter (s : State) (b : Byte) : (setFdcStatus b s).phantomCounter = s.phantomCounter := rfl
@[simp] theorem setFdcStatus_forcedOrder (s : State) (b : Byte) : (setFdcStatus b s).forcedOrder = s.forcedOrder := rfl
@[simp] theorem setFdcStatus_weakBitLFSR (s : State) (b : Byte) : (setFdcStatus b s).weakBitLFSR = s.weakBitLFSR := rfl
@[simp] theorem setFdcStatus_sendBuf (s : State) (b : Byte) : (setFdcStatus b s).sendBuf = s.sendBuf := rfl
@[simp] theorem setFdcStatus_recvBuf (s : State) (b : Byte) : (setFdcStatus b s).recvBuf = s.recvBuf := rfl
@[simp] theorem setFdcStatus_driveRAM (s : State) (b : Byte) : (setFdcStatus b s).driveRAM = s.driveRAM := rfl
@[simp] theorem setFdcStatus_xferCyclesPerBit (s : State) (b : Byte) : (setFdcStatus b s).xferCyclesPerBit = s.xferCyclesPerBit := rfl
@[simp] theorem setFdcStatus_xferCyclesPerByte (s : State) (b : Byte) : (setFdcStatus b s).xferCyclesPerByte = s.xferCyclesPerByte := rfl
@[simp] theorem setFdcStatus_params (s : State) (b : Byte) : (setFdcStatus b s).params = s.params := rfl
@[simp] theorem setFdcStatus_now (s : State) (b : Byte) : (setFdcStatus b s).now = s.now := rfl
@[simp] theorem setFdcStatus_bus (s : State) (b : Byte) : (setFdcStatus b s).bus = s.bus := rfl
@[simp] theorem setFdcStatus_disk (s : State) (b : Byte) : (setFdcStatus b s).disk = s.disk := rfl
@[simp] theorem setFdcStatus_wire (s : State) (b : Byte) : (setFdcStatus b s).wire = s.wire := rfl
@[simp] theorem setFdcStatus_rxOffset (s : State) (b : Byte) : (setFdcStatus b s).rxOffset = s.rxOffset := rfl
@[simp] theorem setFdcStatus_selfTimed (s : State) (b : Byte) : (setFdcStatus b s).selfTimed = s.selfTimed := rfl
@[simp] theorem setFdcStatus_inbox (s : State) (b : Byte) : (setFdcStatus b s).inbox = s.inbox := rfl
@[simp] theorem setFdcStatus_out (s : State) (b : Byte) : (setFdcStatus b s).out = s.out := rfl
@[simp] theorem setFdcStatus_reply (s : State) (b : Byte) : (setFdcStatus b s).reply = s.reply := rfl
@[simp] theorem setFdcStatus_freeCtr (s : State) (b : Byte) : (setFdcStatus b s).freeCtr = s.freeCtr := rfl
@[simp] theorem setFdcStatus_prof (s : State) (b : Byte) : (setFdcStatus b s).prof = s.prof := rfl
@[simp] theorem setFdcStatus_period (s : State) (b : Byte) : (setFdcStatus b s).period = s.period := rfl
@[simp] theorem setFdcStatus_profileKey (s : State) (b : Byte) : (setFdcStatus b s).profileKey = s.profileKey := rfl
@[simp] theorem setFdcStatus_motorRunning (s : State) (b : Byte) : (setFdcStatus b s).motorRunning = s.motorRunning := rfl
@[simp] theorem setFdcStatus_active (s : State) (b : Byte) : (setFdcStatus b s).active = s.active := rfl

@[simp] theorem bumpState_unit (s : State) : (bumpState s).unit = s.unit := rfl
@[simp] theorem bumpState_enabled (s : State) : (bumpState s).enabled = s.enabled := rfl
@[simp] theorem bumpState_mode (s : State) : (bumpState s).mode = s.mode := rfl
@[simp] theorem bumpState_indusVariant (s : State) : (bumpState s).indusVariant = s.indusVariant := rfl
@[simp] theorem bumpState_rot (s : State) : (bumpState s).rot = s.rot := rfl
@[simp] theorem bumpState_currentTrack (s : State) : (bumpState s).currentTrack = s.currentTrack := rfl
@[simp] theorem bumpState_geom (s : State) : (bumpState s).geom = s.geom := rfl
@[simp] theorem bumpState_motorOffDeadline (s : State) : (bumpState s).motorOffDeadline = s.motorOffDeadline := rfl
@[simp] theorem bumpState_bufferedTrack (s : State) : (bumpState s).bufferedTrack = s.bufferedTrack := rfl
@[simp] theorem bumpState_lastReadSector (s : State) : (bumpState s).lastReadSector = s.lastReadSector := rfl
@[simp] theorem bumpState_flags (s : State) : (bumpState s).flags = s.flags := rfl
@[simp] theorem bumpState_cmd (s : State) : (bumpState s).cmd = { s.cmd with state := s.cmd.state + 1 } := rfl
@[simp] theorem bumpState_fdcStatus (s : State) : (bumpState s).fdcStatus = s.fdcStatus := rfl
@[simp] theorem bumpState_lastOpError (s : State) : (bumpState s).lastOpError = s.lastOpError := rfl
@[simp] theorem bumpState_percom (s : State) : (bumpState s).percom = s.percom := rfl
@[simp] theorem bumpState_phantomCounter (s : State) : (bumpState s).phantomCounter = s.phantomCounter := rfl
@[simp] theorem bumpState_forcedOrder (s : State) : (bumpState s).forcedOrder = s.forcedOrder := rfl
@[simp] theorem bumpState_weakBitLFSR (s : State) : (bumpState s).weakBitLFSR = s.weakBitLFSR := rfl
@[simp] theorem bumpState_sendBuf (s : State) : (bumpState s).sendBuf = s.sendBuf := rfl
@[simp] theorem bumpState_recvBuf (s : State) : (bumpState s).recvBuf = s.recvBuf := rfl
@[simp] theorem bumpState_driveRAM (s : State) : (bumpState s).driveRAM = s.driveRAM := rfl
@[simp] theorem bumpState_xferCyclesPerBit (s : State) : (bumpState s).xferCyclesPerBit = s.xferCyclesPerBit := rfl
@[simp] theorem bumpState_xferCyclesPerByte (s : State) : (bumpState s).xferCyclesPerByte = s.xferCyclesPerByte := rfl
@[simp] theorem bumpState_params (s : State) : (bumpState s).params = s.params := rfl
@[simp] theorem bumpState_now (s : State) : (bumpState s).now = s.now := rfl
@[simp] theorem bumpState_bus (s : State) : (bumpState s).bus = s.bus := rfl
@[simp] theorem bumpState_disk (s : State) : (bumpState s).disk = s.disk := rfl
@[simp] theorem bumpState_wire (s : State) : (bumpState s).wire = s.wire := rfl
@[simp] theorem bumpState_rxOffset (s : State) : (bumpState s).rxOffset = s.rxOffset := rfl
@[simp] theorem bumpState_selfTimed (s : State) : (bumpState s).selfTimed = s.selfTimed := rfl
@[simp] theorem bumpState_inbox (s : State) : (bumpState s).inbox = s.inbox := rfl
@[simp] theorem bumpState_out (s : State) : (bumpState s).out = s.out := rfl
@[simp] theorem bumpState_reply (s : State) : (bumpState s).reply = s.reply := rfl
@[simp] theorem bumpState_freeCtr (s : State) : (bumpState s).freeCtr = s.freeCtr := rfl
@[simp] theorem bumpState_prof (s : State) : (bumpState s).prof = s.prof := rfl
@[simp] theorem bumpState_period (s : State) : (bumpState s).period = s.period := rfl
@[simp] theorem bumpState_profileKey (s : State) : (bumpState s).profileKey = s.profileKey := rfl
@[simp] theorem bumpState_motorRunning (s : State) : (bumpState s).motorRunning = s.motorRunning := rfl

@[simp] theorem clearCommand_unit (s : State) : (clearCommand s).unit = s.unit := rfl
@[simp] theorem clearCommand_enabled (s : State) : (clearCommand s).enabled = s.enabled := rfl
@[simp] theorem clearCommand_mode (s : State) : (clearCommand s).mode = s.mode := rfl
@[simp] theorem clearCommand_indusVariant (s : State) : (clearCommand s).indusVariant = s.indusVariant := rfl
@[simp] theorem clearCommand_rot (s : State) : (clearCommand s).rot = s.rot := rfl
@[simp] theorem clearCommand_currentTrack (s : State) : (clearCommand s).currentTrack = s.currentTrack := rfl
@[simp] theorem clearCommand_geom (s : State) : (clearCommand s).geom = s.geom := rfl
@[simp] theorem clearCommand_motorOffDeadline (s : State) : (clearCommand s).motorOffDeadline = s.motorOffDeadline := rfl
@[simp] theorem clearCommand_bufferedTrack (s : State) : (clearCommand s).bufferedTrack = s.bufferedTrack := rfl
@[simp] theorem clearCommand_lastReadSector (s : State) : (clearCommand s).lastReadSector = s.lastReadSector := rfl
@[simp] theorem clearCommand_flags (s : State) : (clearCommand s).flags = s.flags := rfl
@[simp] theorem clearCommand_cmd (s : State) : (clearCommand s).cmd = { s.cmd with code := .none, waiting := false, state := 0 } := rfl
@[simp] theorem clearCommand_fdcStatus (s : State) : (clearCommand s).fdcStatus = s.fdcStatus := rfl
@[simp] theorem clearCommand_lastOpError (s : State) : (clearCommand s).lastOpError = s.lastOpError := rfl
@[simp] theorem clearCommand_percom (s : State) : (clearCommand s).percom = s.percom := rfl
@[simp] theorem clearCommand_phantomCounter (s : State) : (clearCommand s).phantomCounter = s.phantomCounter := rfl
@[simp] theorem clearCommand_forcedOrder (s : State) : (clearCommand s).forcedOrder = s.forcedOrder := rfl
@[simp] theorem clearCommand_weakBitLFSR (s : State) : (clearCommand s).weakBitLFSR = s.weakBitLFSR := rfl
@[simp] theorem clearCommand_sendBuf (s : State) : (clearCommand s).sendBuf = s.sendBuf := rfl
@[simp] theorem clearCommand_recvBuf (s : State) : (clearCommand s).recvBuf = s.recvBuf := rfl
@[simp] theorem clearCommand_driveRAM (s : State) : (clearCommand s).driveRAM = s.driveRAM := rfl
@[simp] theorem clearCommand_xferCyclesPerBit (s : State) : (clearCommand s).xferCyclesPerBit = s.xferCyclesPerBit := rfl
@[simp] theorem clearCommand_xferCyclesPerByte (s : State) : (clearCommand s).xferCyclesPerByte = s.xferCyclesPerByte := rfl
@[simp] theorem clearCommand_params (s : State) : (clearCommand s).params = s.params := rfl
@[simp] theorem clearCommand_now (s : State) : (clearCommand s).now = s.now := rfl
@[simp] theorem clearCommand_bus (s : State) : (clearCommand s).bus = s.bus := rfl
@[simp] theorem clearCommand_disk (s : State) : (clearCommand s).disk = s.disk := rfl
@[simp] theorem clearCommand_wire (s : State) : (clearCommand s).wire = s.wire := rfl
@[simp] theorem clearCommand_rxOffset (s : State) : (clearCommand s).rxOffset = s.rxOffset := rfl
@[simp] theorem clearCommand_selfTimed (s : State) : (clearCommand s).selfTimed = s.selfTimed := rfl
@[simp] theorem clearCommand_inbox (s : State) : (clearCommand s).inbox = s.inbox := rfl
@[simp] theorem clearCommand_out (s : State) : (clearCommand s).out = s.out := rfl
@[simp] theorem clearCommand_reply (s : State) : (clearCommand s).reply = s.reply := rfl
@[simp] theorem clearCommand_freeCtr (s : State) : (clearCommand s).freeCtr = s.freeCtr := rfl
@[simp] theorem clearCommand_prof (s : State) : (clearCommand s).prof = s.prof := rfl
@[simp] theorem clearCommand_period (s : State) : (clearCommand s).period = s.period := rfl
@[simp] theorem clearCommand_profileKey (s : State) : (clearCommand s).profileKey = s.profileKey := rfl
@[simp] theorem clearCommand_motorRunning (s : State) : (clearCommand s).motorRunning = s.motorRunning := rfl

@[simp] theorem goto_unit (s : State) (n : Word32) : (goto n s).unit = s.unit := rfl
@[simp] theorem goto_enabled (s : State) (n : Word32) : (goto n s).enabled = s.enabled := rfl
@[simp] theorem goto_mode (s : State) (n : Word32) : (goto n s).mode = s.mode := rfl
@[simp] theorem goto_indusVariant (s : State) (n : Word32) : (goto n s).indusVariant = s.indusVariant := rfl
@[simp] theorem goto_rot (s : State) (n : Word32) : (goto n s).rot = s.rot := rfl
@[simp] theorem goto_currentTrack (s : State) (n : Word32) : (goto n s).currentTrack = s.currentTrack := rfl
@[simp] theorem goto_geom (s : State) (n : Word32) : (goto n s).geom = s.geom := rfl
@[simp] theorem goto_motorOffDeadline (s : State) (n : Word32) : (goto n s).motorOffDeadline = s.motorOffDeadline := rfl
@[simp] theorem goto_bufferedTrack (s : State) (n : Word32) : (goto n s).bufferedTrack = s.bufferedTrack := rfl
@[simp] theorem goto_lastReadSector (s : State) (n : Word32) : (goto n s).lastReadSector = s.lastReadSector := rfl
@[simp] theorem goto_flags (s : State) (n : Word32) : (goto n s).flags = s.flags := rfl
@[simp] theorem goto_cmd (s : State) (n : Word32) : (goto n s).cmd = { s.cmd with state := n } := rfl
@[simp] theorem goto_fdcStatus (s : State) (n : Word32) : (goto n s).fdcStatus = s.fdcStatus := rfl
@[simp] theorem goto_lastOpError (s : State) (n : Word32) : (goto n s).lastOpError = s.lastOpError := rfl
@[simp] theorem goto_percom (s : State) (n : Word32) : (goto n s).percom = s.percom := rfl
@[simp] theorem goto_phantomCounter (s : State) (n : Word32) : (goto n s).phantomCounter = s.phantomCounter := rfl
@[simp] theorem goto_forcedOrder (s : State) (n : Word32) : (goto n s).forcedOrder = s.forcedOrder := rfl
@[simp] theorem goto_weakBitLFSR (s : State) (n : Word32) : (goto n s).weakBitLFSR = s.weakBitLFSR := rfl
@[simp] theorem goto_sendBuf (s : State) (n : Word32) : (goto n s).sendBuf = s.sendBuf := rfl
@[simp] theorem goto_recvBuf (s : State) (n : Word32) : (goto n s).recvBuf = s.recvBuf := rfl
@[simp] theorem goto_driveRAM (s : State) (n : Word32) : (goto n s).driveRAM = s.driveRAM := rfl
@[simp] theorem goto_xferCyclesPerBit (s : State) (n : Word32) : (goto n s).xferCyclesPerBit = s.xferCyclesPerBit := rfl
@[simp] theorem goto_xferCyclesPerByte (s : State) (n : Word32) : (goto n s).xferCyclesPerByte = s.xferCyclesPerByte := rfl
@[simp] theorem goto_params (s : State) (n : Word32) : (goto n s).params = s.params := rfl
@[simp] theorem goto_now (s : State) (n : Word32) : (goto n s).now = s.now := rfl
@[simp] theorem goto_bus (s : State) (n : Word32) : (goto n s).bus = s.bus := rfl
@[simp] theorem goto_disk (s : State) (n : Word32) : (goto n s).disk = s.disk := rfl
@[simp] theorem goto_wire (s : State) (n : Word32) : (goto n s).wire = s.wire := rfl
@[simp] theorem goto_rxOffset (s : State) (n : Word32) : (goto n s).rxOffset = s.rxOffset := rfl
@[simp] theorem goto_selfTimed (s : State) (n : Word32) : (goto n s).selfTimed = s.selfTimed := rfl
@[simp] theorem goto_inbox (s : State) (n : Word32) : (goto n s).inbox = s.inbox := rfl
@[simp] theorem goto_out (s : State) (n : Word32) : (goto n s).out = s.out := rfl
@[simp] theorem goto_reply (s : State) (n : Word32) : (goto n s).reply = s.reply := rfl
@[simp] theorem goto_freeCtr (s : State) (n : Word32) : (goto n s).freeCtr = s.freeCtr := rfl
@[simp] theorem goto_prof (s : State) (n : Word32) : (goto n s).prof = s.prof := rfl
@[simp] theorem goto_period (s : State) (n : Word32) : (goto n s).period = s.period := rfl
@[simp] theorem goto_profileKey (s : State) (n : Word32) : (goto n s).profileKey = s.profileKey := rfl
@[simp] theorem goto_motorRunning (s : State) (n : Word32) : (goto n s).motorRunning = s.motorRunning := rfl

@[simp] theorem withImage_unit (s : State) (i : Option Image) : (s.withImage i).unit = s.unit := rfl
@[simp] theorem withImage_enabled (s : State) (i : Option Image) : (s.withImage i).enabled = s.enabled := rfl
@[simp] theorem withImage_mode (s : State) (i : Option Image) : (s.withImage i).mode = s.mode := rfl
@[simp] theorem withImage_indusVariant (s : State) (i : Option Image) : (s.withImage i).indusVariant = s.indusVariant := rfl
@[simp] theorem withImage_rot (s : State) (i : Option Image) : (s.withImage i).rot = s.rot := rfl
@[simp] theorem withImage_currentTrack (s : State) (i : Option Image) : (s.withImage i).currentTrack = s.currentTrack := rfl
@[simp] theorem withImage_geom (s : State) (i : Option Image) : (s.withImage i).geom = s.geom := rfl
@[simp] theorem withImage_motorOffDeadline (s : State) (i : Option Image) : (s.withImage i).motorOffDeadline = s.motorOffDeadline := rfl
@[simp] theorem withImage_bufferedTrack (s : State) (i : Option Image) : (s.withImage i).bufferedTrack = s.bufferedTrack := rfl
@[simp] theorem withImage_lastReadSector (s : State) (i : Option Image) : (s.withImage i).lastReadSector = s.lastReadSector := rfl
@[simp] theorem withImage_flags (s : State) (i : Option Image) : (s.withImage i).flags = s.flags := rfl
@[simp] theorem withImage_cmd (s : State) (i : Option Image) : (s.withImage i).cmd = s.cmd := rfl
@[simp] theorem withImage_fdcStatus (s : State) (i : Option Image) : (s.withImage i).fdcStatus = s.fdcStatus := rfl
@[simp] theorem withImage_lastOpError (s : State) (i : Option Image) : (s.withImage i).lastOpError = s.lastOpError := rfl
@[simp] theorem withImage_percom (s : State) (i : Option Image) : (s.withImage i).percom = s.percom := rfl
@[simp] theorem withImage_phantomCounter (s : State) (i : Option Image) : (s.withImage i).phantomCounter = s.phantomCounter := rfl
@[simp] theorem withImage_forcedOrder (s : State) (i : Option Image) : (s.withImage i).forcedOrder = s.forcedOrder := rfl
@[simp] theorem withImage_weakBitLFSR (s : State) (i : Option Image) : (s.withImage i).weakBitLFSR = s.weakBitLFSR := rfl
@[simp] theorem withImage_sendBuf (s : State) (i : Option Image) : (s.withImage i).sendBuf = s.sendBuf := rfl
@[simp] theorem withImage_recvBuf (s : State) (i : Option Image) : (s.withImage i).recvBuf = s.recvBuf := rfl
@[simp] theorem withImage_driveRAM (s : State) (i : Option Image) : (s.withImage i).driveRAM = s.driveRAM := rfl
@[simp] theorem withImage_xferCyclesPerBit (s : State) (i : Option Image) : (s.withImage i).xferCyclesPerBit = s.xferCyclesPerBit := rfl
@[simp] theorem withImage_xferCyclesPerByte (s : State) (i : Option Image) : (s.withImage i).xferCyclesPerByte = s.xferCyclesPerByte := rfl
@[simp] theorem withImage_params (s : State) (i : Option Image) : (s.withImage i).params = s.params := rfl
@[simp] theorem withImage_now (s : State) (i : Option Image) : (s.withImage i).now = s.now := rfl
@[simp] theorem withImage_bus (s : State) (i : Option Image) : (s.withImage i).bus = s.bus := rfl
@[simp] theorem withImage_disk (s : State) (i : Option Image) : (s.withImage i).disk = { s.disk with image := i } := rfl
@[simp] theorem withImage_wire (s : State) (i : Option Image) : (s.withImage i).wire = s.wire := rfl
@[simp] theorem withImage_rxOffset (s : State) (i : Option Image) : (s.withImage i).rxOffset = s.rxOffset := rfl
@[simp] theorem withImage_selfTimed (s : State) (i : Option Image) : (s.withImage i).selfTimed = s.selfTimed := rfl
@[simp] theorem withImage_inbox (s : State) (i : Option Image) : (s.withImage i).inbox = s.inbox := rfl
@[simp] theorem withImage_out (s : State) (i : Option Image) : (s.withImage i).out = s.out := rfl
@[simp] theorem withImage_reply (s : State) (i : Option Image) : (s.withImage i).reply = s.reply := rfl
@[simp] theorem withImage_freeCtr (s : State) (i : Option Image) : (s.withImage i).freeCtr = s.freeCtr := rfl
@[simp] theorem withImage_prof (s : State) (i : Option Image) : (s.withImage i).prof = s.prof := rfl
@[simp] theorem withImage_period (s : State) (i : Option Image) : (s.withImage i).period = s.period := rfl
@[simp] theorem withImage_profileKey (s : State) (i : Option Image) : (s.withImage i).profileKey = s.profileKey := rfl
@[simp] theorem withImage_motorRunning (s : State) (i : Option Image) : (s.withImage i).motorRunning = s.motorRunning := rfl
@[simp] theorem withImage_active (s : State) (i : Option Image) : (s.withImage i).active = s.active := rfl

@[simp] theorem emitAll_fields (s : State) (as : List Action) :
    (s.emitAll as).unit = s.unit ∧ (s.emitAll as).enabled = s.enabled ∧ (s.emitAll as).mode = s.mode ∧
    (s.emitAll as).indusVariant = s.indusVariant ∧ (s.emitAll as).rot = s.rot ∧
    (s.emitAll as).currentTrack = s.currentTrack ∧ (s.emitAll as).geom = s.geom ∧
    (s.emitAll as).motorOffDeadline = s.motorOffDeadline ∧ (s.emitAll as).bufferedTrack = s.bufferedTrack ∧
    (s.emitAll as).lastReadSector = s.lastReadSector ∧ (s.emitAll as).flags = s.flags ∧ (s.emitAll as).cmd = s.cmd ∧
    (s.emitAll as).fdcStatus = s.fdcStatus ∧ (s.emitAll as).lastOpError = s.lastOpError ∧
    (s.emitAll as).percom = s.percom ∧ (s.emitAll as).phantomCounter = s.phantomCounter ∧
    (s.emitAll as).forcedOrder = s.forcedOrder ∧ (s.emitAll as).weakBitLFSR = s.weakBitLFSR ∧
    (s.emitAll as).sendBuf = s.sendBuf ∧ (s.emitAll as).recvBuf = s.recvBuf ∧ (s.emitAll as).driveRAM = s.driveRAM ∧
    (s.emitAll as).xferCyclesPerBit = s.xferCyclesPerBit ∧ (s.emitAll as).xferCyclesPerByte = s.xferCyclesPerByte ∧
    (s.emitAll as).params = s.params ∧ (s.emitAll as).now = s.now ∧ (s.emitAll as).bus = s.bus ∧
    (s.emitAll as).disk = s.disk ∧ (s.emitAll as).rxOffset = s.rxOffset ∧ (s.emitAll as).selfTimed = s.selfTimed ∧
    (s.emitAll as).inbox = s.inbox ∧ (s.emitAll as).reply = s.reply ∧ (s.emitAll as).freeCtr = s.freeCtr ∧
    (s.emitAll as).prof = s.prof ∧ (s.emitAll as).period = s.period ∧ (s.emitAll as).profileKey = s.profileKey ∧
    (s.emitAll as).motorRunning = s.motorRunning ∧ (s.emitAll as).active = s.active := by
  induction as generalizing s with
  | nil => simp [State.emitAll]
  | cons a as ih => simpa [State.emitAll] using ih (s.emit a)

@[simp] theorem noteResult_fields (s : State) (b : Bool) :
    (noteResult b s).unit = s.unit ∧ (noteResult b s).enabled = s.enabled ∧ (noteResult b s).mode = s.mode ∧
    (noteResult b s).indusVariant = s.indusVariant ∧ (noteResult b s).rot = s.rot ∧
    (noteResult b s).currentTrack = s.currentTrack ∧ (noteResult b s).geom = s.geom ∧
    (noteResult b s).motorOffDeadline = s.motorOffDeadline ∧ (noteResult b s).bufferedTrack = s.bufferedTrack ∧
    (noteResult b s).lastReadSector = s.lastReadSector ∧ (noteResult b s).flags = s.flags ∧
    (noteResult b s).cmd = s.cmd ∧ (noteResult b s).fdcStatus = s.fdcStatus ∧ (noteResult b s).percom = s.percom ∧
    (noteResult b s).phantomCounter = s.phantomCounter ∧ (noteResult b s).forcedOrder = s.forcedOrder ∧
    (noteResult b s).weakBitLFSR = s.weakBitLFSR ∧ (noteResult b s).sendBuf = s.sendBuf ∧
    (noteResult b s).recvBuf = s.recvBuf ∧ (noteResult b s).driveRAM = s.driveRAM ∧
    (noteResult b s).xferCyclesPerBit = s.xferCyclesPerBit ∧
    (noteResult b s).xferCyclesPerByte = s.xferCyclesPerByte ∧ (noteResult b s).params = s.params ∧
    (noteResult b s).now = s.now ∧ (noteResult b s).bus = s.bus ∧ (noteResult b s).disk = s.disk ∧
    (noteResult b s).wire = s.wire ∧ (noteResult b s).rxOffset = s.rxOffset ∧
    (noteResult b s).selfTimed = s.selfTimed ∧ (noteResult b s).inbox = s.inbox ∧ (noteResult b s).out = s.out ∧
    (noteResult b s).reply = s.reply ∧ (noteResult b s).freeCtr = s.freeCtr ∧ (noteResult b s).prof = s.prof ∧
    (noteResult b s).period = s.period ∧ (noteResult b s).profileKey = s.profileKey ∧
    (noteResult b s).motorRunning = s.motorRunning ∧ (noteResult b s).active = s.active := by
  unfold noteResult; split <;> simp [State.prof, State.period, State.profileKey, State.motorRunning, State.active]

@[simp] theorem setupTransferSpeed_fields (s : State) (b : Bool) :
    (setupTransferSpeed b s).unit = s.unit ∧ (setupTransferSpeed b s).enabled = s.enabled ∧
    (setupTransferSpeed b s).mode = s.mode ∧ (setupTransferSpeed b s).indusVariant = s.indusVariant ∧
    (setupTransferSpeed b s).rot = s.rot ∧ (setupTransferSpeed b s).currentTrack = s.currentTrack ∧
    (setupTransferSpeed b s).geom = s.geom ∧ (setupTransferSpeed b s).motorOffDeadline = s.motorOffDeadline ∧
    (setupTransferSpeed b s).bufferedTrack = s.bufferedTrack ∧
    (setupTransferSpeed b s).lastReadSector = s.lastReadSector ∧ (setupTransferSpeed b s).flags = s.flags ∧
    (setupTransferSpeed b s).cmd = s.cmd ∧ (setupTransferSpeed b s).fdcStatus = s.fdcStatus ∧
    (setupTransferSpeed b s).lastOpError = s.lastOpError ∧ (setupTransferSpeed b s).percom = s.percom ∧
    (setupTransferSpeed b s).phantomCounter = s.phantomCounter ∧
    (setupTransferSpeed b s).forcedOrder = s.forcedOrder ∧ (setupTransferSpeed b s).weakBitLFSR = s.weakBitLFSR ∧
    (setupTransferSpeed b s).sendBuf = s.sendBuf ∧ (setupTransferSpeed b s).recvBuf = s.recvBuf ∧
    (setupTransferSpeed b s).driveRAM = s.driveRAM ∧ (setupTransferSpeed b s).params = s.params ∧
    (setupTransferSpeed b s).now = s.now ∧ (setupTransferSpeed b s).bus = s.bus ∧
    (setupTransferSpeed b s).disk = s.disk ∧ (setupTransferSpeed b s).rxOffset = s.rxOffset ∧
    (setupTransferSpeed b s).selfTimed = s.selfTimed ∧ (setupTransferSpeed b s).inbox = s.inbox ∧
    (setupTransferSpeed b s).reply = s.reply ∧ (setupTransferSpeed b s).freeCtr = s.freeCtr ∧
    (setupTransferSpeed b s).prof = s.prof ∧ (setupTransferSpeed b s).period = s.period ∧
    (setupTransferSpeed b s).profileKey = s.profileKey ∧ (setupTransferSpeed b s).motorRunning = s.motorRunning ∧
    (setupTransferSpeed b s).active = s.active := by
  simp [setupTransferSpeed, State.prof, State.period, State.profileKey, State.motorRunning, State.active]

@[simp] theorem send_fields (s : State) (a : Action) :
    (send a s).unit = s.unit ∧ (send a s).enabled = s.enabled ∧ (send a s).mode = s.mode ∧
    (send a s).indusVariant = s.indusVariant ∧ (send a s).rot = s.rot ∧ (send a s).currentTrack = s.currentTrack ∧
    (send a s).geom = s.geom ∧ (send a s).motorOffDeadline = s.motorOffDeadline ∧
    (send a s).bufferedTrack = s.bufferedTrack ∧ (send a s).lastReadSector = s.lastReadSector ∧
    (send a s).flags = s.flags ∧ (send a s).fdcStatus = s.fdcStatus ∧ (send a s).lastOpError = s.lastOpError ∧
    (send a s).percom = s.percom ∧ (send a s).phantomCounter = s.phantomCounter ∧
    (send a s).forcedOrder = s.forcedOrder ∧ (send a s).weakBitLFSR = s.weakBitLFSR ∧
    (send a s).sendBuf = s.sendBuf ∧ (send a s).recvBuf = s.recvBuf ∧ (send a s).driveRAM = s.driveRAM ∧
    (send a s).xferCyclesPerBit = s.xferCyclesPerBit ∧ (send a s).xferCyclesPerByte = s.xferCyclesPerByte ∧
    (send a s).params = s.params ∧ (send a s).now = s.now ∧ (send a s).bus = s.bus ∧ (send a s).disk = s.disk ∧
    (send a s).rxOffset = s.rxOffset ∧ (send a s).selfTimed = s.selfTimed ∧ (send a s).inbox = s.inbox ∧
    (send a s).reply = s.reply ∧ (send a s).freeCtr = s.freeCtr ∧ (send a s).prof = s.prof ∧
    (send a s).period = s.period ∧ (send a s).profileKey = s.profileKey ∧
    (send a s).motorRunning = s.motorRunning := by
  simp [send]

@[simp] theorem advanceToNow_fields (s : State) :
    (advanceToNow s).unit = s.unit ∧ (advanceToNow s).enabled = s.enabled ∧ (advanceToNow s).mode = s.mode ∧
    (advanceToNow s).indusVariant = s.indusVariant ∧ (advanceToNow s).currentTrack = s.currentTrack ∧
    (advanceToNow s).geom = s.geom ∧ (advanceToNow s).motorOffDeadline = s.motorOffDeadline ∧
    (advanceToNow s).bufferedTrack = s.bufferedTrack ∧ (advanceToNow s).lastReadSector = s.lastReadSector ∧
    (advanceToNow s).flags = s.flags ∧ (advanceToNow s).cmd = s.cmd ∧ (advanceToNow s).fdcStatus = s.fdcStatus ∧
    (advanceToNow s).lastOpError = s.lastOpError ∧ (advanceToNow s).percom = s.percom ∧
    (advanceToNow s).phantomCounter = s.phantomCounter ∧ (advanceToNow s).forcedOrder = s.forcedOrder ∧
    (advanceToNow s).weakBitLFSR = s.weakBitLFSR ∧ (advanceToNow s).sendBuf = s.sendBuf ∧
    (advanceToNow s).recvBuf = s.recvBuf ∧ (advanceToNow s).driveRAM = s.driveRAM ∧
    (advanceToNow s).xferCyclesPerBit = s.xferCyclesPerBit ∧
    (advanceToNow s).xferCyclesPerByte = s.xferCyclesPerByte ∧ (advanceToNow s).params = s.params ∧
    (advanceToNow s).now = s.now ∧ (advanceToNow s).bus = s.bus ∧ (advanceToNow s).disk = s.disk ∧
    (advanceToNow s).wire = s.wire ∧ (advanceToNow s).rxOffset = s.rxOffset ∧
    (advanceToNow s).selfTimed = s.selfTimed ∧ (advanceToNow s).inbox = s.inbox ∧ (advanceToNow s).out = s.out ∧
    (advanceToNow s).reply = s.reply ∧ (advanceToNow s).freeCtr = s.freeCtr ∧ (advanceToNow s).prof = s.prof ∧
    (advanceToNow s).period = s.period ∧ (advanceToNow s).profileKey = s.profileKey ∧
    (advanceToNow s).motorRunning = s.motorRunning ∧ (advanceToNow s).active = s.active := by
  unfold advanceToNow; split <;> simp [State.prof, State.period, State.profileKey, State.motorRunning, State.active]

@[simp] theorem rotateBy_fields (s : State) (c : Nat) :
    (rotateBy c s).unit = s.unit ∧ (rotateBy c s).enabled = s.enabled ∧ (rotateBy c s).mode = s.mode ∧
    (rotateBy c s).indusVariant = s.indusVariant ∧ (rotateBy c s).currentTrack = s.currentTrack ∧
    (rotateBy c s).geom = s.geom ∧ (rotateBy c s).motorOffDeadline = s.motorOffDeadline ∧
    (rotateBy c s).bufferedTrack = s.bufferedTrack ∧ (rotateBy c s).lastReadSector = s.lastReadSector ∧
    (rotateBy c s).flags = s.flags ∧ (rotateBy c s).cmd = s.cmd ∧ (rotateBy c s).fdcStatus = s.fdcStatus ∧
    (rotateBy c s).lastOpError = s.lastOpError ∧ (rotateBy c s).percom = s.percom ∧
    (rotateBy c s).phantomCounter = s.phantomCounter ∧ (rotateBy c s).forcedOrder = s.forcedOrder ∧
    (rotateBy c s).weakBitLFSR = s.weakBitLFSR ∧ (rotateBy c s).sendBuf = s.sendBuf ∧
    (rotateBy c s).recvBuf = s.recvBuf ∧ (rotateBy c s).driveRAM = s.driveRAM ∧
    (rotateBy c s).xferCyclesPerBit = s.xferCyclesPerBit ∧ (rotateBy c s).xferCyclesPerByte = s.xferCyclesPerByte ∧
    (rotateBy c s).params = s.params ∧ (rotateBy c s).now = s.now ∧ (rotateBy c s).bus = s.bus ∧
    (rotateBy c s).disk = s.disk ∧ (rotateBy c s).wire = s.wire ∧ (rotateBy c s).rxOffset = s.rxOffset ∧
    (rotateBy c s).selfTimed = s.selfTimed ∧ (rotateBy c s).inbox = s.inbox ∧ (rotateBy c s).out = s.out ∧
    (rotateBy c s).reply = s.reply ∧ (rotateBy c s).freeCtr = s.freeCtr ∧ (rotateBy c s).prof = s.prof ∧
    (rotateBy c s).period = s.period ∧ (rotateBy c s).profileKey = s.profileKey ∧
    (rotateBy c s).motorRunning = s.motorRunning ∧ (rotateBy c s).active = s.active := by
  unfold rotateBy; split <;> simp [State.prof, State.period, State.profileKey, State.motorRunning, State.active]

@[simp] theorem sentResult_fields (s : State) (b : Bool) (n : Nat) :
    (sentResult b n s).unit = s.unit ∧ (sentResult b n s).enabled = s.enabled ∧ (sentResult b n s).mode = s.mode ∧
    (sentResult b n s).indusVariant = s.indusVariant ∧ (sentResult b n s).rot = s.rot ∧
    (sentResult b n s).currentTrack = s.currentTrack ∧ (sentResult b n s).geom = s.geom ∧
    (sentResult b n s).motorOffDeadline = s.motorOffDeadline ∧ (sentResult b n s).bufferedTrack = s.bufferedTrack ∧
    (sentResult b n s).lastReadSector = s.lastReadSector ∧ (sentResult b n s).flags = s.flags ∧
    (sentResult b n s).fdcStatus = s.fdcStatus ∧ (sentResult b n s).percom = s.percom ∧
    (sentResult b n s).phantomCounter = s.phantomCounter ∧ (sentResult b n s).forcedOrder = s.forcedOrder ∧
    (sentResult b n s).weakBitLFSR = s.weakBitLFSR ∧ (sentResult b n s).sendBuf = s.sendBuf ∧
    (sentResult b n s).recvBuf = s.recvBuf ∧ (sentResult b n s).driveRAM = s.driveRAM ∧
    (sentResult b n s).params = s.params ∧ (sentResult b n s).now = s.now ∧ (sentResult b n s).bus = s.bus ∧
    (sentResult b n s).disk = s.disk ∧ (sentResult b n s).rxOffset = s.rxOffset ∧
    (sentResult b n s).selfTimed = s.selfTimed ∧ (sentResult b n s).inbox = s.inbox ∧
    (sentResult b n s).reply = s.reply ∧ (sentResult b n s).freeCtr = s.freeCtr ∧ (sentResult b n s).prof = s.prof ∧
    (sentResult b n s).period = s.period ∧ (sentResult b n s).profileKey = s.profileKey ∧
    (sentResult b n s).motorRunning = s.motorRunning := by
  simp [sentResult]

@[simp] theorem armedReceive_fields (s : State) (n : Nat) :
    (armedReceive n s).unit = s.unit ∧ (armedReceive n s).enabled = s.enabled ∧ (armedReceive n s).mode = s.mode ∧
    (armedReceive n s).indusVariant = s.indusVariant ∧ (armedReceive n s).rot = s.rot ∧
    (armedReceive n s).currentTrack = s.currentTrack ∧ (armedReceive n s).geom = s.geom ∧
    (armedReceive n s).motorOffDeadline = s.motorOffDeadline ∧ (armedReceive n s).bufferedTrack = s.bufferedTrack ∧
    (armedReceive n s).lastReadSector = s.lastReadSector ∧ (armedReceive n s).flags = s.flags ∧
    (armedReceive n s).fdcStatus = s.fdcStatus ∧ (armedReceive n s).lastOpError = s.lastOpError ∧
    (armedReceive n s).percom = s.percom ∧ (armedReceive n s).phantomCounter = s.phantomCounter ∧
    (armedReceive n s).forcedOrder = s.forcedOrder ∧ (armedReceive n s).weakBitLFSR = s.weakBitLFSR ∧
    (armedReceive n s).sendBuf = s.sendBuf ∧ (armedReceive n s).recvBuf = s.recvBuf ∧
    (armedReceive n s).driveRAM = s.driveRAM ∧ (armedReceive n s).params = s.params ∧
    (armedReceive n s).now = s.now ∧ (armedReceive n s).bus = s.bus ∧ (armedReceive n s).disk = s.disk ∧
    (armedReceive n s).selfTimed = s.selfTimed ∧ (armedReceive n s).inbox = s.inbox ∧
    (armedReceive n s).reply = s.reply ∧ (armedReceive n s).freeCtr = s.freeCtr ∧ (armedReceive n s).prof = s.prof ∧
    (armedReceive n s).period = s.period ∧ (armedReceive n s).profileKey = s.profileKey ∧
    (armedReceive n s).motorRunning = s.motorRunning := by
  simp [armedReceive, State.prof, State.period, State.profileKey, State.motorRunning, State.active]

@[simp] theorem warpOrDelay_fields (s : State) (c m : Nat) :
    (warpOrDelay c m s).unit = s.unit ∧ (warpOrDelay c m s).enabled = s.enabled ∧ (warpOrDelay c m s).mode = s.mode ∧
    (warpOrDelay c m s).indusVariant = s.indusVariant ∧ (warpOrDelay c m s).currentTrack = s.currentTrack ∧
    (warpOrDelay c m s).geom = s.geom ∧ (warpOrDelay c m s).motorOffDeadline = s.motorOffDeadline ∧
    (warpOrDelay c m s).bufferedTrack = s.bufferedTrack ∧ (warpOrDelay c m s).lastReadSector = s.lastReadSector ∧
    (warpOrDelay c m s).flags = s.flags ∧ (warpOrDelay c m s).cmd = s.cmd ∧
    (warpOrDelay c m s).fdcStatus = s.fdcStatus ∧ (warpOrDelay c m s).lastOpError = s.lastOpError ∧
    (warpOrDelay c m s).percom = s.percom ∧ (warpOrDelay c m s).phantomCounter = s.phantomCounter ∧
    (warpOrDelay c m s).forcedOrder = s.forcedOrder ∧ (warpOrDelay c m s).weakBitLFSR = s.weakBitLFSR ∧
    (warpOrDelay c m s).sendBuf = s.sendBuf ∧ (warpOrDelay c m s).recvBuf = s.recvBuf ∧
    (warpOrDelay c m s).driveRAM = s.driveRAM ∧ (warpOrDelay c m s).xferCyclesPerBit = s.xferCyclesPerBit ∧
    (warpOrDelay c m s).xferCyclesPerByte = s.xferCyclesPerByte ∧ (warpOrDelay c m s).params = s.params ∧
    (warpOrDelay c m s).now = s.now ∧ (warpOrDelay c m s).bus = s.bus ∧ (warpOrDelay c m s).disk = s.disk ∧
    (warpOrDelay c m s).rxOffset = s.rxOffset ∧ (warpOrDelay c m s).selfTimed = s.selfTimed ∧
    (warpOrDelay c m s).inbox = s.inbox ∧ (warpOrDelay c m s).reply = s.reply ∧
    (warpOrDelay c m s).freeCtr = s.freeCtr ∧ (warpOrDelay c m s).prof = s.prof ∧
    (warpOrDelay c m s).period = s.period ∧ (warpOrDelay c m s).profileKey = s.profileKey ∧
    (warpOrDelay c m s).motorRunning = s.motorRunning ∧ (warpOrDelay c m s).active = s.active := by
  unfold warpOrDelay; split <;> simp

@[simp] theorem emitSeekSounds_fields (s : State) (b n : Nat) :
    (emitSeekSounds b n s).unit = s.unit ∧ (emitSeekSounds b n s).enabled = s.enabled ∧
    (emitSeekSounds b n s).mode = s.mode ∧ (emitSeekSounds b n s).indusVariant = s.indusVariant ∧
    (emitSeekSounds b n s).rot = s.rot ∧ (emitSeekSounds b n s).currentTrack = s.currentTrack ∧
    (emitSeekSounds b n s).geom = s.geom ∧ (emitSeekSounds b n s).motorOffDeadline = s.motorOffDeadline ∧
    (emitSeekSounds b n s).bufferedTrack = s.bufferedTrack ∧
    (emitSeekSounds b n s).lastReadSector = s.lastReadSector ∧ (emitSeekSounds b n s).flags = s.flags ∧
    (emitSeekSounds b n s).cmd = s.cmd ∧ (emitSeekSounds b n s).fdcStatus = s.fdcStatus ∧
    (emitSeekSounds b n s).lastOpError = s.lastOpError ∧ (emitSeekSounds b n s).percom = s.percom ∧
    (emitSeekSounds b n s).phantomCounter = s.phantomCounter ∧ (emitSeekSounds b n s).forcedOrder = s.forcedOrder ∧
    (emitSeekSounds b n s).weakBitLFSR = s.weakBitLFSR ∧ (emitSeekSounds b n s).sendBuf = s.sendBuf ∧
    (emitSeekSounds b n s).recvBuf = s.recvBuf ∧ (emitSeekSounds b n s).driveRAM = s.driveRAM ∧
    (emitSeekSounds b n s).xferCyclesPerBit = s.xferCyclesPerBit ∧
    (emitSeekSounds b n s).xferCyclesPerByte = s.xferCyclesPerByte ∧ (emitSeekSounds b n s).params = s.params ∧
    (emitSeekSounds b n s).now = s.now ∧ (emitSeekSounds b n s).bus = s.bus ∧ (emitSeekSounds b n s).disk = s.disk ∧
    (emitSeekSounds b n s).rxOffset = s.rxOffset ∧ (emitSeekSounds b n s).selfTimed = s.selfTimed ∧
    (emitSeekSounds b n s).inbox = s.inbox ∧ (emitSeekSounds b n s).reply = s.reply ∧
    (emitSeekSounds b n s).freeCtr = s.freeCtr ∧ (emitSeekSounds b n s).prof = s.prof ∧
    (emitSeekSounds b n s).period = s.period ∧ (emitSeekSounds b n s).profileKey = s.profileKey ∧
    (emitSeekSounds b n s).motorRunning = s.motorRunning ∧ (emitSeekSounds b n s).active = s.active := by
  unfold emitSeekSounds; split <;> simp

@[simp] theorem seekTo_fields (s : State) (c b : Nat) :
    (seekTo c b s).unit = s.unit ∧ (seekTo c b s).enabled = s.enabled ∧ (seekTo c b s).mode = s.mode ∧
    (seekTo c b s).indusVariant = s.indusVariant ∧ (seekTo c b s).rot = s.rot ∧ (seekTo c b s).geom = s.geom ∧
    (seekTo c b s).motorOffDeadline = s.motorOffDeadline ∧ (seekTo c b s).bufferedTrack = s.bufferedTrack ∧
    (seekTo c b s).lastReadSector = s.lastReadSector ∧ (seekTo c b s).flags = s.flags ∧ (seekTo c b s).cmd = s.cmd ∧
    (seekTo c b s).fdcStatus = s.fdcStatus ∧ (seekTo c b s).lastOpError = s.lastOpError ∧
    (seekTo c b s).percom = s.percom ∧ (seekTo c b s).phantomCounter = s.phantomCounter ∧
    (seekTo c b s).forcedOrder = s.forcedOrder ∧ (seekTo c b s).weakBitLFSR = s.weakBitLFSR ∧
    (seekTo c b s).sendBuf = s.sendBuf ∧ (seekTo c b s).recvBuf = s.recvBuf ∧ (seekTo c b s).driveRAM = s.driveRAM ∧
    (seekTo c b s).xferCyclesPerBit = s.xferCyclesPerBit ∧ (seekTo c b s).xferCyclesPerByte = s.xferCyclesPerByte ∧
    (seekTo c b s).params = s.params ∧ (seekTo c b s).now = s.now ∧ (seekTo c b s).bus = s.bus ∧
    (seekTo c b s).disk = s.disk ∧ (seekTo c b s).rxOffset = s.rxOffset ∧ (seekTo c b s).selfTimed = s.selfTimed ∧
    (seekTo c b s).inbox = s.inbox ∧ (seekTo c b s).reply = s.reply ∧ (seekTo c b s).freeCtr = s.freeCtr ∧
    (seekTo c b s).prof = s.prof ∧ (seekTo c b s).period = s.period ∧ (seekTo c b s).profileKey = s.profileKey ∧
    (seekTo c b s).motorRunning = s.motorRunning ∧ (seekTo c b s).active = s.active := by
  simp [seekTo, State.prof, State.period, State.profileKey, State.motorRunning, State.active]

@[simp] theorem snapRotation_fields (s : State) (c : Nat) :
    (snapRotation c s).unit = s.unit ∧ (snapRotation c s).enabled = s.enabled ∧ (snapRotation c s).mode = s.mode ∧
    (snapRotation c s).indusVariant = s.indusVariant ∧ (snapRotation c s).currentTrack = s.currentTrack ∧
    (snapRotation c s).geom = s.geom ∧ (snapRotation c s).motorOffDeadline = s.motorOffDeadline ∧
    (snapRotation c s).bufferedTrack = s.bufferedTrack ∧ (snapRotation c s).lastReadSector = s.lastReadSector ∧
    (snapRotation c s).flags = s.flags ∧ (snapRotation c s).cmd = s.cmd ∧
    (snapRotation c s).fdcStatus = s.fdcStatus ∧ (snapRotation c s).lastOpError = s.lastOpError ∧
    (snapRotation c s).percom = s.percom ∧ (snapRotation c s).phantomCounter = s.phantomCounter ∧
    (snapRotation c s).forcedOrder = s.forcedOrder ∧ (snapRotation c s).weakBitLFSR = s.weakBitLFSR ∧
    (snapRotation c s).sendBuf = s.sendBuf ∧ (snapRotation c s).recvBuf = s.recvBuf ∧
    (snapRotation c s).driveRAM = s.driveRAM ∧ (snapRotation c s).xferCyclesPerBit = s.xferCyclesPerBit ∧
    (snapRotation c s).xferCyclesPerByte = s.xferCyclesPerByte ∧ (snapRotation c s).params = s.params ∧
    (snapRotation c s).now = s.now ∧ (snapRotation c s).bus = s.bus ∧ (snapRotation c s).disk = s.disk ∧
    (snapRotation c s).wire = s.wire ∧ (snapRotation c s).rxOffset = s.rxOffset ∧
    (snapRotation c s).selfTimed = s.selfTimed ∧ (snapRotation c s).inbox = s.inbox ∧
    (snapRotation c s).out = s.out ∧ (snapRotation c s).reply = s.reply ∧ (snapRotation c s).freeCtr = s.freeCtr ∧
    (snapRotation c s).prof = s.prof ∧ (snapRotation c s).period = s.period ∧
    (snapRotation c s).profileKey = s.profileKey ∧ (snapRotation c s).motorRunning = s.motorRunning ∧
    (snapRotation c s).active = s.active := by
  simp only [snapRotation]; split <;> simp [State.prof, State.period, State.profileKey, State.motorRunning, State.active]

@[simp] theorem emitMotorSound_fields (s : State) (b : Bool) :
    (emitMotorSound b s).unit = s.unit ∧ (emitMotorSound b s).enabled = s.enabled ∧
    (emitMotorSound b s).mode = s.mode ∧ (emitMotorSound b s).indusVariant = s.indusVariant ∧
    (emitMotorSound b s).rot = s.rot ∧ (emitMotorSound b s).currentTrack = s.currentTrack ∧
    (emitMotorSound b s).geom = s.geom ∧ (emitMotorSound b s).motorOffDeadline = s.motorOffDeadline ∧
    (emitMotorSound b s).bufferedTrack = s.bufferedTrack ∧ (emitMotorSound b s).lastReadSector = s.lastReadSector ∧
    (emitMotorSound b s).flags = s.flags ∧ (emitMotorSound b s).cmd = s.cmd ∧
    (emitMotorSound b s).fdcStatus = s.fdcStatus ∧ (emitMotorSound b s).lastOpError = s.lastOpError ∧
    (emitMotorSound b s).percom = s.percom ∧ (emitMotorSound b s).phantomCounter = s.phantomCounter ∧
    (emitMotorSound b s).forcedOrder = s.forcedOrder ∧ (emitMotorSound b s).weakBitLFSR = s.weakBitLFSR ∧
    (emitMotorSound b s).sendBuf = s.sendBuf ∧ (emitMotorSound b s).recvBuf = s.recvBuf ∧
    (emitMotorSound b s).driveRAM = s.driveRAM ∧ (emitMotorSound b s).xferCyclesPerBit = s.xferCyclesPerBit ∧
    (emitMotorSound b s).xferCyclesPerByte = s.xferCyclesPerByte ∧ (emitMotorSound b s).params = s.params ∧
    (emitMotorSound b s).now = s.now ∧ (emitMotorSound b s).bus = s.bus ∧ (emitMotorSound b s).disk = s.disk ∧
    (emitMotorSound b s).rxOffset = s.rxOffset ∧ (emitMotorSound b s).selfTimed = s.selfTimed ∧
    (emitMotorSound b s).inbox = s.inbox ∧ (emitMotorSound b s).reply = s.reply ∧
    (emitMotorSound b s).freeCtr = s.freeCtr ∧ (emitMotorSound b s).prof = s.prof ∧
    (emitMotorSound b s).period = s.period ∧ (emitMotorSound b s).profileKey = s.profileKey ∧
    (emitMotorSound b s).motorRunning = s.motorRunning ∧ (emitMotorSound b s).active = s.active := by
  unfold emitMotorSound; split <;> simp

@[simp] theorem extendMotorTimeoutTo_fields (s : State) (t : Cycle) :
    (extendMotorTimeoutTo t s).unit = s.unit ∧ (extendMotorTimeoutTo t s).enabled = s.enabled ∧
    (extendMotorTimeoutTo t s).mode = s.mode ∧ (extendMotorTimeoutTo t s).indusVariant = s.indusVariant ∧
    (extendMotorTimeoutTo t s).rot = s.rot ∧ (extendMotorTimeoutTo t s).currentTrack = s.currentTrack ∧
    (extendMotorTimeoutTo t s).geom = s.geom ∧ (extendMotorTimeoutTo t s).bufferedTrack = s.bufferedTrack ∧
    (extendMotorTimeoutTo t s).lastReadSector = s.lastReadSector ∧ (extendMotorTimeoutTo t s).flags = s.flags ∧
    (extendMotorTimeoutTo t s).cmd = s.cmd ∧ (extendMotorTimeoutTo t s).fdcStatus = s.fdcStatus ∧
    (extendMotorTimeoutTo t s).lastOpError = s.lastOpError ∧ (extendMotorTimeoutTo t s).percom = s.percom ∧
    (extendMotorTimeoutTo t s).phantomCounter = s.phantomCounter ∧
    (extendMotorTimeoutTo t s).forcedOrder = s.forcedOrder ∧ (extendMotorTimeoutTo t s).weakBitLFSR = s.weakBitLFSR ∧
    (extendMotorTimeoutTo t s).sendBuf = s.sendBuf ∧ (extendMotorTimeoutTo t s).recvBuf = s.recvBuf ∧
    (extendMotorTimeoutTo t s).driveRAM = s.driveRAM ∧
    (extendMotorTimeoutTo t s).xferCyclesPerBit = s.xferCyclesPerBit ∧
    (extendMotorTimeoutTo t s).xferCyclesPerByte = s.xferCyclesPerByte ∧
    (extendMotorTimeoutTo t s).params = s.params ∧ (extendMotorTimeoutTo t s).now = s.now ∧
    (extendMotorTimeoutTo t s).bus = s.bus ∧ (extendMotorTimeoutTo t s).disk = s.disk ∧
    (extendMotorTimeoutTo t s).rxOffset = s.rxOffset ∧ (extendMotorTimeoutTo t s).selfTimed = s.selfTimed ∧
    (extendMotorTimeoutTo t s).inbox = s.inbox ∧ (extendMotorTimeoutTo t s).reply = s.reply ∧
    (extendMotorTimeoutTo t s).freeCtr = s.freeCtr ∧ (extendMotorTimeoutTo t s).prof = s.prof ∧
    (extendMotorTimeoutTo t s).period = s.period ∧ (extendMotorTimeoutTo t s).profileKey = s.profileKey ∧
    (extendMotorTimeoutTo t s).active = s.active := by
  unfold extendMotorTimeoutTo; split
  · simp
  · split <;> simp [State.prof, State.period, State.profileKey, State.motorRunning, State.active]

@[simp] theorem extendMotorTimeoutBy_fields (s : State) (t : Cycle) :
    (extendMotorTimeoutBy t s).unit = s.unit ∧ (extendMotorTimeoutBy t s).enabled = s.enabled ∧
    (extendMotorTimeoutBy t s).mode = s.mode ∧ (extendMotorTimeoutBy t s).indusVariant = s.indusVariant ∧
    (extendMotorTimeoutBy t s).rot = s.rot ∧ (extendMotorTimeoutBy t s).currentTrack = s.currentTrack ∧
    (extendMotorTimeoutBy t s).geom = s.geom ∧ (extendMotorTimeoutBy t s).bufferedTrack = s.bufferedTrack ∧
    (extendMotorTimeoutBy t s).lastReadSector = s.lastReadSector ∧ (extendMotorTimeoutBy t s).flags = s.flags ∧
    (extendMotorTimeoutBy t s).cmd = s.cmd ∧ (extendMotorTimeoutBy t s).fdcStatus = s.fdcStatus ∧
    (extendMotorTimeoutBy t s).lastOpError = s.lastOpError ∧ (extendMotorTimeoutBy t s).percom = s.percom ∧
    (extendMotorTimeoutBy t s).phantomCounter = s.phantomCounter ∧
    (extendMotorTimeoutBy t s).forcedOrder = s.forcedOrder ∧ (extendMotorTimeoutBy t s).weakBitLFSR = s.weakBitLFSR ∧
    (extendMotorTimeoutBy t s).sendBuf = s.sendBuf ∧ (extendMotorTimeoutBy t s).recvBuf = s.recvBuf ∧
    (extendMotorTimeoutBy t s).driveRAM = s.driveRAM ∧
    (extendMotorTimeoutBy t s).xferCyclesPerBit = s.xferCyclesPerBit ∧
    (extendMotorTimeoutBy t s).xferCyclesPerByte = s.xferCyclesPerByte ∧
    (extendMotorTimeoutBy t s).params = s.params ∧ (extendMotorTimeoutBy t s).now = s.now ∧
    (extendMotorTimeoutBy t s).bus = s.bus ∧ (extendMotorTimeoutBy t s).disk = s.disk ∧
    (extendMotorTimeoutBy t s).rxOffset = s.rxOffset ∧ (extendMotorTimeoutBy t s).selfTimed = s.selfTimed ∧
    (extendMotorTimeoutBy t s).inbox = s.inbox ∧ (extendMotorTimeoutBy t s).reply = s.reply ∧
    (extendMotorTimeoutBy t s).freeCtr = s.freeCtr ∧ (extendMotorTimeoutBy t s).prof = s.prof ∧
    (extendMotorTimeoutBy t s).period = s.period ∧ (extendMotorTimeoutBy t s).profileKey = s.profileKey ∧
    (extendMotorTimeoutBy t s).active = s.active := by
  unfold extendMotorTimeoutBy; split <;> simp

@[simp] theorem turnOnMotor_fields (s : State) :
    (turnOnMotor s).unit = s.unit ∧ (turnOnMotor s).enabled = s.enabled ∧ (turnOnMotor s).mode = s.mode ∧
    (turnOnMotor s).indusVariant = s.indusVariant ∧ (turnOnMotor s).currentTrack = s.currentTrack ∧
    (turnOnMotor s).geom = s.geom ∧ (turnOnMotor s).bufferedTrack = s.bufferedTrack ∧
    (turnOnMotor s).lastReadSector = s.lastReadSector ∧ (turnOnMotor s).flags = s.flags ∧
    (turnOnMotor s).cmd = s.cmd ∧ (turnOnMotor s).fdcStatus = s.fdcStatus ∧
    (turnOnMotor s).lastOpError = s.lastOpError ∧ (turnOnMotor s).percom = s.percom ∧
    (turnOnMotor s).phantomCounter = s.phantomCounter ∧ (turnOnMotor s).forcedOrder = s.forcedOrder ∧
    (turnOnMotor s).weakBitLFSR = s.weakBitLFSR ∧ (turnOnMotor s).sendBuf = s.sendBuf ∧
    (turnOnMotor s).recvBuf = s.recvBuf ∧ (turnOnMotor s).driveRAM = s.driveRAM ∧
    (turnOnMotor s).xferCyclesPerBit = s.xferCyclesPerBit ∧ (turnOnMotor s).xferCyclesPerByte = s.xferCyclesPerByte ∧
    (turnOnMotor s).params = s.params ∧ (turnOnMotor s).now = s.now ∧ (turnOnMotor s).bus = s.bus ∧
    (turnOnMotor s).disk = s.disk ∧ (turnOnMotor s).rxOffset = s.rxOffset ∧ (turnOnMotor s).selfTimed = s.selfTimed ∧
    (turnOnMotor s).inbox = s.inbox ∧ (turnOnMotor s).reply = s.reply ∧ (turnOnMotor s).freeCtr = s.freeCtr ∧
    (turnOnMotor s).prof = s.prof ∧ (turnOnMotor s).period = s.period ∧ (turnOnMotor s).profileKey = s.profileKey ∧
    (turnOnMotor s).active = s.active := by
  unfold turnOnMotor; split <;> simp [State.prof, State.period, State.profileKey, State.motorRunning, State.active]

@[simp] theorem turnOffMotor_fields (s : State) :
    (turnOffMotor s).unit = s.unit ∧ (turnOffMotor s).enabled = s.enabled ∧ (turnOffMotor s).mode = s.mode ∧
    (turnOffMotor s).indusVariant = s.indusVariant ∧ (turnOffMotor s).currentTrack = s.currentTrack ∧
    (turnOffMotor s).geom = s.geom ∧ (turnOffMotor s).bufferedTrack = s.bufferedTrack ∧
    (turnOffMotor s).lastReadSector = s.lastReadSector ∧ (turnOffMotor s).flags = s.flags ∧
    (turnOffMotor s).cmd = s.cmd ∧ (turnOffMotor s).fdcStatus = s.fdcStatus ∧
    (turnOffMotor s).lastOpError = s.lastOpError ∧ (turnOffMotor s).percom = s.percom ∧
    (turnOffMotor s).phantomCounter = s.phantomCounter ∧ (turnOffMotor s).forcedOrder = s.forcedOrder ∧
    (turnOffMotor s).weakBitLFSR = s.weakBitLFSR ∧ (turnOffMotor s).sendBuf = s.sendBuf ∧
    (turnOffMotor s).recvBuf = s.recvBuf ∧ (turnOffMotor s).driveRAM = s.driveRAM ∧
    (turnOffMotor s).xferCyclesPerBit = s.xferCyclesPerBit ∧
    (turnOffMotor s).xferCyclesPerByte = s.xferCyclesPerByte ∧ (turnOffMotor s).params = s.params ∧
    (turnOffMotor s).now = s.now ∧ (turnOffMotor s).bus = s.bus ∧ (turnOffMotor s).disk = s.disk ∧
    (turnOffMotor s).rxOffset = s.rxOffset ∧ (turnOffMotor s).selfTimed = s.selfTimed ∧
    (turnOffMotor s).inbox = s.inbox ∧ (turnOffMotor s).reply = s.reply ∧ (turnOffMotor s).freeCtr = s.freeCtr ∧
    (turnOffMotor s).prof = s.prof ∧ (turnOffMotor s).period = s.period ∧
    (turnOffMotor s).profileKey = s.profileKey ∧ (turnOffMotor s).active = s.active := by
  unfold turnOffMotor; split <;> simp [State.prof, State.period, State.profileKey, State.motorRunning, State.active]

@[simp] theorem rearmMotorAfterCommand_fields (s : State) :
    (rearmMotorAfterCommand s).unit = s.unit ∧ (rearmMotorAfterCommand s).enabled = s.enabled ∧
    (rearmMotorAfterCommand s).mode = s.mode ∧ (rearmMotorAfterCommand s).indusVariant = s.indusVariant ∧
    (rearmMotorAfterCommand s).rot = s.rot ∧ (rearmMotorAfterCommand s).currentTrack = s.currentTrack ∧
    (rearmMotorAfterCommand s).geom = s.geom ∧ (rearmMotorAfterCommand s).bufferedTrack = s.bufferedTrack ∧
    (rearmMotorAfterCommand s).lastReadSector = s.lastReadSector ∧ (rearmMotorAfterCommand s).flags = s.flags ∧
    (rearmMotorAfterCommand s).cmd = s.cmd ∧ (rearmMotorAfterCommand s).fdcStatus = s.fdcStatus ∧
    (rearmMotorAfterCommand s).lastOpError = s.lastOpError ∧ (rearmMotorAfterCommand s).percom = s.percom ∧
    (rearmMotorAfterCommand s).phantomCounter = s.phantomCounter ∧
    (rearmMotorAfterCommand s).forcedOrder = s.forcedOrder ∧ (rearmMotorAfterCommand s).weakBitLFSR = s.weakBitLFSR ∧
    (rearmMotorAfterCommand s).sendBuf = s.sendBuf ∧ (rearmMotorAfterCommand s).recvBuf = s.recvBuf ∧
    (rearmMotorAfterCommand s).driveRAM = s.driveRAM ∧
    (rearmMotorAfterCommand s).xferCyclesPerBit = s.xferCyclesPerBit ∧
    (rearmMotorAfterCommand s).xferCyclesPerByte = s.xferCyclesPerByte ∧
    (rearmMotorAfterCommand s).params = s.params ∧ (rearmMotorAfterCommand s).now = s.now ∧
    (rearmMotorAfterCommand s).bus = s.bus ∧ (rearmMotorAfterCommand s).disk = s.disk ∧
    (rearmMotorAfterCommand s).rxOffset = s.rxOffset ∧ (rearmMotorAfterCommand s).selfTimed = s.selfTimed ∧
    (rearmMotorAfterCommand s).inbox = s.inbox ∧ (rearmMotorAfterCommand s).reply = s.reply ∧
    (rearmMotorAfterCommand s).freeCtr = s.freeCtr ∧ (rearmMotorAfterCommand s).prof = s.prof ∧
    (rearmMotorAfterCommand s).period = s.period ∧ (rearmMotorAfterCommand s).profileKey = s.profileKey ∧
    (rearmMotorAfterCommand s).active = s.active := by
  unfold rearmMotorAfterCommand; split <;> simp [State.prof, State.period, State.profileKey, State.motorRunning, State.active]

@[simp] theorem motorOffTimer_fields (s : State) :
    (motorOffTimer s).unit = s.unit ∧ (motorOffTimer s).enabled = s.enabled ∧ (motorOffTimer s).mode = s.mode ∧
    (motorOffTimer s).indusVariant = s.indusVariant ∧ (motorOffTimer s).currentTrack = s.currentTrack ∧
    (motorOffTimer s).geom = s.geom ∧ (motorOffTimer s).bufferedTrack = s.bufferedTrack ∧
    (motorOffTimer s).lastReadSector = s.lastReadSector ∧ (motorOffTimer s).flags = s.flags ∧
    (motorOffTimer s).cmd = s.cmd ∧ (motorOffTimer s).fdcStatus = s.fdcStatus ∧
    (motorOffTimer s).lastOpError = s.lastOpError ∧ (motorOffTimer s).percom = s.percom ∧
    (motorOffTimer s).phantomCounter = s.phantomCounter ∧ (motorOffTimer s).forcedOrder = s.forcedOrder ∧
    (motorOffTimer s).weakBitLFSR = s.weakBitLFSR ∧ (motorOffTimer s).sendBuf = s.sendBuf ∧
    (motorOffTimer s).recvBuf = s.recvBuf ∧ (motorOffTimer s).driveRAM = s.driveRAM ∧
    (motorOffTimer s).xferCyclesPerBit = s.xferCyclesPerBit ∧
    (motorOffTimer s).xferCyclesPerByte = s.xferCyclesPerByte ∧ (motorOffTimer s).params = s.params ∧
    (motorOffTimer s).now = s.now ∧ (motorOffTimer s).bus = s.bus ∧ (motorOffTimer s).disk = s.disk ∧
    (motorOffTimer s).rxOffset = s.rxOffset ∧ (motorOffTimer s).selfTimed = s.selfTimed ∧
    (motorOffTimer s).inbox = s.inbox ∧ (motorOffTimer s).reply = s.reply ∧ (motorOffTimer s).freeCtr = s.freeCtr ∧
    (motorOffTimer s).prof = s.prof ∧ (motorOffTimer s).period = s.period ∧
    (motorOffTimer s).profileKey = s.profileKey ∧ (motorOffTimer s).active = s.active := by
  unfold motorOffTimer; split
  · simp
  · split <;> simp [State.prof, State.period, State.profileKey, State.motorRunning, State.active]

@[simp] theorem beginTransferACKCmd_fields (s : State) :
    (beginTransferACKCmd s).unit = s.unit ∧ (beginTransferACKCmd s).enabled = s.enabled ∧
    (beginTransferACKCmd s).mode = s.mode ∧ (beginTransferACKCmd s).indusVariant = s.indusVariant ∧
    (beginTransferACKCmd s).rot = s.rot ∧ (beginTransferACKCmd s).currentTrack = s.currentTrack ∧
    (beginTransferACKCmd s).geom = s.geom ∧ (beginTransferACKCmd s).motorOffDeadline = s.motorOffDeadline ∧
    (beginTransferACKCmd s).bufferedTrack = s.bufferedTrack ∧
    (beginTransferACKCmd s).lastReadSector = s.lastReadSector ∧ (beginTransferACKCmd s).flags = s.flags ∧
    (beginTransferACKCmd s).fdcStatus = s.fdcStatus ∧ (beginTransferACKCmd s).lastOpError = s.lastOpError ∧
    (beginTransferACKCmd s).percom = s.percom ∧ (beginTransferACKCmd s).phantomCounter = s.phantomCounter ∧
    (beginTransferACKCmd s).forcedOrder = s.forcedOrder ∧ (beginTransferACKCmd s).weakBitLFSR = s.weakBitLFSR ∧
    (beginTransferACKCmd s).sendBuf = s.sendBuf ∧ (beginTransferACKCmd s).recvBuf = s.recvBuf ∧
    (beginTransferACKCmd s).driveRAM = s.driveRAM ∧ (beginTransferACKCmd s).params = s.params ∧
    (beginTransferACKCmd s).now = s.now ∧ (beginTransferACKCmd s).bus = s.bus ∧
    (beginTransferACKCmd s).disk = s.disk ∧ (beginTransferACKCmd s).rxOffset = s.rxOffset ∧
    (beginTransferACKCmd s).selfTimed = s.selfTimed ∧ (beginTransferACKCmd s).inbox = s.inbox ∧
    (beginTransferACKCmd s).reply = s.reply ∧ (beginTransferACKCmd s).freeCtr = s.freeCtr ∧
    (beginTransferACKCmd s).prof = s.prof ∧ (beginTransferACKCmd s).period = s.period ∧
    (beginTransferACKCmd s).profileKey = s.profileKey ∧ (beginTransferACKCmd s).motorRunning = s.motorRunning := by
  simp [beginTransferACKCmd]

@[simp] theorem beginTransferACKData_fields (s : State) :
    (beginTransferACKData s).unit = s.unit ∧ (beginTransferACKData s).enabled = s.enabled ∧
    (beginTransferACKData s).mode = s.mode ∧ (beginTransferACKData s).indusVariant = s.indusVariant ∧
    (beginTransferACKData s).rot = s.rot ∧ (beginTransferACKData s).currentTrack = s.currentTrack ∧
    (beginTransferACKData s).geom = s.geom ∧ (beginTransferACKData s).motorOffDeadline = s.motorOffDeadline ∧
    (beginTransferACKData s).bufferedTrack = s.bufferedTrack ∧
    (beginTransferACKData s).lastReadSector = s.lastReadSector ∧ (beginTransferACKData s).flags = s.flags ∧
    (beginTransferACKData s).fdcStatus = s.fdcStatus ∧ (beginTransferACKData s).lastOpError = s.lastOpError ∧
    (beginTransferACKData s).percom = s.percom ∧ (beginTransferACKData s).phantomCounter = s.phantomCounter ∧
    (beginTransferACKData s).forcedOrder = s.forcedOrder ∧ (beginTransferACKData s).weakBitLFSR = s.weakBitLFSR ∧
    (beginTransferACKData s).sendBuf = s.sendBuf ∧ (beginTransferACKData s).recvBuf = s.recvBuf ∧
    (beginTransferACKData s).driveRAM = s.driveRAM ∧ (beginTransferACKData s).params = s.params ∧
    (beginTransferACKData s).now = s.now ∧ (beginTransferACKData s).bus = s.bus ∧
    (beginTransferACKData s).disk = s.disk ∧ (beginTransferACKData s).rxOffset = s.rxOffset ∧
    (beginTransferACKData s).selfTimed = s.selfTimed ∧ (beginTransferACKData s).inbox = s.inbox ∧
    (beginTransferACKData s).reply = s.reply ∧ (beginTransferACKData s).freeCtr = s.freeCtr ∧
    (beginTransferACKData s).prof = s.prof ∧ (beginTransferACKData s).period = s.period ∧
    (beginTransferACKData s).profileKey = s.profileKey ∧ (beginTransferACKData s).motorRunning = s.motorRunning := by
  simp [beginTransferACKData]

@[simp] theorem beginTransferNAKData_fields (s : State) :
    (beginTransferNAKData s).unit = s.unit ∧ (beginTransferNAKData s).enabled = s.enabled ∧
    (beginTransferNAKData s).mode = s.mode ∧ (beginTransferNAKData s).indusVariant = s.indusVariant ∧
    (beginTransferNAKData s).rot = s.rot ∧ (beginTransferNAKData s).currentTrack = s.currentTrack ∧
    (beginTransferNAKData s).geom = s.geom ∧ (beginTransferNAKData s).motorOffDeadline = s.motorOffDeadline ∧
    (beginTransferNAKData s).bufferedTrack = s.bufferedTrack ∧
    (beginTransferNAKData s).lastReadSector = s.lastReadSector ∧ (beginTransferNAKData s).flags = s.flags ∧
    (beginTransferNAKData s).fdcStatus = s.fdcStatus ∧ (beginTransferNAKData s).lastOpError = s.lastOpError ∧
    (beginTransferNAKData s).percom = s.percom ∧ (beginTransferNAKData s).phantomCounter = s.phantomCounter ∧
    (beginTransferNAKData s).forcedOrder = s.forcedOrder ∧ (beginTransferNAKData s).weakBitLFSR = s.weakBitLFSR ∧
    (beginTransferNAKData s).sendBuf = s.sendBuf ∧ (beginTransferNAKData s).recvBuf = s.recvBuf ∧
    (beginTransferNAKData s).driveRAM = s.driveRAM ∧ (beginTransferNAKData s).params = s.params ∧
    (beginTransferNAKData s).now = s.now ∧ (beginTransferNAKData s).bus = s.bus ∧
    (beginTransferNAKData s).disk = s.disk ∧ (beginTransferNAKData s).rxOffset = s.rxOffset ∧
    (beginTransferNAKData s).selfTimed = s.selfTimed ∧ (beginTransferNAKData s).inbox = s.inbox ∧
    (beginTransferNAKData s).reply = s.reply ∧ (beginTransferNAKData s).freeCtr = s.freeCtr ∧
    (beginTransferNAKData s).prof = s.prof ∧ (beginTransferNAKData s).period = s.period ∧
    (beginTransferNAKData s).profileKey = s.profileKey ∧ (beginTransferNAKData s).motorRunning = s.motorRunning := by
  simp [beginTransferNAKData]

@[simp] theorem beginTransferNAKCommand_fields (s : State) :
    (beginTransferNAKCommand s).unit = s.unit ∧ (beginTransferNAKCommand s).enabled = s.enabled ∧
    (beginTransferNAKCommand s).mode = s.mode ∧ (beginTransferNAKCommand s).indusVariant = s.indusVariant ∧
    (beginTransferNAKCommand s).rot = s.rot ∧ (beginTransferNAKCommand s).currentTrack = s.currentTrack ∧
    (beginTransferNAKCommand s).geom = s.geom ∧ (beginTransferNAKCommand s).motorOffDeadline = s.motorOffDeadline ∧
    (beginTransferNAKCommand s).bufferedTrack = s.bufferedTrack ∧
    (beginTransferNAKCommand s).lastReadSector = s.lastReadSector ∧ (beginTransferNAKCommand s).flags = s.flags ∧
    (beginTransferNAKCommand s).fdcStatus = s.fdcStatus ∧ (beginTransferNAKCommand s).lastOpError = s.lastOpError ∧
    (beginTransferNAKCommand s).percom = s.percom ∧ (beginTransferNAKCommand s).phantomCounter = s.phantomCounter ∧
    (beginTransferNAKCommand s).forcedOrder = s.forcedOrder ∧
    (beginTransferNAKCommand s).weakBitLFSR = s.weakBitLFSR ∧ (beginTransferNAKCommand s).sendBuf = s.sendBuf ∧
    (beginTransferNAKCommand s).recvBuf = s.recvBuf ∧ (beginTransferNAKCommand s).driveRAM = s.driveRAM ∧
    (beginTransferNAKCommand s).params = s.params ∧ (beginTransferNAKCommand s).now = s.now ∧
    (beginTransferNAKCommand s).bus = s.bus ∧ (beginTransferNAKCommand s).disk = s.disk ∧
    (beginTransferNAKCommand s).rxOffset = s.rxOffset ∧ (beginTransferNAKCommand s).selfTimed = s.selfTimed ∧
    (beginTransferNAKCommand s).inbox = s.inbox ∧ (beginTransferNAKCommand s).reply = s.reply ∧
    (beginTransferNAKCommand s).freeCtr = s.freeCtr ∧ (beginTransferNAKCommand s).prof = s.prof ∧
    (beginTransferNAKCommand s).period = s.period ∧ (beginTransferNAKCommand s).profileKey = s.profileKey ∧
    (beginTransferNAKCommand s).motorRunning = s.motorRunning := by
  simp [beginTransferNAKCommand]

@[simp] theorem beginTransferComplete_fields (s : State) :
    (beginTransferComplete s).unit = s.unit ∧ (beginTransferComplete s).enabled = s.enabled ∧
    (beginTransferComplete s).mode = s.mode ∧ (beginTransferComplete s).indusVariant = s.indusVariant ∧
    (beginTransferComplete s).rot = s.rot ∧ (beginTransferComplete s).currentTrack = s.currentTrack ∧
    (beginTransferComplete s).geom = s.geom ∧ (beginTransferComplete s).motorOffDeadline = s.motorOffDeadline ∧
    (beginTransferComplete s).bufferedTrack = s.bufferedTrack ∧
    (beginTransferComplete s).lastReadSector = s.lastReadSector ∧ (beginTransferComplete s).flags = s.flags ∧
    (beginTransferComplete s).fdcStatus = s.fdcStatus ∧ (beginTransferComplete s).percom = s.percom ∧
    (beginTransferComplete s).phantomCounter = s.phantomCounter ∧
    (beginTransferComplete s).forcedOrder = s.forcedOrder ∧ (beginTransferComplete s).weakBitLFSR = s.weakBitLFSR ∧
    (beginTransferComplete s).sendBuf = s.sendBuf ∧ (beginTransferComplete s).recvBuf = s.recvBuf ∧
    (beginTransferComplete s).driveRAM = s.driveRAM ∧ (beginTransferComplete s).params = s.params ∧
    (beginTransferComplete s).now = s.now ∧ (beginTransferComplete s).bus = s.bus ∧
    (beginTransferComplete s).disk = s.disk ∧ (beginTransferComplete s).rxOffset = s.rxOffset ∧
    (beginTransferComplete s).selfTimed = s.selfTimed ∧ (beginTransferComplete s).inbox = s.inbox ∧
    (beginTransferComplete s).reply = s.reply ∧ (beginTransferComplete s).freeCtr = s.freeCtr ∧
    (beginTransferComplete s).prof = s.prof ∧ (beginTransferComplete s).period = s.period ∧
    (beginTransferComplete s).profileKey = s.profileKey ∧
    (beginTransferComplete s).motorRunning = s.motorRunning := by
  simp [beginTransferComplete]

@[simp] theorem beginTransferError_fields (s : State) :
    (beginTransferError s).unit = s.unit ∧ (beginTransferError s).enabled = s.enabled ∧
    (beginTransferError s).mode = s.mode ∧ (beginTransferError s).indusVariant = s.indusVariant ∧
    (beginTransferError s).rot = s.rot ∧ (beginTransferError s).currentTrack = s.currentTrack ∧
    (beginTransferError s).geom = s.geom ∧ (beginTransferError s).motorOffDeadline = s.motorOffDeadline ∧
    (beginTransferError s).bufferedTrack = s.bufferedTrack ∧
    (beginTransferError s).lastReadSector = s.lastReadSector ∧ (beginTransferError s).flags = s.flags ∧
    (beginTransferError s).fdcStatus = s.fdcStatus ∧ (beginTransferError s).percom = s.percom ∧
    (beginTransferError s).phantomCounter = s.phantomCounter ∧ (beginTransferError s).forcedOrder = s.forcedOrder ∧
    (beginTransferError s).weakBitLFSR = s.weakBitLFSR ∧ (beginTransferError s).sendBuf = s.sendBuf ∧
    (beginTransferError s).recvBuf = s.recvBuf ∧ (beginTransferError s).driveRAM = s.driveRAM ∧
    (beginTransferError s).params = s.params ∧ (beginTransferError s).now = s.now ∧
    (beginTransferError s).bus = s.bus ∧ (beginTransferError s).disk = s.disk ∧
    (beginTransferError s).rxOffset = s.rxOffset ∧ (beginTransferError s).selfTimed = s.selfTimed ∧
    (beginTransferError s).inbox = s.inbox ∧ (beginTransferError s).reply = s.reply ∧
    (beginTransferError s).freeCtr = s.freeCtr ∧ (beginTransferError s).prof = s.prof ∧
    (beginTransferError s).period = s.period ∧ (beginTransferError s).profileKey = s.profileKey ∧
    (beginTransferError s).motorRunning = s.motorRunning := by
  simp [beginTransferError, State.prof, State.period, State.profileKey, State.motorRunning, State.active]

@[simp] theorem wait_fields (s : State) (n : Word32) :
    (wait n s).unit = s.unit ∧ (wait n s).enabled = s.enabled ∧ (wait n s).mode = s.mode ∧
    (wait n s).indusVariant = s.indusVariant ∧ (wait n s).rot = s.rot ∧ (wait n s).currentTrack = s.currentTrack ∧
    (wait n s).geom = s.geom ∧ (wait n s).motorOffDeadline = s.motorOffDeadline ∧
    (wait n s).bufferedTrack = s.bufferedTrack ∧ (wait n s).lastReadSector = s.lastReadSector ∧
    (wait n s).flags = s.flags ∧ (wait n s).fdcStatus = s.fdcStatus ∧ (wait n s).lastOpError = s.lastOpError ∧
    (wait n s).percom = s.percom ∧ (wait n s).phantomCounter = s.phantomCounter ∧
    (wait n s).forcedOrder = s.forcedOrder ∧ (wait n s).weakBitLFSR = s.weakBitLFSR ∧
    (wait n s).sendBuf = s.sendBuf ∧ (wait n s).recvBuf = s.recvBuf ∧ (wait n s).driveRAM = s.driveRAM ∧
    (wait n s).xferCyclesPerBit = s.xferCyclesPerBit ∧ (wait n s).xferCyclesPerByte = s.xferCyclesPerByte ∧
    (wait n s).params = s.params ∧ (wait n s).now = s.now ∧ (wait n s).bus = s.bus ∧ (wait n s).disk = s.disk ∧
    (wait n s).rxOffset = s.rxOffset ∧ (wait n s).selfTimed = s.selfTimed ∧ (wait n s).inbox = s.inbox ∧
    (wait n s).reply = s.reply ∧ (wait n s).freeCtr = s.freeCtr ∧ (wait n s).prof = s.prof ∧
    (wait n s).period = s.period ∧ (wait n s).profileKey = s.profileKey ∧
    (wait n s).motorRunning = s.motorRunning := by
  simp [wait, State.prof, State.period, State.profileKey, State.motorRunning, State.active]

@[simp] theorem endCommand_fields (s : State) :
    (endCommand s).unit = s.unit ∧ (endCommand s).enabled = s.enabled ∧ (endCommand s).mode = s.mode ∧
    (endCommand s).indusVariant = s.indusVariant ∧ (endCommand s).rot = s.rot ∧
    (endCommand s).currentTrack = s.currentTrack ∧ (endCommand s).geom = s.geom ∧
    (endCommand s).bufferedTrack = s.bufferedTrack ∧ (endCommand s).lastReadSector = s.lastReadSector ∧
    (endCommand s).flags = s.flags ∧ (endCommand s).fdcStatus = s.fdcStatus ∧
    (endCommand s).lastOpError = s.lastOpError ∧ (endCommand s).percom = s.percom ∧
    (endCommand s).phantomCounter = s.phantomCounter ∧ (endCommand s).forcedOrder = s.forcedOrder ∧
    (endCommand s).weakBitLFSR = s.weakBitLFSR ∧ (endCommand s).sendBuf = s.sendBuf ∧
    (endCommand s).recvBuf = s.recvBuf ∧ (endCommand s).driveRAM = s.driveRAM ∧
    (endCommand s).xferCyclesPerBit = s.xferCyclesPerBit ∧ (endCommand s).xferCyclesPerByte = s.xferCyclesPerByte ∧
    (endCommand s).params = s.params ∧ (endCommand s).now = s.now ∧ (endCommand s).bus = s.bus ∧
    (endCommand s).disk = s.disk ∧ (endCommand s).rxOffset = s.rxOffset ∧ (endCommand s).selfTimed = s.selfTimed ∧
    (endCommand s).inbox = s.inbox ∧ (endCommand s).reply = s.reply ∧ (endCommand s).freeCtr = s.freeCtr ∧
    (endCommand s).prof = s.prof ∧ (endCommand s).period = s.period ∧ (endCommand s).profileKey = s.profileKey := by
  simp [endCommand]

@[simp] theorem abortCommand_fields (s : State) (b : Bool) :
    (abortCommand b s).unit = s.unit ∧ (abortCommand b s).enabled = s.enabled ∧ (abortCommand b s).mode = s.mode ∧
    (abortCommand b s).indusVariant = s.indusVariant ∧ (abortCommand b s).rot = s.rot ∧
    (abortCommand b s).currentTrack = s.currentTrack ∧ (abortCommand b s).geom = s.geom ∧
    (abortCommand b s).bufferedTrack = s.bufferedTrack ∧ (abortCommand b s).lastReadSector = s.lastReadSector ∧
    (abortCommand b s).flags = s.flags ∧ (abortCommand b s).fdcStatus = s.fdcStatus ∧
    (abortCommand b s).lastOpError = s.lastOpError ∧ (abortCommand b s).percom = s.percom ∧
    (abortCommand b s).phantomCounter = s.phantomCounter ∧ (abortCommand b s).forcedOrder = s.forcedOrder ∧
    (abortCommand b s).weakBitLFSR = s.weakBitLFSR ∧ (abortCommand b s).sendBuf = s.sendBuf ∧
    (abortCommand b s).recvBuf = s.recvBuf ∧ (abortCommand b s).driveRAM = s.driveRAM ∧
    (abortCommand b s).xferCyclesPerBit = s.xferCyclesPerBit ∧
    (abortCommand b s).xferCyclesPerByte = s.xferCyclesPerByte ∧ (abortCommand b s).params = s.params ∧
    (abortCommand b s).now = s.now ∧ (abortCommand b s).bus = s.bus ∧ (abortCommand b s).disk = s.disk ∧
    (abortCommand b s).rxOffset = s.rxOffset ∧ (abortCommand b s).selfTimed = s.selfTimed ∧
    (abortCommand b s).inbox = s.inbox ∧ (abortCommand b s).reply = s.reply ∧
    (abortCommand b s).freeCtr = s.freeCtr ∧ (abortCommand b s).prof = s.prof ∧
    (abortCommand b s).period = s.period ∧ (abortCommand b s).profileKey = s.profileKey := by
  unfold abortCommand; split
  · cases b <;> simp [State.prof, State.period, State.profileKey, State.motorRunning, State.active]
  · simp

@[simp] theorem advancePhantom_fields (s : State) (v n : Nat) :
    (advancePhantom v n s).unit = s.unit ∧ (advancePhantom v n s).enabled = s.enabled ∧
    (advancePhantom v n s).mode = s.mode ∧ (advancePhantom v n s).indusVariant = s.indusVariant ∧
    (advancePhantom v n s).rot = s.rot ∧ (advancePhantom v n s).currentTrack = s.currentTrack ∧
    (advancePhantom v n s).geom = s.geom ∧ (advancePhantom v n s).motorOffDeadline = s.motorOffDeadline ∧
    (advancePhantom v n s).bufferedTrack = s.bufferedTrack ∧
    (advancePhantom v n s).lastReadSector = s.lastReadSector ∧ (advancePhantom v n s).flags = s.flags ∧
    (advancePhantom v n s).cmd = s.cmd ∧ (advancePhantom v n s).fdcStatus = s.fdcStatus ∧
    (advancePhantom v n s).lastOpError = s.lastOpError ∧ (advancePhantom v n s).percom = s.percom ∧
    (advancePhantom v n s).forcedOrder = s.forcedOrder ∧ (advancePhantom v n s).weakBitLFSR = s.weakBitLFSR ∧
    (advancePhantom v n s).sendBuf = s.sendBuf ∧ (advancePhantom v n s).recvBuf = s.recvBuf ∧
    (advancePhantom v n s).driveRAM = s.driveRAM ∧ (advancePhantom v n s).xferCyclesPerBit = s.xferCyclesPerBit ∧
    (advancePhantom v n s).xferCyclesPerByte = s.xferCyclesPerByte ∧ (advancePhantom v n s).params = s.params ∧
    (advancePhantom v n s).now = s.now ∧ (advancePhantom v n s).bus = s.bus ∧ (advancePhantom v n s).disk = s.disk ∧
    (advancePhantom v n s).wire = s.wire ∧ (advancePhantom v n s).rxOffset = s.rxOffset ∧
    (advancePhantom v n s).selfTimed = s.selfTimed ∧ (advancePhantom v n s).inbox = s.inbox ∧
    (advancePhantom v n s).out = s.out ∧ (advancePhantom v n s).reply = s.reply ∧
    (advancePhantom v n s).freeCtr = s.freeCtr ∧ (advancePhantom v n s).prof = s.prof ∧
    (advancePhantom v n s).period = s.period ∧ (advancePhantom v n s).profileKey = s.profileKey ∧
    (advancePhantom v n s).motorRunning = s.motorRunning ∧ (advancePhantom v n s).active = s.active := by
  simp [advancePhantom, State.prof, State.period, State.profileKey, State.motorRunning, State.active]

@[simp] theorem noteTarget_fields (s : State) (c : Nat) :
    (noteTarget c s).unit = s.unit ∧ (noteTarget c s).enabled = s.enabled ∧ (noteTarget c s).mode = s.mode ∧
    (noteTarget c s).indusVariant = s.indusVariant ∧ (noteTarget c s).rot = s.rot ∧
    (noteTarget c s).currentTrack = s.currentTrack ∧ (noteTarget c s).geom = s.geom ∧
    (noteTarget c s).motorOffDeadline = s.motorOffDeadline ∧ (noteTarget c s).bufferedTrack = s.bufferedTrack ∧
    (noteTarget c s).lastReadSector = s.lastReadSector ∧ (noteTarget c s).flags = s.flags ∧
    (noteTarget c s).fdcStatus = s.fdcStatus ∧ (noteTarget c s).lastOpError = s.lastOpError ∧
    (noteTarget c s).percom = s.percom ∧ (noteTarget c s).phantomCounter = s.phantomCounter ∧
    (noteTarget c s).forcedOrder = s.forcedOrder ∧ (noteTarget c s).weakBitLFSR = s.weakBitLFSR ∧
    (noteTarget c s).sendBuf = s.sendBuf ∧ (noteTarget c s).recvBuf = s.recvBuf ∧
    (noteTarget c s).driveRAM = s.driveRAM ∧ (noteTarget c s).xferCyclesPerBit = s.xferCyclesPerBit ∧
    (noteTarget c s).xferCyclesPerByte = s.xferCyclesPerByte ∧ (noteTarget c s).params = s.params ∧
    (noteTarget c s).now = s.now ∧ (noteTarget c s).bus = s.bus ∧ (noteTarget c s).disk = s.disk ∧
    (noteTarget c s).wire = s.wire ∧ (noteTarget c s).rxOffset = s.rxOffset ∧
    (noteTarget c s).selfTimed = s.selfTimed ∧ (noteTarget c s).inbox = s.inbox ∧ (noteTarget c s).out = s.out ∧
    (noteTarget c s).reply = s.reply ∧ (noteTarget c s).freeCtr = s.freeCtr ∧ (noteTarget c s).prof = s.prof ∧
    (noteTarget c s).period = s.period ∧ (noteTarget c s).profileKey = s.profileKey ∧
    (noteTarget c s).motorRunning = s.motorRunning := by
  simp [noteTarget, State.prof, State.period, State.profileKey, State.motorRunning, State.active]

@[simp] theorem spinAndSeek_fields (s : State) (c : Nat) :
    (spinAndSeek c s).unit = s.unit ∧ (spinAndSeek c s).enabled = s.enabled ∧ (spinAndSeek c s).mode = s.mode ∧
    (spinAndSeek c s).indusVariant = s.indusVariant ∧ (spinAndSeek c s).geom = s.geom ∧
    (spinAndSeek c s).bufferedTrack = s.bufferedTrack ∧ (spinAndSeek c s).lastReadSector = s.lastReadSector ∧
    (spinAndSeek c s).flags = s.flags ∧ (spinAndSeek c s).cmd = s.cmd ∧ (spinAndSeek c s).fdcStatus = s.fdcStatus ∧
    (spinAndSeek c s).lastOpError = s.lastOpError ∧ (spinAndSeek c s).percom = s.percom ∧
    (spinAndSeek c s).phantomCounter = s.phantomCounter ∧ (spinAndSeek c s).forcedOrder = s.forcedOrder ∧
    (spinAndSeek c s).weakBitLFSR = s.weakBitLFSR ∧ (spinAndSeek c s).sendBuf = s.sendBuf ∧
    (spinAndSeek c s).recvBuf = s.recvBuf ∧ (spinAndSeek c s).driveRAM = s.driveRAM ∧
    (spinAndSeek c s).xferCyclesPerBit = s.xferCyclesPerBit ∧
    (spinAndSeek c s).xferCyclesPerByte = s.xferCyclesPerByte ∧ (spinAndSeek c s).params = s.params ∧
    (spinAndSeek c s).now = s.now ∧ (spinAndSeek c s).bus = s.bus ∧ (spinAndSeek c s).disk = s.disk ∧
    (spinAndSeek c s).rxOffset = s.rxOffset ∧ (spinAndSeek c s).selfTimed = s.selfTimed ∧
    (spinAndSeek c s).inbox = s.inbox ∧ (spinAndSeek c s).reply = s.reply ∧ (spinAndSeek c s).freeCtr = s.freeCtr ∧
    (spinAndSeek c s).prof = s.prof ∧ (spinAndSeek c s).period = s.period ∧
    (spinAndSeek c s).profileKey = s.profileKey ∧ (spinAndSeek c s).active = s.active := by
  simp [spinAndSeek]

@[simp] theorem dropBuffer_fields (s : State) (k : SearchKind) :
    (dropBuffer k s).unit = s.unit ∧ (dropBuffer k s).enabled = s.enabled ∧ (dropBuffer k s).mode = s.mode ∧
    (dropBuffer k s).indusVariant = s.indusVariant ∧ (dropBuffer k s).rot = s.rot ∧
    (dropBuffer k s).currentTrack = s.currentTrack ∧ (dropBuffer k s).geom = s.geom ∧
    (dropBuffer k s).motorOffDeadline = s.motorOffDeadline ∧ (dropBuffer k s).lastReadSector = s.lastReadSector ∧
    (dropBuffer k s).flags = s.flags ∧ (dropBuffer k s).cmd = s.cmd ∧ (dropBuffer k s).fdcStatus = s.fdcStatus ∧
    (dropBuffer k s).lastOpError = s.lastOpError ∧ (dropBuffer k s).percom = s.percom ∧
    (dropBuffer k s).phantomCounter = s.phantomCounter ∧ (dropBuffer k s).forcedOrder = s.forcedOrder ∧
    (dropBuffer k s).weakBitLFSR = s.weakBitLFSR ∧ (dropBuffer k s).sendBuf = s.sendBuf ∧
    (dropBuffer k s).recvBuf = s.recvBuf ∧ (dropBuffer k s).driveRAM = s.driveRAM ∧
    (dropBuffer k s).xferCyclesPerBit = s.xferCyclesPerBit ∧
    (dropBuffer k s).xferCyclesPerByte = s.xferCyclesPerByte ∧ (dropBuffer k s).params = s.params ∧
    (dropBuffer k s).now = s.now ∧ (dropBuffer k s).bus = s.bus ∧ (dropBuffer k s).disk = s.disk ∧
    (dropBuffer k s).wire = s.wire ∧ (dropBuffer k s).rxOffset = s.rxOffset ∧
    (dropBuffer k s).selfTimed = s.selfTimed ∧ (dropBuffer k s).inbox = s.inbox ∧ (dropBuffer k s).out = s.out ∧
    (dropBuffer k s).reply = s.reply ∧ (dropBuffer k s).freeCtr = s.freeCtr ∧ (dropBuffer k s).prof = s.prof ∧
    (dropBuffer k s).period = s.period ∧ (dropBuffer k s).profileKey = s.profileKey ∧
    (dropBuffer k s).motorRunning = s.motorRunning ∧ (dropBuffer k s).active = s.active := by
  unfold dropBuffer; split <;> simp [State.prof, State.period, State.profileKey, State.motorRunning, State.active]

@[simp] theorem applyWeakBits_fields (s : State) (o n : Nat) :
    (applyWeakBits o n s).unit = s.unit ∧ (applyWeakBits o n s).enabled = s.enabled ∧
    (applyWeakBits o n s).mode = s.mode ∧ (applyWeakBits o n s).indusVariant = s.indusVariant ∧
    (applyWeakBits o n s).rot = s.rot ∧ (applyWeakBits o n s).currentTrack = s.currentTrack ∧
    (applyWeakBits o n s).geom = s.geom ∧ (applyWeakBits o n s).motorOffDeadline = s.motorOffDeadline ∧
    (applyWeakBits o n s).bufferedTrack = s.bufferedTrack ∧ (applyWeakBits o n s).lastReadSector = s.lastReadSector ∧
    (applyWeakBits o n s).flags = s.flags ∧ (applyWeakBits o n s).cmd = s.cmd ∧
    (applyWeakBits o n s).fdcStatus = s.fdcStatus ∧ (applyWeakBits o n s).lastOpError = s.lastOpError ∧
    (applyWeakBits o n s).percom = s.percom ∧ (applyWeakBits o n s).phantomCounter = s.phantomCounter ∧
    (applyWeakBits o n s).forcedOrder = s.forcedOrder ∧ (applyWeakBits o n s).recvBuf = s.recvBuf ∧
    (applyWeakBits o n s).driveRAM = s.driveRAM ∧ (applyWeakBits o n s).xferCyclesPerBit = s.xferCyclesPerBit ∧
    (applyWeakBits o n s).xferCyclesPerByte = s.xferCyclesPerByte ∧ (applyWeakBits o n s).params = s.params ∧
    (applyWeakBits o n s).now = s.now ∧ (applyWeakBits o n s).bus = s.bus ∧ (applyWeakBits o n s).disk = s.disk ∧
    (applyWeakBits o n s).wire = s.wire ∧ (applyWeakBits o n s).rxOffset = s.rxOffset ∧
    (applyWeakBits o n s).selfTimed = s.selfTimed ∧ (applyWeakBits o n s).inbox = s.inbox ∧
    (applyWeakBits o n s).out = s.out ∧ (applyWeakBits o n s).reply = s.reply ∧
    (applyWeakBits o n s).freeCtr = s.freeCtr ∧ (applyWeakBits o n s).prof = s.prof ∧
    (applyWeakBits o n s).period = s.period ∧ (applyWeakBits o n s).profileKey = s.profileKey ∧
    (applyWeakBits o n s).motorRunning = s.motorRunning ∧ (applyWeakBits o n s).active = s.active := by
  simp [applyWeakBits, State.prof, State.period, State.profileKey, State.motorRunning, State.active]

@[simp] theorem noteRead_fields (s : State) (b : Bool) :
    (noteRead b s).unit = s.unit ∧ (noteRead b s).enabled = s.enabled ∧ (noteRead b s).mode = s.mode ∧
    (noteRead b s).indusVariant = s.indusVariant ∧ (noteRead b s).rot = s.rot ∧
    (noteRead b s).currentTrack = s.currentTrack ∧ (noteRead b s).geom = s.geom ∧
    (noteRead b s).motorOffDeadline = s.motorOffDeadline ∧ (noteRead b s).flags = s.flags ∧
    (noteRead b s).cmd = s.cmd ∧ (noteRead b s).fdcStatus = s.fdcStatus ∧
    (noteRead b s).lastOpError = s.lastOpError ∧ (noteRead b s).percom = s.percom ∧
    (noteRead b s).phantomCounter = s.phantomCounter ∧ (noteRead b s).forcedOrder = s.forcedOrder ∧
    (noteRead b s).weakBitLFSR = s.weakBitLFSR ∧ (noteRead b s).sendBuf = s.sendBuf ∧
    (noteRead b s).recvBuf = s.recvBuf ∧ (noteRead b s).driveRAM = s.driveRAM ∧
    (noteRead b s).xferCyclesPerBit = s.xferCyclesPerBit ∧ (noteRead b s).xferCyclesPerByte = s.xferCyclesPerByte ∧
    (noteRead b s).params = s.params ∧ (noteRead b s).now = s.now ∧ (noteRead b s).bus = s.bus ∧
    (noteRead b s).disk = s.disk ∧ (noteRead b s).wire = s.wire ∧ (noteRead b s).rxOffset = s.rxOffset ∧
    (noteRead b s).selfTimed = s.selfTimed ∧ (noteRead b s).inbox = s.inbox ∧ (noteRead b s).out = s.out ∧
    (noteRead b s).reply = s.reply ∧ (noteRead b s).freeCtr = s.freeCtr ∧ (noteRead b s).prof = s.prof ∧
    (noteRead b s).period = s.period ∧ (noteRead b s).profileKey = s.profileKey ∧
    (noteRead b s).motorRunning = s.motorRunning ∧ (noteRead b s).active = s.active := by
  simp [noteRead, State.prof, State.period, State.profileKey, State.motorRunning, State.active]

/-- Two states with the same fields are the same. -/
@[ext] theorem State.ext_fields {a b : State}
    (e_unit : a.unit = b.unit) (e_enabled : a.enabled = b.enabled) (e_mode : a.mode = b.mode)
    (e_indusVariant : a.indusVariant = b.indusVariant) (e_rot : a.rot = b.rot)
    (e_currentTrack : a.currentTrack = b.currentTrack) (e_geom : a.geom = b.geom)
    (e_motorOffDeadline : a.motorOffDeadline = b.motorOffDeadline)
    (e_bufferedTrack : a.bufferedTrack = b.bufferedTrack) (e_lastReadSector : a.lastReadSector = b.lastReadSector)
    (e_flags : a.flags = b.flags) (e_cmd : a.cmd = b.cmd) (e_fdcStatus : a.fdcStatus = b.fdcStatus)
    (e_lastOpError : a.lastOpError = b.lastOpError) (e_percom : a.percom = b.percom)
    (e_phantomCounter : a.phantomCounter = b.phantomCounter) (e_forcedOrder : a.forcedOrder = b.forcedOrder)
    (e_weakBitLFSR : a.weakBitLFSR = b.weakBitLFSR) (e_sendBuf : a.sendBuf = b.sendBuf)
    (e_recvBuf : a.recvBuf = b.recvBuf) (e_driveRAM : a.driveRAM = b.driveRAM)
    (e_xferCyclesPerBit : a.xferCyclesPerBit = b.xferCyclesPerBit)
    (e_xferCyclesPerByte : a.xferCyclesPerByte = b.xferCyclesPerByte) (e_params : a.params = b.params)
    (e_now : a.now = b.now) (e_bus : a.bus = b.bus) (e_disk : a.disk = b.disk) (e_wire : a.wire = b.wire)
    (e_rxOffset : a.rxOffset = b.rxOffset) (e_selfTimed : a.selfTimed = b.selfTimed) (e_inbox : a.inbox = b.inbox)
    (e_out : a.out = b.out) (e_reply : a.reply = b.reply) (e_freeCtr : a.freeCtr = b.freeCtr) : a = b := by
  cases a; cases b; simp_all

end Sys2Proof.Machine
end

