-- ==== Sys2Proof/Laws/Ops.lean ====
section
/-! SUPPORT. For each shared operation, once, everything it can answer. -/

namespace Sys2Proof.Machine

/-! ### Results -/

theorem Result.bind_eq_ok {α β : Type} (x : Result α) (f : α → Result β) (b : β) :
    x >>= f = .ok b ↔ ∃ a, x = .ok a ∧ f a = .ok b := by
  cases x <;> simp [Bind.bind, Except.bind]

@[simp] theorem Result.pure_eq {α : Type} (a : α) : (pure a : Result α) = .ok a := rfl

@[simp] theorem Result.ok_bind {α β : Type} (a : α) (f : α → Result β) : (Except.ok a : Result α) >>= f = f a := rfl

@[simp] theorem Result.error_bind {α β : Type} (e : Stop) (f : α → Result β) :
    (Except.error e : Result α) >>= f = .error e := rfl

@[simp] theorem programmingError_ne_ok {α : Type} (w : BrokenInvariant) (a : α) :
    (programmingError w : Result α) ≠ .ok a := by simp [programmingError]

theorem Result.toOutcome_eq_next {σ : Type} (r : Result σ) (t : σ) : r.toOutcome = .next t ↔ r = .ok t := by
  rcases r with (e | e) | a <;> simp [Result.toOutcome]

@[simp] theorem Result.toOutcome_ok {σ : Type} (t : σ) : Result.toOutcome (.ok t : Result σ) = .next t := rfl

theorem requireWithin_eq_ok (o n size : Nat) (s t : State) :
    requireWithin o n size s = .ok t ↔ o + n ≤ size ∧ t = s := by
  unfold requireWithin; split <;> simp_all [eq_comm]

theorem sendResult_eq_ok (b : Bool) (n : Nat) (s t : State) :
    sendResult b n s = .ok t ↔ n ≤ Config.bufSize ∧ t = sentResult b n s := by
  simp only [sendResult, Result.bind_eq_ok, requireWithin_eq_ok, Result.pure_eq, Nat.zero_add]
  constructor
  · rintro ⟨a, ⟨h, rfl⟩, e⟩; exact ⟨h, by simpa [eq_comm] using e⟩
  · rintro ⟨h, rfl⟩; exact ⟨s, ⟨h, rfl⟩, rfl⟩

theorem receivePayload_eq_ok (n : Nat) (s t : State) :
    receivePayload n s = .ok t ↔ n ≤ Config.bufSize ∧ t = armedReceive n s := by
  simp only [receivePayload, Result.bind_eq_ok, requireWithin_eq_ok, Result.pure_eq, Nat.zero_add]
  constructor
  · rintro ⟨a, ⟨h, rfl⟩, e⟩; exact ⟨h, by simpa [eq_comm] using e⟩
  · rintro ⟨h, rfl⟩; exact ⟨s, ⟨h, rfl⟩, rfl⟩

/-! ### The command record after each operation -/

@[simp] theorem send_cmd (a : Action) (s : State) :
    (send a s).cmd = { s.cmd with state := s.cmd.state + 1 } := by simp [send]

@[simp] theorem beginTransferACKCmd_cmd (s : State) :
    (beginTransferACKCmd s).cmd = { s.cmd with state := s.cmd.state + 1 } := by simp [beginTransferACKCmd]

@[simp] theorem beginTransferACKData_cmd (s : State) :
    (beginTransferACKData s).cmd = { s.cmd with state := s.cmd.state + 1 } := by simp [beginTransferACKData]

@[simp] theorem beginTransferNAKData_cmd (s : State) :
    (beginTransferNAKData s).cmd = { s.cmd with state := s.cmd.state + 1 } := by simp [beginTransferNAKData]

@[simp] theorem beginTransferNAKCommand_cmd (s : State) :
    (beginTransferNAKCommand s).cmd = { s.cmd with state := s.cmd.state + 1 } := by simp [beginTransferNAKCommand]

@[simp] theorem beginTransferComplete_cmd (s : State) :
    (beginTransferComplete s).cmd = { s.cmd with state := s.cmd.state + 1 } := by simp [beginTransferComplete]

@[simp] theorem beginTransferError_cmd (s : State) :
    (beginTransferError s).cmd = { s.cmd with state := s.cmd.state + 1 } := by simp [beginTransferError]

@[simp] theorem sentResult_cmd (b : Bool) (n : Nat) (s : State) :
    (sentResult b n s).cmd = { s.cmd with state := s.cmd.state + 1 + 1 } := by simp [sentResult]

@[simp] theorem armedReceive_cmd (n : Nat) (s : State) :
    (armedReceive n s).cmd = { s.cmd with rxChecksumOK := false, rxLen := 0, state := s.cmd.state + 1 } := by
  simp [armedReceive]

@[simp] theorem wait_cmd (n : Word32) (s : State) :
    (wait n s).cmd = { s.cmd with state := n, waiting := true } := by simp [wait]

@[simp] theorem endCommand_cmd (s : State) : (endCommand s).cmd = s.cmd.ended := by
  simp [endCommand, ActiveCommand.ended]

theorem abortCommand_cmd (b : Bool) (s : State) :
    (abortCommand b s).cmd = if s.active then s.cmd.ended else s.cmd := by
  unfold abortCommand
  split
  · cases b <;> simp [ActiveCommand.ended]
  · rfl

/-! ### What is emitted -/

theorem emitAll_out (as : List Action) (s : State) : (s.emitAll as).out = s.out ++ as := by
  induction as generalizing s with
  | nil => simp [State.emitAll]
  | cons a as ih => simpa [State.emitAll] using ih (s.emit a)

@[simp] theorem send_out (a : Action) (s : State) : (send a s).out = s.out ++ [a] := by simp [send]

@[simp] theorem setupTransferSpeed_out (b : Bool) (s : State) :
    (setupTransferSpeed b s).out =
      s.out ++ [.setTransferRate (s.rateOf s.cmd.rawCommand b).1 (s.rateOf s.cmd.rawCommand b).2] := by
  simp [setupTransferSpeed]

@[simp] theorem beginTransferACKCmd_out (s : State) :
    (beginTransferACKCmd s).out =
      s.out ++ ackActions (s.rateOf s.cmd.rawCommand s.cmd.highSpeedFrame) s.prof.cyclesToACKSent := by
  simp [beginTransferACKCmd, ackActions]

@[simp] theorem beginTransferACKData_out (s : State) :
    (beginTransferACKData s).out =
      s.out ++ ackActions (s.rateOf s.cmd.rawCommand s.cmd.highSpeedFlag) s.prof.cyclesToACKSent := by
  simp [beginTransferACKData, ackActions]

@[simp] theorem wait_out (n : Word32) (s : State) : (wait n s).out = s.out ++ [.insertFence n] := by simp [wait]

theorem sentResult_out (b : Bool) (n : Nat) (s : State) :
    (sentResult b n s).out =
      s.out ++ resultActions (s.rateOf s.cmd.rawCommand s.cmd.highSpeedFlag) b
        (dataFrameDelay s.prof s.cmd.highSpeedFlag n) (s.sendBytes n) := by
  simp [sentResult, resultActions, State.sendBytes]

theorem rearmMotorAfterCommand_out (s : State) :
    (rearmMotorAfterCommand s).out =
      s.out ++ (if s.motorRunning then [.unschedule, .schedule s.prof.cyclesToMotorOff] else []) := by
  unfold rearmMotorAfterCommand State.motorRunning
  split <;> simp_all [State.prof]

theorem endCommand_out (s : State) : (endCommand s).out = s.out ++ endActions s := by
  simp only [endCommand, emit_out, rearmMotorAfterCommand_out, clearCommand_out, endActions]
  simp only [List.append_assoc]
  rfl

@[simp] theorem rearmMotorAfterCommand_motorOffDeadline (s : State) :
    (rearmMotorAfterCommand s).motorOffDeadline = endDeadline s := by
  unfold rearmMotorAfterCommand endDeadline State.motorRunning
  split <;> simp_all [State.prof]

@[simp] theorem endCommand_motorOffDeadline (s : State) : (endCommand s).motorOffDeadline = endDeadline s := by
  simp only [endCommand, emit_motorOffDeadline, rearmMotorAfterCommand_motorOffDeadline]
  rfl

/-! ### Exceptions -/

/-- Taking an exception leaves no command active. -/
theorem takeException_cmd (x : Exception) (s t : State) (h : takeException x s = .ok t) :
    t.cmd.code = .none ∧ t.cmd.waiting = false ∧ t.cmd.state = 0 := by
  cases x with
  | nak => simp only [takeException, Except.ok.injEq] at h; subst h; simp [ActiveCommand.ended]
  | dataNak => simp only [takeException, Except.ok.injEq] at h; subst h; simp [ActiveCommand.ended]
  | errorResponse st => simp only [takeException, Except.ok.injEq] at h; subst h; simp [ActiveCommand.ended]
  | errorWithData st n =>
    simp only [takeException, Result.bind_eq_ok, sendResult_eq_ok, Result.pure_eq, Except.ok.injEq] at h
    obtain ⟨a, _, rfl⟩ := h
    simp [ActiveCommand.ended]

@[simp] theorem noteStatus_sendBuf (o : Option Byte) (s : State) : (noteStatus o s).sendBuf = s.sendBuf := by
  cases o <;> rfl

@[simp] theorem noteStatus_recvBuf (o : Option Byte) (s : State) : (noteStatus o s).recvBuf = s.recvBuf := by
  cases o <;> rfl

@[simp] theorem noteStatus_driveRAM (o : Option Byte) (s : State) : (noteStatus o s).driveRAM = s.driveRAM := by
  cases o <;> rfl

@[simp] theorem noteStatus_disk (o : Option Byte) (s : State) : (noteStatus o s).disk = s.disk := by
  cases o <;> rfl

/-- Taking an exception changes no memory: whatever data frame it sends is SEND's. -/
theorem takeException_memories (x : Exception) (s t : State) (h : takeException x s = .ok t) :
    t.sendBuf = s.sendBuf ∧ t.recvBuf = s.recvBuf ∧ t.driveRAM = s.driveRAM ∧ t.disk = s.disk := by
  cases x with
  | nak => simp only [takeException, Except.ok.injEq] at h; subst h; simp
  | dataNak => simp only [takeException, Except.ok.injEq] at h; subst h; simp
  | errorResponse st => simp only [takeException, Except.ok.injEq] at h; subst h; simp
  | errorWithData st n =>
    simp only [takeException, Result.bind_eq_ok, sendResult_eq_ok, Result.pure_eq, Except.ok.injEq] at h
    obtain ⟨a, ⟨_, rfl⟩, rfl⟩ := h
    simp

/-! ### Physical access -/

/-- A sector the image lists, with a position in `[0, 1)`, is answered as it is listed. -/
theorem State.physSector_listed (s : State) (p : Nat) (img : Image) (x : PhysSector) (hi : s.disk.image = some img)
    (hx : img.phys[p]? = some x) (hp : x.rotPos.belowOne = true) : s.physSector p = x := by
  simp [State.physSector, hi, hx, PhysSector.within, hp]

/-- Every answered position lies in `[0, 1)` (20_memory.md R81). -/
theorem State.physSector_belowOne (s : State) (p : Nat) : (s.physSector p).rotPos.belowOne = true := by
  have hf : (freePosition s.freeCtr p).belowOne = true := by
    simpa [freePosition, Frac.belowOne] using Nat.le_of_lt_succ (Nat.mod_lt _ (Nat.succ_pos _))
  unfold State.physSector
  split
  · unfold PhysSector.within
    split
    · assumption
    · exact hf
  · exact hf

/-- Everything `ReadPhys` can answer: the length fits, SEND is filled, one call is made. -/
theorem readPhys_eq_ok (p n : Nat) (s t : State) (b : Bool) :
    readPhys p n s = .ok (b, t) ↔ n ≤ Config.bufSize ∧ b = (s.physSector p).readError ∧
      t = writeSend 0 (physBytes (s.physSector p) n) (s.emit (.readPhysicalSector p n)) := by
  simp only [readPhys, Result.bind_eq_ok, requireWithin_eq_ok, Result.pure_eq, Except.ok.injEq, Prod.mk.injEq,
    Nat.zero_add]
  constructor
  · rintro ⟨a, ⟨h, rfl⟩, rfl, rfl⟩; exact ⟨h, rfl, rfl⟩
  · rintro ⟨h, rfl, rfl⟩; exact ⟨s, ⟨h, rfl⟩, rfl, rfl⟩

/-- Everything `WritePhys` can answer. -/
theorem writePhys_eq_ok (p n : Nat) (s t : State) (b : Bool) :
    writePhys p n s = .ok (b, t) ↔ n ≤ Config.bufSize ∧ b = (s.physSector p).writeError ∧
      t = { (s.emit (.writePhysicalSector p (s.recvBytes (min n (s.physSector p).physSize)))).withImage
              (s.disk.image.map fun img => img.setPhys p
                ((s.physSector p).store s.freeCtr (s.recvBytes (min n (s.physSector p).physSize)))) with
            freeCtr := s.freeCtr + 1 } := by
  simp only [writePhys, Result.bind_eq_ok, requireWithin_eq_ok, Result.pure_eq, Except.ok.injEq, Prod.mk.injEq,
    Nat.zero_add]
  constructor
  · rintro ⟨a, ⟨h, rfl⟩, rfl, rfl⟩; exact ⟨h, rfl, rfl⟩
  · rintro ⟨h, rfl, rfl⟩; exact ⟨s, ⟨h, rfl⟩, rfl, rfl⟩

@[simp] theorem formatDisk_cmd (g : Layout) (s : State) : (formatDisk g s).2.cmd = s.cmd := rfl

@[simp] theorem formatDisk_disk (g : Layout) (s : State) :
    (formatDisk g s).2.disk =
      { s.disk with
        image :=
          if s.disk.formatError then s.disk.image.map (spoiltImage · s.freeCtr)
          else some (formattedImage s.params s.freeCtr g) } := rfl

@[simp] theorem formatDisk_driveRAM (g : Layout) (s : State) : (formatDisk g s).2.driveRAM = s.driveRAM := rfl

theorem setEntry_length {α : Type} (zero : α) (i : Nat) (x : α) (l : List α) :
    (setEntry zero i x l).length = max l.length (i + 1) := by
  simp only [setEntry, List.length_set, List.length_append, List.length_replicate]
  omega

/-- What `setEntry` does to every entry; one that the list lacks reads `zero`, before and after. -/
theorem setEntry_getD {α : Type} (zero : α) (i : Nat) (x : α) (l : List α) (j : Nat) :
    (setEntry zero i x l).getD j zero = if j = i then x else l.getD j zero := by
  simp only [setEntry, List.getD_eq_getElem?_getD, List.getElem?_set, List.length_append, List.length_replicate]
  by_cases h : i = j
  · subst h
    rw [if_pos rfl, if_pos (by omega), if_pos rfl]
    rfl
  · rw [if_neg h, if_neg (Ne.symm h)]
    by_cases hl : j < l.length
    · rw [List.getElem?_append_left hl]
    · rw [List.getElem?_append_right (by omega), List.getElem?_eq_none (l := l) (by omega), List.getElem?_replicate]
      split <;> rfl

/-- Everything `ResolveSector` can answer: the state as it was with no copy, or one phantom advance with a copy. -/
theorem resolveSector_state (v : Nat) (isRead : Bool) (s : State) :
    (∃ st, resolveSector v isRead s = (.notFound st, s)) ∨
      ∃ n p x, resolveSector v isRead s = (.found p x, advancePhantom v n s) := by
  unfold resolveSector
  split
  · exact .inl ⟨_, rfl⟩
  · dsimp only
    split
    · exact .inl ⟨_, rfl⟩
    · exact .inr ⟨_, _, _, rfl⟩

/-- Everything a search attempt can do: resolve from the advanced state, note the resolution, and go on to the next attempt
or to the outcome state (43_rw_common.md R250). -/
theorem rwSearch_cases (s : State) : ∃ (u : State) (r : Resolution),
    (u = advanceToNow s ∨ ∃ n, u = advancePhantom s.cmd.sector.toNat n (advanceToNow s)) ∧
    let x := noteResolution r u
    (x.2.1 ≠ .ok ∧ attempt x.1.cmd.state < maxAttempts x.1 ∧ rwSearch s = searchAgain x.2.1 x.2.2 x.1) ∨
      rwSearch s = searchDone x.2.1 x.2.2 x.1 := by
  have hc : (advanceToNow s).cmd = s.cmd := by simp
  have e : ∀ r u, resolveSector s.cmd.sector.toNat s.cmd.isRead (advanceToNow s) = (r, u) →
      let x := noteResolution r u
      (x.2.1 ≠ .ok ∧ attempt x.1.cmd.state < maxAttempts x.1 ∧ rwSearch s = searchAgain x.2.1 x.2.2 x.1) ∨
        rwSearch s = searchDone x.2.1 x.2.2 x.1 := by
    intro r u h
    unfold rwSearch
    simp only [hc, h]
    split
    · rename_i hk; exact .inl ⟨hk.1, hk.2, rfl⟩
    · exact .inr rfl
  rcases resolveSector_state s.cmd.sector.toNat s.cmd.isRead (advanceToNow s) with ⟨st, h⟩ | ⟨n, p, x, h⟩
  · exact ⟨_, _, .inl rfl, e _ _ h⟩
  · exact ⟨_, _, .inr ⟨n, rfl⟩, e _ _ h⟩

end Sys2Proof.Machine
end

