-- ==== Sys2Proof/Laws/Updates.lean ====
section
/-! SUPPORT. Each shared operation as one update of the record: what it sets, what it emits, and nothing else. -/

namespace Sys2Proof.Machine

/-! ### The transport -/

theorem Wire.after_append (w : Wire) (n : Cycle) (id : Word32) (as bs : List Action) :
    w.after n id (as ++ bs) = (w.after n id as).after n id bs := by simp [Wire.after]

@[simp] theorem Wire.after_nil (w : Wire) (n : Cycle) (id : Word32) : w.after n id [] = w := rfl

@[simp] theorem Wire.after_cons (w : Wire) (n : Cycle) (id : Word32) (a : Action) (as : List Action) :
    w.after n id (a :: as) = (w.push n id a).after n id as := rfl

theorem Wire.after_snoc (w : Wire) (n : Cycle) (id : Word32) (as : List Action) (a : Action) :
    (w.after n id as).push n id a = w.after n id (as ++ [a]) := by simp [Wire.after]

/-! ### Emission -/

theorem emit_eq (s : State) (a : Action) :
    s.emit a = { s with out := s.out ++ [a], wire := s.wire.after s.now (s.cmd.state + 1) [a] } := rfl

theorem emitAll_eq (as : List Action) (s : State) :
    s.emitAll as = { s with out := s.out ++ as, wire := s.wire.after s.now (s.cmd.state + 1) as } := by
  induction as generalizing s with
  | nil => simp [State.emitAll]
  | cons a as ih =>
    show (s.emit a).emitAll as = _
    rw [ih, emit_eq]
    simp

/-! ### Responses -/

theorem setupTransferSpeed_eq (b : Bool) (s : State) :
    setupTransferSpeed b s =
      { s with
        xferCyclesPerBit := (s.rateOf s.cmd.rawCommand b).1
        xferCyclesPerByte := (s.rateOf s.cmd.rawCommand b).2
        out := s.out ++ [.setTransferRate (s.rateOf s.cmd.rawCommand b).1 (s.rateOf s.cmd.rawCommand b).2]
        wire := s.wire.after s.now 0
          [.setTransferRate (s.rateOf s.cmd.rawCommand b).1 (s.rateOf s.cmd.rawCommand b).2] } := rfl

theorem beginTransferACKCmd_eq (s : State) :
    beginTransferACKCmd s =
      { s with
        xferCyclesPerBit := (s.rateOf s.cmd.rawCommand s.cmd.highSpeedFrame).1
        xferCyclesPerByte := (s.rateOf s.cmd.rawCommand s.cmd.highSpeedFrame).2
        cmd := { s.cmd with state := s.cmd.state + 1 }
        out := s.out ++ ackActions (s.rateOf s.cmd.rawCommand s.cmd.highSpeedFrame) s.prof.cyclesToACKSent
        wire := s.wire.after s.now 0
          (ackActions (s.rateOf s.cmd.rawCommand s.cmd.highSpeedFrame) s.prof.cyclesToACKSent) } := by
  apply State.ext_fields <;> first | rfl | simp [beginTransferACKCmd, ackActions]

theorem beginTransferACKData_eq (s : State) :
    beginTransferACKData s =
      { s with
        xferCyclesPerBit := (s.rateOf s.cmd.rawCommand s.cmd.highSpeedFlag).1
        xferCyclesPerByte := (s.rateOf s.cmd.rawCommand s.cmd.highSpeedFlag).2
        cmd := { s.cmd with state := s.cmd.state + 1 }
        out := s.out ++ ackActions (s.rateOf s.cmd.rawCommand s.cmd.highSpeedFlag) s.prof.cyclesToACKSent
        wire := s.wire.after s.now 0
          (ackActions (s.rateOf s.cmd.rawCommand s.cmd.highSpeedFlag) s.prof.cyclesToACKSent) } := by
  apply State.ext_fields <;> first | rfl | simp [beginTransferACKData, ackActions]

theorem beginTransferNAKData_eq (s : State) :
    beginTransferNAKData s =
      { s with
        xferCyclesPerBit := (s.rateOf s.cmd.rawCommand s.cmd.highSpeedFlag).1
        xferCyclesPerByte := (s.rateOf s.cmd.rawCommand s.cmd.highSpeedFlag).2
        cmd := { s.cmd with state := s.cmd.state + 1 }
        out := s.out ++ nakActions (s.rateOf s.cmd.rawCommand s.cmd.highSpeedFlag) s.prof.cyclesToACKSent
        wire := s.wire.after s.now 0
          (nakActions (s.rateOf s.cmd.rawCommand s.cmd.highSpeedFlag) s.prof.cyclesToACKSent) } := by
  apply State.ext_fields <;> first | rfl | simp [beginTransferNAKData, nakActions]

theorem beginTransferNAKCommand_eq (s : State) :
    beginTransferNAKCommand s =
      { s with
        xferCyclesPerBit := (s.rateOf s.cmd.rawCommand s.cmd.highSpeedFrame).1
        xferCyclesPerByte := (s.rateOf s.cmd.rawCommand s.cmd.highSpeedFrame).2
        cmd := { s.cmd with state := s.cmd.state + 1 }
        out := s.out ++ nakActions (s.rateOf s.cmd.rawCommand s.cmd.highSpeedFrame) (satSub (nakDeadline s) s.now)
        wire := s.wire.after s.now 0
          (nakActions (s.rateOf s.cmd.rawCommand s.cmd.highSpeedFrame) (satSub (nakDeadline s) s.now)) } := by
  apply State.ext_fields <;> first | rfl | simp [beginTransferNAKCommand, nakActions, nakDeadline]

theorem beginTransferComplete_eq (s : State) :
    beginTransferComplete s =
      { s with
        xferCyclesPerBit := (s.rateOf s.cmd.rawCommand s.cmd.highSpeedFlag).1
        xferCyclesPerByte := (s.rateOf s.cmd.rawCommand s.cmd.highSpeedFlag).2
        cmd := { s.cmd with state := s.cmd.state + 1 }
        lastOpError := if s.cmd.code = .status then s.lastOpError else false
        out := s.out ++ completeActions (s.rateOf s.cmd.rawCommand s.cmd.highSpeedFlag)
        wire := s.wire.after s.now 0 (completeActions (s.rateOf s.cmd.rawCommand s.cmd.highSpeedFlag)) } := by
  by_cases h : s.cmd.code = .status <;>
  apply State.ext_fields <;> first | rfl | simp [beginTransferComplete, completeActions, noteResult, h] <;> rfl

theorem beginTransferError_eq (s : State) :
    beginTransferError s =
      { s with
        xferCyclesPerBit := (s.rateOf s.cmd.rawCommand s.cmd.highSpeedFlag).1
        xferCyclesPerByte := (s.rateOf s.cmd.rawCommand s.cmd.highSpeedFlag).2
        cmd := { s.cmd with state := s.cmd.state + 1 }
        lastOpError := true
        out := s.out ++ errorActions (s.rateOf s.cmd.rawCommand s.cmd.highSpeedFlag)
        wire := s.wire.after s.now 0 (errorActions (s.rateOf s.cmd.rawCommand s.cmd.highSpeedFlag)) } := by
  apply State.ext_fields <;> first | rfl | simp [beginTransferError, errorActions]

theorem sentResult_eq (b : Bool) (n : Nat) (s : State) :
    sentResult b n s =
      { s with
        xferCyclesPerBit := (s.rateOf s.cmd.rawCommand s.cmd.highSpeedFlag).1
        xferCyclesPerByte := (s.rateOf s.cmd.rawCommand s.cmd.highSpeedFlag).2
        cmd := { s.cmd with state := s.cmd.state + 1 + 1 }
        lastOpError := if s.cmd.code = .status then s.lastOpError else !b
        out := s.out ++ resultActions (s.rateOf s.cmd.rawCommand s.cmd.highSpeedFlag) b
          (dataFrameDelay s.prof s.cmd.highSpeedFlag n) (s.sendBytes n)
        wire := s.wire.after s.now 0 (resultActions (s.rateOf s.cmd.rawCommand s.cmd.highSpeedFlag) b
          (dataFrameDelay s.prof s.cmd.highSpeedFlag n) (s.sendBytes n)) } := by
  by_cases h : s.cmd.code = .status <;> cases b <;>
  apply State.ext_fields <;>
    first | rfl | simp [sentResult, resultActions, noteResult, h, State.sendBytes, Wire.push] <;>
      first | rfl | simp [send, bumpState, setupTransferSpeed, State.emit, Wire.push] <;> rfl

theorem armedReceive_eq (n : Nat) (s : State) :
    armedReceive n s =
      { s with
        xferCyclesPerBit := (s.rateOf s.cmd.rawCommand s.cmd.highSpeedFlag).1
        xferCyclesPerByte := (s.rateOf s.cmd.rawCommand s.cmd.highSpeedFlag).2
        cmd := { s.cmd with rxChecksumOK := false, rxLen := 0, state := s.cmd.state + 1 }
        rxOffset := 0
        out := s.out ++ receiveActions (s.rateOf s.cmd.rawCommand s.cmd.highSpeedFlag) n
        wire := s.wire.after s.now (s.cmd.state + 1)
          (receiveActions (s.rateOf s.cmd.rawCommand s.cmd.highSpeedFlag) n) } := by
  apply State.ext_fields <;> first | rfl | simp [armedReceive, receiveActions]

/-! ### The cursor and the end of a command -/

theorem wait_eq (n : Word32) (s : State) :
    wait n s =
      { s with
        cmd := { s.cmd with state := n, waiting := true }
        out := s.out ++ [.insertFence n]
        wire := s.wire.after s.now 0 [.insertFence n] } := rfl

theorem endCommand_eq (s : State) :
    endCommand s =
      { s with
        cmd := s.cmd.ended
        motorOffDeadline := endDeadline s
        out := s.out ++ endActions s
        wire := s.wire.after s.now 0 (endActions s) } := by
  cases h : s.motorOffDeadline <;>
  apply State.ext_fields <;>
    first | rfl | (simp [endCommand_out]; done) |
      simp [endCommand, rearmMotorAfterCommand, clearCommand, endActions, State.motorRunning, h, Wire.push, State.emit,
        Wire.after, State.prof]

/-! ### Rotation -/

theorem advanceToNow_eq (s : State) : advanceToNow s = { s with rot := (advanceToNow s).rot } := by
  unfold advanceToNow; split <;> rfl

/-- `AdvanceToNow` changes the rotation only, and reads the motor, the rotation, the period and the clock. -/
theorem advanceToNow_of_same (u s : State) (h1 : u.motorRunning = s.motorRunning) (h2 : u.rot = s.rot)
    (h3 : u.prof = s.prof) (h4 : u.now = s.now) : advanceToNow u = { u with rot := (advanceToNow s).rot } := by
  have hp : u.period = s.period := by simp [State.period, h3]
  unfold advanceToNow
  rw [h1]
  split
  · rw [h2, h4, hp]
  · rw [← h2]

/-- A second `AdvanceToNow` at the same Cycle changes nothing. -/
theorem advanceToNow_of_advanced (u s : State) (h1 : u.motorRunning = s.motorRunning) (h2 : u.rot = (advanceToNow s).rot)
    (h3 : u.prof = s.prof) (h4 : u.now = s.now) : advanceToNow u = u := by
  have hp : u.period = s.period := by simp [State.period, h3]
  unfold advanceToNow at h2 ⊢
  rw [h1]
  split
  · rename_i hm
    rw [if_pos hm] at h2
    apply State.ext_fields <;> first | rfl | simp [h2, h4, hp, Rotation.turn]
  · rfl

theorem rotateBy_eq (c : Nat) (s : State) : rotateBy c s = { s with rot := (rotateBy c s).rot } := by
  unfold rotateBy; split <;> rfl

/-- `WarpOrDelay(cycles, 0)` after `AdvanceToNow` at the same Cycle. -/
theorem warpOrDelay_eq (c : Nat) (u s : State) (h1 : u.motorRunning = s.motorRunning)
    (h2 : u.rot = (advanceToNow s).rot) (h3 : u.prof = s.prof) (h4 : u.now = s.now)
    (h5 : u.flags.accurateSectorTiming = s.flags.accurateSectorTiming) :
    warpOrDelay c 0 u =
      { u with
        rot := s.warped c
        out := u.out ++ [s.warpAction c]
        wire := u.wire.after u.now 0 [s.warpAction c] } := by
  have hp : u.period = s.period := by simp [State.period, h3]
  have ha := advanceToNow_of_advanced u s h1 h2 h3 h4
  unfold warpOrDelay State.warped State.warpAction
  rw [h5, ha]
  split
  · apply State.ext_fields <;> first | rfl | simp [h2]
  · simp only [Nat.min_zero, Nat.sub_zero]
    rw [rotateBy_eq c u]
    apply State.ext_fields
    all_goals first | rfl | skip
    unfold rotateBy
    have h1' : (advanceToNow s).motorRunning = u.motorRunning := by simp [h1]
    have hp' : (advanceToNow s).period = u.period := by simp [hp]
    rw [h1', hp', ← h2]
    split <;> simp [h2]

/-! ### The motor and the head -/

theorem turnOnMotor_eq (s : State) :
    turnOnMotor s =
      { s with
        rot := if s.motorRunning then s.rot else { s.rot with lastUpdateCycle := s.now }
        motorOffDeadline := some (motorOnDeadline s)
        out := s.out ++ motorOnActions s
        wire := s.wire.after s.now 0 (motorOnActions s) } := by
  cases h : s.motorOffDeadline with
  | none =>
    cases hd : s.flags.driveSoundsEnabled <;>
    apply State.ext_fields <;>
      simp [turnOnMotor, emitMotorSound, motorOnActions, motorOnDeadline, State.motorRunning, h, hd, State.emit,
        Wire.push, State.prof]
  | some d =>
    by_cases hlt : d < s.now + s.prof.cyclesToMotorOff
    · have hm : max d (s.now + s.prof.cyclesToMotorOff) = s.now + s.prof.cyclesToMotorOff :=
        Nat.max_eq_right (Nat.le_of_lt hlt)
      apply State.ext_fields <;>
        simp [turnOnMotor, extendMotorTimeoutTo, motorOnActions, motorOnDeadline, State.motorRunning, h, hlt, hm,
          State.emit, Wire.push]
    · have hm : max d (s.now + s.prof.cyclesToMotorOff) = d := Nat.max_eq_left (Nat.le_of_not_lt hlt)
      apply State.ext_fields <;>
        simp [turnOnMotor, extendMotorTimeoutTo, motorOnActions, motorOnDeadline, State.motorRunning, h, hlt, hm]

theorem seekTo_eq (cyl base : Nat) (s : State) :
    seekTo cyl base s =
      { s with
        currentTrack := trackOf s.prof cyl
        out := s.out ++ seekActions s cyl base
        wire := s.wire.after s.now 0 (seekActions s cyl base) } := by
  unfold seekTo emitSeekSounds seekActions
  split
  · rw [emitAll_eq]
    apply State.ext_fields <;> first | rfl | skip
    generalize (stepCycles s.prof _).2 = n
    show s.wire.after s.now (s.cmd.state + 1) _ = s.wire.after s.now 0 _
    generalize hq : seekSounds s.prof base n = as
    have hall : ∀ a ∈ as, ∃ k, a = .seekSound k := by
      subst hq; intro a ha; simp only [seekSounds, List.mem_map] at ha; obtain ⟨i, _, rfl⟩ := ha; exact ⟨_, rfl⟩
    clear hq
    induction as with
    | nil => rfl
    | cons a as ih =>
      obtain ⟨k, rfl⟩ := hall a (by simp)
      simpa [Wire.push] using ih (fun b hb => hall b (by simp [hb]))
  · apply State.ext_fields <;> simp

/-- Turning by 0 and then by `c` is turning by `c`. -/
theorem Rotation.turn_turn (P a c : Nat) (r : Rotation) (hP : 0 < P) :
    (r.turn P a).turn P c = r.turn P (a + c) := by
  unfold Rotation.turn
  have h : (r.rotationalCounter + a) / P + ((r.rotationalCounter + a) % P + c) / P = (r.rotationalCounter + (a + c)) / P := by
    have := Nat.div_add_mod (r.rotationalCounter + a) P
    rw [show r.rotationalCounter + (a + c) = P * ((r.rotationalCounter + a) / P) + ((r.rotationalCounter + a) % P + c) by omega,
      Nat.mul_add_div hP]
  simp only [Rotation.mk.injEq, Nat.mod_add_mod, and_true]
  refine ⟨by rw [Nat.add_assoc], ?_⟩
  rw [BitVec.add_assoc, ← BitVec.ofNat_add, h]

/-- `WarpOrDelay(cycles, 0)` with the motor running and the rotation up to date. -/
theorem warpOrDelay_running (c : Nat) (w : State) (hm : w.motorRunning = true) (hl : w.rot.lastUpdateCycle = w.now)
    (hP : 0 < w.period) :
    warpOrDelay c 0 w =
      { w with
        rot := if w.flags.accurateSectorTiming then w.rot else w.rot.turn w.period c
        out := w.out ++ [w.warpAction c]
        wire := w.wire.after w.now 0 [w.warpAction c] } := by
  unfold warpOrDelay State.warpAction
  split
  · rfl
  · have h0 : (advanceToNow w).rot = w.rot.turn w.period 0 := by
      have hx : (w.rot.turn w.period 0).lastUpdateCycle = w.now := by simp [Rotation.turn, hl]
      unfold advanceToNow
      simp only [hm, if_true, hl, Nat.sub_self, ← hx]
    have h1 : rotateBy c (advanceToNow w) = { w with rot := w.rot.turn w.period c } := by
      rw [advanceToNow_eq, h0]
      unfold rotateBy
      rw [if_pos (by simpa [State.motorRunning] using hm)]
      simp only [State.period, State.prof]
      have := Rotation.turn_turn (w.params.profile w.mode w.indusVariant).cyclesPerDiskRotation 0 c w.rot hP
      rw [this, Nat.zero_add]
    simp only [Nat.min_zero, Nat.sub_zero, h1]
    rfl

/-- `WarpOrDelay(cycles, 0)` in any state. -/
theorem warpOrDelay_stale (c : Nat) (u : State) :
    warpOrDelay c 0 u =
      { u with
        rot := if u.flags.accurateSectorTiming then u.rot else u.warped c
        out := u.out ++ [u.warpAction c]
        wire := u.wire.after u.now 0 [u.warpAction c] } := by
  unfold warpOrDelay State.warped State.warpAction
  split
  · rfl
  · simp only [Nat.min_zero, Nat.sub_zero]
    rw [rotateBy_eq, advanceToNow_eq]
    rfl

/-- `State.warped` reads the motor, the rotation, the profile, the clock and the timing mode. -/
theorem State.warped_of_same (c : Nat) (u s : State) (h1 : u.motorRunning = s.motorRunning) (h2 : u.rot = s.rot)
    (h3 : u.prof = s.prof) (h4 : u.now = s.now)
    (h5 : u.flags.accurateSectorTiming = s.flags.accurateSectorTiming) : u.warped c = s.warped c := by
  have hp : u.period = s.period := by simp [State.period, h3]
  unfold State.warped rotateBy
  rw [advanceToNow_of_same u s h1 h2 h3 h4, h5]
  have hm : ({ u with rot := (advanceToNow s).rot } : State).motorRunning = (advanceToNow s).motorRunning := by
    rw [advanceToNow_eq s]; exact h1
  have hq : ({ u with rot := (advanceToNow s).rot } : State).period = (advanceToNow s).period := by
    rw [advanceToNow_eq s]; exact hp
  rw [hm, hq]
  split
  · rfl
  · split <;> rfl

theorem snapRotation_eq (pos : Nat) (s : State) :
    snapRotation pos s = { s with rot := (snapRotation pos s).rot } := by
  unfold snapRotation
  dsimp only
  rw [advanceToNow_eq]
  split <;> rfl

/-- `SnapRotation(pos)` and then `WarpOrDelay(cycles, 0)`. -/
theorem snap_warp_eq (pos c : Nat) (u : State) (hP : 0 < u.period) :
    warpOrDelay c 0 (snapRotation pos u) =
      { u with
        rot := u.snapped pos c
        out := u.out ++ [u.warpAction c]
        wire := u.wire.after u.now 0 [u.warpAction c] } := by
  cases hm : u.motorRunning with
  | false =>
    have ha : advanceToNow u = u := by unfold advanceToNow; simp [hm]
    have hs : snapRotation pos u = u := by unfold snapRotation; simp [ha, hm]
    rw [hs, warpOrDelay_stale]
    have hw : u.warped c = u.rot := by unfold State.warped rotateBy; simp [ha, hm]
    simp [hw, State.snapped, hm]
  | true =>
    obtain ⟨v, hv⟩ : ∃ v : State, v = { u with rot := { (advanceToNow u).rot with rotationalCounter := pos } } := ⟨_, rfl⟩
    have hs : snapRotation pos u = v := by
      unfold snapRotation
      dsimp only
      rw [advanceToNow_eq, if_pos (by simpa [State.motorRunning] using hm)]
      exact hv.symm
    have hl : (advanceToNow u).rot.lastUpdateCycle = u.now := by unfold advanceToNow; simp [hm]
    rw [hs, warpOrDelay_running c v (by subst hv; exact hm) (by subst hv; exact hl) (by subst hv; exact hP)]
    subst hv
    simp only [State.snapped, hm, if_true]
    rfl

/-- The mechanical part of a seek decision after `AdvanceToNow` at the same Cycle. -/
theorem spinAndSeek_eq (cyl : Nat) (u s : State) (h1 : u.motorOffDeadline = s.motorOffDeadline)
    (h2 : u.rot = (advanceToNow s).rot) (h3 : u.prof = s.prof) (h4 : u.now = s.now) (h5 : u.flags = s.flags)
    (h6 : u.currentTrack = s.currentTrack) (hP : 0 < s.period) :
    spinAndSeek cyl u =
      { u with
        rot := s.spun (spinUpDelay s + seekCycles s.prof s.currentTrack cyl)
        currentTrack := trackOf s.prof cyl
        motorOffDeadline := some (motorOnDeadline s)
        out := u.out ++ spinActions s cyl
        wire := u.wire.after u.now 0 (spinActions s cyl) } := by
  have hm : u.motorRunning = s.motorRunning := by simp [State.motorRunning, h1]
  have hd : spinUpDelay u = spinUpDelay s := by simp [spinUpDelay, h3, hm]
  have hr : (if u.motorRunning then u.rot else { u.rot with lastUpdateCycle := u.now }) = motorOnRot s := by
    unfold motorOnRot
    rw [hm, h2, h4]
    split
    · rfl
    · rename_i h
      simp [advanceToNow, h]
  have hu : (motorOnRot s).lastUpdateCycle = s.now := by
    unfold motorOnRot advanceToNow
    split <;> simp_all
  have e1 : turnOnMotor u = { u with
      rot := motorOnRot s
      motorOffDeadline := some (motorOnDeadline s)
      out := u.out ++ motorOnActions s
      wire := u.wire.after u.now 0 (motorOnActions s) } := by
    rw [turnOnMotor_eq, hr, show motorOnActions u = motorOnActions s by simp [motorOnActions, h1, h3, h4, h5],
      show motorOnDeadline u = motorOnDeadline s by simp [motorOnDeadline, h1, h3, h4]]
  unfold spinAndSeek
  simp only [hd]
  obtain ⟨v, hv⟩ : ∃ v, v = turnOnMotor u := ⟨_, rfl⟩
  rw [← hv]
  rw [e1] at hv
  have vp : v.prof = s.prof := by rw [← h3]; subst hv; rfl
  have vt : v.currentTrack = s.currentTrack := by rw [← h6]; subst hv; rfl
  have vf : v.flags = s.flags := by rw [← h5]; subst hv; rfl
  have vn : v.now = s.now := by rw [← h4]; subst hv; rfl
  rw [vp, vt]
  obtain ⟨w, hw⟩ : ∃ w, w = seekTo cyl (spinUpDelay s) v := ⟨_, rfl⟩
  rw [← hw]
  rw [seekTo_eq, vp, show seekActions v cyl (spinUpDelay s) = seekActions s cyl (spinUpDelay s) by
    simp [seekActions, vp, vt, vf]] at hw
  have wp : w.prof = s.prof := by rw [← vp]; subst hw; rfl
  have wm : w.motorRunning = true := by subst hw hv; rfl
  have wr : w.rot = motorOnRot s := by subst hw hv; rfl
  have wn : w.now = s.now := by rw [← vn]; subst hw; rfl
  have wf : w.flags = s.flags := by rw [← vf]; subst hw; rfl
  have wP : w.period = s.period := by simp [State.period, wp]
  rw [warpOrDelay_running _ w wm (by rw [wr, hu, wn]) (by rw [wP]; exact hP), wr, wP, wf,
    show w.warpAction = s.warpAction by funext c; simp [State.warpAction, wf]]
  subst hw hv
  simp only [State.spun, spinActions, List.append_assoc, Wire.after_append, h5]

/-- The mechanical part of a seek decision in any state. -/
theorem spinAndSeek_stale (cyl : Nat) (u : State) (hP : 0 < u.period) :
    spinAndSeek cyl u =
      { u with
        rot := u.spunLater (spinUpDelay u + seekCycles u.prof u.currentTrack cyl)
        currentTrack := trackOf u.prof cyl
        motorOffDeadline := some (motorOnDeadline u)
        out := u.out ++ spinActions u cyl
        wire := u.wire.after u.now 0 (spinActions u cyl) } := by
  unfold spinAndSeek
  obtain ⟨v, hv⟩ : ∃ v, v = turnOnMotor u := ⟨_, rfl⟩
  rw [← hv]
  rw [turnOnMotor_eq] at hv
  have vp : v.prof = u.prof := by subst hv; rfl
  have vt : v.currentTrack = u.currentTrack := by subst hv; rfl
  have vf : v.flags = u.flags := by subst hv; rfl
  have vn : v.now = u.now := by subst hv; rfl
  dsimp only
  rw [vp, vt]
  obtain ⟨w, hw⟩ : ∃ w, w = seekTo cyl (spinUpDelay u) v := ⟨_, rfl⟩
  rw [← hw]
  rw [seekTo_eq, vp, show seekActions v cyl (spinUpDelay u) = seekActions u cyl (spinUpDelay u) by
    simp [seekActions, vp, vt, vf]] at hw
  have wp : w.prof = u.prof := by rw [← vp]; subst hw; rfl
  have wm : w.motorRunning = true := by subst hw hv; rfl
  have wr : w.rot = if u.motorRunning then u.rot else { u.rot with lastUpdateCycle := u.now } := by subst hw hv; rfl
  have wn : w.now = u.now := by rw [← vn]; subst hw; rfl
  have wf : w.flags = u.flags := by rw [← vf]; subst hw; rfl
  have wP : w.period = u.period := by simp [State.period, wp]
  have hr : (rotateBy (spinUpDelay u + seekCycles u.prof u.currentTrack cyl) (advanceToNow w)).rot =
      (motorOnRot u).turn u.period (spinUpDelay u + seekCycles u.prof u.currentTrack cyl) := by
    generalize spinUpDelay u + seekCycles u.prof u.currentTrack cyl = c
    have hm' : (advanceToNow w).motorRunning = true := by simpa using wm
    have hp' : (advanceToNow w).period = u.period := by simpa using wP
    unfold rotateBy
    rw [if_pos hm', hp']
    show (advanceToNow w).rot.turn u.period c = _
    have ha : (advanceToNow w).rot.turn u.period 0 = (motorOnRot u).turn u.period 0 := by
      unfold advanceToNow motorOnRot
      rw [if_pos wm, wP, wn, wr]
      by_cases h : u.motorRunning = true
      · simp [h, advanceToNow, Rotation.turn]
      · simp [h, Rotation.turn]
    have h2 : ∀ r : Rotation, r.turn u.period c = (r.turn u.period 0).turn u.period c := by
      intro r; rw [Rotation.turn_turn _ _ _ _ hP, Nat.zero_add]
    rw [h2, ha, ← h2]
  rw [warpOrDelay_stale, show w.warped (spinUpDelay u + seekCycles u.prof u.currentTrack cyl) =
      if u.flags.accurateSectorTiming then (advanceToNow w).rot
      else (motorOnRot u).turn u.period (spinUpDelay u + seekCycles u.prof u.currentTrack cyl) by
    unfold State.warped; rw [wf, hr], wf, wr,
    show w.warpAction = u.warpAction by funext c; simp [State.warpAction, wf]]
  subst hw hv
  simp only [State.spunLater, spinActions, List.append_assoc, Wire.after_append]
  cases u.flags.accurateSectorTiming <;> rfl

/-- `State.spunLater` reads the motor, the rotation, the profile, the clock and the timing mode. -/
theorem State.spunLater_of_same (c : Nat) (u s : State) (h1 : u.motorRunning = s.motorRunning) (h2 : u.rot = s.rot)
    (h3 : u.prof = s.prof) (h4 : u.now = s.now)
    (h5 : u.flags.accurateSectorTiming = s.flags.accurateSectorTiming) : u.spunLater c = s.spunLater c := by
  have hp : u.period = s.period := by simp [State.period, h3]
  unfold State.spunLater motorOnRot
  rw [advanceToNow_of_same u s h1 h2 h3 h4, h1, h2, h4, h5, hp]

/-- `State.snapped` reads the same. -/
theorem State.snapped_of_same (pos c : Nat) (u s : State) (h1 : u.motorRunning = s.motorRunning) (h2 : u.rot = s.rot)
    (h3 : u.prof = s.prof) (h4 : u.now = s.now)
    (h5 : u.flags.accurateSectorTiming = s.flags.accurateSectorTiming) : u.snapped pos c = s.snapped pos c := by
  have hp : u.period = s.period := by simp [State.period, h3]
  unfold State.snapped
  rw [advanceToNow_of_same u s h1 h2 h3 h4, h1, h2, h5, hp]

end Sys2Proof.Machine
end

