-- ==== Sys2Proof/Laws/Process.lean ====
section
/-! SUPPORT. The reception of a frame and the dispatcher's loop, once: what a claimed frame runs, and when the loop
stops. -/

namespace Sys2Proof.Machine

/-! ### Admission -/

/-- The conditions on the clock, the mode, the profile and the parameters hold in an admitted state. -/
theorem requireProfile_eq_ok (s : State) (h : s.admitted) : requireProfile s = .ok s := by
  simp [requireProfile, Nat.not_le.2 h.1, h.2.1, h.2.2.1, h.2.2.2.1]

/-- An admitted state passes the test of every event. -/
theorem admit_eq_ok (s : State) (h : s.admitted) : admitEvent s = .ok s := by
  unfold admitEvent
  rw [requireProfile_eq_ok s h, Result.ok_bind, if_neg (Nat.not_le.2 h.2.2.2.2)]
  rfl

/-- `requireProfile` answers the state it was given, and only when that state meets its conditions. -/
theorem requireProfile_ok (s t : State) (h : requireProfile s = .ok t) :
    t = s ∧ s.now < Config.clockLimit ∧ s.params.hasMode s.mode = true ∧ s.prof.wf s.params.maxIdleTimer = true ∧
      s.params.wf = true := by
  unfold requireProfile at h
  split at h
  · simp at h
  split at h
  · exact absurd h (programmingError_ne_ok _ _)
  split at h
  · simp at h
  split at h
  · simp at h
  injection h with h
  refine ⟨h.symm, ?_, ?_, ?_, ?_⟩ <;> simp_all

/-- `admitEvent` answers the state it was given, and only an admitted one. -/
theorem admit_ok (s t : State) (h : admitEvent s = .ok t) : t = s ∧ s.admitted := by
  simp only [admitEvent, Result.bind_eq_ok] at h
  obtain ⟨u, hu, h⟩ := h
  obtain ⟨rfl, h1, h2, h3, h4⟩ := requireProfile_ok _ _ hu
  split at h
  · exact absurd h (programmingError_ne_ok _ _)
  · rename_i ht
    injection h with h
    exact ⟨h.symm, h1, h2, h3, h4, Nat.not_le.1 ht⟩

/-- What a table answers is an entry of it. -/
theorem mem_of_lookup {α β : Type} [BEq α] [LawfulBEq α] (l : List (α × β)) (k : α) (v : β)
    (h : l.lookup k = some v) : (k, v) ∈ l := by
  induction l with
  | nil => simp at h
  | cons e l ih =>
    rw [List.lookup_cons] at h
    split at h
    · rename_i he
      injection h with h
      obtain ⟨a, b⟩ := e
      simp only [beq_iff_eq] at he
      simp [he, ← h]
    · exact List.mem_cons_of_mem _ (ih h)

/-- With well-formed parameters a vendor window lies inside drive RAM (20_memory.md R96), an upload inside RECV, a request
for 26 sectors per track is given 26, and a block can hold every geometry `XF551Normalize` picks
(47_cmd_status_percom_misc.md R368, R369). -/
theorem Params.wf_tables (p : Params) (h : p.wf = true) :
    (∀ k a, p.tables.vendorRamWindow.lookup k = some a → a + 128 ≤ p.driveRamSize) ∧ p.indusExecLen ≤ Config.bufSize ∧
      (∀ d : Percom, beWord d.b2 d.b3 = 26 → (xf551Normalize p d).sectorsPerTrack = 26) ∧
      ∀ d : Percom, (xf551Normalize p d).representable := by
  simp only [Params.wf, Params.normalizes26, Bool.and_eq_true, decide_eq_true_eq, List.all_eq_true] at h
  obtain ⟨⟨⟨⟨⟨⟨⟨⟨_, h1⟩, h2⟩, _⟩, _⟩, g0⟩, g1⟩, g2⟩, h3, h4⟩ := h
  refine ⟨fun k a hk => h2 _ (mem_of_lookup _ _ _ hk), h1, fun d hd => ?_, fun d => ?_⟩
  swap
  · unfold xf551Normalize xf551Geometry
    split
    · exact g0
    · split
      · exact g1
      · exact g2
  unfold xf551Normalize
  cases hl : p.tables.xf551Normalize.lookup d with
  | none =>
    have : xf551Index d = 1 := by simp [xf551Index, hd]
    simpa [this, xf551Geometry] using h3
  | some k =>
    have := h4 _ (mem_of_lookup _ _ _ hl)
    simpa [asksFor26, hd] using this

/-- The period of a well-formed profile is positive. -/
theorem Profile.wf_period_pos (q : Profile) (n : Nat) (h : q.wf n = true) : 0 < q.cyclesPerDiskRotation := by
  simp only [Profile.wf, Bool.and_eq_true, decide_eq_true_eq, and_assoc] at h
  exact h.1

/-- The period of an admitted state is positive. -/
theorem State.admitted.period_pos {s : State} (h : s.admitted) : 0 < s.period := Profile.wf_period_pos _ _ h.2.2.1

/-! ### Reception -/

/-- An accepted row decodes to its logical command and flags (30_encoding.md R117). -/
theorem decodeRow_accepted (s : State) (f : Operands) (r : Row) (hs : s.speedAccepted f)
    (ho : r.opcode.isSome = true) (hg : r.gate s.prof = true) :
    decodeRow s.prof s.bus f.h (some r) = ⟨r.logical, r.isRead, r.verify, s.replyFast f, s.frameFast⟩ := by
  obtain ⟨h1, h2⟩ := hs
  have hsp : frameSpeed s.prof s.bus = some s.frameFast := by
    unfold frameSpeed State.frameFast
    rcases h1 with h | ⟨a, b, c⟩
    · simp [h]
    · cases hb : s.bus.standardRate <;> simp [a, b, c]
  unfold decodeRow
  rw [hsp]
  simp only [ho, hg, Bool.and_self, if_true]
  have : (f.h && !s.prof.supportsHighSpeedCmdBit) = false := by
    cases hh : f.h <;> simp_all
  simp [this, State.replyFast, State.frameFast]


/-- `BeginCommand` on the fresh record of an accepted frame. -/
theorem beginCommand_fresh (s : State) (f : Operands) (op : BitVec 7) (l : LogicalCommand) (rd vf : Bool) :
    beginCommand ⟨l, rd, vf, s.replyFast f, s.frameFast⟩ (commandByte f.h op) (sectorOperand f)
      ((freshCommand ⟨l, rd, vf, s.replyFast f, s.frameFast⟩ s).emit .beginCommand) = s.started f op l rd vf := by
  unfold beginCommand
  dsimp only
  rw [advanceToNow_of_same ((freshCommand ⟨l, rd, vf, s.replyFast f, s.frameFast⟩ s).emit .beginCommand) s rfl rfl rfl rfl]
  apply State.ext_fields <;> first | rfl | simp [State.started, freshCommand, startActions, State.emit]

/-- The meaning of an instruction, once its frame is claimed and accepted: the dispatcher runs from `State.started`. -/
theorem runRow_ready (s : State) (f : Operands) (r : Row) (op : BitVec 7) (hr : s.ready f) (hs : s.speedAccepted f)
    (ho : r.opcode = some op) (hg : r.gate s.prof = true) :
    runRow f r s =
      (processCommand (s.started f op r.logical r.isRead r.verify) >>= fun t =>
        .ok { t with reply := .start }).toOutcome := by
  obtain ⟨had, he, hd, hc⟩ := hr
  have ha : s.active = false := by simp [State.active, hc]
  have hcl : s.claims f = true := by simp [State.claims, hd]
  unfold runRow receiveFrame
  rw [admit_eq_ok s had, Result.ok_bind, if_neg (by simp [he]), if_neg (by simp [hcl]), if_neg (by simp [ha])]
  simp only [claimFrame, decodeRow_accepted s f r hs (by simp [ho]) hg, ho, Option.getD_some, beginCommand_fresh]
  rfl

/-- State 0 of an accepted read, from the reception of its frame (44_cmd_read.md R293). -/
theorem readAccept_started (s : State) (f : Operands) (op : BitVec 7) (l : LogicalCommand) (rd vf : Bool) :
    readAccept (s.started f op l rd vf) =
      { s with
        rot := (advanceToNow s).rot
        cmd := { s.startedCommand f op l rd vf with len := xferLen s.geom (sectorOperand f).toNat, state := 10 }
        xferCyclesPerBit := (s.rateOf (commandByte f.h op) s.frameFast).1
        xferCyclesPerByte := (s.rateOf (commandByte f.h op) s.frameFast).2
        out := s.out ++ (startActions ++ ([.checkSectorBreakpoint (sectorOperand f)] ++
          ackActions (s.rateOf (commandByte f.h op) s.frameFast) s.prof.cyclesToACKSent))
        wire := s.wire.after s.now 0 (startActions ++ ([.checkSectorBreakpoint (sectorOperand f)] ++
          ackActions (s.rateOf (commandByte f.h op) s.frameFast) s.prof.cyclesToACKSent)) } := by
  simp only [readAccept, goto, beginTransferACKCmd_eq, emit_eq, State.started, State.startedCommand, State.rateOf,
    State.profileKey, State.prof, List.append_assoc, Wire.after_append]
  congr 1

/-- The loop stops at a state that is idle or waiting. -/
theorem processLoop_finished (n : Nat) (s : State) (h : (s.active && !s.cmd.waiting) = false) :
    processLoop n s = .ok s := by
  cases n <;> simp [processLoop, h]

/-- One handler invocation settles the event. -/
theorem processCommand_once (s t : State) (h : handler s = .ok t) (ha : s.active = true) (hw : s.cmd.waiting = false)
    (hf : (t.active && !t.cmd.waiting) = false) : processCommand s = .ok t := by
  unfold processCommand processLoop
  simp [ha, hw, h, processLoop_finished _ _ hf]

/-- Two handler invocations settle the event. -/
theorem processCommand_twice (s u t : State) (h : handler s = .ok u) (ha : s.active = true) (hw : s.cmd.waiting = false)
    (hu : handler u = .ok t) (ha' : u.active = true) (hw' : u.cmd.waiting = false)
    (hf : (t.active && !t.cmd.waiting) = false) : processCommand s = .ok t := by
  unfold processCommand processLoop
  simp only [ha, hw, h, Bool.not_false, Bool.and_self, if_true, Result.ok_bind]
  unfold processLoop
  simp [ha', hw', hu, processLoop_finished _ _ hf]

/-! ### Events that are not frames -/

/-- A fence the command waits for resumes it at the fence's id. -/
theorem handle_fence (s : State) (id : Word32) (h : s.awaits id) (ha : s.cmd.code ≠ .none) :
    handle (.serialFence id) s = (processCommand (s.fenced id)).toOutcome := by
  show (deliver _ s).toOutcome = _
  unfold deliver
  rw [admit_eq_ok s h.1, Result.ok_bind]
  show (onSerialFence id s).toOutcome = _
  unfold onSerialFence
  rw [if_pos (by simp [State.active, ha]), if_pos ⟨h.2.1, h.2.2.symm⟩]
  rfl

/-- One handler invocation settles the fence. -/
theorem handle_fence_once (s t : State) (id : Word32) (h : s.awaits id) (ha : s.cmd.code ≠ .none)
    (hh : handler (s.fenced id) = .ok t) (hf : (t.active && !t.cmd.waiting) = false) :
    handle (.serialFence id) s = .next t := by
  rw [handle_fence s id h ha, processCommand_once _ t hh (by simp [State.active, State.fenced, ha]) rfl hf]
  rfl

end Sys2Proof.Machine
end

