-- ==== Sys2Proof/Laws/Control.lean ====
section
/-! SUPPORT. Where a handler invocation can leave the command: suspended at a listed state, ended, or at the target of a
`Goto` (42_dispatch.md R218). -/

namespace Sys2Proof.Machine

theorem State.settled_of_idle (t : State) (h : t.cmd.code = .none ∧ t.cmd.waiting = false ∧ t.cmd.state = 0) :
    t.settled = true := by
  simp [State.settled, State.active, h.1, h.2.1, h.2.2]

theorem State.settled_of_waiting (t : State) (hc : t.cmd.code ≠ .none) (hw : t.cmd.waiting = true)
    (hs : t.cmd.state.toNat ∈ t.cmd.code.states) : t.settled = true := by
  have ha : t.active = true := by simp [State.active, hc]
  simp [State.settled, ha, hw, hs]

theorem endCommand_settled (s : State) : (endCommand s).settled = true :=
  State.settled_of_idle _ (by simp [ActiveCommand.ended])

theorem takeException_settled (x : Exception) (s t : State) (h : takeException x s = .ok t) : t.settled = true :=
  State.settled_of_idle _ (takeException_cmd x s t h)

theorem wait_settled (n : Word32) (s : State) (hc : s.cmd.code ≠ .none) (hn : n.toNat ∈ s.cmd.code.states) :
    (wait n s).settled = true :=
  State.settled_of_waiting _ (by simpa using hc) (by simp) (by simpa using hn)

/-! ### The common path -/

theorem seekDecision_settled (s : State) (hc : s.cmd.code = .read ∨ s.cmd.code = .write) :
    (seekDecision s).settled = true := by
  have e : ∀ cyl (u : State), u.cmd = (noteTarget cyl s).cmd → (wait 13 u).settled = true := by
    intro cyl u hu
    have hcode : u.cmd.code = s.cmd.code := by rw [hu]; rfl
    apply wait_settled
    · rw [hcode]; rcases hc with h | h <;> rw [h] <;> decide
    · rw [hcode]; rcases hc with h | h <;> rw [h] <;> decide
  apply e (cylinderOf s.params s.geom.toLayout s.cmd.sector.toNat)
  split <;> simp

theorem rwState10_settled (s t : State) (hc : s.cmd.code = .read ∨ s.cmd.code = .write)
    (h : rwState10 s = .ok t) : t.settled = true := by
  unfold rwState10 at h
  split at h
  · split at h
    · exact takeException_settled _ _ _ h
    · simp only [Except.ok.injEq] at h; subst h; exact seekDecision_settled _ (by simpa using hc)
  · simp only [Except.ok.injEq] at h; subst h; exact seekDecision_settled _ hc

theorem noteResolution_cmd (r : Resolution) (s : State) :
    (noteResolution r s).1.cmd.code = s.cmd.code ∧ (noteResolution r s).1.cmd.state = s.cmd.state ∧
      (noteResolution r s).1.prof = s.prof ∧ (noteResolution r s).1.cmd.bufferHit = s.cmd.bufferHit := by
  cases r <;> exact ⟨rfl, rfl, rfl, rfl⟩

theorem maxAttempts_le (s : State) : maxAttempts s ≤ 4 := by unfold maxAttempts; split <;> (try split) <;> omega

theorem rwSearch_settled (s : State) (hc : s.cmd.code = .read ∨ s.cmd.code = .write)
    (hs : s.cmd.state.toNat ∈ [13, 14, 15, 16]) : (rwSearch s).settled = true := by
  obtain ⟨u, r, hu, h⟩ := rwSearch_cases s
  have hu : u.cmd = s.cmd := by rcases hu with rfl | ⟨n, rfl⟩ <;> simp
  have hn := noteResolution_cmd r u
  generalize hx : noteResolution r u = x at h hn
  obtain ⟨w, kind, rot⟩ := x
  simp only at h hn
  have hcode : w.cmd.code = s.cmd.code := by rw [hn.1, hu]
  have hstate : w.cmd.state = s.cmd.state := by rw [hn.2.1, hu]
  have hne : w.cmd.code ≠ .none := by rw [hcode]; rcases hc with h | h <;> rw [h] <;> decide
  rcases h with ⟨_, hlt, h⟩ | h
  · rw [h]
    simp only [searchAgain]
    apply wait_settled
    · simpa using hne
    · have h4 := maxAttempts_le w
      have hatt : w.cmd.state.toNat - 12 < 4 := by
        have := hlt; unfold attempt at this; omega
      rw [hstate] at hatt ⊢
      have hcases : s.cmd.state = 13#32 ∨ s.cmd.state = 14#32 ∨ s.cmd.state = 15#32 := by
        simp only [List.mem_cons, List.not_mem_nil, or_false] at hs
        rcases hs with hs | hs | hs | hs
        · exact .inl (BitVec.eq_of_toNat_eq hs)
        · exact .inr (.inl (BitVec.eq_of_toNat_eq hs))
        · exact .inr (.inr (BitVec.eq_of_toNat_eq hs))
        · omega
      have hcc : (warpOrDelay (rot + (retryPenalty w (attempt s.cmd.state) kind).1) 0
          (emitSeekSounds rot (retryPenalty w (attempt s.cmd.state) kind).2 w)).cmd.code = s.cmd.code := by
        simp [hcode]
      rw [hcc]
      rcases hcases with e | e | e <;> rw [e] <;> rcases hc with h | h <;> rw [h] <;> decide
  · rw [h]
    simp only [searchDone]
    apply wait_settled
    · simpa using hne
    · have hcc : (warpOrDelay rot 0 (dropBuffer kind w)).cmd.code = s.cmd.code := by simp [hcode]
      rw [hcc]; rcases hc with h | h <;> rw [h] <;> decide

/-! ### The handlers -/

/-- What a handler invocation can end in: a settled state, or a `Goto` to a later state of the same command. -/
def ranTo (s t : State) (target : Word32) : Prop :=
  t.cmd.code = s.cmd.code ∧ t.cmd.state = target ∧ t.cmd.waiting = s.cmd.waiting

theorem readOutcomeTime_cmd (s : State) : (readOutcomeTime s).cmd = s.cmd := by
  unfold readOutcomeTime; split <;> simp

theorem readOutcomeData_cmd (s t : State) (h : readOutcomeData s = .ok t) : t.cmd = s.cmd := by
  unfold readOutcomeData at h
  split at h
  · simp only [Except.ok.injEq] at h; rw [← h]
  · simp only [Result.bind_eq_ok, Result.pure_eq, Except.ok.injEq] at h
    obtain ⟨⟨b, u⟩, hr, rfl⟩ := h
    obtain ⟨_, _, _, _, _, _, rfl⟩ := (readPhys_eq_ok _ _ _ _ _).1 hr
    simp only
    split
    · simp
    · unfold readWeak; split <;> simp

theorem readHandler_ran (s t : State) (hc : s.cmd.code = .read) (h : readHandler s = .ok t) :
    t.settled = true ∨ (s.cmd.state = 0 ∧ ranTo s t 10) := by
  have hne : s.cmd.code ≠ .none := by rw [hc]; decide
  unfold readHandler at h
  split at h
  · rename_i h0
    have hz : s.cmd.state = 0 := BitVec.eq_of_toNat_eq h0
    unfold readState0 at h
    split at h
    · simp only [readRamWindow, Result.bind_eq_ok, sendResult_eq_ok, Result.pure_eq, Except.ok.injEq] at h
      obtain ⟨_, _, _, _, rfl⟩ := h
      exact .inl (endCommand_settled _)
    · split at h
      · simp only [Except.ok.injEq] at h
        subst h
        exact .inr ⟨hz, by simp [ranTo, readAccept]⟩
      · exact .inl (takeException_settled _ _ _ h)
  · exact .inl (rwState10_settled _ _ (.inl hc) h)
  · rename_i e; exact .inl (Except.ok.inj h ▸ rwSearch_settled _ (.inl hc) (by rw [e]; decide))
  · rename_i e; exact .inl (Except.ok.inj h ▸ rwSearch_settled _ (.inl hc) (by rw [e]; decide))
  · rename_i e; exact .inl (Except.ok.inj h ▸ rwSearch_settled _ (.inl hc) (by rw [e]; decide))
  · rename_i e; exact .inl (Except.ok.inj h ▸ rwSearch_settled _ (.inl hc) (by rw [e]; decide))
  · simp only [readState20, Result.bind_eq_ok, sendResult_eq_ok, Result.pure_eq, Except.ok.injEq] at h
    obtain ⟨u, hu, _, ⟨_, rfl⟩, rfl⟩ := h
    have huc := readOutcomeData_cmd _ _ hu
    rw [readOutcomeTime_cmd] at huc
    left
    apply wait_settled <;> simp [noteRead, huc, hc, LogicalCommand.states]
  · simp only [readState21, Except.ok.injEq] at h
    subst h
    exact .inl (endCommand_settled _)
  · exact absurd h (programmingError_ne_ok _ _)

theorem writeResponse_settled (s t : State) (h : writeResponse s = .ok t) : t.settled = true := by
  unfold writeResponse at h
  split at h
  · simp only [Except.ok.injEq] at h
    subst h
    exact endCommand_settled _
  · exact takeException_settled _ _ _ h

theorem writeHandler_ran (s t : State) (hc : s.cmd.code = .write) (h : writeHandler s = .ok t) :
    t.settled = true := by
  unfold writeHandler at h
  split at h
  · unfold writeState0 at h
    split at h
    · simp only [writeRamWindow, Result.bind_eq_ok, receivePayload_eq_ok, Result.pure_eq, Except.ok.injEq] at h
      obtain ⟨_, ⟨_, rfl⟩, rfl⟩ := h
      apply wait_settled <;> simp [hc, LogicalCommand.states]
    · split at h
      · simp only [writeAccept, Result.bind_eq_ok, receivePayload_eq_ok, Result.pure_eq, Except.ok.injEq] at h
        obtain ⟨_, ⟨_, rfl⟩, rfl⟩ := h
        apply wait_settled <;> simp [hc, LogicalCommand.states]
      · exact takeException_settled _ _ _ h
  · exact rwState10_settled _ _ (.inr hc) h
  · rename_i e; exact Except.ok.inj h ▸ rwSearch_settled _ (.inr hc) (by rw [e]; decide)
  · rename_i e; exact Except.ok.inj h ▸ rwSearch_settled _ (.inr hc) (by rw [e]; decide)
  · rename_i e; exact Except.ok.inj h ▸ rwSearch_settled _ (.inr hc) (by rw [e]; decide)
  · rename_i e; exact Except.ok.inj h ▸ rwSearch_settled _ (.inr hc) (by rw [e]; decide)
  · unfold writeState20 at h
    simp only at h
    split at h
    · exact takeException_settled _ _ _ h
    · split at h
      · exact takeException_settled _ _ _ h
      · split at h
        · exact takeException_settled _ _ _ h
        · simp only [writeOutcome, Result.bind_eq_ok] at h
          obtain ⟨⟨b, u⟩, _, h⟩ := h
          exact writeResponse_settled _ _ h
  · unfold writeState50 at h
    split at h
    · exact takeException_settled _ _ _ h
    · simp only [Result.bind_eq_ok, Result.pure_eq, Except.ok.injEq] at h
      obtain ⟨u, hu, rfl⟩ := h
      simp only [storeRamWindow, Result.bind_eq_ok, requireRamWindow, requireWithin_eq_ok, Result.pure_eq,
        Except.ok.injEq] at hu
      obtain ⟨_, ⟨_, rfl⟩, rfl⟩ := hu
      apply wait_settled <;> simp [hc, LogicalCommand.states]
  · simp only [writeState60, Except.ok.injEq] at h
    subst h
    exact endCommand_settled _
  · exact absurd h (programmingError_ne_ok _ _)

theorem formatFail_settled (o : Option Byte) (s t : State) (h : formatFail o s = .ok t) : t.settled = true := by
  simp only [formatFail, Result.bind_eq_ok, requireWithin_eq_ok] at h
  obtain ⟨_, _, h⟩ := h
  exact takeException_settled _ _ _ h

theorem acceptPercom_cmd (d : Percom) (s : State) : (acceptPercom d s).cmd = s.cmd := by
  simp only [acceptPercom]; split <;> simp [applyPercomDensity]

theorem setPercomData_cmd (d : Percom) (s : State) : (setPercomData d s).2.cmd = s.cmd := by
  unfold setPercomData
  split
  · exact acceptPercom_cmd _ _
  · split
    · exact acceptPercom_cmd _ _
    · rfl

theorem formatDensity_cmd (s : State) : (formatDensity s).2.cmd = s.cmd := by
  have h1 := setPercomData_cmd (percomAt s.recvBuf) s
  simp only [formatDensity]
  split
  · split
    · split
      · exact h1
      · exact h1
    · exact h1
  · split
    · split <;> rfl
    · rfl

theorem formatEnabledChecks_ran (s t : State) (h : formatEnabledChecks s = .ok t) :
    t.settled = true ∨ ranTo s t 3 := by
  unfold formatEnabledChecks at h
  split at h
  · exact .inl (formatFail_settled _ _ _ h)
  · split at h
    · exact .inl (formatFail_settled _ _ _ h)
    · simp only at h
      split at h
      · simp only [Except.ok.injEq] at h
        subst h
        exact .inr (by simp [ranTo, formatDensity_cmd])
      · exact .inl (formatFail_settled _ _ _ h)

theorem formatState3_settled (s t : State) (hc : s.cmd.code = .format) (h : formatState3 s = .ok t) :
    t.settled = true := by
  simp only [formatState3] at h
  split at h
  · exact formatFail_settled _ _ _ h
  · simp only [Except.ok.injEq] at h
    subst h
    have e : ∀ v : State, (formatRefresh v).cmd.code = v.cmd.code := by
      intro v; simp only [formatRefresh, clearSectorArrays]
      unfold refreshGeometry; split <;> rfl
    apply wait_settled <;> simp [e, hc, LogicalCommand.states]

theorem formatState5_settled (s t : State) (h : formatState5 s = .ok t) : t.settled = true := by
  simp only [formatState5, Result.bind_eq_ok, Result.pure_eq, Except.ok.injEq] at h
  obtain ⟨_, _, _, _, rfl⟩ := h
  exact endCommand_settled _

theorem formatHandler_ran (s t : State) (hc : s.cmd.code = .format) (h : formatHandler s = .ok t) :
    t.settled = true ∨ ranTo s t 3 ∧ s.cmd.state = 2 ∨ ranTo s t 5 ∧ s.cmd.state = 4 := by
  unfold formatHandler at h
  split at h
  · simp only [formatState0, Result.bind_eq_ok, Result.pure_eq, Except.ok.injEq] at h
    obtain ⟨u, hu, rfl⟩ := h
    left
    unfold formatPayload at hu
    split at hu
    · obtain ⟨_, rfl⟩ := (receivePayload_eq_ok _ _ _).1 hu
      apply wait_settled <;> simp [hc, LogicalCommand.states]
    · simp only [Except.ok.injEq] at hu
      subst hu
      apply wait_settled <;> simp [hc, LogicalCommand.states]
  · rename_i h2
    have hz : s.cmd.state = 2 := BitVec.eq_of_toNat_eq h2
    unfold formatState2 at h
    split at h
    · split at h
      · exact .inl (takeException_settled _ _ _ h)
      · rcases formatEnabledChecks_ran _ _ h with h | h
        · exact .inl h
        · exact .inr (.inl ⟨by simpa [ranTo] using h, hz⟩)
    · rcases formatEnabledChecks_ran _ _ h with h | h
      · exact .inl h
      · exact .inr (.inl ⟨h, hz⟩)
  · exact .inl (formatState3_settled _ _ hc h)
  · rename_i h4
    have hz : s.cmd.state = 4 := BitVec.eq_of_toNat_eq h4
    unfold formatState4 at h
    simp only at h
    split at h
    · simp only [Except.ok.injEq] at h
      subst h
      exact .inr (.inr ⟨by simp [ranTo], hz⟩)
    · simp only [Except.ok.injEq] at h
      subst h
      left
      apply wait_settled <;> simp [hc, LogicalCommand.states]
  · exact .inl (formatState5_settled _ _ h)
  · exact absurd h (programmingError_ne_ok _ _)

theorem writePercomHandler_settled (s t : State) (hc : s.cmd.code = .writePercom)
    (h : writePercomHandler s = .ok t) : t.settled = true := by
  unfold writePercomHandler at h
  split at h
  · simp only [writePercomState0, Result.bind_eq_ok, receivePayload_eq_ok, Result.pure_eq, Except.ok.injEq] at h
    obtain ⟨_, ⟨_, rfl⟩, rfl⟩ := h
    apply wait_settled <;> simp [hc, LogicalCommand.states]
  · unfold writePercomState1 at h
    split at h
    · exact takeException_settled _ _ _ h
    · simp only at h
      split at h
      · simp only [Except.ok.injEq] at h; subst h; exact endCommand_settled _
      · exact takeException_settled _ _ _ h
  · exact absurd h (programmingError_ne_ok _ _)

theorem indusHandler_settled (s t : State) (hc : s.cmd.code = .indusExecute) (h : indusHandler s = .ok t) :
    t.settled = true := by
  unfold indusHandler at h
  split at h
  · simp only [indusState0, Result.bind_eq_ok, receivePayload_eq_ok, Result.pure_eq, Except.ok.injEq] at h
    obtain ⟨_, ⟨_, rfl⟩, rfl⟩ := h
    apply wait_settled <;> simp [hc, LogicalCommand.states]
  · unfold indusState1 at h
    split at h
    · exact takeException_settled _ _ _ h
    · simp only [Result.bind_eq_ok, Result.pure_eq, Except.ok.injEq] at h
      obtain ⟨_, _, _, _, rfl⟩ := h
      exact endCommand_settled _
  · exact absurd h (programmingError_ne_ok _ _)

theorem onlyState0_settled (f : State → Result State) (s t : State)
    (hf : ∀ t, f s = .ok t → t.settled = true) (h : onlyState0 f s = .ok t) : t.settled = true := by
  unfold onlyState0 at h
  split at h
  · exact hf t h
  · exact absurd h (programmingError_ne_ok _ _)

theorem acknowledge_settled (f : State → Result State) (hf : f = fun s => .ok (acknowledgeAndComplete s))
    (s t : State) (h : onlyState0 f s = .ok t) : t.settled = true := by
  refine onlyState0_settled f s t (fun t h => ?_) h
  subst hf
  simp only [Except.ok.injEq] at h; subst h; exact endCommand_settled _

/-- Every handler invocation ends settled, or at the later state a `Goto` names (42_dispatch.md R218). -/
theorem handler_ran (s t : State) (ha : s.active = true) (h : handler s = .ok t) :
    t.settled = true ∨
      (s.cmd.code = .read ∧ s.cmd.state = 0 ∧ ranTo s t 10) ∨
      (s.cmd.code = .format ∧ (s.cmd.state = 2 ∧ ranTo s t 3 ∨ s.cmd.state = 4 ∧ ranTo s t 5)) := by
  unfold handler at h
  split at h <;> rename_i hc
  · simp [State.active, hc] at ha
  · refine .inl (onlyState0_settled _ _ _ (fun t h => ?_) h)
    simp only [statusState0, Result.bind_eq_ok, Result.pure_eq, Except.ok.injEq] at h
    obtain ⟨_, _, rfl⟩ := h
    exact endCommand_settled _
  · rcases readHandler_ran s t hc h with h | h
    · exact .inl h
    · exact .inr (.inl ⟨hc, h⟩)
  · exact .inl (writeHandler_ran s t hc h)
  · rcases formatHandler_ran s t hc h with h | h | h
    · exact .inl h
    · exact .inr (.inr ⟨hc, .inl ⟨h.2, h.1⟩⟩)
    · exact .inr (.inr ⟨hc, .inr ⟨h.2, h.1⟩⟩)
  · refine .inl ?_
    unfold readPercomHandler at h
    split at h
    · simp only [readPercomState0, Result.bind_eq_ok, Result.pure_eq, Except.ok.injEq] at h
      obtain ⟨_, _, rfl⟩ := h
      exact endCommand_settled _
    · exact absurd h (programmingError_ne_ok _ _)
  · exact .inl (writePercomHandler_settled s t hc h)
  · refine .inl (onlyState0_settled _ _ _ (fun t h => ?_) h)
    simp only [hsIndexState0, Result.bind_eq_ok, Result.pure_eq, Except.ok.injEq] at h
    obtain ⟨_, _, rfl⟩ := h
    exact endCommand_settled _
  · exact .inl (acknowledge_settled _ rfl s t h)
  · exact .inl (acknowledge_settled _ rfl s t h)
  · exact .inl (acknowledge_settled _ rfl s t h)
  · exact .inl (acknowledge_settled _ rfl s t h)
  · exact .inl (indusHandler_settled s t hc h)
  · exact .inl (onlyState0_settled _ _ _ (fun t h => takeException_settled _ _ _ h) h)

end Sys2Proof.Machine
end

