-- ==== Sys2Proof/Laws/Spaces.lean ====
section
/-! SUPPORT. Every handler keeps the memories canonical. -/

namespace Sys2Proof.Machine

/-- Two states hold the same spaces. -/
def SameSpaces (s t : State) : Prop :=
  t.sendBuf = s.sendBuf ∧ t.recvBuf = s.recvBuf ∧ t.driveRAM = s.driveRAM ∧ t.disk = s.disk

theorem SameSpaces.wf {s t : State} (h : SameSpaces s t) (hs : s.memoriesWf = true) : t.memoriesWf = true := by
  simpa [State.memoriesWf, h.1, h.2.1, h.2.2.1, h.2.2.2] using hs

theorem State.memoriesWf_iff (s : State) :
    s.memoriesWf = true ↔
      s.sendBuf.wf = true ∧ s.recvBuf.wf = true ∧ s.driveRAM.wf = true ∧ s.disk.dataWf = true := by
  simp [State.memoriesWf, and_assoc]

theorem writeSend_memoriesWf (o : Nat) (b : List Byte) (s : State) (h : s.memoriesWf = true) :
    (writeSend o b s).memoriesWf = true := by
  rw [State.memoriesWf_iff] at h ⊢
  exact ⟨Memory.writeBytes_wf _ _ _ h.1, h.2⟩

theorem Disk.dataWf_image (d : Disk) (img : Image) :
    ({ d with image := some img } : Disk).dataWf = img.phys.all (fun x => x.data.wf) := rfl

theorem PhysSector.store_wf (x : PhysSector) (n : Nat) (b : List Byte) : (x.store n b).data.wf = true := by
  unfold PhysSector.store
  split
  · exact Memory.empty_wf _
  · split
    · exact Memory.writeBytes_wf _ _ _ (Memory.empty_wf _)
    · exact Memory.writeBytes_wf _ _ _ (Memory.empty_wf _)

theorem Disk.dataWf_of_image (d : Disk) (img : Image) (h : d.dataWf = true) (hi : d.image = some img) :
    img.phys.all (fun x => x.data.wf) = true := by simpa [Disk.dataWf, hi] using h

theorem takeException_memoriesWf (x : Exception) (s t : State) (h : takeException x s = .ok t)
    (hs : s.memoriesWf = true) : t.memoriesWf = true :=
  SameSpaces.wf (takeException_memories x s t h) hs

theorem advancePhantom_memoriesWf (v n : Nat) (s : State) (hs : s.memoriesWf = true) :
    (advancePhantom v n s).memoriesWf = true := SameSpaces.wf (by simp [SameSpaces]) hs

theorem noteResolution_same (r : Resolution) (s : State) : SameSpaces s (noteResolution r s).1 := by
  cases r <;> exact ⟨rfl, rfl, rfl, rfl⟩

/-- A search attempt touches no memory and no disk. -/
theorem rwSearch_same (s : State) : SameSpaces s (rwSearch s) := by
  obtain ⟨u, r, hu, h⟩ := rwSearch_cases s
  have hu : SameSpaces s u := by rcases hu with rfl | ⟨n, rfl⟩ <;> simp [SameSpaces]
  have hn := noteResolution_same r u
  have hw : SameSpaces s (noteResolution r u).1 :=
    ⟨hn.1.trans hu.1, hn.2.1.trans hu.2.1, hn.2.2.1.trans hu.2.2.1, hn.2.2.2.trans hu.2.2.2⟩
  rcases h with ⟨_, _, h⟩ | h <;> rw [h] <;> simpa [SameSpaces, searchAgain, searchDone] using hw

/-- A seek decision touches no memory and no disk. -/
theorem seekDecision_same (s : State) : SameSpaces s (seekDecision s) := by
  unfold seekDecision
  dsimp only
  split <;> simp [SameSpaces]

theorem rwState10_memoriesWf (s t : State) (h : rwState10 s = .ok t) (hs : s.memoriesWf = true) :
    t.memoriesWf = true := by
  unfold rwState10 at h
  split at h
  · split at h
    · exact takeException_memoriesWf _ _ _ h hs
    · exact Except.ok.inj h ▸ SameSpaces.wf (seekDecision_same _) (SameSpaces.wf (by simp [SameSpaces]) hs)
  · exact Except.ok.inj h ▸ SameSpaces.wf (seekDecision_same _) hs

theorem readHandler_memoriesWf (s t : State) (h : readHandler s = .ok t) (hs : s.memoriesWf = true) :
    t.memoriesWf = true := by
  unfold readHandler at h
  split at h
  · unfold readState0 at h
    split at h
    · simp only [readRamWindow, Result.bind_eq_ok, requireRamWindow, requireWithin_eq_ok, sendResult_eq_ok,
        Result.pure_eq, Except.ok.injEq] at h
      obtain ⟨_, ⟨_, rfl⟩, _, ⟨_, rfl⟩, rfl⟩ := h
      rw [State.memoriesWf_iff] at hs ⊢
      exact ⟨by simpa using Memory.writeBytes_wf _ _ _ hs.1, by simpa using hs.2⟩
    · split at h
      · simp only [Except.ok.injEq] at h
        subst h
        exact SameSpaces.wf (by simp [SameSpaces, readAccept]) hs
      · exact takeException_memoriesWf _ _ _ h hs
  · exact rwState10_memoriesWf _ _ h hs
  · exact Except.ok.inj h ▸ SameSpaces.wf (rwSearch_same _) hs
  · exact Except.ok.inj h ▸ SameSpaces.wf (rwSearch_same _) hs
  · exact Except.ok.inj h ▸ SameSpaces.wf (rwSearch_same _) hs
  · exact Except.ok.inj h ▸ SameSpaces.wf (rwSearch_same _) hs
  · simp only [readState20, Result.bind_eq_ok, sendResult_eq_ok, Result.pure_eq, Except.ok.injEq] at h
    obtain ⟨u, hu, _, ⟨_, rfl⟩, rfl⟩ := h
    have ht : (readOutcomeTime s).memoriesWf = true := by
      refine SameSpaces.wf ?_ hs
      unfold readOutcomeTime; split <;> simp [SameSpaces]
    have hd : u.memoriesWf = true := by
      unfold readOutcomeData at hu
      split at hu
      · simp only [Except.ok.injEq] at hu; rw [← hu]; exact ht
      · simp only [Result.bind_eq_ok, Result.pure_eq, Except.ok.injEq] at hu
        obtain ⟨⟨b, v⟩, hr, rfl⟩ := hu
        obtain ⟨_, _, rfl⟩ := (readPhys_eq_ok _ _ _ _ _).1 hr
        have hv := writeSend_memoriesWf 0
          (physBytes ((readOutcomeTime s).physSector ‹Nat›) (readOutcomeTime s).cmd.len)
          ((readOutcomeTime s).emit (.readPhysicalSector ‹Nat› (readOutcomeTime s).cmd.len))
          (SameSpaces.wf (by simp [SameSpaces]) ht)
        simp only
        split
        · exact SameSpaces.wf (by simp [SameSpaces]) hv
        · unfold readWeak
          split
          · rw [State.memoriesWf_iff] at hv ⊢
            exact ⟨by simpa [applyWeakBits] using Memory.writeBytes_wf _ _ _ hv.1, by simpa using hv.2⟩
          · exact hv
    exact SameSpaces.wf (by simp [SameSpaces]) hd
  · simp only [readState21, Except.ok.injEq] at h
    subst h
    exact SameSpaces.wf (by simp [SameSpaces]) hs
  · exact absurd h (programmingError_ne_ok _ _)

theorem writePhys_memoriesWf (p n : Nat) (s t : State) (b : Bool) (h : writePhys p n s = .ok (b, t))
    (hs : s.memoriesWf = true) : t.memoriesWf = true := by
  obtain ⟨_, _, rfl⟩ := (writePhys_eq_ok _ _ _ _ _).1 h
  rw [State.memoriesWf_iff] at hs ⊢
  refine ⟨hs.1, hs.2.1, hs.2.2.1, ?_⟩
  cases hi : s.disk.image with
  | none => simp [Disk.dataWf]
  | some img =>
  have hall := Disk.dataWf_of_image _ _ hs.2.2.2 hi
  simp only [List.all_eq_true] at hall
  simp only [Option.map_some, Disk.dataWf, withImage_disk, Image.setPhys, List.all_eq_true]
  intro y hy
  rcases List.mem_or_eq_of_mem_set hy with hy | rfl
  · exact hall y hy
  · exact PhysSector.store_wf _ _ _

theorem writeHandler_memoriesWf (s t : State) (h : writeHandler s = .ok t) (hs : s.memoriesWf = true) :
    t.memoriesWf = true := by
  unfold writeHandler at h
  split at h
  · unfold writeState0 at h
    split at h
    · simp only [writeRamWindow, Result.bind_eq_ok, receivePayload_eq_ok, Result.pure_eq, Except.ok.injEq] at h
      obtain ⟨_, ⟨_, rfl⟩, rfl⟩ := h
      exact SameSpaces.wf (by simp [SameSpaces]) hs
    · split at h
      · simp only [writeAccept, Result.bind_eq_ok, receivePayload_eq_ok, Result.pure_eq, Except.ok.injEq] at h
        obtain ⟨_, ⟨_, rfl⟩, rfl⟩ := h
        exact SameSpaces.wf (by simp [SameSpaces]) hs
      · exact takeException_memoriesWf _ _ _ h hs
  · exact rwState10_memoriesWf _ _ h hs
  · exact Except.ok.inj h ▸ SameSpaces.wf (rwSearch_same _) hs
  · exact Except.ok.inj h ▸ SameSpaces.wf (rwSearch_same _) hs
  · exact Except.ok.inj h ▸ SameSpaces.wf (rwSearch_same _) hs
  · exact Except.ok.inj h ▸ SameSpaces.wf (rwSearch_same _) hs
  · unfold writeState20 at h
    have hs' : ({ s with bufferedTrack := none } : State).memoriesWf = true := hs
    simp only at h
    split at h
    · exact takeException_memoriesWf _ _ _ h hs'
    · split at h
      · exact takeException_memoriesWf _ _ _ h hs'
      · split at h
        · exact takeException_memoriesWf _ _ _ h hs'
        · simp only [writeOutcome, Result.bind_eq_ok] at h
          obtain ⟨⟨b, u⟩, hu, h⟩ := h
          have hw := writePhys_memoriesWf _ _ _ _ _ hu hs'
          unfold writeResponse at h
          have hx : ∀ c, (writeTime (setFdcStatus c u)).memoriesWf = true :=
            fun c => SameSpaces.wf (by simp [SameSpaces, writeTime]) hw
          revert h
          generalize (if b then u.params.fdcCrc else Config.fdcOk) = c
          intro h
          split at h
          · simp only [Except.ok.injEq] at h
            subst h
            exact SameSpaces.wf (by simp [SameSpaces]) (hx c)
          · exact takeException_memoriesWf _ _ _ h (hx c)
  · unfold writeState50 at h
    split at h
    · exact takeException_memoriesWf _ _ _ h hs
    · simp only [Result.bind_eq_ok, Result.pure_eq, Except.ok.injEq] at h
      obtain ⟨u, hu, rfl⟩ := h
      simp only [storeRamWindow, Result.bind_eq_ok, requireRamWindow, requireWithin_eq_ok, Result.pure_eq,
        Except.ok.injEq] at hu
      obtain ⟨_, ⟨_, rfl⟩, rfl⟩ := hu
      rw [State.memoriesWf_iff] at hs ⊢
      refine ⟨by simpa using hs.1, by simpa using hs.2.1, ?_, by simpa using hs.2.2.2⟩
      simpa using Memory.writeBytes_wf _ _ _ hs.2.2.1
  · simp only [writeState60, Except.ok.injEq] at h
    subst h
    exact SameSpaces.wf (by simp [SameSpaces]) hs
  · exact absurd h (programmingError_ne_ok _ _)

theorem formatFail_memoriesWf (o : Option Byte) (s t : State) (h : formatFail o s = .ok t)
    (hs : s.memoriesWf = true) : t.memoriesWf = true := by
  simp only [formatFail, Result.bind_eq_ok, requireWithin_eq_ok] at h
  obtain ⟨_, ⟨_, rfl⟩, h⟩ := h
  exact takeException_memoriesWf _ _ _ h (writeSend_memoriesWf _ _ _ hs)

theorem acceptPercom_same (d : Percom) (s : State) : SameSpaces s (acceptPercom d s) := by
  simp only [acceptPercom]; split <;> simp [applyPercomDensity, SameSpaces]

theorem setPercomData_same (d : Percom) (s : State) : SameSpaces s (setPercomData d s).2 := by
  unfold setPercomData
  split
  · exact acceptPercom_same _ _
  · split
    · exact acceptPercom_same _ _
    · exact ⟨rfl, rfl, rfl, rfl⟩

theorem formatDensity_same (s : State) : SameSpaces s (formatDensity s).2 := by
  have h1 := setPercomData_same (percomAt s.recvBuf) s
  simp only [formatDensity]
  split
  · split
    · split
      · exact h1
      · exact h1
    · exact h1
  · split
    · split <;> exact ⟨rfl, rfl, rfl, rfl⟩
    · exact ⟨rfl, rfl, rfl, rfl⟩

theorem formatEnabledChecks_memoriesWf (s t : State) (h : formatEnabledChecks s = .ok t)
    (hs : s.memoriesWf = true) : t.memoriesWf = true := by
  unfold formatEnabledChecks at h
  have hd := SameSpaces.wf (formatDensity_same s) hs
  split at h
  · exact formatFail_memoriesWf _ _ _ h hs
  · split at h
    · exact formatFail_memoriesWf _ _ _ h hs
    · simp only at h
      split at h
      · simp only [Except.ok.injEq] at h
        subst h
        exact hd
      · exact formatFail_memoriesWf _ _ _ h hd

theorem formatDisk_memoriesWf (g : Layout) (s : State) (hs : s.memoriesWf = true) :
    (formatDisk g s).2.memoriesWf = true := by
  rw [State.memoriesWf_iff] at hs ⊢
  refine ⟨hs.1, hs.2.1, hs.2.2.1, ?_⟩
  rw [formatDisk_disk]
  cases s.disk.formatError
  · simp [Disk.dataWf, formattedImage, formattedSector, Memory.empty_wf]
  · cases s.disk.image <;> simp [Disk.dataWf, spoiltImage, Memory.empty_wf]

theorem refreshGeometry_same (s : State) : SameSpaces s (refreshGeometry s) := by
  unfold refreshGeometry; split <;> exact ⟨rfl, rfl, rfl, rfl⟩

theorem formatState3_memoriesWf (s t : State) (h : formatState3 s = .ok t) (hs : s.memoriesWf = true) :
    t.memoriesWf = true := by
  have hw := formatDisk_memoriesWf (formatGeometry s) _ hs
  simp only [formatState3] at h
  split at h
  · exact formatFail_memoriesWf _ _ _ h hw
  · simp only [Except.ok.injEq] at h
    subst h
    refine SameSpaces.wf ?_ hw
    have := refreshGeometry_same (formatDisk (formatGeometry s) s).2
    simpa [SameSpaces, formatRefresh, clearSectorArrays] using this

theorem formatHandler_memoriesWf (s t : State) (h : formatHandler s = .ok t) (hs : s.memoriesWf = true) :
    t.memoriesWf = true := by
  unfold formatHandler at h
  split at h
  · simp only [formatState0, Result.bind_eq_ok, Result.pure_eq, Except.ok.injEq] at h
    obtain ⟨u, hu, rfl⟩ := h
    unfold formatPayload at hu
    split at hu
    · obtain ⟨_, rfl⟩ := (receivePayload_eq_ok _ _ _).1 hu
      exact SameSpaces.wf (by simp [SameSpaces]) hs
    · simp only [Except.ok.injEq] at hu
      subst hu
      exact SameSpaces.wf (by simp [SameSpaces]) hs
  · unfold formatState2 at h
    split at h
    · split at h
      · exact takeException_memoriesWf _ _ _ h hs
      · exact formatEnabledChecks_memoriesWf _ _ h (SameSpaces.wf (by simp [SameSpaces]) hs)
    · exact formatEnabledChecks_memoriesWf _ _ h hs
  · exact formatState3_memoriesWf _ _ h hs
  · unfold formatState4 at h
    simp only at h
    split at h <;> simp only [Except.ok.injEq] at h <;> subst h <;>
      exact SameSpaces.wf (by simp [SameSpaces]) hs
  · simp only [formatState5, Result.bind_eq_ok, requireWithin_eq_ok, sendResult_eq_ok, Result.pure_eq,
      Except.ok.injEq] at h
    obtain ⟨u, ⟨_, hu⟩, v, ⟨_, hv⟩, ht⟩ := h
    subst ht hv hu
    exact SameSpaces.wf (by simp [SameSpaces, fillReply]) (writeSend_memoriesWf 0 (List.replicate u.cmd.len 0xFF) u hs)
  · exact absurd h (programmingError_ne_ok _ _)

theorem selectProfile_same (m : Nat) (v : IndusVariant) (s t : State) (h : selectProfile m v s = .ok t) :
    SameSpaces s t := by
  unfold selectProfile at h
  split at h
  · exact absurd h (programmingError_ne_ok _ _)
  · split at h
    · simp at h
    · simp only [Except.ok.injEq] at h
      subst h
      simp [SameSpaces]

theorem replySent_memoriesWf (o : Nat) (bytes : List Byte) (n : Nat) (s u : State) (h : SameSpaces s u)
    (hs : s.memoriesWf = true) : (endCommand (sentResult true n (writeSend o bytes u))).memoriesWf = true :=
  SameSpaces.wf (by simp [SameSpaces]) (writeSend_memoriesWf o bytes u (SameSpaces.wf h hs))

theorem onlyState0_ok (f : State → Result State) (s t : State) (h : onlyState0 f s = .ok t) : f s = .ok t := by
  unfold onlyState0 at h
  split at h
  · exact h
  · exact absurd h (programmingError_ne_ok _ _)

theorem acknowledge_memoriesWf (s t : State) (h : acknowledgeAndComplete s = t) (hs : s.memoriesWf = true) :
    t.memoriesWf = true := by
  subst h
  exact SameSpaces.wf (by simp [SameSpaces, acknowledgeAndComplete]) hs

theorem warpOrDelayFromStopBit_same (c : Nat) (s : State) : SameSpaces s (warpOrDelayFromStopBit c s) := by
  simp [SameSpaces, warpOrDelayFromStopBit]

/-- Every handler invocation keeps the memories canonical. -/
theorem handler_memoriesWf (s t : State) (h : handler s = .ok t) (hs : s.memoriesWf = true) :
    t.memoriesWf = true := by
  unfold handler at h
  split at h
  · simp only [Except.ok.injEq] at h; rw [← h]; exact hs
  · have h := onlyState0_ok _ _ _ h
    simp only [statusState0, Result.bind_eq_ok, sendResult_eq_ok, Result.pure_eq, Except.ok.injEq] at h
    obtain ⟨_, ⟨_, rfl⟩, rfl⟩ := h
    exact replySent_memoriesWf _ _ _ s _ (by simp [SameSpaces, warpOrDelayFromStopBit]) hs
  · exact readHandler_memoriesWf _ _ h hs
  · exact writeHandler_memoriesWf _ _ h hs
  · exact formatHandler_memoriesWf _ _ h hs
  · unfold readPercomHandler at h
    split at h
    · simp only [readPercomState0, Result.bind_eq_ok, sendResult_eq_ok, Result.pure_eq, Except.ok.injEq] at h
      obtain ⟨_, ⟨_, rfl⟩, rfl⟩ := h
      exact replySent_memoriesWf _ _ _ s _ (by simp [SameSpaces, warpOrDelayFromStopBit]) hs
    · exact absurd h (programmingError_ne_ok _ _)
  · unfold writePercomHandler at h
    split at h
    · simp only [writePercomState0, Result.bind_eq_ok, receivePayload_eq_ok, Result.pure_eq, Except.ok.injEq] at h
      obtain ⟨_, ⟨_, rfl⟩, rfl⟩ := h
      exact SameSpaces.wf (by simp [SameSpaces]) hs
    · unfold writePercomState1 at h
      split at h
      · exact takeException_memoriesWf _ _ _ h hs
      · have hd := SameSpaces.wf (setPercomData_same (percomAt s.recvBuf) (beginTransferACKData s))
          (SameSpaces.wf (by simp [SameSpaces]) hs)
        simp only at h
        split at h
        · simp only [Except.ok.injEq] at h
          subst h
          exact SameSpaces.wf (by simp [SameSpaces]) hd
        · exact takeException_memoriesWf _ _ _ h hd
    · exact absurd h (programmingError_ne_ok _ _)
  · have h := onlyState0_ok _ _ _ h
    simp only [hsIndexState0, Result.bind_eq_ok, sendResult_eq_ok, Result.pure_eq, Except.ok.injEq] at h
    obtain ⟨_, ⟨_, rfl⟩, rfl⟩ := h
    exact replySent_memoriesWf _ _ _ s _ (by simp [SameSpaces]) hs
  · exact acknowledge_memoriesWf s t (by simpa [happyQuietState0] using onlyState0_ok _ _ _ h) hs
  · exact acknowledge_memoriesWf s t (by simpa [happyRamTestState0] using onlyState0_ok _ _ _ h) hs
  · exact acknowledge_memoriesWf s t (by simpa [happyHeadPosState0] using onlyState0_ok _ _ _ h) hs
  · exact acknowledge_memoriesWf s t (by simpa [happyRpmState0] using onlyState0_ok _ _ _ h) hs
  · unfold indusHandler at h
    split at h
    · simp only [indusState0, Result.bind_eq_ok, receivePayload_eq_ok, Result.pure_eq, Except.ok.injEq] at h
      obtain ⟨_, ⟨_, rfl⟩, rfl⟩ := h
      exact SameSpaces.wf (by simp [SameSpaces]) hs
    · unfold indusState1 at h
      split at h
      · exact takeException_memoriesWf _ _ _ h hs
      · simp only [Result.bind_eq_ok, requireWithin_eq_ok, Result.pure_eq, Except.ok.injEq] at h
        obtain ⟨_, ⟨_, rfl⟩, u, hu, rfl⟩ := h
        have hx : SameSpaces s u := by
          unfold selectFirmware at hu
          split at hu
          · simp only [Except.ok.injEq] at hu; subst hu; simp [SameSpaces]
          · split at hu
            · simp only [Except.ok.injEq] at hu; subst hu; simp [SameSpaces]
            · have := selectProfile_same _ _ _ _ hu
              simpa [SameSpaces] using this
        exact SameSpaces.wf (by simpa [SameSpaces] using hx) hs
    · exact absurd h (programmingError_ne_ok _ _)
  · exact takeException_memoriesWf _ _ _ (onlyState0_ok _ _ _ h) hs

end Sys2Proof.Machine
end

