-- ==== Sys2Proof/Laws/Stores.lean ====
section
/-! SUPPORT. Which handler states write drive RAM and the disk: write's states 50 and 20, and format's state 3. -/

namespace Sys2Proof.Machine

/-- Two states hold the same drive RAM and the same disk. -/
def SameStores (s t : State) : Prop := t.driveRAM = s.driveRAM ∧ t.disk = s.disk

theorem SameStores.refl (s : State) : SameStores s s := ⟨rfl, rfl⟩

theorem SameStores.trans {s t u : State} (h : SameStores s t) (k : SameStores t u) : SameStores s u :=
  ⟨k.1.trans h.1, k.2.trans h.2⟩

theorem SameSpaces.stores {s t : State} (h : SameSpaces s t) : SameStores s t := ⟨h.2.2.1, h.2.2.2⟩

theorem takeException_stores (x : Exception) (s t : State) (h : takeException x s = .ok t) : SameStores s t := by
  have := takeException_memories x s t h
  exact ⟨this.2.2.1, this.2.2.2⟩

theorem rwState10_stores (s t : State) (h : rwState10 s = .ok t) : SameStores s t := by
  unfold rwState10 at h
  split at h
  · split at h
    · exact takeException_stores _ _ _ h
    · simp only [Except.ok.injEq] at h; subst h
      exact SameStores.trans (by simp [SameStores]) (seekDecision_same _).stores
  · exact Except.ok.inj h ▸ (seekDecision_same _).stores

theorem readOutcomeData_stores (s t : State) (h : readOutcomeData s = .ok t) : SameStores s t := by
  unfold readOutcomeData at h
  split at h
  · simp only [Except.ok.injEq] at h; subst h; exact .refl _
  · simp only [Result.bind_eq_ok, Result.pure_eq, Except.ok.injEq] at h
    obtain ⟨⟨b, v⟩, hr, rfl⟩ := h
    obtain ⟨_, _, rfl⟩ := (readPhys_eq_ok _ _ _ _ _).1 hr
    simp only
    split
    · simp [SameStores]
    · unfold readWeak
      split <;> simp [SameStores]

theorem readHandler_stores (s t : State) (h : readHandler s = .ok t) : SameStores s t := by
  unfold readHandler at h
  split at h
  · unfold readState0 at h
    split at h
    · simp only [readRamWindow, Result.bind_eq_ok, requireRamWindow, requireWithin_eq_ok, sendResult_eq_ok,
        Result.pure_eq, Except.ok.injEq] at h
      obtain ⟨_, ⟨_, rfl⟩, _, ⟨_, rfl⟩, rfl⟩ := h
      simp [SameStores]
    · split at h
      · simp only [Except.ok.injEq] at h
        subst h
        simp [SameStores, readAccept]
      · exact takeException_stores _ _ _ h
  · exact rwState10_stores _ _ h
  · exact Except.ok.inj h ▸ (rwSearch_same _).stores
  · exact Except.ok.inj h ▸ (rwSearch_same _).stores
  · exact Except.ok.inj h ▸ (rwSearch_same _).stores
  · exact Except.ok.inj h ▸ (rwSearch_same _).stores
  · simp only [readState20, Result.bind_eq_ok, sendResult_eq_ok, Result.pure_eq, Except.ok.injEq] at h
    obtain ⟨u, hu, _, ⟨_, rfl⟩, rfl⟩ := h
    have ht : SameStores s (readOutcomeTime s) := by
      unfold readOutcomeTime; split <;> simp [SameStores]
    have hd := readOutcomeData_stores _ _ hu
    exact (ht.trans hd).trans (by simp [SameStores])
  · simp only [readState21, Except.ok.injEq] at h
    subst h
    simp [SameStores]
  · exact absurd h (programmingError_ne_ok _ _)

/-- A write's handler keeps drive RAM but at state 50 and the disk but at state 20. -/
theorem writeHandler_stores (s t : State) (h : writeHandler s = .ok t) :
    (t.driveRAM = s.driveRAM ∨ s.cmd.state = 50) ∧ (t.disk = s.disk ∨ s.cmd.state = 20) := by
  have key : SameStores s t → (t.driveRAM = s.driveRAM ∨ s.cmd.state = 50) ∧ (t.disk = s.disk ∨ s.cmd.state = 20) :=
    fun h => ⟨.inl h.1, .inl h.2⟩
  unfold writeHandler at h
  split at h <;> rename_i hst
  · refine key ?_
    unfold writeState0 at h
    split at h
    · simp only [writeRamWindow, Result.bind_eq_ok, receivePayload_eq_ok, Result.pure_eq, Except.ok.injEq] at h
      obtain ⟨_, ⟨_, rfl⟩, rfl⟩ := h
      simp [SameStores]
    · split at h
      · simp only [writeAccept, Result.bind_eq_ok, receivePayload_eq_ok, Result.pure_eq, Except.ok.injEq] at h
        obtain ⟨_, ⟨_, rfl⟩, rfl⟩ := h
        simp [SameStores]
      · exact takeException_stores _ _ _ h
  · exact key (rwState10_stores _ _ h)
  · exact key (Except.ok.inj h ▸ (rwSearch_same _).stores)
  · exact key (Except.ok.inj h ▸ (rwSearch_same _).stores)
  · exact key (Except.ok.inj h ▸ (rwSearch_same _).stores)
  · exact key (Except.ok.inj h ▸ (rwSearch_same _).stores)
  · refine ⟨.inl ?_, .inr (BitVec.eq_of_toNat_eq hst)⟩
    unfold writeState20 at h
    simp only at h
    split at h
    · exact (takeException_stores _ _ _ h).1
    · split at h
      · exact (takeException_stores _ _ _ h).1
      · split at h
        · exact (takeException_stores _ _ _ h).1
        · simp only [writeOutcome, Result.bind_eq_ok] at h
          obtain ⟨⟨b, u⟩, hu, h⟩ := h
          obtain ⟨_, _, rfl⟩ := (writePhys_eq_ok _ _ _ _ _).1 hu
          unfold writeResponse at h
          revert h
          generalize (if b then _ else Config.fdcOk) = c
          intro h
          split at h
          · simp only [Except.ok.injEq] at h
            subst h
            simp [writeTime]
          · have := (takeException_stores _ _ _ h).1
            simpa [writeTime] using this
  · refine ⟨.inr (BitVec.eq_of_toNat_eq hst), .inl ?_⟩
    unfold writeState50 at h
    split at h
    · exact (takeException_stores _ _ _ h).2
    · simp only [Result.bind_eq_ok, Result.pure_eq, Except.ok.injEq] at h
      obtain ⟨u, hu, rfl⟩ := h
      simp only [storeRamWindow, Result.bind_eq_ok, requireRamWindow, requireWithin_eq_ok, Result.pure_eq,
        Except.ok.injEq] at hu
      obtain ⟨_, ⟨_, rfl⟩, rfl⟩ := hu
      simp
  · refine key ?_
    simp only [writeState60, Except.ok.injEq] at h
    subst h
    simp [SameStores]
  · exact absurd h (programmingError_ne_ok _ _)

theorem formatFail_stores (o : Option Byte) (s t : State) (h : formatFail o s = .ok t) : SameStores s t := by
  simp only [formatFail, Result.bind_eq_ok, requireWithin_eq_ok] at h
  obtain ⟨_, ⟨_, rfl⟩, h⟩ := h
  exact SameStores.trans (by simp [SameStores, fillReply]) (takeException_stores _ _ _ h)

theorem formatEnabledChecks_stores (s t : State) (h : formatEnabledChecks s = .ok t) : SameStores s t := by
  unfold formatEnabledChecks at h
  have hd := (formatDensity_same s).stores
  split at h
  · exact formatFail_stores _ _ _ h
  · split at h
    · exact formatFail_stores _ _ _ h
    · simp only at h
      split at h
      · simp only [Except.ok.injEq] at h
        subst h
        exact hd
      · exact hd.trans (formatFail_stores _ _ _ h)

/-- A format's handler keeps drive RAM, and the disk but at state 3. -/
theorem formatHandler_stores (s t : State) (h : formatHandler s = .ok t) :
    t.driveRAM = s.driveRAM ∧ (t.disk = s.disk ∨ s.cmd.state = 3) := by
  have key : SameStores s t → t.driveRAM = s.driveRAM ∧ (t.disk = s.disk ∨ s.cmd.state = 3) :=
    fun h => ⟨h.1, .inl h.2⟩
  unfold formatHandler at h
  split at h <;> rename_i hst
  · refine key ?_
    simp only [formatState0, Result.bind_eq_ok, Result.pure_eq, Except.ok.injEq] at h
    obtain ⟨u, hu, rfl⟩ := h
    unfold formatPayload at hu
    split at hu
    · obtain ⟨_, rfl⟩ := (receivePayload_eq_ok _ _ _).1 hu
      simp [SameStores]
    · simp only [Except.ok.injEq] at hu
      subst hu
      simp [SameStores]
  · refine key ?_
    unfold formatState2 at h
    split at h
    · split at h
      · exact takeException_stores _ _ _ h
      · exact SameStores.trans (by simp [SameStores]) (formatEnabledChecks_stores _ _ h)
    · exact formatEnabledChecks_stores _ _ h
  · refine ⟨?_, .inr (BitVec.eq_of_toNat_eq hst)⟩
    have hr := formatDisk_driveRAM (formatGeometry s) s
    simp only [formatState3] at h
    split at h
    · exact (formatFail_stores _ _ _ h).1.trans hr
    · simp only [Except.ok.injEq] at h
      subst h
      rw [← hr]
      have := (refreshGeometry_same (formatDisk (formatGeometry s) s).2).2.2.1
      simpa [formatRefresh, clearSectorArrays] using this
  · refine key ?_
    unfold formatState4 at h
    simp only at h
    split at h <;> simp only [Except.ok.injEq] at h <;> subst h <;> simp [SameStores]
  · refine key ?_
    simp only [formatState5, Result.bind_eq_ok, requireWithin_eq_ok, sendResult_eq_ok, Result.pure_eq,
      Except.ok.injEq] at h
    obtain ⟨u, ⟨_, hu⟩, v, ⟨_, hv⟩, ht⟩ := h
    subst ht hv hu
    simp [SameStores, fillReply]
  · exact absurd h (programmingError_ne_ok _ _)

/-- Every handler invocation keeps drive RAM but write's state 50, and the disk but write's state 20 and format's
state 3. -/
theorem handler_stores (s t : State) (h : handler s = .ok t) :
    (t.driveRAM = s.driveRAM ∨ s.cmd.code = .write ∧ s.cmd.state = 50) ∧
      (t.disk = s.disk ∨ s.cmd.code = .write ∧ s.cmd.state = 20 ∨ s.cmd.code = .format ∧ s.cmd.state = 3) := by
  have key : SameStores s t → (t.driveRAM = s.driveRAM ∨ s.cmd.code = .write ∧ s.cmd.state = 50) ∧
      (t.disk = s.disk ∨ s.cmd.code = .write ∧ s.cmd.state = 20 ∨ s.cmd.code = .format ∧ s.cmd.state = 3) :=
    fun h => ⟨.inl h.1, .inl h.2⟩
  have ack : acknowledgeAndComplete s = t → SameStores s t := by
    rintro rfl; simp [SameStores, acknowledgeAndComplete]
  unfold handler at h
  split at h <;> rename_i hc
  · simp only [Except.ok.injEq] at h; subst h; exact key (.refl _)
  · refine key ?_
    have h := onlyState0_ok _ _ _ h
    simp only [statusState0, Result.bind_eq_ok, sendResult_eq_ok, Result.pure_eq, Except.ok.injEq] at h
    obtain ⟨_, ⟨_, rfl⟩, rfl⟩ := h
    simp [SameStores, warpOrDelayFromStopBit]
  · exact key (readHandler_stores _ _ h)
  · have := writeHandler_stores _ _ h
    exact ⟨this.1.imp id fun h => ⟨hc, h⟩, this.2.imp id fun h => .inl ⟨hc, h⟩⟩
  · have := formatHandler_stores _ _ h
    exact ⟨.inl this.1, this.2.imp id fun h => .inr ⟨hc, h⟩⟩
  · refine key ?_
    unfold readPercomHandler at h
    split at h
    · simp only [readPercomState0, Result.bind_eq_ok, sendResult_eq_ok, Result.pure_eq, Except.ok.injEq] at h
      obtain ⟨_, ⟨_, rfl⟩, rfl⟩ := h
      simp [SameStores, warpOrDelayFromStopBit]
    · exact absurd h (programmingError_ne_ok _ _)
  · refine key ?_
    unfold writePercomHandler at h
    split at h
    · simp only [writePercomState0, Result.bind_eq_ok, receivePayload_eq_ok, Result.pure_eq, Except.ok.injEq] at h
      obtain ⟨_, ⟨_, rfl⟩, rfl⟩ := h
      simp [SameStores]
    · unfold writePercomState1 at h
      split at h
      · exact takeException_stores _ _ _ h
      · have hd := (setPercomData_same (percomAt s.recvBuf) (beginTransferACKData s)).stores
        have hd' : SameStores s (setPercomData (percomAt s.recvBuf) (beginTransferACKData s)).2 :=
          SameStores.trans (by simp [SameStores]) hd
        simp only at h
        split at h
        · simp only [Except.ok.injEq] at h
          subst h
          exact hd'.trans (by simp [SameStores])
        · exact hd'.trans (takeException_stores _ _ _ h)
    · exact absurd h (programmingError_ne_ok _ _)
  · refine key ?_
    have h := onlyState0_ok _ _ _ h
    simp only [hsIndexState0, Result.bind_eq_ok, sendResult_eq_ok, Result.pure_eq, Except.ok.injEq] at h
    obtain ⟨_, ⟨_, rfl⟩, rfl⟩ := h
    simp [SameStores]
  · exact key (ack (by simpa [happyQuietState0] using onlyState0_ok _ _ _ h))
  · exact key (ack (by simpa [happyRamTestState0] using onlyState0_ok _ _ _ h))
  · exact key (ack (by simpa [happyHeadPosState0] using onlyState0_ok _ _ _ h))
  · exact key (ack (by simpa [happyRpmState0] using onlyState0_ok _ _ _ h))
  · refine key ?_
    unfold indusHandler at h
    split at h
    · simp only [indusState0, Result.bind_eq_ok, receivePayload_eq_ok, Result.pure_eq, Except.ok.injEq] at h
      obtain ⟨_, ⟨_, rfl⟩, rfl⟩ := h
      simp [SameStores]
    · unfold indusState1 at h
      split at h
      · exact takeException_stores _ _ _ h
      · simp only [Result.bind_eq_ok, requireWithin_eq_ok, Result.pure_eq, Except.ok.injEq] at h
        obtain ⟨_, ⟨_, rfl⟩, u, hu, rfl⟩ := h
        have hx : SameStores s u := by
          unfold selectFirmware at hu
          split at hu
          · simp only [Except.ok.injEq] at hu; subst hu; simp [SameStores]
          · split at hu
            · simp only [Except.ok.injEq] at hu; subst hu; simp [SameStores]
            · have := (selectProfile_same _ _ _ _ hu).stores
              simpa [SameStores] using this
        exact hx.trans (by simp [SameStores])
    · exact absurd h (programmingError_ne_ok _ _)
  · exact key (takeException_stores _ _ _ (onlyState0_ok _ _ _ h))

end Sys2Proof.Machine
end

