-- ==== Sys2Proof/Laws/Bound.lean ====
section
/-! SUPPORT. No operation and no handler answers the refusal of the dispatcher's bound; what a run of the dispatcher's
loop can do, once. -/

namespace Sys2Proof.Machine

/-- The result is not the refusal of the dispatcher's bound. -/
def Unbound {α : Type} (r : Result α) : Prop := r ≠ .error (.refused .dispatcherBound)

theorem Unbound.ok {α : Type} (a : α) : Unbound (.ok a : Result α) := by simp [Unbound]

theorem Unbound.pure {α : Type} (a : α) : Unbound (pure a : Result α) := by simp [Unbound]

theorem Unbound.prog {α : Type} (w : BrokenInvariant) : Unbound (programmingError w : Result α) := by simp [Unbound, programmingError]

theorem Unbound.bind {α β : Type} {r : Result α} {f : α → Result β} (h : Unbound r) (hf : ∀ a, r = .ok a → Unbound (f a)) : Unbound (r >>= f) := by
  cases r with
  | ok a => exact hf a rfl
  | error e => intro h'; apply h; simpa using h'

theorem Unbound.require (o n z : Nat) (s : State) : Unbound (requireWithin o n z s) := by
  unfold requireWithin; split <;> simp [Unbound]

theorem Unbound.sendResult (b : Bool) (n : Nat) (s : State) : Unbound (sendResult b n s) :=
  .bind (.require _ _ _ _) fun _ _ => .pure _

theorem Unbound.receive (n : Nat) (s : State) : Unbound (receivePayload n s) :=
  .bind (.require _ _ _ _) fun _ _ => .pure _

theorem Unbound.exc (x : Exception) (s : State) : Unbound (takeException x s) := by
  cases x with
  | nak => exact .ok _
  | dataNak => exact .ok _
  | errorResponse o => exact .ok _
  | errorWithData o n => exact .bind (.sendResult _ _ _) fun _ _ => .pure _

theorem Unbound.readPhys (p n : Nat) (s : State) : Unbound (readPhys p n s) :=
  .bind (.require _ _ _ _) fun _ _ => .pure _

theorem Unbound.writePhys (p n : Nat) (s : State) : Unbound (writePhys p n s) :=
  .bind (.require _ _ _ _) fun _ _ => .pure _

theorem Unbound.rw10 (s : State) : Unbound (rwState10 s) := by
  unfold rwState10; split
  · split; exacts [.exc _ _, .ok _]
  · exact .ok _

theorem Unbound.read (s : State) : Unbound (readHandler s) := by
  unfold readHandler; split
  · unfold readState0; split
    · exact .bind (.require _ _ _ _) fun _ _ => .bind (.sendResult _ _ _) fun _ _ => .pure _
    · split; exacts [.ok _, .exc _ _]
  · exact .rw10 _
  · exact .ok _
  · exact .ok _
  · exact .ok _
  · exact .ok _
  · refine .bind ?_ fun _ _ => .bind (.sendResult _ _ _) fun _ _ => .pure _
    unfold readOutcomeData; split
    · exact .ok _
    · exact .bind (.readPhys _ _ _) fun _ _ => .pure _
  · exact .ok _
  · exact .prog _

theorem Unbound.writeResponse (s : State) : Unbound (writeResponse s) := by
  unfold Machine.writeResponse; split; exacts [.ok _, .exc _ _]

theorem Unbound.write (s : State) : Unbound (writeHandler s) := by
  unfold writeHandler; split
  · unfold writeState0; split
    · exact .bind (.receive _ _) fun _ _ => .pure _
    · split
      · exact .bind (.receive _ _) fun _ _ => .pure _
      · exact .exc _ _
  · exact .rw10 _
  · exact .ok _
  · exact .ok _
  · exact .ok _
  · exact .ok _
  · unfold writeState20; dsimp only; split
    · exact .exc _ _
    · split
      · exact .exc _ _
      · split
        · exact .exc _ _
        · exact .bind (.writePhys _ _ _) fun _ _ => .writeResponse _
  · unfold writeState50; split
    · exact .exc _ _
    · refine .bind ?_ fun _ _ => .pure _
      exact .bind (.require _ _ _ _) fun _ _ => .pure _
  · exact .ok _
  · exact .prog _

theorem Unbound.formatFail (o : Option Byte) (s : State) : Unbound (formatFail o s) := .bind (.require _ _ _ _) fun _ _ => .exc _ _

theorem Unbound.formatChecks (s : State) : Unbound (formatEnabledChecks s) := by
  unfold formatEnabledChecks; split
  · exact .formatFail _ _
  · split
    · exact .formatFail _ _
    · dsimp only; split; exacts [.ok _, .formatFail _ _]

theorem Unbound.format (s : State) : Unbound (formatHandler s) := by
  unfold formatHandler; split
  · refine .bind ?_ fun _ _ => .pure _
    unfold formatPayload; split; exacts [.receive _ _, .ok _]
  · unfold formatState2; split
    · split; exacts [.exc _ _, .formatChecks _]
    · exact .formatChecks _
  · unfold formatState3; dsimp only; split; exacts [.formatFail _ _, .ok _]
  · unfold formatState4; dsimp only; split; exacts [.ok _, .ok _]
  · exact .bind (.require _ _ _ _) fun _ _ => .bind (.sendResult _ _ _) fun _ _ => .pure _
  · exact .prog _

theorem Unbound.select (m : Nat) (v : IndusVariant) (s : State) : Unbound (selectProfile m v s) := by
  unfold selectProfile; split
  · exact .prog _
  · split
    · simp [Unbound]
    · exact .ok _

theorem Unbound.only (f : State → Result State) (s : State) (h : Unbound (f s)) : Unbound (onlyState0 f s) := by
  unfold onlyState0; split; exacts [h, .prog _]

theorem Unbound.handler (s : State) : Unbound (handler s) := by
  unfold Machine.handler; split
  · exact .ok _
  · exact .only _ _ (.bind (.sendResult _ _ _) fun _ _ => .pure _)
  · exact .read _
  · exact .write _
  · exact .format _
  · unfold readPercomHandler; split
    · exact .bind (.sendResult _ _ _) fun _ _ => .pure _
    · exact .prog _
  · unfold writePercomHandler; split
    · exact .bind (.receive _ _) fun _ _ => .pure _
    · unfold writePercomState1; split
      · exact .exc _ _
      · dsimp only; split; exacts [.ok _, .exc _ _]
    · exact .prog _
  · exact .only _ _ (.bind (.sendResult _ _ _) fun _ _ => .pure _)
  · exact .only _ _ (.ok _)
  · exact .only _ _ (.ok _)
  · exact .only _ _ (.ok _)
  · exact .only _ _ (.ok _)
  · unfold indusHandler; split
    · exact .bind (.receive _ _) fun _ _ => .pure _
    · unfold indusState1; split
      · exact .exc _ _
      · refine .bind (.require _ _ _ _) fun _ _ => .bind ?_ fun _ _ => .pure _
        unfold selectFirmware; split
        · exact .ok _
        · split; exacts [.ok _, .select _ _ _]
    · exact .prog _
  · exact .only _ _ (.exc _ _)

/-- A settled state stops the loop. -/
theorem settled_done (t : State) (h : t.settled = true) : (t.active && !t.cmd.waiting) = false := by
  unfold State.settled at h
  cases ha : t.active <;> cases hw : t.cmd.waiting <;> simp_all

/-- What one run of the loop goes through: the event's own state, and at most one later state a `Goto` names
(42_dispatch.md R210, R218). -/
theorem processCommand_runs (s t : State) (h : processCommand s = .ok t) :
    t = s ∨ handler s = .ok t ∧ t.settled = true ∨
      ∃ u, handler s = .ok u ∧ handler u = .ok t ∧ t.settled = true ∧
        (s.cmd.code = .read ∧ s.cmd.state = 0 ∧ ranTo s u 10 ∨
          s.cmd.code = .format ∧ (s.cmd.state = 2 ∧ ranTo s u 3 ∨ s.cmd.state = 4 ∧ ranTo s u 5)) := by
  have last : ∀ n (a b : State), a.settled = true → processLoop n a = .ok b → a = b := by
    intro n a b ha hb
    rw [processLoop_finished _ _ (settled_done a ha)] at hb
    injection hb
  unfold processCommand at h
  by_cases hg : (s.active && !s.cmd.waiting) = true
  · have ha : s.active = true := by simp_all
    replace h : processLoop (2 + 1) s = .ok t := h
    unfold processLoop at h
    rw [if_pos hg, Result.bind_eq_ok] at h
    obtain ⟨u, h1, h2⟩ := h
    rcases handler_ran s u ha h1 with k | k
    · exact .inr (.inl (last _ _ _ k h2 ▸ ⟨h1, k⟩))
    · refine .inr (.inr ⟨u, h1, ?_⟩)
      have hu : u.cmd.code = s.cmd.code ∧ u.cmd.waiting = s.cmd.waiting ∧ u.cmd.state ∈ [(10 : Word32), 3, 5] ∧
          (s.cmd.code = .read → u.cmd.state = 10) ∧ (s.cmd.code = .format → u.cmd.state ≠ 2 ∧ u.cmd.state ≠ 4) := by
        rcases k with ⟨c, _, r⟩ | ⟨c, ⟨_, r⟩ | ⟨_, r⟩⟩ <;> simp [r.1, r.2.1, r.2.2, c]
      have hua : u.active = true := by simpa [State.active, hu.1] using ha
      have huw : u.cmd.waiting = false := by rw [hu.2.1]; simp_all
      replace h2 : processLoop (1 + 1) u = .ok t := h2
      unfold processLoop at h2
      rw [if_pos (by simp [hua, huw]), Result.bind_eq_ok] at h2
      obtain ⟨v, h3, h4⟩ := h2
      have hv : v.settled = true := by
        rcases handler_ran u v hua h3 with m | ⟨c, z, _⟩ | ⟨c, ⟨z, _⟩ | ⟨z, _⟩⟩
        · exact m
        · exact absurd (z.symm.trans (hu.2.2.2.1 (hu.1.symm.trans c))) (by decide)
        · exact absurd z (hu.2.2.2.2 (hu.1.symm.trans c)).1
        · exact absurd z (hu.2.2.2.2 (hu.1.symm.trans c)).2
      exact last _ _ _ hv h4 ▸ ⟨h3, hv, k⟩
  · rw [processLoop_finished _ _ (by simpa using hg)] at h
    injection h with h
    exact .inl h.symm

/-- A run of the loop keeps the memories canonical. -/
theorem processCommand_memoriesWf (s t : State) (h : processCommand s = .ok t) (hs : s.memoriesWf = true) :
    t.memoriesWf = true := by
  rcases processCommand_runs s t h with rfl | ⟨h, _⟩ | ⟨u, h1, h2, _⟩
  · exact hs
  · exact handler_memoriesWf _ _ h hs
  · exact handler_memoriesWf _ _ h2 (handler_memoriesWf _ _ h1 hs)

/-- A run of the loop keeps drive RAM but from write's state 50, and the disk but from write's state 20 and format's
states 2 and 3. -/
theorem processCommand_stores (s t : State) (h : processCommand s = .ok t) :
    (t.driveRAM = s.driveRAM ∨ s.cmd.code = .write ∧ s.cmd.state = 50) ∧
      (t.disk = s.disk ∨ s.cmd.code = .write ∧ s.cmd.state = 20 ∨
        s.cmd.code = .format ∧ (s.cmd.state = 2 ∨ s.cmd.state = 3)) := by
  rcases processCommand_runs s t h with rfl | ⟨h, _⟩ | ⟨u, h1, h2, _, k⟩
  · exact ⟨.inl rfl, .inl rfl⟩
  · have := handler_stores _ _ h
    exact ⟨this.1, this.2.imp id (Or.imp id fun h => ⟨h.1, .inr h.2⟩)⟩
  · have a := handler_stores _ _ h1
    have b := handler_stores _ _ h2
    rcases k with ⟨c, _, r⟩ | ⟨c, ⟨z, r⟩ | ⟨z, r⟩⟩
    · simp [c, r.1] at a b; exact ⟨.inl (b.1.trans a.1), .inl (b.2.trans a.2)⟩
    · simp [c, r.1] at a b; exact ⟨.inl (b.1.trans a.1), .inr (.inr ⟨c, .inl z⟩)⟩
    · simp [c, r.1, r.2.1, z] at a b; exact ⟨.inl (b.1.trans a.1), .inl (b.2.trans a.2)⟩

end Sys2Proof.Machine
end

