-- ==== Sys2Proof/Laws/Choice.lean ====
section
/-! SUPPORT. The choice among copies: what `nearest` and `find?` select, and `resolveSector` for a present sector. -/

namespace Sys2Proof.Machine

theorem nearest_first (w : Copy → Nat) (b : Copy) (l : List Copy) :
    ∃ i : Nat, (b :: l)[i]? = some (nearest w b l) ∧ (∀ d ∈ b :: l, w (nearest w b l) ≤ w d) ∧
      ∀ (j : Nat) d, j < i → (b :: l)[j]? = some d → w (nearest w b l) < w d := by
  induction l generalizing b with
  | nil => exact ⟨0, rfl, by simp [nearest], by simp⟩
  | cons c l ih =>
    simp only [nearest]
    by_cases h : w c < w b
    · rw [if_pos h]
      obtain ⟨i, h1, h2, h3⟩ := ih c
      refine ⟨i + 1, by simpa using h1, ?_, ?_⟩
      · intro d hd
        rcases List.mem_cons.1 hd with rfl | hd
        · exact Nat.le_of_lt (Nat.lt_of_le_of_lt (h2 c (by simp)) h)
        · exact h2 d hd
      · intro j d hj hd
        cases j with
        | zero => simp only [List.getElem?_cons_zero, Option.some.injEq] at hd; subst hd; exact Nat.lt_of_le_of_lt (h2 c (by simp)) h
        | succ j => exact h3 j d (by omega) (by simpa using hd)
    · rw [if_neg h]
      obtain ⟨i, h1, h2, h3⟩ := ih b
      cases i with
      | zero =>
        refine ⟨0, by simpa using h1, ?_, by simp⟩
        intro d hd
        have hb : nearest w b l = b := by simpa using h1.symm
        simp only [List.mem_cons] at hd
        rcases hd with rfl | rfl | hd
        · exact h2 _ (by simp)
        · rw [hb]; omega
        · exact h2 d (by simp [hd])
      | succ i =>
        refine ⟨i + 2, by simpa using h1, ?_, ?_⟩
        · intro d hd
          simp only [List.mem_cons] at hd
          rcases hd with rfl | rfl | hd
          · exact h2 _ (by simp)
          · have := h2 b (by simp); omega
          · exact h2 d (by simp [hd])
        · intro j d hj hd
          have hb := h3 0 b (by omega) (by simp)
          cases j with
          | zero => simp at hd; subst hd; exact hb
          | succ j =>
            cases j with
            | zero => simp at hd; subst hd; omega
            | succ j => exact h3 (j + 1) d (by omega) (by simpa using hd)

theorem resolve_present (s : State) (v : Nat) (rd : Bool)
    (h : ¬(s.flags.diskPresent = false ∨ v = 0 ∨ s.geom.totalSectors < v)) :
    resolveSector v rd s = match (s.copies (s.virtSector v)).filter (Copy.eligible s.geom.mfm rd) with
    | [] => (.notFound (missingStatus s.params s.geom.mfm (s.copies (s.virtSector v))), s)
    | c :: rest => (.found (chooseCopy s (s.phantom v) c rest).1 (chooseCopy s (s.phantom v) c rest).2,
        advancePhantom v (s.virtSector v).count s) := by
  simp only [not_or, Bool.not_eq_false] at h
  exact (if_neg (by simp [h])).trans rfl

theorem find_first {p : Copy → Bool} (l : List Copy) (f : Copy) (h : l.find? p = some f) :
    ∃ i : Nat, l[i]? = some f ∧ p f = true ∧ ∀ (j : Nat) d, j < i → l[j]? = some d → ¬p d = true := by
  induction l with
  | nil => simp at h
  | cons c l ih =>
    rw [List.find?_cons] at h
    split at h
    · rename_i hp; injection h with h; subst h; exact ⟨0, rfl, hp, by simp⟩
    · rename_i hp
      obtain ⟨i, h1, h2, h3⟩ := ih h
      refine ⟨i + 1, by simpa using h1, h2, ?_⟩
      intro j d hj hd
      cases j with
      | zero => simp at hd; subst hd; simp [hp]
      | succ j => exact h3 j d (by omega) (by simpa using hd)

theorem copies_eq (s : State) (info : VirtSector) :
    (s.copies info).length = info.count ∧ ∀ j c, (s.copies info)[j]? = some c → c.1 = info.start + j := by
  refine ⟨by simp [State.copies], fun j c hj => ?_⟩
  simp only [State.copies, List.getElem?_map, Option.map_eq_some_iff] at hj
  obtain ⟨p, hp, rfl⟩ := hj
  obtain ⟨hlt, rfl⟩ := List.getElem?_eq_some_iff.1 hp
  simp

theorem getD_zero_of_all (l : List Byte) (h : ∀ b ∈ l, b = 0) (i : Nat) : l.getD i 0 = 0 := by
  rw [List.getD_eq_getElem?_getD]
  cases hi : l[i]? with
  | none => rfl
  | some b => exact h b (List.mem_of_getElem? hi)

end Sys2Proof.Machine
end

