-- ==== Sys2Proof/Laws/Coding.lean ====
section
/-! SUPPORT. The command byte and the first row of the table with an opcode. -/

namespace Sys2Proof

theorem highSpeedBit_commandByte (h : Bool) (op : BitVec 7) : highSpeedBit (commandByte h op) = h := by
  revert h op; decide

theorem baseOpcode_commandByte (h : Bool) (op : BitVec 7) : baseOpcode (commandByte h op) = op := by
  revert h op; decide

theorem commandByte_split (c : Byte) : commandByte (highSpeedBit c) (baseOpcode c) = c := by
  revert c; decide

theorem firstRow_some (ops : Opcodes) (op : BitVec 7) (l : List Instr) (i : Instr) (h : firstRow ops op l = some i) :
    i ∈ l ∧ i.opcode ops = some op ∧ ∀ j ∈ l.takeWhile (fun j => decide (j ≠ i)), j.opcode ops ≠ some op := by
  induction l with
  | nil => simp [firstRow] at h
  | cons c l ih =>
    unfold firstRow at h
    split at h
    · rename_i hc
      injection h with h; subst h
      exact ⟨by simp, hc, by simp⟩
    · rename_i hc
      obtain ⟨h1, h2, h3⟩ := ih h
      have hne : c ≠ i := by rintro rfl; exact hc h2
      refine ⟨by simp [h1], h2, ?_⟩
      intro j hj
      rw [List.takeWhile_cons_of_pos (by simpa using hne)] at hj
      rcases List.mem_cons.1 hj with rfl | hj
      · exact hc
      · exact h3 j hj

theorem firstRow_of (ops : Opcodes) (op : BitVec 7) (l : List Instr) (i : Instr) (hm : i ∈ l) (ho : i.opcode ops = some op)
    (hn : ∀ j ∈ l.takeWhile (fun j => decide (j ≠ i)), j.opcode ops ≠ some op) : firstRow ops op l = some i := by
  induction l with
  | nil => simp at hm
  | cons c l ih =>
    unfold firstRow
    by_cases hc : c = i
    · subst hc; rw [if_pos ho]
    · rw [List.takeWhile_cons_of_pos (by simpa using hc)] at hn
      rw [if_neg (hn c (by simp))]
      exact ih ((List.mem_cons.1 hm).resolve_left (fun h => hc h.symm)) (fun j hj => hn j (List.mem_cons_of_mem _ hj))

theorem firstRow_none (ops : Opcodes) (op : BitVec 7) (l : List Instr) (h : firstRow ops op l = none) : ∀ i ∈ l, i.opcode ops ≠ some op := by
  induction l with
  | nil => simp
  | cons c l ih =>
    unfold firstRow at h
    split at h
    · simp at h
    · rename_i hc
      intro i hi
      rcases List.mem_cons.1 hi with rfl | hi
      · exact hc
      · exact ih h i hi

theorem mem_rows (i : Instr) : i ∈ commandRows i.operands := by cases i <;> simp [commandRows, Instr.operands]

theorem operands_of_rows (f : Operands) (i : Instr) (h : i ∈ commandRows f) : i.operands = f := by
  simp only [commandRows, List.mem_cons, List.not_mem_nil, or_false] at h
  rcases h with rfl | rfl | rfl | rfl | rfl | rfl | rfl | rfl | rfl | rfl | rfl | rfl | rfl | rfl | rfl <;> rfl

theorem opcode_same (ops : Opcodes) (i : Instr) (f : Operands) : ∃ j ∈ commandRows f, j.opcode ops = i.opcode ops := by
  cases i <;> simp [commandRows, Instr.opcode]

theorem wellFormed_iff (ops : Opcodes) (i : Instr) (op : BitVec 7) (h : i.opcode ops = some op) :
    i.wellFormed ops = true ↔ ∀ j ∈ i.earlierRows, j.opcode ops ≠ some op := by
  simp [Instr.wellFormed, Instr.opcodeSet, Instr.notShadowed, h]

end Sys2Proof
end

