-- ==== Sys2Proof/Laws/Events.lean ====
section
/-! SUPPORT. What each event can do, once: the reception of a frame, the events that are not frames, and the facade
operations as single updates of the record. -/

namespace Sys2Proof.Machine

/-! ### Facade operations -/

/-- An admitted event that its handler answers. -/
theorem deliver_ok (s t : State) (e : Event) (ha : s.admitted) (h : handleEvent e s = .ok t) :
    (deliver e s).toOutcome = .next t := by
  unfold deliver; rw [admit_eq_ok s ha, Result.ok_bind, h]; rfl

theorem refreshGeometry_eq (s : State) :
    refreshGeometry s =
      { s with
        flags := { s.flags with diskPresent := s.disk.image.isSome }
        percom := s.refreshedPercom
        geom := s.refreshedGeometry } := by
  unfold refreshGeometry State.refreshedPercom State.refreshedGeometry
  cases s.disk.image <;> rfl

theorem abortCommand_eq (b : Bool) (s : State) (h : s.cmd.code ≠ .none) :
    abortCommand b s =
      { s with
        cmd := s.cmd.ended
        motorOffDeadline := s.motorOffDeadline.map (· + s.elapsed)
        out := s.out ++ extendActions s ++ (if b then [] else [.flushQueue, .endCommand]) ++ [.setActivity false]
        wire :=
          if b then { s.wire with queue := [] }
          else s.wire.after s.now 0 (extendActions s ++ [.flushQueue, .endCommand]) } := by
  unfold abortCommand
  rw [if_pos (by simp [State.active, h])]
  cases hm : s.motorOffDeadline with
  | none =>
    cases b <;> apply State.ext_fields <;>
      simp [extendMotorTimeoutBy, extendActions, hm, clearCommand, ActiveCommand.ended, State.emit, Wire.push]
  | some d =>
    by_cases he : 0 < s.elapsed
    · cases b <;> apply State.ext_fields <;>
        simp [extendMotorTimeoutBy, extendMotorTimeoutTo, extendActions, hm, he, clearCommand,
          ActiveCommand.ended, State.emit, Wire.push]
    · have he2 : s.elapsed = 0 := Nat.eq_zero_of_not_pos he
      cases b <;> apply State.ext_fields <;>
        simp [extendMotorTimeoutBy, extendMotorTimeoutTo, extendActions, hm, he2, clearCommand,
          ActiveCommand.ended, State.emit, Wire.push]

theorem turnOffMotor_eq (s : State) :
    turnOffMotor s =
      { s with
        rot := if s.motorRunning then (advanceToNow s).rot else s.rot
        motorOffDeadline := none
        out := s.out ++ motorOffActions s } := by
  unfold turnOffMotor motorOffActions
  cases h : s.motorOffDeadline with
  | none => apply State.ext_fields <;> simp [State.motorRunning, h]
  | some d =>
    have hm : s.motorRunning = true := by simp [State.motorRunning, h]
    rw [advanceToNow_eq]
    simp only [hm, if_true, emitMotorSound]
    cases hs : s.flags.driveSoundsEnabled <;> apply State.ext_fields <;>
      first | rfl | simp [State.emit, hs, Wire.push]

/-- Aborting the command and then stopping the motor, as `Reset` and `SetEnabled(false)` do, as one update
(42_dispatch.md R216, 49_facade.md R441). -/
theorem turnOffMotor_abortCommand_eq (s : State) :
    turnOffMotor (abortCommand false s) =
      { s with
        rot := if s.motorRunning then (advanceToNow s).rot else s.rot
        cmd := if s.cmd.code = .none then s.cmd else s.cmd.ended
        motorOffDeadline := none
        out := s.out ++ (abortActions s ++ motorOffActions s)
        wire := s.wire.after s.now 0 (abortActions s ++ motorOffActions s) } := by
  have hwire : ∀ w : Wire, w.after s.now 0 (motorOffActions s) = w := by
    intro w; unfold motorOffActions; split
    · split <;> simp [Wire.push]
    · rfl
  by_cases hc : s.cmd.code = .none
  · have hn : abortCommand false s = s := by unfold abortCommand; simp [State.active, hc]
    have ha : abortActions s = [] := by simp [abortActions, State.active, hc]
    rw [hn, turnOffMotor_eq, if_pos hc, ha, List.nil_append, hwire]
  · have hm : ∀ c o w, motorOffActions { s with cmd := c, motorOffDeadline := s.motorOffDeadline.map (· + s.elapsed), out := o, wire := w } = motorOffActions s := by
      intro c o w; cases h : s.motorOffDeadline <;> simp [motorOffActions, State.motorRunning, h]
    have hr : ∀ c o w, (if ({ s with cmd := c, motorOffDeadline := s.motorOffDeadline.map (· + s.elapsed), out := o, wire := w } : State).motorRunning = true then (advanceToNow { s with cmd := c, motorOffDeadline := s.motorOffDeadline.map (· + s.elapsed), out := o, wire := w }).rot else s.rot) = if s.motorRunning = true then (advanceToNow s).rot else s.rot := by
      intro c o w; cases h : s.motorOffDeadline <;> simp [State.motorRunning, h, advanceToNow, State.period, State.prof]
    rw [abortCommand_eq false s hc, turnOffMotor_eq, if_neg hc, hm, hr]
    have ha : abortActions s = extendActions s ++ [.flushQueue, .endCommand, .setActivity false] := by
      simp [abortActions, State.active, hc]
    have hw : s.wire.after s.now 0 (abortActions s ++ motorOffActions s) =
        s.wire.after s.now 0 (extendActions s ++ [.flushQueue, .endCommand]) := by
      rw [Wire.after_append, hwire, ha]
      simp [Wire.after_append, Wire.push]
    rw [hw, ha]
    apply State.ext_fields <;> first | rfl | simp

theorem resetRegisters_eq (s : State) :
    resetRegisters s =
      { s with
        rot := { rotationalCounter := initialRotationOffset s.params s.unit % s.period
                 rotationCount := 0
                 lastUpdateCycle := s.now }
        fdcStatus := s.prof.powerOnFDCStatus
        lastOpError := false
        currentTrack := resetTrack s.params s.prof
        bufferedTrack := none
        lastReadSector := 0
        flags := s.refreshedFlags
        geom := s.refreshedGeometry
        percom := s.refreshedPercom
        phantomCounter := List.replicate s.refreshedGeometry.totalSectors 0
        xferCyclesPerBit := s.prof.cyclesPerSIOBit
        xferCyclesPerByte := s.prof.cyclesPerSIOByte } := by
  unfold resetRegisters
  dsimp only
  rw [refreshGeometry_eq]
  rfl

/-! ### The invariant, and the stores -/

theorem abortCommand_settled (b : Bool) (s : State) (h : s.settled = true) : (abortCommand b s).settled = true := by
  by_cases hc : s.cmd.code = .none
  · have : abortCommand b s = s := by unfold abortCommand; simp [State.active, hc]
    rw [this]; exact h
  · rw [abortCommand_eq b s hc]; exact State.settled_of_idle _ ⟨rfl, rfl, rfl⟩

/-- The invariant reads the command record and the memories only. -/
theorem State.inv_of_same (s t : State) (h : s.Inv) (hc : t.cmd = s.cmd) (hm : t.memoriesWf = s.memoriesWf) : t.Inv := by
  refine ⟨?_, hm.trans h.2⟩
  have := h.1
  unfold State.settled State.active at this ⊢
  rw [hc]; exact this

/-- A reset of the registers keeps the invariant and the stores. -/
theorem resetUnit_ok (s t : State) (h : resetUnit s = .ok t) :
    t.cmd = (abortCommand false s).cmd ∧ t.memoriesWf = s.memoriesWf ∧ SameStores s t := by
  simp only [resetUnit, selectBase, Result.bind_eq_ok, Result.pure_eq, Except.ok.injEq] at h
  obtain ⟨u, hu, rfl⟩ := h
  rw [(requireProfile_ok _ _ hu).1, resetRegisters_eq, turnOffMotor_eq]
  refine ⟨rfl, ?_, ?_⟩
  · simp [State.memoriesWf]
  · simp [SameStores]

theorem Disk.canonical_wf (d : Disk) : d.canonical.dataWf = true := by
  unfold Disk.dataWf Disk.canonical
  cases d.image with
  | none => rfl
  | some img => simp [Memory.normalise_wf]

theorem LogicalCommand.ofNumber_none (n : Nat) (h : LogicalCommand.ofNumber n = some .none) : n = 0 := by
  unfold LogicalCommand.ofNumber at h
  split at h <;> simp_all

/-- A valid blob names a listed state, so what it restores is settled. -/
theorem restoreFields_settled (b : SavedState) (s : State) (hv : b.valid s.params = true) :
    (restoreFields b s).settled = true := by
  simp only [SavedState.valid, Bool.and_eq_true, SavedState.listedState] at hv
  have hl := hv.2
  split at hl
  · simp at hl
  · rename_i c hc
    by_cases hn : c = .none
    · subst hn
      have h0 := LogicalCommand.ofNumber_none _ hc
      refine State.settled_of_idle _ ⟨?_, ?_, ?_⟩
      · simp [restoreFields, hc]
      · simp [restoreFields, h0]
      · have : b.activeCommandState.toNat = 0 := by simpa [LogicalCommand.states] using hl
        exact BitVec.eq_of_toNat_eq this
    · have h0 : b.activeCommand ≠ 0 := by
        intro h; rw [h] at hc; exact hn (by simpa [LogicalCommand.ofNumber] using hc.symm)
      refine State.settled_of_waiting _ ?_ ?_ ?_
      · simpa [restoreFields, hc] using hn
      · simp [restoreFields, h0]
      · simpa [restoreFields, hc] using hl

theorem restore_ok (b : SavedState) (s t : State) (h : restore b s = .ok t) :
    t.cmd = (restoreFields b (dropRunning s)).cmd ∧
      t.memoriesWf = (restoreFields b (dropRunning s)).memoriesWf ∧ t.disk = s.disk := by
  simp only [restore, Result.bind_eq_ok, Result.pure_eq, Except.ok.injEq] at h
  obtain ⟨u, hu, rfl⟩ := h
  rw [(requireProfile_ok _ _ hu).1]
  have hd : (dropRunning s).disk = s.disk := by unfold dropRunning; dsimp only; split <;> simp
  unfold restoreTimers
  dsimp only
  split
  · exact ⟨rfl, rfl, hd⟩
  · exact ⟨rfl, rfl, hd⟩

theorem restoreFields_memoriesWf (b : SavedState) (s : State) (hs : s.disk.dataWf = true) :
    (restoreFields b s).memoriesWf = true := by
  rw [State.memoriesWf_iff]
  exact ⟨Memory.normalise_wf _, Memory.normalise_wf _, Memory.normalise_wf _, hs⟩

theorem loadState_inv (b : SavedState) (s t : State) (h : loadState b s = .ok t) (hi : s.Inv) : t.Inv := by
  unfold loadState at h
  split at h
  · rename_i hv
    obtain ⟨h1, h2, _⟩ := restore_ok b s t h
    have hp : (dropRunning s).params = s.params := by unfold dropRunning; dsimp only; split <;> simp
    have hd : (dropRunning s).disk = s.disk := by unfold dropRunning; dsimp only; split <;> simp
    have hdw : (dropRunning s).disk.dataWf = true := by rw [hd]; exact ((State.memoriesWf_iff s).1 hi.2).2.2.2
    exact State.inv_of_same _ t ⟨restoreFields_settled b (dropRunning s) (by rw [hp]; exact hv),
      restoreFields_memoriesWf b _ hdw⟩ h1 h2
  · injection h with h; subst h; exact hi

/-- The reception of a frame: not handled, or one run of the dispatcher from state 0 of a fresh record. -/
theorem receiveFrame_ok (f : Operands) (op : BitVec 7) (row : Option Row) (s t : State)
    (h : receiveFrame f op row s = .ok t) :
    t = { s with reply := .notHandled } ∨
      ∃ u v : State, processCommand u = .ok v ∧ t = { v with reply := .start } ∧ u.cmd.state = 0 ∧
        u.cmd.waiting = false ∧ SameSpaces s u := by
  simp only [receiveFrame, Result.bind_eq_ok] at h
  obtain ⟨w, hw, h⟩ := h
  rw [(admit_ok _ _ hw).1] at h
  split at h
  · simp only [Result.pure_eq, Except.ok.injEq] at h; exact .inl h.symm
  · split at h
    · simp only [Result.pure_eq, Except.ok.injEq] at h; exact .inl h.symm
    · split at h
      · simp at h
      · simp only [claimFrame, Result.bind_eq_ok, Result.pure_eq, Except.ok.injEq] at h
        obtain ⟨v, hv, rfl⟩ := h
        refine .inr ⟨_, v, hv, rfl, rfl, rfl, ?_⟩
        unfold beginCommand
        rw [advanceToNow_eq]
        exact ⟨rfl, rfl, rfl, rfl⟩

/-- A run of the dispatcher settles. -/
theorem processCommand_settled (s t : State) (h : processCommand s = .ok t)
    (hs : (s.active && !s.cmd.waiting) = true ∨ s.settled = true) : t.settled = true := by
  rcases processCommand_runs s t h with rfl | ⟨_, h⟩ | ⟨_, _, _, h, _⟩
  · rcases hs with hs | hs
    · -- the loop does not stop at a state that is active and does not wait
      have : Machine.processLoop 3 t = .ok t := h
      replace this : processLoop (2 + 1) t = .ok t := this
      unfold processLoop at this
      rw [if_pos hs, Result.bind_eq_ok] at this
      obtain ⟨u, h1, h2⟩ := this
      have ha : t.active = true := by simp_all
      by_contra hn
      have hl : ∀ n a, processLoop n a = .ok t → (t.active && !t.cmd.waiting) = false := by
        intro n
        induction n with
        | zero =>
          intro a hx
          unfold processLoop at hx
          split at hx
          · simp at hx
          · rename_i hg; injection hx with hx; subst hx; simpa using hg
        | succ n ih =>
          intro a hx
          unfold processLoop at hx
          split at hx
          · rw [Result.bind_eq_ok] at hx; obtain ⟨b, _, hb⟩ := hx; exact ih b hb
          · rename_i hg; injection hx with hx; subst hx; simpa using hg
      rw [hl _ _ h2] at hs; simp at hs
    · exact hs
  · exact h
  · exact h

theorem receiveFrame_inv (f : Operands) (op : BitVec 7) (row : Option Row) (s t : State)
    (h : receiveFrame f op row s = .ok t) (hi : s.Inv) : t.Inv := by
  rcases receiveFrame_ok f op row s t h with rfl | ⟨u, v, hv, rfl, h0, hw, hs⟩
  · exact hi
  · refine State.inv_of_same v _ ⟨processCommand_settled u v hv ?_, processCommand_memoriesWf u v hv (hs.wf hi.2)⟩ rfl rfl
    by_cases hc : u.cmd.code = .none
    · exact .inr (State.settled_of_idle u ⟨hc, hw, h0⟩)
    · exact .inl (by simp [State.active, hc, hw])

theorem receiveFrame_stores (f : Operands) (op : BitVec 7) (row : Option Row) (s t : State)
    (h : receiveFrame f op row s = .ok t) : SameStores s t := by
  rcases receiveFrame_ok f op row s t h with rfl | ⟨u, v, hv, rfl, h0, hw, hs⟩
  · exact .refl s
  · have := processCommand_stores u v hv
    rw [h0] at this
    simp at this
    exact ⟨this.1.trans hs.2.2.1, this.2.trans hs.2.2.2⟩

/-- The end of a receive: the transport's queue, and with a command active RECV and the two receive fields. -/
theorem onSerialReceiveComplete_ok (data : List Byte) (ok : Bool) (s t : State)
    (h : onSerialReceiveComplete data ok s = .ok t) :
    ∃ w : Wire, t = { s with wire := w } ∨
      t = { s with
        wire := w
        recvBuf := s.recvBuf.writeBytes s.rxOffset data
        cmd := { s.cmd with rxLen := data.length, rxChecksumOK := ok } } := by
  obtain ⟨u, w, hu, hw⟩ : ∃ (u : State) (w : Wire),
      u = (if s.selfTimed then { s with wire := s.wire.completeReceive s.now } else s) ∧ u = { s with wire := w } := by
    split
    · exact ⟨_, s.wire.completeReceive s.now, rfl, rfl⟩
    · exact ⟨s, s.wire, rfl, rfl⟩
  unfold onSerialReceiveComplete at h
  dsimp only at h
  rw [← hu] at h
  refine ⟨w, ?_⟩
  split at h
  · simp only [Result.bind_eq_ok, requireWithin_eq_ok, Result.pure_eq, Except.ok.injEq] at h
    obtain ⟨v, ⟨_, rfl⟩, rfl⟩ := h
    exact .inr (by rw [hw])
  · simp only [Result.pure_eq, Except.ok.injEq] at h
    subst h
    exact .inl hw

/-- Every meaning is the reception of a frame. -/
theorem exec_receives (i : Instr) (s : State) : ∃ op row, exec i s = (receiveFrame i.operands op row s).toOutcome := by
  cases i <;> exact ⟨_, _, rfl⟩

theorem deliver_next (e : Event) (s t : State) (h : (deliver e s).toOutcome = .next t) : handleEvent e s = .ok t := by
  rw [Result.toOutcome_eq_next] at h
  unfold deliver at h
  rw [Result.bind_eq_ok] at h
  obtain ⟨u, hu, h⟩ := h
  rwa [(admit_ok _ _ hu).1] at h

theorem fence_ok (id : Word32) (s t : State) (h : onSerialFence id s = .ok t) :
    (s.cmd.code = .none ∧ t = s) ∨ (s.cmd.code ≠ .none ∧ processCommand (s.fenced id) = .ok t) := by
  unfold onSerialFence at h
  by_cases hc : s.cmd.code = .none
  · rw [if_neg (by simp [State.active, hc])] at h
    injection h with h; exact .inl ⟨hc, h.symm⟩
  · rw [if_pos (by simp [State.active, hc])] at h
    split at h
    · exact .inr ⟨hc, h⟩
    · exact absurd h (programmingError_ne_ok _ _)

/-- Every event keeps the invariant. -/
theorem handle_inv (e : Event) (s t : State) (h : handle e s = .next t) (hi : s.Inv) : t.Inv := by
  have keep : ∀ t : State, t.cmd = s.cmd → t.sendBuf = s.sendBuf → t.recvBuf = s.recvBuf → t.driveRAM = s.driveRAM → t.disk = s.disk → t.Inv := by
    intro t hc h1 h2 h3 h4
    exact State.inv_of_same s t hi hc (by simp [State.memoriesWf, h1, h2, h3, h4])
  have withDisk : ∀ d : Disk, d.dataWf = true → ({ s with disk := d } : State).Inv := by
    intro d hd
    refine ⟨hi.1, ?_⟩
    have := (State.memoriesWf_iff s).1 hi.2
    rw [State.memoriesWf_iff]; exact ⟨this.1, this.2.1, this.2.2.1, hd⟩
  cases e with
  | serialBeginCommand fr fe de sk =>
    have h : beginFrame fr fe de sk s = .next t := h
    unfold beginFrame at h
    dsimp only at h
    split at h
    · rename_i i _
      obtain ⟨op, row, hx⟩ := exec_receives i (s.withFrame fr fe de sk)
      rw [hx, Result.toOutcome_eq_next] at h
      exact receiveFrame_inv _ _ _ _ _ h hi
    · unfold runUnknown at h
      rw [Result.toOutcome_eq_next] at h
      exact receiveFrame_inv _ _ _ _ _ h hi
  | serialAbortCommand =>
    have h := deliver_next _ _ _ h
    injection h with h; subst h
    exact ⟨abortCommand_settled true s hi.1, SameSpaces.wf (s := s) (by simp [SameSpaces, onSerialAbortCommand]) hi.2⟩
  | serialReceiveComplete id data ok =>
    have h : onSerialReceiveComplete data ok s = .ok t := deliver_next _ _ _ h
    obtain ⟨w, rfl | rfl⟩ := onSerialReceiveComplete_ok _ _ _ _ h
    · exact keep _ rfl rfl rfl rfl rfl
    · have hm := (State.memoriesWf_iff s).1 hi.2
      refine ⟨hi.1, ?_⟩
      rw [State.memoriesWf_iff]
      exact ⟨hm.1, Memory.writeBytes_wf _ _ _ hm.2.1, hm.2.2.1, hm.2.2.2⟩
  | serialFence id =>
    have h : onSerialFence id s = .ok t := deliver_next _ _ _ h
    rcases fence_ok id s t h with ⟨_, rfl⟩ | ⟨hc, h⟩
    · exact hi
    · exact ⟨processCommand_settled _ _ h (.inl (by simp [State.active, State.fenced, hc])), processCommand_memoriesWf _ _ h hi.2⟩
  | serialAccelCommand r =>
    have h := deliver_next _ _ _ h
    injection h with h; subst h; exact keep _ rfl rfl rfl rfl rfl
  | motorOffTimer =>
    have h := deliver_next _ _ _ h
    injection h with h; subst h
    refine keep _ ?_ ?_ ?_ ?_ ?_ <;> simp
  | diskChanged d =>
    have h := deliver_next _ _ _ h
    injection h with h
    have hw := withDisk _ (Disk.canonical_wf d)
    have hset : t.settled = s.settled ∧ t.memoriesWf = ({ s with disk := d.canonical } : State).memoriesWf := by
      subst h; unfold onDiskChanged; rw [refreshGeometry_eq]; dsimp only; split <;> exact ⟨rfl, rfl⟩
    exact ⟨hset.1.trans hi.1, hset.2.trans hw.2⟩
  | writeModeChanged w f =>
    have h := deliver_next _ _ _ h
    injection h with h; subst h
    exact withDisk { s.disk with writeEnabled := w, formatEnabled := f } ((State.memoriesWf_iff s).1 hi.2).2.2.2
  | timingModeChanged a =>
    have h := deliver_next _ _ _ h
    injection h with h; subst h
    exact withDisk { s.disk with accurateTiming := a } ((State.memoriesWf_iff s).1 hi.2).2.2.2
  | audioModeChanged a =>
    have h := deliver_next _ _ _ h
    injection h with h; subst h
    have := withDisk { s.disk with driveSoundsEnabled := a } ((State.memoriesWf_iff s).1 hi.2).2.2.2
    unfold onAudioModeChanged emitMotorSound; dsimp only; split <;> (try split) <;> exact this
  | isImageSupported i =>
    have h := deliver_next _ _ _ h
    injection h with h; subst h; exact keep _ rfl rfl rfl rfl rfl
  | init u m =>
    have h : initUnit u m s = .ok t := deliver_next _ _ _ h
    unfold initUnit at h
    split at h
    · exact absurd h (programmingError_ne_ok _ _)
    · simp only [Result.bind_eq_ok, selectBase] at h
      obtain ⟨v, hv, h⟩ := h
      obtain ⟨h1, h2, _⟩ := resetUnit_ok _ _ h
      have hvi : v.Inv := by
        rw [(requireProfile_ok _ _ hv).1]
        refine ⟨State.settled_of_idle _ ⟨rfl, rfl, rfl⟩, ?_⟩
        rw [State.memoriesWf_iff]; exact ⟨Memory.zero_wf, Memory.zero_wf, Memory.zero_wf, ((State.memoriesWf_iff s).1 hi.2).2.2.2⟩
      exact State.inv_of_same (abortCommand false v) t ⟨abortCommand_settled false v hvi.1, SameSpaces.wf (s := v) (by simp [SameSpaces]) hvi.2⟩ h1 (by rw [h2]; simp [State.memoriesWf])
  | reset =>
    have h : resetUnit s = .ok t := deliver_next _ _ _ h
    obtain ⟨h1, h2, _⟩ := resetUnit_ok _ _ h
    exact State.inv_of_same (abortCommand false s) t ⟨abortCommand_settled false s hi.1, SameSpaces.wf (s := s) (by simp [SameSpaces]) hi.2⟩ h1 (by rw [h2]; simp [State.memoriesWf])
  | setEnabled b =>
    have h := deliver_next _ _ _ h
    injection h with h; subst h
    unfold setEnabled; dsimp only; split
    · exact keep _ rfl rfl rfl rfl rfl
    · rw [turnOffMotor_eq]
      exact ⟨abortCommand_settled false s hi.1, SameSpaces.wf (s := s) (by simp [SameSpaces]) hi.2⟩
  | setEmulationMode m =>
    have h : selectProfile m .base s = .ok t := deliver_next _ _ _ h
    have hs := selectProfile_same _ _ _ _ h
    refine keep t ?_ hs.1 hs.2.1 hs.2.2.1 hs.2.2.2
    unfold selectProfile at h
    split at h
    · exact absurd h (programmingError_ne_ok _ _)
    · split at h
      · simp at h
      · simp only [Except.ok.injEq] at h; subst h; simp
  | saveState =>
    have h := deliver_next _ _ _ h
    injection h with h; subst h; exact keep _ rfl rfl rfl rfl rfl
  | loadState b =>
    have h : loadState b s = .ok t := deliver_next _ _ _ h
    exact loadState_inv b s t h hi
  | setForcedPhantomOrder p k =>
    have h : (.ok (setForcedPhantomOrder p k s) : Result State) = .ok t := deliver_next _ _ _ h
    injection h with h; subst h; exact keep _ rfl rfl rfl rfl rfl
  | setTrackBufferingDisabled b =>
    have h := deliver_next _ _ _ h
    injection h with h; subst h; exact keep _ rfl rfl rfl rfl rfl
  | diskAnswers d =>
    have h := deliver_next _ _ _ h
    injection h with h; subst h
    exact withDisk _ (Disk.canonical_wf d)

end Sys2Proof.Machine
end

