-- ==== Sys2Proof/Laws/Formats.lean ====
section
/-! SUPPORT. The PERCOM block, and state 2 of a format: its failure reply, its payload check and its density update, each
as one update of the record. -/

namespace Sys2Proof.Machine

theorem percomHighByte_toNat (i n : Nat) (h : n < 65536) : (percomHighByte i n).toNat = n / 256 := by
  rw [percomHighByte, if_pos h, BitVec.toNat_ofNat, Nat.mod_eq_of_lt (by omega)]

theorem percomSidesByte_toNat (n : Nat) (h1 : 1 ≤ n) (h2 : n ≤ 256) : (percomSidesByte n).toNat = n - 1 := by
  rw [percomSidesByte, if_pos ⟨h1, h2⟩, BitVec.toNat_ofNat, Nat.mod_eq_of_lt (by omega)]

theorem geometryOfPercom_of (g : Layout) (h : g.representable) : geometryOfPercom (percomOfGeometry g) = g := by
  obtain ⟨h1, h2, h3, h4, h5⟩ := h
  obtain ⟨t, sp, sc, m, b⟩ := g
  simp only at h1 h2 h3 h4 h5
  simp only [geometryOfPercom, percomOfGeometry, beWord, percomHighByte_toNat _ _ h2, percomHighByte_toNat _ _ h5,
    percomSidesByte_toNat _ h3 h4, BitVec.toNat_ofNat, Nat.reducePow, Layout.mk.injEq]
  refine ⟨by omega, by omega, by omega, ?_, by omega⟩
  cases m <;> simp

theorem acceptPercom_percom (d : Percom) (s : State) : (acceptPercom d s).percom = d := by
  unfold acceptPercom applyPercomDensity; dsimp only; split <;> rfl

/-- `FormatFail()` as one update. -/
theorem formatFail_eq (o : Option Byte) (u : State) (hl : u.cmd.len ≤ Config.bufSize) (hc : u.cmd.code ≠ .status) :
    formatFail o u = .ok { u with
      cmd := u.cmd.ended
      fdcStatus := o.getD u.fdcStatus
      lastOpError := true
      sendBuf := u.sendBuf.writeBytes 0 (formatReply u.cmd.len)
      xferCyclesPerBit := (u.rateOf u.cmd.rawCommand u.cmd.highSpeedFlag).1
      xferCyclesPerByte := (u.rateOf u.cmd.rawCommand u.cmd.highSpeedFlag).2
      motorOffDeadline := endDeadline u
      out := u.out ++ (resultActions (u.rateOf u.cmd.rawCommand u.cmd.highSpeedFlag) false
        (dataFrameDelay u.prof u.cmd.highSpeedFlag u.cmd.len) (formatReply u.cmd.len) ++ endActions u)
      wire := u.wire.after u.now 0 (resultActions (u.rateOf u.cmd.rawCommand u.cmd.highSpeedFlag) false
        (dataFrameDelay u.prof u.cmd.highSpeedFlag u.cmd.len) (formatReply u.cmd.len) ++ endActions u) } := by
  have hb : (u.sendBuf.writeBytes 0 (formatReply u.cmd.len)).readBytes 0 u.cmd.len = formatReply u.cmd.len := by
    have := Memory.readBytes_writeBytes u.sendBuf 0 (formatReply u.cmd.len)
    simpa [formatReply] using this
  have hr : ∀ t : State, requireWithin 0 u.cmd.len Config.bufSize t = .ok t := by intro t; simp [requireWithin, hl]
  unfold formatFail
  rw [hr, Result.ok_bind]
  simp only [takeException, sendResult, hr, Result.ok_bind]
  cases o <;>
  simp only [noteStatus, setFdcStatus, fillReply, writeSend, Result.ok_bind, Result.pure_eq, endCommand_eq, sentResult_eq, State.sendBytes, hc, if_false, State.rateOf, State.profileKey, State.prof, endDeadline, endActions, State.motorRunning, List.append_assoc, Wire.after_append, ActiveCommand.ended, Bool.not_false, Option.getD]
  all_goals (simp only [formatReply] at hb; simp only [formatReply, hb]; rfl)

theorem isSkewed_pos (s : State) (h : s.skewed) : isSkewed s = true := by
  have h' : baseOpcode s.cmd.rawCommand = s.params.opcodes.formatSkewed := h
  simp [isSkewed, h']
theorem isSkewed_neg (s : State) (h : ¬s.skewed) : ¬isSkewed s = true := by
  have h' : ¬baseOpcode s.cmd.rawCommand = s.params.opcodes.formatSkewed := h
  simpa [isSkewed] using h'

/-- The state in which the checks of a format's state 2 are made. -/
def formatChecked (s : State) : State :=
  { s with
    cmd := { s.cmd with waiting := false, state := if s.skewed then 3 else 2 }
    xferCyclesPerBit := if s.skewed then (s.rateOf s.cmd.rawCommand s.cmd.highSpeedFlag).1 else s.xferCyclesPerBit
    xferCyclesPerByte := if s.skewed then (s.rateOf s.cmd.rawCommand s.cmd.highSpeedFlag).2 else s.xferCyclesPerByte
    out := s.out ++ formatAckActions s
    wire := s.wire.after s.now 0 (formatAckActions s) }

theorem formatState2_eq (s : State) (hc : s.cmd.code = .format) (hr : s.skewed → s.cmd.rxChecksumOK = true) :
    handler (s.fenced 2) = formatEnabledChecks (formatChecked s) := by
  have h1 : handler (s.fenced 2) = formatState2 (s.fenced 2) := by
    have : (s.fenced 2).cmd.code = .format := hc
    unfold handler; rw [this]; rfl
  rw [h1]
  unfold formatState2
  by_cases hk : s.skewed
  · rw [if_pos (isSkewed_pos (s.fenced 2) hk), if_neg (by simpa [State.fenced] using hr hk)]
    congr 1
    rw [beginTransferACKData_eq]
    simp only [formatChecked, formatAckActions, if_pos hk, State.fenced, State.rateOf, State.profileKey, State.prof]
    rfl
  · rw [if_neg (isSkewed_neg (s.fenced 2) hk)]
    congr 1
    simp only [formatChecked, formatAckActions, if_neg hk, State.fenced, List.append_nil, Wire.after_nil]

theorem setPercomData_accept (d : Percom) (s : State) (h : s.acceptsPercom d) :
    setPercomData d s = (true, { s with
      percom := s.storedPercom d
      geom := if s.prof.writePERCOMChangesDensity then { s.geom with toLayout := geometryOfPercom (s.storedPercom d) } else s.geom
      bufferedTrack := if s.prof.writePERCOMChangesDensity then none else s.bufferedTrack }) := by
  unfold setPercomData State.storedPercom acceptPercom applyPercomDensity
  by_cases hx : s.prof.family = .xf551
  · rw [if_pos hx, if_pos hx]
    cases h : s.prof.writePERCOMChangesDensity <;> (simp only [State.prof] at h; simp [State.prof, h])
  · rw [if_neg hx, if_neg hx, if_pos (h.resolve_left hx)]
    cases h : s.prof.writePERCOMChangesDensity <;> (simp only [State.prof] at h; simp [State.prof, h])

theorem setPercomData_reject (d : Percom) (s : State) (h : ¬s.acceptsPercom d) : setPercomData d s = (false, s) := by
  unfold setPercomData
  simp only [State.acceptsPercom, not_or] at h
  rw [if_neg h.1, if_neg h.2]

theorem formatDensity_accept (s : State) (h : s.skewed → s.acceptsPercom (percomAt s.recvBuf)) :
    formatDensity s = (true, { s with
      percom := s.formatPercom
      geom := if s.skewed ∧ s.prof.writePERCOMChangesDensity = true then { s.geom with toLayout := geometryOfPercom (s.storedPercom (percomAt s.recvBuf)) } else s.geom
      bufferedTrack := if s.skewed ∧ s.prof.writePERCOMChangesDensity = true then none else s.bufferedTrack }) := by
  unfold formatDensity
  by_cases hk : s.skewed
  · simp only [isSkewed_pos s hk, if_true, setPercomData_accept _ _ (h hk)]
    simp only [if_true, State.formatPercom, State.prof, State.defaultPercom, hk]
    by_cases hq : (s.params.profile s.mode s.indusVariant).supportsPERCOM = true
    · simp only [hq]; simp only [show ∀ p : Prop, (s.skewed ∧ p) = p from fun p => propext (and_iff_right hk)]; simp; constructor <;> congr
    · rw [Bool.not_eq_true] at hq; simp only [hq]; simp only [show ∀ p : Prop, (s.skewed ∧ p) = p from fun p => propext (and_iff_right hk)]; simp; constructor <;> congr
  · have hk' : ¬ baseOpcode s.cmd.rawCommand = s.params.opcodes.formatSkewed := hk
    simp only [if_neg (isSkewed_neg s hk), if_true, State.formatPercom, State.prof, false_and, State.defaultPercom, hk', if_false]
    cases (s.params.profile s.mode s.indusVariant).supportsPERCOM <;> simp

theorem formatDensity_reject (s : State) (hk : s.skewed) (h : ¬s.acceptsPercom (percomAt s.recvBuf)) :
    formatDensity s = (false, s) := by
  unfold formatDensity
  simp only [isSkewed_pos s hk, if_true, setPercomData_reject _ _ h]
  simp

theorem formatEnabledChecks_go (s : State) (h1 : s.flags.diskPresent = true) (h2 : s.flags.writeEnabled = true) (h3 : s.flags.formatEnabled = true)
    (h : s.skewed → s.acceptsPercom (percomAt s.recvBuf)) :
    formatEnabledChecks s = .ok { s with
      percom := s.formatPercom
      geom := if s.skewed ∧ s.prof.writePERCOMChangesDensity = true then { s.geom with toLayout := geometryOfPercom (s.storedPercom (percomAt s.recvBuf)) } else s.geom
      bufferedTrack := if s.skewed ∧ s.prof.writePERCOMChangesDensity = true then none else s.bufferedTrack
      cmd := { s.cmd with state := 3 } } := by
  unfold formatEnabledChecks
  rw [formatDensity_accept s h]
  simp [h1, h2, h3, goto]

end Sys2Proof.Machine
end

