-- ==== Sys2Proof/Laws/PerInstr.lean ====
section
/-! SUPPORT. Every instruction is a row of the command table with its own operands (30_encoding.md R118). -/

namespace Sys2Proof.Laws.InTable

/-- The instruction stands in the command table of its operands, and is reachable only if its opcode is set. -/
def Statement (i : Instr) : Prop :=
  i ∈ commandRows i.operands ∧ ∀ ops : Opcodes, i.wellFormed ops = true → (i.opcode ops).isSome = true

/-- The shared argument: the row stands in the table, and well-formedness tests the opcode. -/
theorem of_mem (i : Instr) : Statement i := by
  refine ⟨mem_rows i, fun ops h => ?_⟩
  simp only [Instr.wellFormed, Instr.opcodeSet, Bool.and_eq_true] at h
  exact h.1

theorem status (f : Operands) : Statement (.status f) := of_mem _

theorem read (f : Operands) : Statement (.read f) := of_mem _

theorem put (f : Operands) : Statement (.put f) := of_mem _

theorem write (f : Operands) : Statement (.write f) := of_mem _

theorem format (f : Operands) : Statement (.format f) := of_mem _

theorem formatSkewed (f : Operands) : Statement (.formatSkewed f) := of_mem _

theorem formatBoot (f : Operands) : Statement (.formatBoot f) := of_mem _

theorem readPercom (f : Operands) : Statement (.readPercom f) := of_mem _

theorem writePercom (f : Operands) : Statement (.writePercom f) := of_mem _

theorem getHsIndex (f : Operands) : Statement (.getHsIndex f) := of_mem _

theorem happyQuiet (f : Operands) : Statement (.happyQuiet f) := of_mem _

theorem happyRamtest (f : Operands) : Statement (.happyRamtest f) := of_mem _

theorem happyHeadpos (f : Operands) : Statement (.happyHeadpos f) := of_mem _

theorem happyRpmtest (f : Operands) : Statement (.happyRpmtest f) := of_mem _

theorem indusExecute (f : Operands) : Statement (.indusExecute f) := of_mem _

end Sys2Proof.Laws.InTable
end

