-- ==== Sys2Proof/Laws/Search.lean ====
section
/-! SUPPORT. The search states, the sounds of a retry, and a reply with a weak region. -/

namespace Sys2Proof.Machine

theorem handler_search (s : State) (id : Word32) (hc : s.cmd.code = .read ∨ s.cmd.code = .write) (h1 : 13 ≤ id.toNat) (h2 : id.toNat ≤ 16) :
    handler (s.fenced id) = .ok (rwSearch (s.fenced id)) := by
  have hi : id.toNat = 13 ∨ id.toNat = 14 ∨ id.toNat = 15 ∨ id.toNat = 16 := by omega
  rcases hc with hc | hc
  · have : (s.fenced id).cmd.code = .read := hc
    unfold handler; rw [this]; unfold readHandler; 
    rcases hi with h | h | h | h <;> simp only [show (s.fenced id).cmd.state = id from rfl, h]
  · have : (s.fenced id).cmd.code = .write := hc
    unfold handler; rw [this]; unfold writeHandler; 
    rcases hi with h | h | h | h <;> simp only [show (s.fenced id).cmd.state = id from rfl, h]

theorem emitSeek_eq (base steps : Nat) (s : State) :
    emitSeekSounds base steps s = { s with out := s.out ++ stepActions s base steps, wire := s.wire.after s.now (s.cmd.state + 1) (stepActions s base steps) } := by
  unfold emitSeekSounds stepActions
  split
  · rw [emitAll_eq]
  · simp

theorem after_step (w : Wire) (n : Cycle) (id : Word32) (s : State) (b k : Nat) : w.after n id (stepActions s b k) = w.after n 0 (stepActions s b k) := by
  unfold stepActions
  split
  · generalize hq : seekSounds s.prof b k = as
    have hall : ∀ a ∈ as, ∃ k, a = .seekSound k := by
      subst hq; intro a ha; simp only [seekSounds, List.mem_map] at ha; obtain ⟨i, _, rfl⟩ := ha; exact ⟨_, rfl⟩
    clear hq
    induction as generalizing w with
    | nil => rfl
    | cons a as ih =>
      obtain ⟨k, rfl⟩ := hall a (by simp)
      simp only [Wire.after_cons]
      exact ih _ (fun b hb => hall b (by simp [hb]))
  · rfl

theorem Memory.read_writeBytes_add (m : Memory) (a i : Nat) (bytes : List Byte) (h : i < bytes.length) :
    (m.writeBytes a bytes).read (a + i) = bytes[i] := by
  rw [Memory.read_writeBytes_mem _ _ _ _ h]; exact List.getD_eq_getElem _ _ h

theorem weaken_length (p : Params) (r : Word32) (l : List Byte) : (weaken p r l).1.length = l.length := by
  induction l generalizing r with
  | nil => rfl
  | cons a l ih => simp [weaken, ih]

theorem Memory.readBytes_tail (m : Memory) (b : List Byte) (o n : Nat) (h : b.length = n) : (m.writeBytes 0 b).readBytes o (n - o) = b.drop o := by
  apply List.ext_getElem
  · simp [Memory.readBytes, h]
  · intro i h1 h2
    have hi : i < n - o := by simpa [Memory.readBytes] using h1
    simp only [Memory.readBytes, List.getElem_map, List.getElem_range', List.getElem_drop, Nat.one_mul]
    have := Memory.read_writeBytes_add m 0 (o + i) b (by omega)
    simpa using this

end Sys2Proof.Machine
end

