-- ==== Sys2Proof/Tests/Slice0.lean ====
section
/-! SUPPORT. Tests. Expected values are those of 95_test_vectors.md, or worked out by hand from the rule a comment names;
the last part shows, for every statement with hypotheses, a state and operands that meet them. -/

namespace Sys2Proof.Machine.Tests

/-! ### Helpers -/

/-- Operands of a frame for unit 0. -/
def d1 (aux1 aux2 : Byte) : Operands := ⟨0x31, false, aux1, aux2⟩

/-- OPEN opcodes set to values no fixed row has (test values, no claim about a drive). -/
def ops : Opcodes :=
  { Opcodes.spec with
    formatBoot := some 0x40, happyQuiet := some 0x41, happyRamtest := some 0x42, happyHeadpos := some 0x43,
    happyRpmtest := some 0x44, indusExecute := some 0x45 }

/-- An enabled unit 0 after reset in a mode of `Defaults.columns`: 3 is T810, 4 is T1050. -/
def drive (mode : Nat) : State :=
  { State.reset with
    enabled := true
    mode := mode
    fdcStatus := (Defaults.params.getProfile mode).powerOnFDCStatus
    currentTrack := resetTrack Defaults.params (Defaults.params.getProfile mode)
    params := { Defaults.params with opcodes := ops } }

/-- A clean 128-byte FM copy at a rotational position. -/
def copyAt (num den : Nat) (status : Byte) : PhysSector :=
  { rotPos := ⟨num, den⟩, fdcStatus := status, weakOffset := none, physSize := 128, mfm := false,
    data := Memory.zero, readError := false, writeError := false }

/-- The layout of IMG1. -/
def layout1 : Layout := ⟨40, 18, 1, false, 128⟩

/-- An image with IMG1's geometry and the given copies, all of sector 1; sector 2 has none. -/
def image (phys : List PhysSector) : Image :=
  { geometry := { toLayout := layout1, totalSectors := 720, bootSectorCount := 3, highDensity := false }
    virt := [⟨0, phys.length⟩, ⟨0, 0⟩]
    phys := phys }

/-- The unit with an image mounted, writable and format-enabled. -/
def mounted (s : State) (img : Image) : State :=
  { s with
    disk := { image := some img, writeEnabled := true, formatEnabled := true, accurateTiming := true,
              driveSoundsEnabled := false, formatError := false }
    flags := { s.flags with diskPresent := true, writeEnabled := true, formatEnabled := true }
    geom := img.geometry
    phantomCounter := [0, 0]
    forcedOrder := img.phys.map (fun _ => 0) }

/-- A unit with a command waiting on a fence. -/
def during (s : State) (code : LogicalCommand) (state : Word32) (sector : Word16) : State :=
  { s with cmd := { s.cmd with
      code := code, state := state, waiting := true, sector := sector, len := 128, isRead := decide (code = .read),
      rxChecksumOK := true, physSize := 128 } }

/-- T810 with one clean copy of sector 1 at 1/4. -/
def one : State := mounted (drive 3) (image [copyAt 1 4 0xFF])

/-- The state with the motor running: off-event at `deadline`, the angle `counter` at `time`. -/
def spinning (s : State) (deadline counter : Nat) (count : Word32) (time : Nat) : State :=
  { s with motorOffDeadline := some deadline, rot := ⟨counter, count, time⟩ }

/-- A property of the next state. -/
def nextHas (o : Host.Outcome State Fault Refusal) (p : State → Bool) : Bool :=
  match o with
  | .next s => p s
  | _ => false

/-- The next state of a frame given as its word. -/
def runWord (s : State) (w : Nat) (p : State → Bool) : Bool := nextHas (step (s.withFetchWord 32 w)) p

/-! ### Well-formedness: each check refuses an ill-formed term -/

theorem test_wf_opcode_unset :
    (Instr.formatBoot (d1 0 0)).opcodeSet Opcodes.spec = false ∧
    (Instr.happyQuiet (d1 0 0)).wellFormed Opcodes.spec = false ∧
    (Instr.indusExecute (d1 0 0)).wellFormed Opcodes.spec = false := by decide

theorem test_wf_shadowed_by_fixed_row :
    (Instr.formatBoot (d1 0 0)).notShadowed { ops with formatBoot := some 0x53 } = false ∧
    (Instr.formatBoot (d1 0 0)).wellFormed { ops with formatBoot := some 0x53 } = false := by decide

theorem test_wf_shadowed_by_open_row :
    (Instr.happyRpmtest (d1 0 0)).wellFormed { ops with happyRpmtest := some 0x41 } = false ∧
    (Instr.happyQuiet (d1 0 0)).wellFormed { ops with happyRpmtest := some 0x41 } = true := by decide

theorem test_wf_accepts :
    ((commandRows (d1 5 0)).all (fun i => i.wellFormed ops)) = true ∧
    ((commandRows (d1 5 0)).filter (fun i => i.wellFormed Opcodes.spec)).length = 9 := by decide

/-! ### Decoding: words written out from the format CF of 30_encoding.md R111 -/

-- V-ENC-1 to V-ENC-5.
theorem test_decode_status : decodeTableWord 32 0b00110001010100110000000000000000 = some (.status (d1 0 0)) := by decide
theorem test_decode_read : decodeTableWord 32 0b00110001010100100000000100000000 = some (.read (d1 1 0)) := by decide
theorem test_decode_write :
    decodeTableWord 32 0b00110001010101111101000000000010 = some (.write (d1 0xD0 0x02)) := by decide
theorem test_decode_put : decodeTableWord 32 0b00110001010100000000010100000000 = some (.put (d1 5 0)) := by decide
theorem test_decode_read_high_speed :
    decodeTableWord 32 0b00110010110100101101000000000010 = some (.read ⟨0x32, true, 0xD0, 0x02⟩) := by decide
-- V-ENC-6, V-ENC-7, V-ENC-9.
theorem test_decode_format_skewed :
    decodeTableWord 32 0b00110001011001100000000000000000 = some (.formatSkewed (d1 0 0)) := by decide
theorem test_decode_format : decodeTableWord 32 0b00110001001000010000000000000000 = some (.format (d1 0 0)) := by decide
theorem test_decode_read_percom :
    decodeTableWord 32 0b00110001010011100000000000000000 = some (.readPercom (d1 0 0)) := by decide
-- R118: opcodes 0x4F and 0x3F.
theorem test_decode_write_percom :
    decodeTableWord 32 0b00110001010011110000000000000000 = some (.writePercom (d1 0 0)) := by decide
theorem test_decode_get_hs_index :
    decodeTableWord 32 0b00110001001111110000000000000000 = some (.getHsIndex (d1 0 0)) := by decide
-- V-ENC-8, and the OPEN rows while their parameters are unset (R118).
theorem test_decode_no_row :
    decodeTableWord 32 0x31220000 = none ∧ decodeTableWord 32 0x31400000 = none ∧
    decode Opcodes.spec [0x31, 0x22, 0, 0] = .error (.noRow 0x22) ∧
    decode ops [0x31, 0x53, 0] = .error (.wrongLength 3) := by decide
-- The OPEN rows with the opcodes of `ops`.
theorem test_decode_open_rows :
    decode ops [0x31, 0x40, 0, 0] = .ok (.formatBoot (d1 0 0)) ∧
    decode ops [0x31, 0x41, 0, 0] = .ok (.happyQuiet (d1 0 0)) ∧
    decode ops [0x31, 0x42, 0, 0] = .ok (.happyRamtest (d1 0 0)) ∧
    decode ops [0x31, 0x43, 0, 0] = .ok (.happyHeadpos (d1 0 0)) ∧
    decode ops [0x31, 0x44, 0, 0] = .ok (.happyRpmtest (d1 0 0)) ∧
    decode ops [0x31, 0xC5, 1, 2] = .ok (.indusExecute ⟨0x31, true, 1, 2⟩) := by decide
-- "if parameters collide the earlier row wins" (R118).
theorem test_decode_collision :
    decode { ops with happyRamtest := some 0x41 } [0x31, 0x41, 0, 0] = .ok (.happyQuiet (d1 0 0)) := by decide
theorem test_encode :
    encode ops (.write ⟨0x32, true, 0xD0, 0x02⟩) = some [0x32, 0xD7, 0xD0, 0x02] ∧
    encode Opcodes.spec (.happyQuiet (d1 0 0)) = none := by decide
-- R114: sector 720 is D0 02.
theorem test_sector_operand : sectorOperand (d1 0xD0 0x02) = 720 := by decide
-- The high-speed window of 26.5, and `CpbOfDivisor(6) = 26`.
theorem test_high_speed_window :
    hsWindowMin ⟨53, 2⟩ = 26 ∧ hsWindowMax ⟨53, 2⟩ = 27 ∧ cpbOfDivisor 6 = 26 ∧
    (drive 0).prof.hsCmdFrameRateLo = 6 ∧ (drive 0).prof.hsCmdFrameRateHi = 6 := by decide

/-! ### Rotation, seek, cylinders -/

theorem test_rot_1 :
    (advanceToNow { spinning (drive 3) 9000000 99000 7 1000 with now := 3500 }).rot = ⟨1500, 8, 3500⟩ := by decide
theorem test_rot_2 :
    (advanceToNow { spinning (drive 3) 9000000 0 0 0 with now := 350000 }).rot = ⟨50000, 3, 350000⟩ := by decide
theorem test_rot_3 :
    (advanceToNow { drive 3 with rot := ⟨42, 5, 10⟩, now := 999999 }).rot = ⟨42, 5, 10⟩ := by decide
theorem test_rot_4 :
    (advanceToNow { spinning (drive 3) 9000000 99999 0xFFFFFFFF 10 with now := 11 }).rot = ⟨0, 0, 11⟩ := by decide
theorem test_rot_5 : getSnapshot { spinning (drive 3) 9000000 99000 7 1000 with now := 3500 } = (1500, 8) := by decide
theorem test_rot_6_fast :
    let s := spinning (drive 3) 9000000 1000 0 0
    let t := warpOrDelay 30000 0 { s with flags := { s.flags with accurateSectorTiming := false } }
    t.rot.rotationalCounter = 31000 ∧ t.out = [.delay 0] := by decide
theorem test_rot_7_accurate :
    let s := spinning (drive 3) 9000000 1000 0 0
    (warpOrDelay 30000 0 s).rot = s.rot ∧ (warpOrDelay 30000 0 s).out = [.delay 30000] := by decide
theorem test_rot_8 :
    let s := spinning (drive 3) 9000000 30000 0 0
    rotWait s 25000 = 95000 ∧ rotWait s 30000 = 0 ∧ rotWait s 75000 = 45000 := by decide
theorem test_seek_1_2 :
    stepCycles (drive 3).prof 3 = (3000, 3) ∧ stepCycles (drive 3).prof (-3) = (3000, 3) ∧
    stepCycles (drive 3).prof 0 = (0, 0) ∧ stepCycles (drive 4).prof 3 = (6000, 4) ∧
    stepCycles (drive 4).prof (-3) = (3000, 3) := by decide
theorem test_seek_3_to_6 :
    seekCycles (drive 3).prof 39 0 = 41000 ∧ seekCycles (drive 3).prof 0 0 = 0 ∧
    seekCycles (drive 4).prof 0 10 = 25000 ∧ trackOf (drive 4).prof 10 = 20 ∧
    seekCycles (drive 4).prof 20 0 = 22000 := by decide
theorem test_cyl :
    [1, 18, 19, 720].map (fun v => defaultCylinderOf 80 layout1 v) = [0, 0, 1, 39] ∧
    [721, 1440].map (fun v => defaultCylinderOf 80 { layout1 with sideCount := 2 } v) = [39, 0] := by decide

/-! ### Sector resolution -/

/-- What a resolution of sector 1 found: the copy or the status, and the counter afterwards. -/
def resolved (s : State) (isRead : Bool) : (Nat ⊕ Byte) × Nat :=
  match resolveSector 1 isRead s with
  | (.found p _, t) => (.inl p, t.phantom 1)
  | (.notFound b, t) => (.inr b, t.phantom 1)

/-- T810, counter 30000, the given copies of sector 1, `phantomCounter[1] = k`. -/
def withCopies (copies : List PhysSector) (k : Nat) : State :=
  { spinning (mounted (drive 3) (image copies)) 9000000 30000 0 0 with phantomCounter := [k, 0] }

/-- The same with fast timing. -/
def fastCopies (copies : List PhysSector) (k : Nat) : State :=
  { withCopies copies k with flags := { (withCopies copies k).flags with accurateSectorTiming := false } }

theorem test_res_1 : resolved (withCopies [copyAt 1 4 0xFF, copyAt 3 4 0xFF] 0) true = (.inl 1, 1) := by decide
theorem test_res_2 : resolved (withCopies [copyAt 1 4 0xFF, copyAt 1 4 0xFF] 0) true = (.inl 0, 1) := by decide
theorem test_res_3 :
    resolved (fastCopies [copyAt 1 4 0xFF, copyAt 3 4 0xFF] 0) true = (.inl 0, 1) ∧
    resolved (fastCopies [copyAt 1 4 0xFF, copyAt 3 4 0xFF] 1) true = (.inl 1, 0) := by decide
theorem test_res_5 : resolved (withCopies [copyAt 1 4 0xE7, copyAt 3 4 0xE7] 0) true = (.inr 0xE7, 0) := by decide
theorem test_res_6 : resolved (withCopies [copyAt 1 4 0xEF, copyAt 3 4 0xFF] 0) true = (.inl 1, 1) := by decide
theorem test_res_7_8 :
    resolved (withCopies [copyAt 1 4 0xEF] 0) true = (.inr 0xEF, 0) ∧
    resolved (withCopies [copyAt 1 4 0xEF] 0) false = (.inl 0, 0) := by decide
theorem test_res_9 :
    resolved (withCopies [{ copyAt 1 4 0xFF with mfm := true }] 0) true = (.inr 0xEF, 0) := by decide
theorem test_res_11 :
    resolved { withCopies [copyAt 1 4 0xFF, copyAt 3 4 0xFF] 0 with forcedOrder := [2, 1] } true = (.inl 1, 1) ∧
    resolved { withCopies [copyAt 1 4 0xFF, copyAt 3 4 0xFF] 1 with forcedOrder := [2, 1] } true =
      (.inl 0, 0) := by decide
-- R248 on the empty array of a loaded record: the counter advances from 0 all the same (log 21).
theorem test_res_short :
    resolved { fastCopies [copyAt 1 4 0xFF, copyAt 3 4 0xFF] 1 with phantomCounter := [] } true = (.inl 0, 1) := by decide

/-! ### Retries, transfers, status, PERCOM, weak bits -/

theorem test_retry_penalty :
    (retryPenalty (drive 3) 1 .missing).1 = 104000 ∧ (retryPenalty (drive 4) 1 .missing).1 = 107000 ∧
    (retryPenalty (drive 3) 1 .dataError).1 = 100000 := by decide
theorem test_xfer_1_to_4 :
    [4, 128, 256, 8192].map (dataFrameDelay (drive 3).prof false) = [404, 528, 656, 8592] := by decide
theorem test_xfer_5_6 :
    let s := { drive 3 with bus := ⟨94, true, 10000, 10200, 0⟩ }
    (beginTransferNAKCommand { s with now := 10250 }).out = [.setTransferRate 94 940, .delay 850, .sendNAK] ∧
    (beginTransferNAKCommand { s with now := 11200 }).out = [.setTransferRate 94 940, .delay 0, .sendNAK] := by decide
theorem test_xfer_7_8 :
    (warpOrDelayFromStopBit 700 (drive 3)).out = [.delay 606] ∧
    (warpOrDelayFromStopBit 50 (drive 3)).out = [.delay 0] := by decide
theorem test_st_1_3 :
    (statusByte0 (drive 4), statusByte1 (drive 4)) = (0x00, 0xDF) ∧
    (let s := spinning one 1 0 0 0
     let t := { s with flags := { s.flags with writeEnabled := false }, lastOpError := true, fdcStatus := 0xBF }
     (statusByte0 t, statusByte1 t) = (0x1C, 0xBF)) := by decide
theorem test_st_4 :
    let p := { Defaults.params with columns := [{ Defaults.t810 with supportsNotReady := true }] }
    statusByte1 { State.reset with params := p } = 0x7F := by decide
theorem test_st_5_6 :
    let s := spinning one 1 0 0 0
    statusByte0 { s with geom := { s.geom with mfm := true, bytesPerSector := 256 } } = 0x30 ∧
    statusByte0 { one with geom := { one.geom with mfm := true } } = 0x80 := by decide
theorem test_percom_accepted :
    percomValid Defaults.percom = true ∧
    percomValid ⟨0x28, 1, 0, 0x1A, 0, 4, 0, 0x80, 0xFF, 0, 0, 0⟩ = true ∧
    percomValid ⟨0x28, 1, 0, 0x12, 1, 4, 1, 0, 0xFF, 0, 0, 0⟩ = true ∧
    percomValid ⟨1, 1, 0xFF, 0xFF, 0, 0, 0x20, 0, 0xFF, 0, 0, 0⟩ = true := by decide
theorem test_percom_rejected :
    percomValid { Defaults.percom with b0 := 0 } = false ∧ percomValid { Defaults.percom with b3 := 0 } = false ∧
    percomValid { Defaults.percom with b4 := 2 } = false ∧
    percomValid ⟨0xFF, 1, 1, 0, 1, 4, 1, 0, 0xFF, 0, 0, 0⟩ = false ∧
    percomValid ⟨0x28, 1, 0, 0x12, 0, 4, 1, 0x90, 0xFF, 0, 0, 0⟩ = false := by decide
theorem test_percom_of_geometry :
    percomOfGeometry layout1 = Defaults.percom ∧ geometryOfPercom Defaults.percom = layout1 ∧
    geometryOfPercom ⟨0x28, 1, 0, 0x12, 1, 4, 1, 0, 0xFF, 0, 0, 0⟩ = ⟨40, 18, 2, true, 256⟩ := by decide
-- R365 on geometries that R28 excludes: the track count modulo 256, free values for the sides and the high byte (log 42).
theorem test_percom_out_of_range :
    let b := percomOfGeometry { layout1 with trackCount := 257, sectorsPerTrack := 65537, sideCount := 0 }
    b.b0 = 1 ∧ b.b2 = Config.unstatedPercomByte 2 65537 ∧ b.b3 = 1 ∧ b.b4 = Config.unstatedPercomByte 4 0 :=
  ⟨rfl, rfl, rfl, rfl⟩
-- R400 with a length of 0: the delay of the base term alone and an empty frame (log 47).
theorem test_send_nothing :
    ((sentResult true 0 one).out.drop 1) = [.sendComplete, .delay 400, .sendData [] true] := by decide
-- R113: the sum is over naturals, so device 0x00 is no unit's with DEVICE_BASE 0x31; a fetched word lowers the base (log 37).
theorem test_device_sum :
    ({ drive 3 with unit := 0xCF } : State).claims ⟨0x00, false, 0, 0⟩ = false ∧
    ({ drive 3 with unit := 0x0E } : State).claims ⟨0x3F, false, 0, 0⟩ = true ∧
    (one.withFetchWord 32 0x20530000).claims ⟨0x20, false, 0, 0⟩ = true ∧
    (one.withFetchWord 32 0x33530000).unit = 2 ∧ (one.withFetchWord 32 0x33530000).params = one.params := by decide
-- R205: an abort with no command active leaves a reply that is still queued (log 48).
theorem test_abort_idle :
    nextHas (handle .serialAbortCommand (one.emit (.delay 500))) (fun t => decide (t = one.emit (.delay 500))) = true := by
  decide
theorem test_lfsr :
    weakLfsrStep Defaults.params 0x00000001 = (0x01, 0x00000111) ∧
    weakLfsrStep Defaults.params 0x00000111 = (0x11, 0x00011111) ∧
    weakLfsrStep Defaults.params 0x00011111 = (0x11, 0x01111111) ∧
    weakLfsrStep Defaults.params 0x01111111 = (0x11, 0x11111110) ∧
    weakLfsrStep Defaults.params 0x80000008 = (0x08, 0x00000800) ∧
    weakLfsrStep Defaults.params 0 = (0, 0) := by decide
theorem test_weak_1 :
    weaken Defaults.params 1 [0xAA, 0xAA] = ([0xAB, 0xBB], 0x00011111) ∧
    weaken Defaults.params 0x00011111 [0xAA, 0xAA] = ([0xBB, 0xBB], 0x11111110) := by decide
theorem test_weak_2 :
    (applyWeakBits 128 128 (drive 3)).weakBitLFSR = 1 ∧
    (applyWeakBits 128 128 (drive 3)).sendBuf = Memory.zero := by decide
-- V-FMT-2: 26 sectors per track on the XF551 become 40 x 18, FM, 128 bytes (R342).
theorem test_format_override :
    formatOverride { drive 5 with cmd := { ActiveCommand.fresh with rawCommand := 0x21 } }
      (geometryOfPercom ⟨0x28, 1, 0, 0x1A, 0, 4, 0, 0x80, 0xFF, 0, 0, 0⟩) = layout1 := by decide

/-! ### Memory -/

theorem test_memory_canonical :
    (((Memory.zero.writeByte 5 7).writeByte 3 1).writeByte 5 0).cells = [(3, 1)] ∧
    ((Memory.zero.writeBytes 2 [1, 0, 3]).readBytes 1 5) = [0, 1, 0, 3, 0] := by decide

/-! ### The motor and saved states -/

theorem test_mot_1 :
    let t := turnOnMotor { drive 3 with now := 1000 }
    t.rot.lastUpdateCycle = 1000 ∧ t.motorOffDeadline = some 3001000 ∧
    t.out = [.setMotorIndicator true, .schedule 3000000] := by decide
theorem test_mot_2 :
    let t := turnOnMotor { spinning (drive 3) 3001000 0 0 1000 with now := 500000 }
    t.motorOffDeadline = some 3500000 ∧ t.out = [.unschedule, .schedule 3000000] := by decide
theorem test_mot_3 :
    nextHas (handle .motorOffTimer { during (spinning one 3001000 0 0 1000) .read 13 1 with now := 3001000 })
      (fun t => decide (t.motorOffDeadline = some 6001000 ∧ t.out = [.schedule 3000000])) = true := by decide
theorem test_mot_4 :
    nextHas (handle .motorOffTimer { spinning one 3001000 0 0 1000 with now := 3001000 })
      (fun t => decide (t.rot = ⟨0, 30, 3001000⟩ ∧ t.motorOffDeadline = none ∧ t.out = [.setMotorIndicator false])) =
      true := by decide
theorem test_mot_5 :
    let s := during (spinning one 3001000 0 0 1000) .read 13 1
    nextHas (handle .serialAbortCommand { s with now := 52000, cmd := { s.cmd with startTime := 2000 } })
      (fun t => decide (t.motorOffDeadline = some 3051000 ∧ t.cmd.code = .none ∧
        t.out = [.unschedule, .schedule 2999000, .setActivity false])) = true := by decide
-- R92, R431: a running motor's sound is called for only when the flag is set.
theorem test_audio_mode :
    nextHas (handle (.audioModeChanged true) (spinning one 3001000 0 0 0)) (fun t => decide (t.out = [.motorSound true])) =
      true ∧
    nextHas (handle (.audioModeChanged false) (spinning one 3001000 0 0 0)) (fun t => decide (t.out = [] ∧
      t.flags.driveSoundsEnabled = false)) = true := by decide
-- V-SAVE-2, V-SAVE-3, V-SAVE-4.
theorem test_save_bounds :
    let b := saveState (drive 3)
    let p := Defaults.params
    b.valid p = true ∧ p.maxIdleTimer = 1073863500 ∧
    ({ b with currentTrack := 65535 }).valid p = false ∧ ({ b with currentTrack := 65534 }).valid p = true ∧
    ({ b with idleTimerRemaining := 1073863500 }).valid p = false ∧
    ({ b with idleTimerRemaining := 1073863499 }).valid p = true ∧
    ({ b with activeCommand := 14 }).valid p = false ∧ ({ b with rotationFraction := ⟨1, 1⟩ }).valid p = false ∧
    ({ b with activeCommand := 2, activeCommandState := 3 }).valid p = false := by decide
-- V-SAVE-1, the record.
theorem test_save_1 :
    let s := during { spinning one 3000000 8696 1 98696 with now := 100000, fdcStatus := 0xFF } .read 20 1
    let b := saveState s
    b.activeCommand = 2 ∧ b.activeCommandState = 20 ∧ b.activeCommandSector = 1 ∧ b.activeCommandElapsed = 100000 ∧
    b.rotationFraction = ⟨10000, 100000⟩ ∧ b.idleTimerRemaining = 2900000 := by decide

/-! ### One step per instruction -/

/-- The actions of V-NAK-1: a rejection at 150, frame end 0, deassert 100. -/
def nakVector : List Action :=
  [.beginCommand, .setActivity true, .setTransferRate 94 940, .delay 850, .sendNAK, .endCommand, .setActivity false]

/-- The unit at 150 with the bus of V-NAK-1. -/
def at150 (s : State) : State := { s with now := 150, bus := ⟨94, true, 0, 100, 0⟩ }

/-- A property of what `exec` answers. -/
def execHas (i : Instr) (s : State) (p : State → Bool) : Bool := nextHas (exec i s) p

-- Program 1, the whole action list.
theorem test_step_status :
    runWord (drive 4) 0x31530000 (fun t => decide (t.out =
      [.beginCommand, .setActivity true, .setTransferRate 94 940, .delay 500, .sendACK, .delay 606,
       .setTransferRate 94 940, .sendComplete, .delay 404, .sendData [0x00, 0xDF, 0xE0, 0x00] true, .endCommand,
       .setActivity false] ∧ t.cmd.code = .none ∧ t.reply = .start)) = true := by decide
-- Program 2, the frame.
theorem test_step_read :
    runWord one 0x31520100 (fun t => decide (t.out =
      [.beginCommand, .setActivity true, .checkSectorBreakpoint 1, .setTransferRate 94 940, .delay 500, .sendACK,
       .setMotorIndicator true, .schedule 3000000, .delay 97256, .insertFence 13] ∧
      t.currentTrack = 0 ∧ t.motorOffDeadline = some 3000000 ∧ t.cmd.len = 128)) = true := by decide
-- V-NAK-2: sector 721, and 720 accepted.
theorem test_read_sector_range :
    execHas (.read (d1 0xD1 0x02)) (at150 one) (fun t => decide (t.out = nakVector)) = true ∧
    execHas (.read (d1 0xD0 0x02)) (at150 one) (fun t => decide (t.cmd.state = 13)) = true := by decide
-- Program 3, the frame; the sector is 1 here.
theorem test_step_put :
    runWord one 0x31500100 (fun t => decide (t.out =
      [.beginCommand, .setActivity true, .checkSectorBreakpoint 1, .setTransferRate 94 940, .delay 500, .sendACK,
       .setTransferRate 94 940, .receiveData 0 128 true, .insertFence 10] ∧ t.cmd.verify = false)) = true := by decide
theorem test_step_write :
    runWord one 0x31570100 (fun t => decide (t.cmd.state = 10 ∧ t.cmd.verify = true ∧ t.motorOffDeadline = none)) =
      true := by decide
-- V-FMT-1, the frame.
theorem test_step_format :
    runWord one 0x31210000 (fun t => decide (t.cmd.state = 2 ∧ t.cmd.waiting = true ∧ t.out =
      [.beginCommand, .setActivity true, .setTransferRate 94 940, .delay 500, .sendACK, .insertFence 2])) = true := by
  decide
-- V-NAK-1 on T810; the payload on a profile with the row.
theorem test_step_format_skewed :
    execHas (.formatSkewed (d1 0 0)) (at150 (drive 3)) (fun t => decide (t.out = nakVector ∧ t.fdcStatus = 0xFF)) = true ∧
    execHas (.formatSkewed (d1 0 0)) (drive 0) (fun t => decide (t.out.drop 5 =
      [.setTransferRate 94 940, .receiveData 0 128 true, .insertFence 2])) = true := by decide
theorem test_step_format_boot :
    execHas (.formatBoot (d1 0 0)) (drive 0) (fun t => decide (t.cmd.code = .format ∧ t.cmd.state = 2)) = true := by
  decide
-- R361: the twelve bytes of 10_state.md R52.
theorem test_step_read_percom :
    execHas (.readPercom (d1 0 0)) (drive 0) (fun t => decide (Action.sendData
      [0x28, 1, 0, 0x12, 0, 0, 0, 0x80, 0xFF, 0, 0, 0] true ∈ t.out)) = true := by decide
theorem test_step_write_percom :
    execHas (.writePercom (d1 0 0)) (drive 0) (fun t => decide (t.out.drop 5 =
      [.setTransferRate 94 940, .receiveData 0 12 true, .insertFence 1])) = true := by decide
-- R370; the index of the column is 6.
theorem test_step_get_hs_index :
    execHas (.getHsIndex (d1 0 0)) (drive 0) (fun t => decide (Action.sendData [6] true ∈ t.out)) = true := by decide
-- R371 to R375: ACK and Complete, and the motor stays off.
theorem test_step_happy :
    [Instr.happyQuiet (d1 0 0), .happyRamtest (d1 0 0), .happyHeadpos (d1 0 0), .happyRpmtest (d1 0 0)].all
      (fun i => execHas i (drive 9) (fun t => decide (t.motorOffDeadline = none ∧ t.out =
        [.beginCommand, .setActivity true, .setTransferRate 94 940, .delay 500, .sendACK, .setTransferRate 94 940,
         .sendComplete, .endCommand, .setActivity false]))) = true := by decide
theorem test_step_indus_execute :
    execHas (.indusExecute (d1 0 0)) (drive 8) (fun t => decide (t.out.drop 5 =
      [.setTransferRate 94 940, .receiveData 0 256 true, .insertFence 1])) = true := by decide
-- V-ENC-8 and V-ENC-10.
theorem test_step_unsupported :
    runWord (drive 3) 0x31220000 (fun t => decide (Action.sendNAK ∈ t.out ∧ t.fdcStatus = 0xFF)) = true ∧
    execHas (.read (d1 1 0)) { one with bus := ⟨26, false, 0, 0, 0⟩ } (fun t => decide (Action.sendNAK ∈ t.out)) = true :=
  by decide
-- V-NAK-5.
theorem test_not_handled :
    execHas (.status ⟨0x32, false, 0, 0⟩) (drive 3) (fun t => decide (t.reply = .notHandled ∧ t.out = [])) = true ∧
    execHas (.status (d1 0 0)) { drive 3 with enabled := false } (fun t => decide (t.reply = .notHandled)) = true := by
  decide

/-! ### Fences: programs 2, 3 and V-FMT-1 -/

theorem test_fence_13 :
    let s := { during (spinning one 3000000 10000 0 0) .read 13 1 with now := 98696 }
    nextHas (handle (.serialFence 13) s) (fun t => decide (t.rot = ⟨8696, 1, 98696⟩ ∧ t.cmd.physPos = 25000 ∧
      t.out = [.delay 16304, .insertFence 20])) = true := by decide
theorem test_fence_20_read :
    let s := during (spinning one 3000000 8696 1 98696) .read 20 1
    nextHas (handle (.serialFence 20) { s with now := 115000, cmd := { s.cmd with physSector := some 0, physPos := 25000 } })
      (fun t => decide (t.rot = ⟨25000, 1, 115000⟩ ∧ t.lastReadSector = 1 ∧ t.out.take 2 =
        [.delay 4396, .readPhysicalSector 0 128] ∧ t.fdcStatus = 0xFF ∧ t.lastOpError = false)) = true := by decide
theorem test_fence_21 :
    let s := { during (spinning one 3000000 25000 1 115000) .read 21 1 with now := 242124 }
    nextHas (handle (.serialFence 21) s) (fun t => decide (t.motorOffDeadline = some 3242124 ∧ t.cmd.code = .none ∧
      t.out = [.endCommand, .unschedule, .schedule 3000000, .setActivity false])) = true := by decide
-- Program 4: the last attempt of T810 and of T1050; sector 2 has no copy here.
theorem test_fence_search_budget :
    nextHas (handle (.serialFence 16) (during (spinning one 3000000 0 0 0) .read 16 2))
      (fun t => decide (t.out = [.delay 200000, .insertFence 20] ∧ t.fdcStatus = 0xEF)) = true ∧
    nextHas (handle (.serialFence 13) (during (spinning (mounted (drive 4) (image [])) 3000000 0 0 0) .read 13 2))
      (fun t => decide (t.out = [.delay 307000, .insertFence 14])) = true := by decide
-- Program 3: a put to a protected disk.
theorem test_fence_20_write_protected :
    let s := during (spinning one 3430000 47696 4 437696) .write 20 1
    let p := { s with now := 440000, flags := { s.flags with writeEnabled := false } }
    nextHas (handle (.serialFence 20) { p with cmd := { p.cmd with physSector := some 0, physPos := 50000 } })
      (fun t => decide (t.fdcStatus = 0xBF ∧ t.motorOffDeadline = some 3440000 ∧ t.out =
        [.setTransferRate 94 940, .sendError, .endCommand, .unschedule, .schedule 3000000, .setActivity false])) =
      true := by decide
-- R318: the payload is stored.
theorem test_fence_20_write :
    let s := during (spinning one 3430000 0 0 0) .write 20 1
    let s := { s with recvBuf := Memory.zero.writeByte 3 0x5A, cmd := { s.cmd with physSector := some 0, len := 4 } }
    nextHas (handle (.serialFence 20) s) (fun t => decide (t.fdcStatus = 0xFF ∧
      (match t.disk.image with
        | some img => (img.phys.map (fun x => x.data.read 3))
        | none => []) = [0x5A])) = true := by decide
-- V-FMT-3 and V-FMT-4.
theorem test_fence_2_refused :
    let s := during one .format 2 0
    nextHas (handle (.serialFence 2) { s with flags := { s.flags with writeEnabled := false } })
      (fun t => decide (t.fdcStatus = 0xBF ∧ Action.sendError ∈ t.out)) = true ∧
    nextHas (handle (.serialFence 2) { s with flags := { s.flags with diskPresent := false } })
      (fun t => decide (t.fdcStatus = 0xEF ∧ Action.sendError ∈ t.out)) = true := by decide
-- V-FMT-1: fence 2 at 1440, and the last track.
theorem test_fence_2_format :
    let s := { during one .format 2 0 with now := 1440 }
    nextHas (handle (.serialFence 2) s) (fun t => decide (t.currentTrack = 0 ∧ t.cmd.state = 4 ∧
      Action.formatDisk layout1 ∈ t.out ∧ Action.delay 97256 ∈ t.out)) = true := by decide
theorem test_fence_4_last :
    let s := { during { one with currentTrack := 38 } .format 4 0 with now := 300 }
    let t39 := { s with cmd := { s.cmd with formatTrack := 39 } }
    nextHas (handle (.serialFence 4) t39) (fun t => decide (t.out = [.delay 3000, .insertFence 4] ∧
      t.currentTrack = 39)) = true := by decide
-- V-NAK-4.
theorem test_fence_10_bad_checksum :
    let s := during one .write 10 1
    nextHas (handle (.serialFence 10) { s with cmd := { s.cmd with rxChecksumOK := false } })
      (fun t => decide (t.out = [.setTransferRate 94 940, .delay 500, .sendNAK, .endCommand, .setActivity false])) =
      true := by decide

/-! ### The next event, and what stops a run -/

/-- The next event and its Cycle. -/
def nextOf (s : State) : Option (Cycle × Event) := s.nextEvent.map (fun c => (c.time, c.event))

-- R476: at one Cycle a transport event goes before a call of the front end, whatever the order of the inbox.
theorem test_next_by_priority :
    nextOf { one with inbox := [⟨5, .reset⟩, ⟨5, .motorOffTimer⟩, ⟨5, .serialAbortCommand⟩] } =
      some (5, .serialAbortCommand) ∧
    nextOf { one with selfTimed := false, inbox := [⟨5, .serialFence 13⟩, ⟨5, .serialReceiveComplete 2 [] true⟩] } =
      some (5, .serialReceiveComplete 2 [] true) := by decide
-- R88: a payload completes a receive of its length, with that receive's id, not before the transport has reached it.
theorem test_receive_matched :
    let s := { one with wire := ⟨0, 940, [.wait 1440, .receive 2 2, .fence 10]⟩ }
    nextOf { s with inbox := [⟨5, .serialReceiveComplete 0 [1] true⟩, ⟨9, .serialReceiveComplete 0 [1, 2] true⟩] } =
      some (1440, .serialReceiveComplete 2 [1, 2] true) ∧
    nextOf { s with inbox := [⟨5, .serialReceiveComplete 0 [1] true⟩] } = none := by decide

/-- The refusal of an outcome. -/
def refusal (o : Host.Outcome State Fault Refusal) : Option Refusal :=
  match o with
  | .refused r => some r
  | _ => none

-- R468: a fence never asked for; a head position at the limit of log 34.
theorem test_fence_not_awaited :
    refusal (handle (.serialFence 20) (during one .read 13 1)) = some (.programmingError .fenceNotAwaited) := by decide
theorem test_track_out_of_range :
    refusal (handle .saveState { one with currentTrack := 131070 }) = some (.programmingError .trackOutOfRange) := by decide
-- V-SAVE-2 accepts track 65534, and the run goes on there, past MAX_TRACKS.
theorem test_track_beyond_table :
    nextHas (handle (.loadState { saveState one with currentTrack := 65534 }) one)
      (fun t => decide (t.currentTrack = 65534) && nextHas (handle .reset t) (fun u => decide (u.currentTrack = 39))) =
      true := by decide
-- R434 on a sector that the image does not have: the entries grow to hold it (log 19).
theorem test_forced_order_grows :
    nextHas (handle (.setForcedPhantomOrder 3 2) one) (fun t => decide (t.forcedOrder = [0, 0, 0, 2])) = true := by decide
-- R81: a listed sector is answered as listed; a listed position outside [0, 1) is replaced by one inside (log 25).
theorem test_phys_sector :
    one.physSector 0 = copyAt 1 4 0xFF ∧
    (mounted (drive 3) (image [copyAt 5 4 0xFF])).physSector 0 =
      { copyAt 5 4 0xFF with rotPos := freePosition 0 0 } := ⟨by decide, rfl⟩
-- A write to a copy that the image does not list changes no listed sector (log 25).
theorem test_set_unlisted (x : PhysSector) : (image [copyAt 1 4 0xFF]).setPhys 7 x = image [copyAt 1 4 0xFF] := rfl
-- R450: a command that has run 100000 cycles, loaded by a unit at Cycle 0, has run 100000 cycles.
theorem test_load_young :
    let s := { during (spinning one 3000000 0 0 0) .read 20 1 with now := 100000 }
    nextHas (handle (.loadState (saveState s)) (drive 3)) (fun t => decide (t.cmd.startTime = -100000 ∧
      t.elapsed = 100000)) = true := by decide
-- R8, R96, R182, R368, R369: each check of the parameters refuses an assignment that breaks it.
theorem test_params_wf :
    let p := Defaults.params
    p.wf = true ∧ ({ p with numModes := 13 }).wf = false ∧ ({ p with defaultPercom := [] }).wf = false ∧
    ({ p with weakLfsrSeed := 0 }).wf = false ∧ ({ p with maxTracks := 65536 }).wf = false ∧
    ({ p with indusExecLen := 8193 }).wf = false ∧
    ({ p with tables := { p.tables with vendorRamWindow := [((9, 1, true), 3969)] } }).wf = false ∧
    ({ p with xf551Geometry1 := layout1 }).wf = false ∧
    ({ p with rawTrackBytesFM := 0 }).wf = false ∧ ({ p with rawTrackBytesMFM := 0 }).wf = false ∧
    ({ p with xf551Geometry0 := { layout1 with trackCount := 256 } }).wf = false ∧
    ({ p with xf551Geometry2 := { layout1 with sideCount := 0 } }).wf = false ∧
    ({ p with tables := { p.tables with xf551Normalize := [({ Defaults.percom with b3 := 26 }, 0)] } }).wf = false := by
  decide
-- R143: the speed parameters are positive.
theorem test_profile_positive :
    let wf := fun c : Column => c.finalize.wf 1073863500
    wf Defaults.t810 = true ∧ wf { Defaults.t810 with cyclesPerSIOByteHighSpeed := 0 } = false ∧
    wf { Defaults.t810 with highSpeedIndex := 0 } = false ∧
    wf { Defaults.t810 with cyclesPerSIOBitHighSpeedF := ⟨0, 1⟩ } = false ∧
    wf { Defaults.t810 with cyclesPerSIOBitHighSpeedF := ⟨14, 1⟩ } = false := by decide
-- R241 for sector 0, which it gives no track: the free value, clamped (log 32).
theorem test_cyl_sector_0 : defaultCylinderOf 80 layout1 0 = min (Config.unstatedTrack 18 0) 79 := rfl
-- R241 beyond both sides: the free value, clamped.
theorem test_cyl_past_end :
    defaultCylinderOf 80 { layout1 with sideCount := 2 } 1441 = min (Config.cylinderPastEnd 40 80) 79 := rfl
-- R241 with a MAX_TRACKS of 0, which R8 leaves possible: the free value (log 46).
theorem test_cyl_no_tracks : defaultCylinderOf 0 layout1 19 = Config.cylinderWithoutTracks 1 % 65535 := rfl

/-! ### Witnesses: states and operands that meet the hypotheses of each statement -/

/-- A Happy unit with a RAM window at sector 0x800 that ends at the end of drive RAM. -/
def windowed : State :=
  { drive 9 with params := { (drive 9).params with tables :=
      { Defaults.params.tables with
        vendorRamWindow := [((9, 0x800, false), 3968), ((9, 0x800, true), 3968)] } } }

/-- A data frame arrived with a bad checksum. -/
def badSum (s : State) : State := { s with cmd := { s.cmd with rxChecksumOK := false } }

/-- A skewed format waiting for state 2. -/
def skewedFormat (s : State) : State :=
  { during s .format 2 0 with cmd := { (during s .format 2 0).cmd with rawCommand := 0x66 } }

/-- A protected disk. -/
def locked (s : State) : State := { s with flags := { s.flags with writeEnabled := false } }

/-- The default PERCOM block has been received. -/
def uploaded (s : State) : State := { s with recvBuf := Memory.zero.writeBytes 0 (percomBytes Defaults.percom) }

theorem witness_StatusResult :
    (drive 3).ready (d1 0 0) ∧ (drive 3).speedAccepted (d1 0 0) := by
  unfold State.ready State.admitted State.speedAccepted; decide

theorem witness_StatusResult_fast :
    let s : State := { drive 0 with bus := ⟨27, false, 0, 0, 0⟩ }
    s.ready ⟨0x31, true, 0, 0⟩ ∧ s.speedAccepted ⟨0x31, true, 0, 0⟩ := by
  unfold State.ready State.admitted State.speedAccepted; decide

theorem witness_ReadPercomResult :
    (drive 0).ready (d1 0 0) ∧ (drive 0).speedAccepted (d1 0 0) ∧ (drive 0).prof.supportsPERCOM = true := by
  unfold State.ready State.admitted State.speedAccepted; decide

theorem witness_HighSpeedIndexResult :
    (drive 0).ready (d1 0 0) ∧ (drive 0).speedAccepted (d1 0 0) ∧
    (drive 0).prof.supportsGetHighSpeedIndex = true := by
  unfold State.ready State.admitted State.speedAccepted; decide

theorem witness_HappyResult :
    (drive 9).ready (d1 0 0) ∧ (drive 9).speedAccepted (d1 0 0) ∧ (drive 9).prof.family = .happy ∧
    [Instr.happyQuiet (d1 0 0), .happyRamtest (d1 0 0), .happyHeadpos (d1 0 0), .happyRpmtest (d1 0 0)].map
      (fun i => i.opcode (drive 9).params.opcodes) = [some 0x41, some 0x42, some 0x43, some 0x44] := by
  unfold State.ready State.admitted State.speedAccepted; decide

theorem witness_ReadSeeks_first :
    one.ready (d1 1 0) ∧ one.speedAccepted (d1 1 0) ∧ one.ramWindowAt (sectorOperand (d1 1 0)) false = none ∧
    one.sectorValid (sectorOperand (d1 1 0)) ∧ cylinderOf one.params one.geom.toLayout (sectorOperand (d1 1 0)).toNat = 0 ∧
    ¬(one.buffers (sectorOperand (d1 1 0)) = true ∧ one.bufferedTrack = some 0) := by
  unfold State.ready State.admitted State.speedAccepted State.sectorValid; refine ⟨?_, ?_, ?_, ?_, rfl, ?_⟩ <;> decide

theorem witness_ReadSeeks_last :
    one.ready (d1 0xD0 2) ∧ one.speedAccepted (d1 0xD0 2) ∧ one.ramWindowAt (sectorOperand (d1 0xD0 2)) false = none ∧
    one.sectorValid (sectorOperand (d1 0xD0 2)) ∧ cylinderOf one.params one.geom.toLayout (sectorOperand (d1 0xD0 2)).toNat = 39 ∧
    ¬(one.buffers (sectorOperand (d1 0xD0 2)) = true ∧ one.bufferedTrack = some 39) := by
  unfold State.ready State.admitted State.speedAccepted State.sectorValid; refine ⟨?_, ?_, ?_, ?_, rfl, ?_⟩ <;> decide

theorem witness_ReadBufferHit :
    let s := { mounted (drive 7) (image [copyAt 1 4 0xFF]) with bufferedTrack := some 0 }
    s.ready (d1 2 0) ∧ s.speedAccepted (d1 2 0) ∧ s.ramWindowAt (sectorOperand (d1 2 0)) false = none ∧
    s.sectorValid (sectorOperand (d1 2 0)) ∧
    cylinderOf s.params s.geom.toLayout (sectorOperand (d1 2 0)).toNat = 0 ∧
    s.buffers (sectorOperand (d1 2 0)) = true ∧ s.bufferedTrack = some 0 := by
  unfold State.ready State.admitted State.speedAccepted State.sectorValid; refine ⟨?_, ?_, ?_, ?_, rfl, ?_, ?_⟩ <;> decide

theorem witness_ReadRamWindow :
    windowed.ready (d1 0 8) ∧ windowed.speedAccepted (d1 0 8) ∧
    windowed.ramWindowAt (sectorOperand (d1 0 8)) false = some 3968 := by
  unfold State.ready State.admitted State.speedAccepted; decide

theorem witness_WriteAccepted :
    one.ready (d1 0xD0 2) ∧ one.speedAccepted (d1 0xD0 2) ∧ one.ramWindowAt (sectorOperand (d1 0xD0 2)) true = none ∧
    one.sectorValid (sectorOperand (d1 0xD0 2)) ∧ xferLen one.geom (sectorOperand (d1 0xD0 2)).toNat ≤ Config.bufSize := by
  unfold State.ready State.admitted State.speedAccepted State.sectorValid; decide

theorem witness_WriteRamWindow :
    windowed.ready (d1 0 8) ∧ windowed.speedAccepted (d1 0 8) ∧
    windowed.ramWindowAt (sectorOperand (d1 0 8)) true = some 3968 := by
  unfold State.ready State.admitted State.speedAccepted; decide

theorem witness_FormatAccepted :
    (drive 0).ready (d1 0 0) ∧ (drive 0).speedAccepted (d1 0 0) ∧
    [Instr.format (d1 0 0), .formatBoot (d1 0 0)].map (fun i => (i.opcode (drive 0).params.opcodes,
      gateOf (drive 0).prof i)) = [(some 0x21, true), (some 0x40, true)] ∧
    (0x21 : BitVec 7) ≠ (drive 0).params.opcodes.formatSkewed ∧ (0x40 : BitVec 7) ≠ (drive 0).params.opcodes.formatSkewed := by
  unfold State.ready State.admitted State.speedAccepted; decide

theorem witness_FormatSkewedAccepted :
    (drive 0).ready (d1 0 0) ∧ (drive 0).speedAccepted (d1 0 0) ∧
    (Instr.formatSkewed (d1 0 0)).opcode (drive 0).params.opcodes = some (drive 0).params.opcodes.formatSkewed ∧
    gateOf (drive 0).prof (.formatSkewed (d1 0 0)) = true := by
  unfold State.ready State.admitted State.speedAccepted; decide

-- The rows of FORMAT and FORMAT_BOOT with their parameters set to FORMAT_SKEWED's opcode.
theorem witness_FormatSkewedAccepted_collision :
    let s := { drive 0 with params := { (drive 0).params with
      opcodes := { ops with format := 0x66, formatBoot := some 0x66 } } }
    s.ready (d1 0 0) ∧ s.speedAccepted (d1 0 0) ∧ [Instr.format (d1 0 0), .formatBoot (d1 0 0)].all (fun i =>
      decide (i.opcode s.params.opcodes = some s.params.opcodes.formatSkewed) && gateOf s.prof i) = true := by
  unfold State.ready State.admitted State.speedAccepted; decide

theorem witness_UploadAccepted_percom :
    (drive 0).ready (d1 0 0) ∧ (drive 0).speedAccepted (d1 0 0) ∧
    (Instr.writePercom (d1 0 0)).opcode (drive 0).params.opcodes = some 0x4F ∧
    gateOf (drive 0).prof (.writePercom (d1 0 0)) = true := by
  unfold State.ready State.admitted State.speedAccepted; decide

theorem witness_UploadAccepted_indus :
    (drive 8).ready (d1 0 0) ∧ (drive 8).speedAccepted (d1 0 0) ∧
    (Instr.indusExecute (d1 0 0)).opcode (drive 8).params.opcodes = some 0x45 ∧
    gateOf (drive 8).prof (.indusExecute (d1 0 0)) = true := by
  unfold State.ready State.admitted State.speedAccepted; decide

theorem witness_FrameRejected_gate :
    (drive 3).ready (d1 0 0) ∧ (drive 3).speedAccepted (d1 0 0) ∧
    ((Instr.formatSkewed (d1 0 0)).opcode (drive 3).params.opcodes).isSome = true ∧
    gateOf (drive 3).prof (.formatSkewed (d1 0 0)) = false := by
  unfold State.ready State.admitted State.speedAccepted; decide

theorem witness_FrameRejected_speed :
    let s : State := { drive 0 with bus := ⟨28, false, 0, 0, 0⟩ }
    let slow : State := { drive 0 with bus := ⟨25, false, 0, 0, 0⟩ }
    s.ready (d1 0 0) ∧ ¬s.speedAccepted (d1 0 0) ∧ slow.ready (d1 0 0) ∧ ¬slow.speedAccepted (d1 0 0) ∧
    (drive 3).ready ⟨0x31, true, 0, 0⟩ ∧ ¬(drive 3).speedAccepted ⟨0x31, true, 0, 0⟩ := by
  unfold State.ready State.admitted State.speedAccepted; decide

theorem witness_FrameRejected_unset :
    let s : State := { drive 0 with params := Defaults.params }
    s.ready (d1 0 0) ∧ s.speedAccepted (d1 0 0) ∧ ((Instr.formatBoot (d1 0 0)).opcode s.params.opcodes).isSome = false := by
  unfold State.ready State.admitted State.speedAccepted; decide

theorem witness_FrameRejected_noRow :
    (drive 3).ready (operandsOf 0x31 0xA2 0 0) ∧
    ∀ i : Instr, i.opcode (drive 3).params.opcodes ≠ some (baseOpcode 0xA2) := by
  refine ⟨by unfold State.ready State.admitted; decide, fun i => ?_⟩
  cases i <;> (simp only [Instr.opcode]; decide)

theorem witness_SectorRejected_disk :
    one.ready (d1 0xD1 2) ∧ one.speedAccepted (d1 0xD1 2) ∧ one.ramWindowAt (sectorOperand (d1 0xD1 2)) false = none ∧
    ¬one.sectorValid (sectorOperand (d1 0xD1 2)) ∧ one.ramWindowAt (sectorOperand (d1 0 0)) true = none ∧
    ¬one.sectorValid (sectorOperand (d1 0 0)) := by
  unfold State.ready State.admitted State.speedAccepted State.sectorValid; decide

theorem witness_SectorRejected_noDisk :
    (drive 3).ready (d1 4 0) ∧ (drive 3).speedAccepted (d1 4 0) ∧
    (drive 3).ramWindowAt (sectorOperand (d1 4 0)) false = none ∧ ¬(drive 3).sectorValid (sectorOperand (d1 4 0)) ∧
    (drive 3).sectorValid (sectorOperand (d1 3 0)) := by
  unfold State.ready State.admitted State.speedAccepted State.sectorValid; decide

theorem witness_OverlapRefused :
    let s := during one .read 13 1
    s.admitted ∧ s.enabled = true ∧
    (Instr.status (d1 0 0)).operands.device.toNat = s.params.deviceBase.toNat + s.unit.toNat ∧ s.cmd.code ≠ .none := by
  unfold State.admitted; decide

-- A head position at the limit of log 34, a profile with no high-speed byte time, a zero seed.
theorem witness_OverlapRefused_stops :
    let far : State := { drive 3 with currentTrack := Config.trackLimit }
    let column := { Defaults.t810 with cyclesPerSIOByteHighSpeed := 0 }
    let bad : State := { drive 0 with params := { (drive 0).params with columns := List.replicate 12 column } }
    let seedless : State := { drive 3 with params := { (drive 3).params with weakLfsrSeed := 0 } }
    far.now < Config.clockLimit ∧ far.params.hasMode far.mode = true ∧ far.prof.wf far.params.maxIdleTimer = true ∧
    far.params.wf = true ∧ Config.trackLimit ≤ far.currentTrack ∧ ({ far with currentTrack := 131069 } : State).admitted ∧
    bad.params.hasMode bad.mode = true ∧ bad.prof.wf bad.params.maxIdleTimer = false ∧
    seedless.params.hasMode seedless.mode = true ∧ seedless.prof.wf seedless.params.maxIdleTimer = true ∧
    seedless.params.wf = false := by
  unfold State.admitted; decide

-- The last: a unit whose device id would not fit a byte.
theorem witness_FrameNotHandled :
    let other := fun (u : Byte) (d : Byte) =>
      let s : State := { drive 3 with unit := u }
      (⟨d, false, 0, 0⟩ : Operands).device.toNat ≠ s.params.deviceBase.toNat + s.unit.toNat
    (drive 3).admitted ∧ other 0 0x32 ∧ other 0xCF 0x00 ∧ ({ drive 3 with unit := 0xCF } : State).admitted ∧
    State.reset.admitted ∧ State.reset.enabled = false := by
  unfold State.admitted; decide

theorem witness_StaleFence :
    (drive 3).admitted ∧ (drive 3).cmd.code = .none ∧
    (let s := during one .read 13 1
     s.admitted ∧ s.cmd.code ≠ .none ∧ ¬(s.cmd.waiting = true ∧ s.cmd.state = 20)) := by
  unfold State.admitted; decide

theorem witness_CommandEnds :
    (during one .read 21 1).awaits 21 ∧ (during one .read 21 1).cmd.code = .read ∧
    (during one .write 60 1).awaits 60 ∧ (during one .write 60 1).cmd.code = .write := by
  unfold State.awaits State.admitted; decide

theorem witness_DataFrameRejected :
    [(badSum (during one .write 10 1), 10), (badSum (during one .write 50 1), 50),
      (badSum (during (drive 0) .writePercom 1 0), 1), (badSum (during (drive 8) .indusExecute 1 0), 1)].map
      (fun p => (p.1.cmd.code, p.2, p.1.cmd.rxChecksumOK)) =
      [(LogicalCommand.write, (10 : Word32), false), (.write, 50, false), (.writePercom, 1, false),
       (.indusExecute, 1, false)] ∧
    (badSum (during one .write 10 1)).awaits 10 ∧ (badSum (during one .write 50 1)).awaits 50 ∧
    (badSum (during (drive 0) .writePercom 1 0)).awaits 1 ∧ (badSum (during (drive 8) .indusExecute 1 0)).awaits 1 := by
  unfold State.awaits State.admitted; decide

theorem witness_DataFrameRejected_format :
    let s := badSum (skewedFormat one)
    s.awaits 2 ∧ s.cmd.rxChecksumOK = false ∧ s.cmd.code = .format ∧ s.skewed := by
  unfold State.awaits State.admitted; decide

theorem witness_WriteSeeks :
    let s := during one .write 10 1
    s.awaits 10 ∧ s.cmd.code = .write ∧ s.cmd.isRead = false ∧ s.cmd.rxChecksumOK = true ∧
    cylinderOf s.params s.geom.toLayout s.cmd.sector.toNat = 0 := by
  unfold State.awaits State.admitted; refine ⟨?_, ?_, ?_, ?_, rfl⟩ <;> decide

theorem witness_SearchMisses_13 :
    let s := during (spinning one 9000000 0 0 0) .read 13 2
    s.awaits 13 ∧ (s.cmd.code = .read ∨ s.cmd.code = .write) ∧ 13 ≤ (13 : Word32).toNat ∧ (13 : Word32).toNat ≤ 16 ∧
    resolveSector s.cmd.sector.toNat s.cmd.isRead (advanceToNow (s.fenced 13)) =
      (.notFound 0xEF, advanceToNow (s.fenced 13)) := by
  unfold State.awaits State.admitted; exact ⟨by decide, by decide, by decide, by decide, rfl⟩

theorem witness_SearchFinds_13 :
    let s := during (spinning one 9000000 0 0 0) .write 13 1
    s.awaits 13 ∧ (s.cmd.code = .read ∨ s.cmd.code = .write) ∧ 13 ≤ (13 : Word32).toNat ∧ (13 : Word32).toNat ≤ 16 ∧
    ∃ u, resolveSector s.cmd.sector.toNat s.cmd.isRead (advanceToNow (s.fenced 13)) =
      (.found 0 (copyAt 1 4 0xFF), u) := by
  unfold State.awaits State.admitted; exact ⟨by decide, by decide, by decide, by decide, _, rfl⟩

theorem witness_SearchMisses_16 :
    let s := during (spinning one 9000000 0 0 0) .read 16 2
    s.awaits 16 ∧ (s.cmd.code = .read ∨ s.cmd.code = .write) ∧ 13 ≤ (16 : Word32).toNat ∧ (16 : Word32).toNat ≤ 16 ∧
    resolveSector s.cmd.sector.toNat s.cmd.isRead (advanceToNow (s.fenced 16)) =
      (.notFound 0xEF, advanceToNow (s.fenced 16)) := by
  unfold State.awaits State.admitted; exact ⟨by decide, by decide, by decide, by decide, rfl⟩

theorem witness_SearchFinds_16 :
    let s := during (spinning one 9000000 0 0 0) .write 16 1
    s.awaits 16 ∧ (s.cmd.code = .read ∨ s.cmd.code = .write) ∧ 13 ≤ (16 : Word32).toNat ∧ (16 : Word32).toNat ≤ 16 ∧
    ∃ u, resolveSector s.cmd.sector.toNat s.cmd.isRead (advanceToNow (s.fenced 16)) =
      (.found 0 (copyAt 1 4 0xFF), u) := by
  unfold State.awaits State.admitted; exact ⟨by decide, by decide, by decide, by decide, _, rfl⟩

theorem witness_ReadServed :
    let s := { during one .read 20 1 with cmd := { (during one .read 20 1).cmd with physSector := some 0 } }
    s.awaits 20 ∧ s.cmd.code = .read ∧ s.cmd.physSector = some 0 ∧ s.cmd.len ≤ Config.bufSize := by
  unfold State.awaits State.admitted; decide

theorem witness_ReadMissing :
    let s := during one .read 20 1
    s.awaits 20 ∧ s.cmd.code = .read ∧ s.cmd.physSector = none ∧ s.cmd.len ≤ Config.bufSize := by
  unfold State.awaits State.admitted; decide

theorem witness_WriteStored :
    let s := { during one .write 20 1 with cmd := { (during one .write 20 1).cmd with physSector := some 0 } }
    s.awaits 20 ∧ s.cmd.code = .write ∧ s.flags.diskPresent = true ∧ s.flags.writeEnabled = true ∧
    s.cmd.physSector = some 0 ∧ s.cmd.len ≤ Config.bufSize := by
  unfold State.awaits State.admitted; decide

theorem witness_WriteRefused :
    (during (drive 3) .write 20 1).awaits 20 ∧ (during (drive 3) .write 20 1).cmd.code = .write ∧
    (during (drive 3) .write 20 1).flags.diskPresent = false ∧ (locked (during one .write 20 1)).awaits 20 ∧
    (locked (during one .write 20 1)).flags.writeEnabled = false ∧ (during one .write 20 1).awaits 20 ∧
    (during one .write 20 1).cmd.physSector = none := by
  unfold State.awaits State.admitted; decide

theorem witness_RamWindowStored :
    let s := { during windowed .write 50 0x800 with
      cmd := { (during windowed .write 50 0x800).cmd with ramAddr := some 3968 } }
    s.awaits 50 ∧ s.cmd.code = .write ∧ s.cmd.rxChecksumOK = true ∧ s.ramAddress = 3968 ∧
    3968 + 128 ≤ s.params.driveRamSize := by
  unfold State.awaits State.admitted; decide

theorem witness_PercomWritten :
    (during (drive 0) .writePercom 1 0).awaits 1 ∧ (during (drive 0) .writePercom 1 0).cmd.code = .writePercom ∧
    (during (drive 0) .writePercom 1 0).cmd.rxChecksumOK = true ∧
    percomValid (percomAt (during (drive 0) .writePercom 1 0).recvBuf) = false ∧
    (uploaded (during (drive 0) .writePercom 1 0)).awaits 1 ∧
    percomValid (percomAt (uploaded (during (drive 0) .writePercom 1 0)).recvBuf) = true ∧
    (during (drive 5) .writePercom 1 0).awaits 1 ∧ (during (drive 5) .writePercom 1 0).prof.family = .xf551 := by
  unfold State.awaits State.admitted; decide

theorem witness_FormatRefused :
    let s := during one .format 2 0
    s.awaits 2 ∧ s.cmd.code = .format ∧ s.cmd.len ≤ Config.bufSize ∧ ¬s.skewed ∧ (locked s).awaits 2 ∧
    (locked s).flags.writeEnabled = false ∧ (during (drive 3) .format 2 0).awaits 2 ∧
    (during (drive 3) .format 2 0).flags.diskPresent = false := by
  unfold State.awaits State.admitted; decide

theorem witness_FormatRefused_skewed :
    let s := skewedFormat (mounted (drive 0) (image [copyAt 1 4 0xFF]))
    s.awaits 2 ∧ s.cmd.code = .format ∧ s.cmd.len ≤ Config.bufSize ∧ s.skewed ∧ s.cmd.rxChecksumOK = true ∧
    ¬s.acceptsPercom (percomAt s.recvBuf) := by
  unfold State.awaits State.admitted State.acceptsPercom; decide

theorem witness_FormatPerformed :
    let s := during one .format 2 0
    s.awaits 2 ∧ s.cmd.code = .format ∧ ¬s.skewed ∧ s.flags.diskPresent = true ∧ s.flags.writeEnabled = true ∧
    s.flags.formatEnabled = true ∧ s.disk.formatError = false := by
  unfold State.awaits State.admitted; decide

theorem witness_FormatPerformed_skewed :
    let s := uploaded (skewedFormat (mounted (drive 0) (image [copyAt 1 4 0xFF])))
    s.awaits 2 ∧ s.cmd.code = .format ∧ s.skewed ∧ s.cmd.rxChecksumOK = true ∧ s.flags.diskPresent = true ∧
    s.flags.writeEnabled = true ∧ s.flags.formatEnabled = true ∧ s.acceptsPercom (percomAt s.recvBuf) ∧
    s.disk.formatError = false := by
  unfold State.awaits State.admitted State.acceptsPercom; decide

theorem witness_FormatThrows :
    let s := { during one .format 2 0 with disk := { one.disk with formatError := true } }
    s.awaits 2 ∧ s.cmd.code = .format ∧ s.cmd.len ≤ Config.bufSize ∧ ¬s.skewed ∧ s.flags.diskPresent = true ∧
    s.flags.writeEnabled = true ∧ s.flags.formatEnabled = true ∧ s.disk.formatError = true := by
  unfold State.awaits State.admitted; decide

theorem witness_FormatTracks :
    let s := { during one .format 4 0 with cmd := { (during one .format 4 0).cmd with formatTrack := 39 } }
    s.awaits 4 ∧ s.cmd.code = .format ∧ s.cmd.formatTrack < s.geom.trackCount := by
  unfold State.awaits State.admitted; decide

theorem witness_FormatReplies :
    let s := { during one .format 4 0 with cmd := { (during one .format 4 0).cmd with formatTrack := 40 } }
    s.awaits 4 ∧ s.cmd.code = .format ∧ s.geom.trackCount ≤ s.cmd.formatTrack ∧ s.cmd.len ≤ Config.bufSize := by
  unfold State.awaits State.admitted; decide

theorem witness_IndusFirmware :
    let s := during (drive 8) .indusExecute 1 0
    s.awaits 1 ∧ s.cmd.code = .indusExecute ∧ s.cmd.rxChecksumOK = true ∧
    (s.params.profile s.mode .base).wf s.params.maxIdleTimer = true ∧
    (s.params.profile s.mode .synchromesh).wf s.params.maxIdleTimer = true ∧
    indusFirmwareClassify s.params (s.recvBytes s.params.indusExecLen) = none ∧
    indusFirmwareClassify { s.params with tables := { Tables.empty with indusClassify := [([1], .synchromesh)] } } [1] =
      some .synchromesh := by
  unfold State.awaits State.admitted; decide

theorem witness_PayloadReceived :
    let s := { during one .write 10 1 with rxOffset := 8191 }
    s.admitted ∧ s.rxOffset + [(0x5A : Byte)].length ≤ Config.bufSize ∧ s.cmd.code ≠ .none ∧
    Config.bufSize < s.rxOffset + [(0x5A : Byte), 0x5B].length ∧ (drive 3).admitted ∧ (drive 3).cmd.code = .none := by
  unfold State.admitted; decide

theorem witness_ResolveChoice_absent :
    (drive 3).flags.diskPresent = false ∧ one.geom.totalSectors < 721 ∧ ¬one.geom.totalSectors < 720 := by
  decide

theorem witness_ResolveChoice_served :
    let s := withCopies [copyAt 1 4 0xFF, copyAt 3 4 0xFF] 0
    s.flags.diskPresent = true ∧ (1 : Nat) ≠ 0 ∧ ¬s.geom.totalSectors < 1 ∧
    s.copies (s.virtSector 1) = [(0, copyAt 1 4 0xFF), (1, copyAt 3 4 0xFF)] ∧
    ∀ c ∈ s.copies (s.virtSector 1), c.eligible s.geom.mfm true = true := by
  decide

theorem witness_ResolveChoice_notServed :
    let s := withCopies [copyAt 1 4 0xE7] 0
    s.flags.diskPresent = true ∧ ¬s.geom.totalSectors < 1 ∧
    s.copies (s.virtSector 1) = [(0, copyAt 1 4 0xE7)] ∧
    ∀ c ∈ s.copies (s.virtSector 1), c.eligible s.geom.mfm true = false := by
  decide

theorem witness_PhantomCycle :
    let s := fastCopies [copyAt 1 4 0xFF, copyAt 3 4 0xFF] 1
    s.flags.diskPresent = true ∧ 1 ≤ s.geom.totalSectors ∧
    s.flags.accurateSectorTiming = false ∧ (∀ b ∈ s.forcedOrder, b = 0) ∧
    s.virtSector 1 = ⟨0, 2⟩ ∧ 0 < (⟨0, 2⟩ : VirtSector).count ∧
    ∀ c ∈ s.copies ⟨0, 2⟩, c.eligible s.geom.mfm true = true := by
  decide

theorem witness_RotationAdvances :
    let s := { spinning one 9000000 99999 0 5 with now := 5 }
    0 < s.period ∧ s.rot.lastUpdateCycle ≤ s.now ∧ s.motorRunning = true ∧
    0 < one.period ∧ one.rot.lastUpdateCycle ≤ one.now ∧ one.motorRunning = false := by
  decide

theorem witness_WarpEquivalence :
    let s := { spinning one 9000000 99999 0 5 with now := 7 }
    0 < s.period ∧ s.motorRunning = true ∧ s.rot.lastUpdateCycle ≤ s.now := by
  decide

theorem witness_StatusBytes :
    (0 : Nat) < 8 ∧ (7 : Nat) < 8 := by
  decide

theorem witness_PercomValidation :
    (drive 0).prof.family ≠ .xf551 ∧ (setPercomData Defaults.percom (drive 0)).1 = true ∧
    (setPercomData { Defaults.percom with b4 := 2 } (drive 0)).1 = false ∧ (drive 5).prof.family = .xf551 ∧
    (drive 5).params.wf = true ∧ 256 * (0x00 : Byte).toNat + (0x1A : Byte).toNat = 26 := by
  decide

theorem witness_GeometryRoundTrip :
    layout1.representable ∧ (⟨255, 65535, 256, true, 65535⟩ : Layout).representable ∧
    (⟨0, 0, 1, false, 0⟩ : Layout).representable := by
  unfold Layout.representable; decide

theorem witness_ProfileFinalized :
    0 < ((drive 0).params.profile 0 .base).cyclesPerSIOBitHighSpeedF.den ∧
    0 < ((drive 8).params.profile 8 .synchromesh).cyclesPerSIOBitHighSpeedF.den := by
  decide

theorem witness_MemoryLaws :
    Memory.zero.wf = true ∧ (4 < 5 ∨ 5 + [(1 : Byte), 2].length ≤ 4) ∧ (7 < 5 ∨ 5 + [(1 : Byte), 2].length ≤ 7) := by
  decide

theorem witness_DiskChanged :
    (drive 3).admitted ∧ ¬((drive 3).cmd.code = .read ∨ (drive 3).cmd.code = .write) ∧ (during one .read 20 1).admitted ∧
    ((during one .read 20 1).cmd.code = .read ∨ (during one .read 20 1).cmd.code = .write) := by
  unfold State.admitted; decide

theorem witness_ModeChanged :
    (drive 3).admitted ∧ (drive 3).params.hasMode 11 = true ∧ (drive 3).params.hasMode 12 = false ∧
    ((drive 3).params.getProfile 11).wf (drive 3).params.maxIdleTimer = true ∧
    (advanceToNow (drive 3)).rot.rotationalCounter < (drive 3).period ∧
    one.admitted ∧ one.forcedOrder.length = 1 := by
  unfold State.admitted; decide

theorem witness_MotorTimer :
    (drive 3).admitted ∧ (drive 3).motorOffDeadline = none ∧ (spinning one 0 0 0 0).admitted ∧
    (spinning one 0 0 0 0).motorOffDeadline ≠ none ∧ (spinning one 0 0 0 0).cmd.code = .none ∧
    (during (spinning one 0 0 0 0) .read 13 1).admitted ∧ (during (spinning one 0 0 0 0) .read 13 1).cmd.code ≠ .none := by
  unfold State.admitted; decide

theorem witness_AbortEvent :
    (drive 3).admitted ∧ (drive 3).cmd.code = .none ∧ (during one .read 13 1).admitted ∧
    (during one .read 13 1).cmd.code ≠ .none := by
  unfold State.admitted; decide

theorem witness_ResetUnit :
    (drive 3).admitted ∧ ((drive 3).params.getProfile (drive 3).mode).wf (drive 3).params.maxIdleTimer = true ∧
    (drive 3).params.numUnits ≤ (15 : Byte).toNat ∧ (14 : Byte).toNat < (drive 3).params.numUnits ∧
    (drive 3).params.hasMode ((some 11).getD 0) = true ∧ (drive 3).params.hasMode ((none : Option Nat).getD 0) = true ∧
    ((drive 3).params.getProfile 11).wf (drive 3).params.maxIdleTimer = true ∧
    ((drive 3).params.getProfile 0).wf (drive 3).params.maxIdleTimer = true := by
  unfold State.admitted; decide

theorem witness_LoadRejected :
    (drive 3).admitted ∧ (drive 3).params.maxIdleTimer ≤ { saveState one with idleTimerRemaining := 1073863500 }.idleTimerRemaining ∧
    (65535 ≤ { saveState one with currentTrack := 65535 }.currentTrack) ∧
    (13 < { saveState one with activeCommand := 14 }.activeCommand) ∧
    (let b := { saveState one with rotationFraction := ⟨1, 1⟩ }; b.rotationFraction.den ≤ b.rotationFraction.num) ∧
    (let b := { saveState one with activeCommand := 2, activeCommandState := 3 }
     LogicalCommand.ofNumber b.activeCommand = some .read ∧ b.activeCommandState.toNat ∉ LogicalCommand.read.states) := by
  unfold State.admitted; decide

theorem witness_SaveLoad :
    let s := during (spinning one 3000000 8696 1 0) .read 20 1
    s.settled = true ∧ s.memoriesWf = true ∧ (drive 3).admitted ∧ (drive 3).params = s.params ∧ (drive 3).mode = s.mode ∧
    (s.params.profile s.mode s.indusVariant).wf s.params.maxIdleTimer = true ∧ (saveState s).valid s.params = true := by
  unfold State.admitted; refine ⟨?_, ?_, ?_, rfl, ?_⟩ <;> decide

theorem witness_SaveLoad_fence :
    let s := { during (spinning one 3000000 8696 1 0) .read 20 1 with
      now := 100, wire := { cursor := 80, cyclesPerByte := 940, queue := [.sync 90, .wait 50, .fence 20] } }
    s.settled = true ∧ s.memoriesWf = true ∧ (drive 3).admitted ∧ (drive 3).mode = s.mode ∧
    (saveState s).valid s.params = true ∧ s.now ≤ 140 ∧ (∀ x, QOp.sync x ∈ s.wire.queue → x ≤ s.now) ∧
    Wire.firstFence s.wire.cursor s.wire.queue = some (140, 20, []) := by
  unfold State.admitted; refine ⟨?_, ?_, ?_, ?_, ?_, ?_, ?_, ?_⟩ <;> first | decide | simp

theorem witness_DecodeEncode :
    (Instr.write ⟨0x3F, true, 0xFF, 0xFF⟩).wellFormed Opcodes.spec = true ∧
    (Instr.indusExecute (d1 0 0)).wellFormed ops = true := by
  decide

theorem witness_EncodeDecode :
    decode ops [0x31, 0xD3, 0, 0] = .ok (.status ⟨0x31, true, 0, 0⟩) ∧ decode ops [0x31, 0xFF, 0, 0] = .error (.noRow 0x7F) ∧
    ([0x31, 0x53, 0] : List Byte).length ≠ 4 := by
  decide

theorem witness_StepRunsInstruction :
    let s := one.withFetchWord 32 0x31520100
    ∃ rest t fr frameEnd deassert skew, s.inbox = ⟨t, .serialBeginCommand fr frameEnd deassert skew⟩ :: rest ∧ t ≤ s.now ∧
      decode s.params.opcodes [fr.device, fr.command, fr.aux1, fr.aux2] = .ok (.read (d1 1 0)) := by
  exact ⟨_, _, _, _, _, _, rfl, by decide, rfl⟩

theorem witness_EventSettles :
    let s := (during one .read 13 1).fenced 13
    s.active = true ∧ s.cmd.waiting = false ∧ ∃ t, processCommand s = .ok t := by
  exact ⟨by decide, by decide, _, rfl⟩

theorem witness_StepKeepsInv :
    let s := one.withFetchWord 32 0x31520100
    s.Inv ∧ ∃ t, step s = .next t := by
  unfold State.Inv; exact ⟨by decide, _, rfl⟩

theorem witness_StorageChanges :
    let s := during one .write 50 0x800
    ∃ t, handle (.serialFence 50) { s with cmd := { s.cmd with ramAddr := some 0, rxLen := 128 }, recvBuf := Memory.zero.writeByte 0 1 } = .next t ∧
      t.driveRAM ≠ s.driveRAM := by
  exact ⟨_, rfl, by decide⟩

/-- Byte `a` of the first physical sector. -/
def firstByte (d : Disk) (a : Nat) : Option Byte := d.image.bind (fun img => img.phys[0]?.map (fun x => x.data.read a))

theorem witness_StorageChanges_disk :
    let s := during one .write 20 1
    ∃ t, handle (.serialFence 20)
        { s with cmd := { s.cmd with physSector := some 0, len := 4 }, recvBuf := Memory.zero.writeByte 3 1 } = .next t ∧
      t.disk ≠ s.disk := by
  refine ⟨_, rfl, fun h => absurd (congrArg (fun d => firstByte d 3) h) ?_⟩
  decide

end Sys2Proof.Machine.Tests
end

