-- ==== Sys2Proof/Proofs/Scope.lean ====
section
/-! PROOF. A step is the meaning of the frame's instruction (00_scope.md R12): the next event is handled, a frame that
decodes is executed, and the state it is executed in has taken the event and recorded the frame. -/

namespace Sys2Proof.Machine

/-- With an event due, a step handles it at its Cycle. -/
theorem step_of_nextEvent {s : State} {c : Candidate} (h : s.nextEvent = some c) : step s = handle c.event c.state := by
  simp only [step, h]

/-- A frame that decodes to an instruction is recorded and the instruction executed (30_encoding.md R110, R120). -/
theorem beginFrame_of_decode {f : Frame} {s : State} {i : Instr} (frameEnd deassert skew : Cycle)
    (h : decode s.params.opcodes f.bytes = .ok i) :
    beginFrame f frameEnd deassert skew s = exec i (s.withFrame f frameEnd deassert skew) := by
  have hrec : decode (s.withFrame f frameEnd deassert skew).params.opcodes f.bytes = .ok i := h
  simp only [beginFrame, hrec]

/-- A due command frame at the head of the inbox is what a step begins, with the event taken and no answer given yet. -/
theorem step_of_due_frame {s : State} {t : Cycle} {f : Frame} {frameEnd deassert skew : Cycle} {rest : List TimedEvent}
    (hinbox : s.inbox = ⟨t, .serialBeginCommand f frameEnd deassert skew⟩ :: rest) (hdue : t ≤ s.now) :
    step s = beginFrame f frameEnd deassert skew { s with inbox := rest, reply := .none } :=
  step_of_nextEvent (s.nextEvent_frame t f frameEnd deassert skew rest hinbox hdue)

/-- Settles O56: the step begins the due frame, and taking the event leaves the opcodes it decodes with as they were. -/
theorem stepRunsInstruction : Obligations.StepRunsInstruction := by
  intro s rest t fr frameEnd deassert skew i hinbox hdue hdecode
  calc step s
    _ = beginFrame fr frameEnd deassert skew { s with inbox := rest, reply := .none } := step_of_due_frame hinbox hdue
    _ = exec i (({ s with inbox := rest, reply := .none } : State).withFrame fr frameEnd deassert skew) :=
      beginFrame_of_decode frameEnd deassert skew hdecode

end Sys2Proof.Machine
end

/-! PROOF. The reset state has the invariant (10_state.md R70), and which events change drive RAM and the disk
(10_state.md R62): each kind of event keeps both, or is one of those the spec lets write. -/

namespace Sys2Proof.Machine

/-! ### The reset state -/

/-- Settles O59: no command is active, the cursor is 0, the three memories are zero and no image is mounted. -/
theorem resetInv : Obligations.ResetInv :=
  ⟨State.settled_of_idle State.reset ⟨rfl, rfl, rfl⟩,
    (State.memoriesWf_iff State.reset).2 ⟨Memory.zero_wf, Memory.zero_wf, Memory.zero_wf, rfl⟩⟩

/-! ### Events of the transport -/

/-- An event whose handler always answers leaves that answer. -/
theorem deliver_answer {e : Event} {s t u : State} (h : (deliver e s).toOutcome = .next t)
    (hanswer : handleEvent e s = .ok u) : t = u :=
  Except.ok.inj ((deliver_next e s t h).symm.trans hanswer)

/-- A frame starts a command at state 0, which stores nothing, whether or not its opcode has a row. -/
theorem beginFrame_stores {f : Frame} {frameEnd deassert skew : Cycle} {s t : State}
    (h : beginFrame f frameEnd deassert skew s = .next t) : SameStores s t := by
  have recorded : SameStores s (s.withFrame f frameEnd deassert skew) := ⟨rfl, rfl⟩
  unfold beginFrame at h
  dsimp only at h
  split at h
  · next i _ =>
    obtain ⟨op, row, hexec⟩ := exec_receives i (s.withFrame f frameEnd deassert skew)
    rw [hexec, Result.toOutcome_eq_next] at h
    exact recorded.trans (receiveFrame_stores _ _ _ _ _ h)
  · rw [runUnknown, Result.toOutcome_eq_next] at h
    exact recorded.trans (receiveFrame_stores _ _ _ _ _ h)

/-- A fence resumes the active command at the fence's id, so it writes what the states with that number write. -/
theorem onSerialFence_stores {id : Word32} {s t : State} (h : onSerialFence id s = .ok t) :
    (t.driveRAM = s.driveRAM ∨ s.cmd.code = .write ∧ id = 50) ∧
      (t.disk = s.disk ∨ s.cmd.code = .write ∧ id = 20 ∨ s.cmd.code = .format ∧ (id = 2 ∨ id = 3)) := by
  rcases fence_ok id s t h with ⟨_, rfl⟩ | ⟨_, hrun⟩
  · exact ⟨.inl rfl, .inl rfl⟩
  · exact processCommand_stores (s.fenced id) t hrun

/-- A payload goes to the receive buffer only. -/
theorem onSerialReceiveComplete_stores {data : List Byte} {checksumOK : Bool} {s t : State}
    (h : onSerialReceiveComplete data checksumOK s = .ok t) : SameStores s t := by
  obtain ⟨_, rfl | rfl⟩ := onSerialReceiveComplete_ok _ _ _ _ h <;> exact ⟨rfl, rfl⟩

/-! ### Events of the scheduler, the Disk Interface and the front end -/

theorem abortCommand_stores (fromTransport : Bool) (s : State) : SameStores s (abortCommand fromTransport s) := by
  simp [SameStores]

theorem motorOffTimer_stores (s : State) : SameStores s (motorOffTimer s) := by simp [SameStores]

theorem setEnabled_stores (b : Bool) (s : State) : SameStores s (setEnabled b s) := by
  cases b <;> simp [SameStores, setEnabled]

/-- A change of disk resizes the register files and drops a command's copy; the unit stores nothing itself. -/
theorem onDiskChanged_stores (s : State) : SameStores s (onDiskChanged s) := by
  unfold onDiskChanged
  rw [refreshGeometry_eq]
  dsimp only
  split <;> exact ⟨rfl, rfl⟩

theorem onAudioModeChanged_stores (s : State) : SameStores s (onAudioModeChanged s) := by
  unfold onAudioModeChanged
  dsimp only
  split <;> simp [SameStores]

/-- `Init` clears drive RAM (70_reset_and_hazards.md R500) and leaves the mounted image alone. -/
theorem initUnit_disk {unit : Byte} {configuredMode : Option Nat} {s t : State}
    (h : initUnit unit configuredMode s = .ok t) : t.disk = s.disk := by
  unfold initUnit at h
  split at h
  · exact absurd h (programmingError_ne_ok _ _)
  · simp only [Result.bind_eq_ok, selectBase] at h
    obtain ⟨u, hbase, hreset⟩ := h
    obtain ⟨_, _, _, hdisk⟩ := resetUnit_ok _ _ hreset
    rw [hdisk, (requireProfile_ok _ _ hbase).1]

/-- A saved state carries drive RAM and not the disk (49_facade.md R447). -/
theorem loadState_disk {blob : SavedState} {s t : State} (h : loadState blob s = .ok t) : t.disk = s.disk := by
  unfold loadState at h
  split at h
  · obtain ⟨_, _, hdisk⟩ := restore_ok blob s t h
    exact hdisk
  · cases h
    rfl

/-! ### Every event -/

/-- Settles O60: by the kind of the event. A fence is the only event that runs a storing handler state, `Init` and
`LoadState` the only ones that replace drive RAM, and an event of the Disk Interface brings the disk's new answers. -/
theorem storageChanges : Obligations.StorageChanges := by
  intro s t e h
  have keep {ram disk : Prop} (hs : SameStores s t) :
      (t.driveRAM ≠ s.driveRAM → ram) ∧ (t.disk ≠ s.disk → disk) :=
    ⟨fun hne => absurd hs.1 hne, fun hne => absurd hs.2 hne⟩
  cases e with
  | serialBeginCommand f frameEnd deassert skew => exact keep (beginFrame_stores h)
  | serialAbortCommand =>
    obtain rfl := deliver_answer h rfl
    exact keep (abortCommand_stores true s)
  | serialReceiveComplete id data ok => exact keep (onSerialReceiveComplete_stores (deliver_next _ _ _ h))
  | serialFence id =>
    obtain ⟨hram, hdisk⟩ := onSerialFence_stores (deliver_next _ _ _ h)
    refine ⟨fun hne => ?_, fun hne => ?_⟩
    · obtain ⟨hcode, rfl⟩ := hram.resolve_left hne
      exact .inr (.inr ⟨hcode, rfl⟩)
    · rcases hdisk.resolve_left hne with ⟨hcode, rfl⟩ | ⟨hcode, rfl | rfl⟩
      · exact .inl ⟨hcode, rfl⟩
      · exact .inr (.inl ⟨hcode, .inl rfl⟩)
      · exact .inr (.inl ⟨hcode, .inr rfl⟩)
  | motorOffTimer =>
    obtain rfl := deliver_answer h rfl
    exact keep (motorOffTimer_stores s)
  | setEnabled b =>
    obtain rfl := deliver_answer h rfl
    exact keep (setEnabled_stores b s)
  | reset =>
    obtain ⟨_, _, hstores⟩ := resetUnit_ok s t (deliver_next _ _ _ h)
    exact keep hstores
  | setEmulationMode mode => exact keep (selectProfile_same mode .base s t (deliver_next _ _ _ h)).stores
  | init unit configuredMode =>
    exact ⟨fun _ => .inl ⟨unit, configuredMode, rfl⟩, fun hne => absurd (initUnit_disk (deliver_next _ _ _ h)) hne⟩
  | loadState blob =>
    exact ⟨fun _ => .inr (.inl ⟨blob, rfl⟩), fun hne => absurd (loadState_disk (deliver_next _ _ _ h)) hne⟩
  | diskChanged d =>
    obtain rfl := deliver_answer h rfl
    exact ⟨fun hne => absurd (onDiskChanged_stores (s.withDisk d)).1 hne, fun _ => .inr (.inr (.inl ⟨d, rfl⟩))⟩
  | diskAnswers d =>
    obtain rfl := deliver_answer h rfl
    exact ⟨fun hne => absurd rfl hne, fun _ => .inr (.inr (.inr (.inl ⟨d, rfl⟩)))⟩
  | writeModeChanged w f =>
    obtain rfl := deliver_answer h rfl
    exact ⟨fun hne => absurd rfl hne, fun _ => .inr (.inr (.inr (.inr (.inl ⟨w, f, rfl⟩))))⟩
  | timingModeChanged a =>
    obtain rfl := deliver_answer h rfl
    exact ⟨fun hne => absurd rfl hne, fun _ => .inr (.inr (.inr (.inr (.inr (.inl ⟨a, rfl⟩)))))⟩
  | audioModeChanged a =>
    obtain rfl := deliver_answer h rfl
    exact ⟨fun hne => absurd (onAudioModeChanged_stores _).1 hne,
      fun _ => .inr (.inr (.inr (.inr (.inr (.inr ⟨a, rfl⟩)))))⟩
  | serialAccelCommand _ | isImageSupported _ | saveState | setForcedPhantomOrder _ _ | setTrackBufferingDisabled _ =>
    obtain rfl := deliver_answer h rfl
    exact keep ⟨rfl, rfl⟩

end Sys2Proof.Machine

/-! PROOF. Read after write, the frame of a store, and the canonical form of the byte-addressed spaces
(20_memory.md R80, R82, R83). -/

namespace Sys2Proof.Machine

/-- Settles O45: the laws of the stores, one per clause. Read after write and the frame say which cell a lookup finds
among those below the store, the store's own and those above it; the canonical form of a normalised memory, and that
its bytes are unchanged, are by induction on its cells, each stored in turn. -/
theorem memoryLaws : Obligations.MemoryLaws := by
  intro m a bytes
  exact ⟨m.readBytes_writeBytes a bytes, fun x houtside => m.read_writeBytes_of_not_mem a x bytes houtside,
    m.writeBytes_wf a bytes, m.normalise_wf, m.read_normalise⟩

end Sys2Proof.Machine

/-! PROOF. The encoding of the command frames (30_encoding.md R110 to R118): the decoder answers an instruction exactly
when the bytes are its encoding and the instruction is well formed, and refuses four bytes exactly when their opcode has
no row. -/

namespace Sys2Proof

/-! ### The rows of the command table -/

/-- The row found for an opcode is the instruction with these operands and this opcode that no earlier row shadows. -/
theorem firstRow_commandRows_eq_some {ops : Opcodes} {op : BitVec 7} {f : Operands} {i : Instr} :
    firstRow ops op (commandRows f) = some i ↔
      i.operands = f ∧ i.opcode ops = some op ∧ i.wellFormed ops = true := by
  constructor
  · intro h
    obtain ⟨hmem, hop, hfirst⟩ := firstRow_some _ _ _ _ h
    obtain rfl := operands_of_rows f i hmem
    exact ⟨rfl, hop, (wellFormed_iff ops i op hop).2 hfirst⟩
  · rintro ⟨rfl, hop, hwf⟩
    exact firstRow_of _ _ _ _ (mem_rows i) hop ((wellFormed_iff ops i op hop).1 hwf)

/-- No row is found for an opcode exactly when no instruction has it, whatever its operands. -/
theorem firstRow_commandRows_eq_none {ops : Opcodes} {op : BitVec 7} {f : Operands} :
    firstRow ops op (commandRows f) = none ↔ ∀ i : Instr, i.opcode ops ≠ some op := by
  constructor
  · intro h i
    obtain ⟨j, hmem, hsame⟩ := opcode_same ops i f
    rw [← hsame]
    exact firstRow_none _ _ _ h j hmem
  · intro h
    cases hrow : firstRow ops op (commandRows f) with
    | none => rfl
    | some i => exact absurd (firstRow_commandRows_eq_some.1 hrow).2.1 (h i)

/-! ### The decoder -/

/-- Four bytes decode to an instruction exactly when it is the row found for their opcode. -/
theorem decode_four_eq_ok {ops : Opcodes} {d c a b : Byte} {i : Instr} :
    decode ops [d, c, a, b] = .ok i ↔ firstRow ops (baseOpcode c) (commandRows (operandsOf d c a b)) = some i := by
  cases hrow : firstRow ops (baseOpcode c) (commandRows (operandsOf d c a b)) <;> simp [decode, hrow]

/-- Four bytes are refused only for their opcode, and exactly when no row is found for it. -/
theorem decode_four_eq_error {ops : Opcodes} {d c a b : Byte} {e : DecodeReject} :
    decode ops [d, c, a, b] = .error e ↔
      e = .noRow (baseOpcode c) ∧ ∀ i : Instr, i.opcode ops ≠ some (baseOpcode c) := by
  rw [← firstRow_commandRows_eq_none (f := operandsOf d c a b)]
  cases hrow : firstRow ops (baseOpcode c) (commandRows (operandsOf d c a b)) <;> simp [decode, hrow, eq_comm]

/-- Any other number of bytes is refused by its length (30_encoding.md R112). -/
theorem decode_of_length_ne {ops : Opcodes} {bytes : List Byte} (h : bytes.length ≠ 4) :
    decode ops bytes = .error (.wrongLength bytes.length) := by
  unfold decode
  split
  · exact absurd rfl h
  · rfl

/-! ### The encoder -/

/-- Four bytes are an instruction's encoding exactly when they carry its operands and its opcode: the command byte is its
high-speed bit and its base opcode, and nothing else (30_encoding.md R111). -/
theorem encode_eq_four {ops : Opcodes} {i : Instr} {d c a b : Byte} :
    encode ops i = some [d, c, a, b] ↔ i.operands = operandsOf d c a b ∧ i.opcode ops = some (baseOpcode c) := by
  constructor
  · intro h
    obtain ⟨op, hop, hbytes⟩ := Option.map_eq_some_iff.1 h
    obtain ⟨rfl, rfl, rfl, rfl⟩ : i.operands.device = d ∧ commandByte i.operands.h op = c ∧
        i.operands.aux1 = a ∧ i.operands.aux2 = b := by simpa using hbytes
    rw [operandsOf, highSpeedBit_commandByte, baseOpcode_commandByte]
    exact ⟨rfl, hop⟩
  · rintro ⟨hf, hop⟩
    simp [encode, hf, hop, operandsOf, commandByte_split]

/-- An encoding is four bytes long (30_encoding.md R110). -/
theorem length_of_encode {ops : Opcodes} {i : Instr} {bytes : List Byte} (h : encode ops i = some bytes) :
    bytes.length = 4 := by
  obtain ⟨_, _, rfl⟩ := Option.map_eq_some_iff.1 h
  rfl

/-- An instruction has an encoding as soon as its row's opcode is set. -/
theorem encode_of_wellFormed {ops : Opcodes} {i : Instr} (h : i.wellFormed ops = true) :
    ∃ bytes, encode ops i = some bytes := by
  obtain ⟨op, hop⟩ := Option.isSome_iff_exists.1 ((Laws.InTable.of_mem i).2 ops h)
  exact ⟨_, Option.map_eq_some_iff.2 ⟨op, hop, rfl⟩⟩

/-- The decoder and the encoder are inverse to each other on the well-formed instructions. -/
theorem decode_eq_ok_iff {ops : Opcodes} {bytes : List Byte} {i : Instr} :
    decode ops bytes = .ok i ↔ encode ops i = some bytes ∧ i.wellFormed ops = true := by
  by_cases hlen : bytes.length = 4
  · obtain ⟨d, c, a, b, rfl⟩ := List.length_eq_four.1 hlen
    rw [decode_four_eq_ok, firstRow_commandRows_eq_some, encode_eq_four, and_assoc]
  · rw [decode_of_length_ne hlen]
    exact ⟨nofun, fun h => absurd (length_of_encode h.1) hlen⟩

/-! ### Words of the command table -/

/-- A word that is the encoding of a well-formed instruction decodes to it. -/
theorem decodeTableWord_of_encode {nbits w : Nat} {i : Instr} (hwf : i.wellFormed Opcodes.spec = true)
    (henc : encode Opcodes.spec i = some (frameBytes (tableWord nbits w))) : decodeTableWord nbits w = some i := by
  simp only [decodeTableWord, decode_eq_ok_iff.2 ⟨henc, hwf⟩]

/-- A word whose opcode no row of the table has decodes to none. -/
theorem decodeTableWord_of_noRow {nbits w : Nat}
    (h : firstRow Opcodes.spec (baseOpcode ((tableWord nbits w).extractLsb' 16 8)) (commandRows default) = none) :
    decodeTableWord nbits w = none := by
  have hrefused := (decode_four_eq_error (d := (tableWord nbits w).extractLsb' 24 8)
    (a := (tableWord nbits w).extractLsb' 8 8) (b := (tableWord nbits w).extractLsb' 0 8)).2
    ⟨rfl, firstRow_commandRows_eq_none.1 h⟩
  simp only [decodeTableWord, frameBytes, hrefused]

/-! ### The statements -/

/-- Settles O54: a well-formed instruction has its row's opcode set, so it has an encoding, and the decoder answers every
well-formed instruction for its encoding. -/
theorem decodeEncode : Obligations.DecodeEncode := by
  intro ops i hwf
  obtain ⟨bytes, henc⟩ := encode_of_wellFormed hwf
  exact ⟨bytes, henc, decode_eq_ok_iff.2 ⟨henc, hwf⟩⟩

/-- Settles O55: the decoder answers only for encodings, refuses four bytes only when their opcode has no row, and refuses
any other number of bytes. -/
theorem encodeDecode : Obligations.EncodeDecode := by
  intro ops bytes
  refine ⟨fun i h => decode_eq_ok_iff.1 h, ?_, decode_of_length_ne⟩
  rintro d c a b rfl e h
  exact decode_four_eq_error.1 h

/-- Settles O53: each of the nine words is the encoding of its row with the printed opcodes, and no row has opcode 0. -/
theorem decodedWords : Obligations.DecodedWords := by
  refine ⟨?_, ?_, ?_, ?_, ?_, ?_, ?_, ?_, ?_, decodeTableWord_of_noRow (by decide)⟩
  all_goals exact decodeTableWord_of_encode (by decide) (by decide)

end Sys2Proof

/-! PROOF. The frames a unit does not execute (30_encoding.md R113 to R120): another device's, which changes nothing, and
this unit's that `Decode` rejects, which is answered with a `NAK`. -/

namespace Sys2Proof.Machine

/-! ### Frames of another device or of a disabled unit -/

/-- The reception of a frame the unit does not claim answers `NotHandled` and nothing else (42_dispatch.md R201). -/
theorem receiveFrame_notHandled {s : State} {f : Operands} (op : BitVec 7) (row : Option Row) (had : s.admitted)
    (h : s.enabled = false ∨ f.device.toNat ≠ s.params.deviceBase.toNat + s.unit.toNat) :
    receiveFrame f op row s = .ok { s with reply := .notHandled } := by
  unfold receiveFrame
  rw [admit_eq_ok s had, Result.ok_bind]
  rcases h with hoff | hother
  · rw [if_pos hoff, Result.pure_eq]
  · have hclaims : s.claims f = false := by simp [State.claims, hother]
    rw [if_pos hclaims, Result.pure_eq, ite_self]

/-- Settles O16: every instruction is the reception of its frame, and a frame not claimed leaves the state as it was. -/
theorem frameNotHandled : Obligations.FrameNotHandled := by
  intro s i had h
  obtain ⟨op, row, hexec⟩ := exec_receives i s
  rw [hexec, receiveFrame_notHandled op row had h, Result.toOutcome_ok]

/-! ### What `Decode` rejects -/

/-- An instruction's row has its opcode and its gate (30_encoding.md R118, R119). -/
theorem exec_eq_runRow (i : Instr) (s : State) : ∃ r : Row, exec i s = runRow i.operands r s ∧
    r.opcode = i.opcode s.params.opcodes ∧ r.gate s.prof = gateOf s.prof i := by
  cases i <;> exact ⟨_, rfl, rfl, rfl⟩

/-- A frame that passes `Decode`'s tests of its rate and of its bit 7 has an accepted speed (30_encoding.md R115, R116). -/
theorem speedAccepted_of_frameSpeed {s : State} {f : Operands} {fast : Bool} (hrate : frameSpeed s.prof s.bus = some fast)
    (hbit : (f.h && !s.prof.supportsHighSpeedCmdBit) = false) : s.speedAccepted f := by
  refine ⟨?_, fun hh => by simpa [hh] using hbit⟩
  unfold frameSpeed at hrate
  split at hrate
  · next hstd => exact .inl hstd
  · split at hrate
    · next hwin => exact .inr (by simpa [and_assoc] using hwin)
    · cases hrate

/-- A frame whose base opcode has no row is unsupported, with the speed flags set so far (30_encoding.md R120). -/
theorem decodeRow_none (s : State) (f : Operands) :
    decodeRow s.prof s.bus f.h none = unsupportedAt (s.rejectedSpeed f).1 (s.rejectedSpeed f).2 := by
  unfold decodeRow State.rejectedSpeed
  cases frameSpeed s.prof s.bus with
  | none => rfl
  | some fast => dsimp only; split <;> rfl

/-- A row that is not reached, for the frame's speed, its unset opcode or its closed gate, decodes as no row does. -/
theorem decodeRow_rejected {s : State} {f : Operands} {r : Row}
    (h : ¬(s.speedAccepted f ∧ r.opcode.isSome = true ∧ r.gate s.prof = true)) :
    decodeRow s.prof s.bus f.h (some r) = decodeRow s.prof s.bus f.h none := by
  unfold decodeRow
  cases hrate : frameSpeed s.prof s.bus with
  | none => rfl
  | some fast =>
    dsimp only
    split
    · rfl
    · next hbit =>
      have hspeed := speedAccepted_of_frameSpeed hrate (by simpa using hbit)
      exact if_neg fun hrow => h ⟨hspeed, by simpa using hrow⟩

/-! ### The answer to a rejected frame -/

/-- The unit when the handler of a frame is invoked, with the speed flags `Decode` has set (42_dispatch.md R201, R202). -/
def State.startedAt (s : State) (f : Operands) (op : BitVec 7) (d : Decoded) : State :=
  { s.started f op d.logical d.isRead d.verify with
    cmd := { s.startedCommand f op d.logical d.isRead d.verify with
      highSpeedFlag := d.highSpeedFlag
      highSpeedFrame := d.highSpeedFrame } }

/-- `BeginCommand` on the fresh record of any frame that is claimed. -/
theorem beginCommand_startedAt (s : State) (f : Operands) (op : BitVec 7) (d : Decoded) :
    beginCommand d (commandByte f.h op) (sectorOperand f) ((freshCommand d s).emit .beginCommand) =
      s.startedAt f op d := by
  have hadvance := advanceToNow_of_same ((freshCommand d s).emit .beginCommand) s rfl rfl rfl rfl
  simp only [beginCommand, hadvance]
  simp [State.startedAt, State.started, State.startedCommand, freshCommand, ActiveCommand.fresh, startActions, emit_eq,
    Wire.push]

/-- A claimed frame runs the dispatcher from the record `Decode` and `BeginCommand` leave. -/
theorem receiveFrame_ready {s : State} {f : Operands} (op : BitVec 7) (row : Option Row) (hr : s.ready f) :
    receiveFrame f op row s =
      processCommand (s.startedAt f op (decodeRow s.prof s.bus f.h row)) >>= fun t => .ok { t with reply := .start } := by
  obtain ⟨had, hon, hdevice, hidle⟩ := hr
  have hclaims : s.claims f = true := by simp [State.claims, hdevice]
  have hinactive : s.active = false := by simp [State.active, hidle]
  unfold receiveFrame
  rw [admit_eq_ok s had, Result.ok_bind, if_neg (by simp [hon]), if_neg (by simp [hclaims]), if_neg (by simp [hinactive])]
  simp only [claimFrame, beginCommand_startedAt]
  rfl

/-- The unsupported command is NAKed and ended in its only state (60_exceptions.md R462). -/
theorem processCommand_unsupported {u : State} (hcode : u.cmd.code = .unsupported) (hstate : u.cmd.state = 0)
    (hwait : u.cmd.waiting = false) : processCommand u = .ok (endCommand (beginTransferNAKCommand u)) := by
  have hrun : handler u = .ok (endCommand (beginTransferNAKCommand u)) := by
    simp [handler, hcode, onlyState0, hstate, unsupportedState0, takeException]
  refine processCommand_once u _ hrun (by simp [State.active, hcode]) hwait ?_
  simp [State.active, ActiveCommand.ended]

/-- The `NAK` of a command that has just begun, and its end, as one update of the state before its frame: only the order
in which the actions are joined differs. -/
theorem endCommand_nak_startedAt (s : State) (f : Operands) (op : BitVec 7) (d : Decoded) :
    { endCommand (beginTransferNAKCommand (s.startedAt f op d)) with reply := .start } =
      s.rejected f op d.logical d.isRead d.verify (d.highSpeedFlag, d.highSpeedFrame) := by
  rw [endCommand_eq, beginTransferNAKCommand_eq]
  apply State.ext_fields
  case e_out =>
    dsimp only [State.rejected, rejectActions]
    rw [← List.append_assoc, ← List.append_assoc]
    rfl
  case e_wire =>
    dsimp only [State.rejected, rejectActions]
    rw [Wire.after_append, Wire.after_append]
    rfl
  all_goals rfl

/-- A claimed frame that `Decode` rejects is answered with a `NAK` at the flags it had set (30_encoding.md R117, R120). -/
theorem receiveFrame_rejected {s : State} {f : Operands} (op : BitVec 7) {row : Option Row} (hr : s.ready f)
    (hd : decodeRow s.prof s.bus f.h row = decodeRow s.prof s.bus f.h none) :
    receiveFrame f op row s = .ok (s.rejected f op .unsupported false false (s.rejectedSpeed f)) := by
  rw [receiveFrame_ready op row hr, hd, decodeRow_none, processCommand_unsupported rfl rfl rfl, Result.ok_bind,
    endCommand_nak_startedAt]
  rfl

/-- Settles O13: an instruction whose row is not reached is received as an opcode without a row is, and a frame that
decodes to no instruction is received as one. -/
theorem frameRejected : Obligations.FrameRejected := by
  intro s
  constructor
  case left =>
    intro i hr h
    obtain ⟨r, hexec, hop, hgate⟩ := exec_eq_runRow i s
    rw [← hop, ← hgate] at h
    rw [hexec, runRow, receiveFrame_rejected _ hr (decodeRow_rejected h), hop, Result.toOutcome_ok]
  case right =>
    intro fr frameEnd deassert skew u f hr hnone
    have hready : u.ready f := hr
    have hrefused : decode u.params.opcodes fr.bytes = .error (.noRow (baseOpcode fr.command)) :=
      decode_four_eq_error.2 ⟨rfl, hnone⟩
    have hbegin : handle (.serialBeginCommand fr frameEnd deassert skew) s = runUnknown f (baseOpcode fr.command) u := by
      simp only [handle, beginFrame]
      rw [hrefused]
    rw [hbegin, runUnknown, receiveFrame_rejected _ hready rfl, Result.toOutcome_ok]

end Sys2Proof.Machine

/-! PROOF. Every profile a unit runs comes from `Finalize`, whose derived fields are a ceiling, a floor, and the divisors
that bracket a bit time (40_profile_table.md R148, R149, R151). -/

namespace Sys2Proof

/-- The lower edge of the window is a ceiling: the bit times it admits are those of at least 95 percent. -/
theorem hsWindowMin_le_iff {f : Frac} (hden : 0 < f.den) (n : Nat) :
    hsWindowMin f ≤ n ↔ 95 * f.num ≤ 100 * f.den * n := by
  rw [hsWindowMin, Nat.div_le_iff_le_mul_add_pred (by omega), Nat.add_le_add_iff_right]

/-- The upper edge of the window is a floor: the bit times it admits are those of at most 105 percent. -/
theorem le_hsWindowMax_iff {f : Frac} (hden : 0 < f.den) (n : Nat) :
    n ≤ hsWindowMax f ↔ 100 * f.den * n ≤ 105 * f.num := by
  rw [hsWindowMax, Nat.le_div_iff_mul_le (by omega), Nat.mul_comm n]

/-- `leastDivisor` is the lower adjoint of `cpbOfDivisor`. -/
theorem leastDivisor_le_iff (cpb : Nat) (d : Int) : leastDivisor cpb ≤ d ↔ (cpb : Int) ≤ cpbOfDivisor d := by
  unfold leastDivisor cpbOfDivisor
  omega

/-- `greatestDivisor` is the upper adjoint of `cpbOfDivisor`. -/
theorem le_greatestDivisor_iff (cpb : Nat) (d : Int) : d ≤ greatestDivisor cpb ↔ cpbOfDivisor d ≤ (cpb : Int) := by
  unfold greatestDivisor cpbOfDivisor
  omega

/-- A profile a unit runs is a finalized column: a row of the table, or the Indus GT row with a speed set. -/
theorem Params.profile_eq_finalize (p : Params) (mode : Nat) (v : IndusVariant) :
    ∃ c : Column, p.profile mode v = c.finalize := by
  cases v with
  | base => exact ⟨p.column mode, rfl⟩
  | synchromesh => exact ⟨(p.column p.indusGTMode).override p.indusSync, rfl⟩
  | superSynchromesh => exact ⟨(p.column p.indusGTMode).override p.indusSuperSync, rfl⟩

/-- Settles O44: the profile is a finalized column, and each derived field has the law of the function that computes
it. -/
theorem profileFinalized : Obligations.ProfileFinalized := by
  intro p mode v
  obtain ⟨c, hc⟩ := p.profile_eq_finalize mode v
  rw [hc]
  refine ⟨rfl, fun hden => ⟨?_, ?_⟩, ?_, ?_⟩
  · exact hsWindowMin_le_iff hden
  · exact le_hsWindowMax_iff hden
  · exact leastDivisor_le_iff c.finalize.hsFrameCpbMin
  · exact le_greatestDivisor_iff c.finalize.hsFrameCpbMax

end Sys2Proof

/-! PROOF. The rotation is a function of the cycles that pass, and a seek of the step units between two cylinders
(41_rotation_seek.md R170 to R181). -/

namespace Sys2Proof.Machine

/-! ### The rotation as time passes -/

/-- `d` cycles pass and nothing else happens. -/
def State.pass (d : Nat) (s : State) : State := { s with now := s.now + d }

@[simp] theorem pass_rot (d : Nat) (s : State) : (s.pass d).rot = s.rot := rfl
@[simp] theorem pass_now (d : Nat) (s : State) : (s.pass d).now = s.now + d := rfl
@[simp] theorem pass_period (d : Nat) (s : State) : (s.pass d).period = s.period := rfl
@[simp] theorem pass_motorRunning (d : Nat) (s : State) : (s.pass d).motorRunning = s.motorRunning := rfl

/-- A turn neither reads nor writes the time of the last update, so turns add up over one. -/
theorem Rotation.turn_stamped_turn (a c : Nat) (t : Cycle) (r : Rotation) {P : Nat} (hP : 0 < P) :
    ({ r.turn P a with lastUpdateCycle := t } : Rotation).turn P c =
      { r.turn P (a + c) with lastUpdateCycle := t } := by
  rw [← Rotation.turn_turn P a c r hP]
  rfl

theorem Rotation.turn_counter_lt (c : Nat) (r : Rotation) {P : Nat} (hP : 0 < P) : (r.turn P c).rotationalCounter < P :=
  Nat.mod_lt _ hP

/-- A turn counts each full period crossed once (R180). -/
theorem Rotation.turn_count (P c : Nat) (r : Rotation) :
    ∃ n, (r.turn P c).rotationCount = r.rotationCount + BitVec.ofNat 32 n ∧
      n * P + (r.turn P c).rotationalCounter = r.rotationalCounter + c :=
  ⟨(r.rotationalCounter + c) / P, rfl, by simp only [turn]; rw [Nat.mul_comm]; exact Nat.div_add_mod _ P⟩

theorem advanceToNow_stopped {s : State} (hm : s.motorRunning = false) : advanceToNow s = s := by
  simp [advanceToNow, hm]

theorem advanceToNow_rot {s : State} (hm : s.motorRunning = true) :
    (advanceToNow s).rot =
      { s.rot.turn s.period (s.now - s.rot.lastUpdateCycle) with lastUpdateCycle := s.now } := by
  simp [advanceToNow, hm]

theorem rotateBy_rot (c : Nat) {s : State} (hm : s.motorRunning = true) :
    (rotateBy c s).rot = s.rot.turn s.period c := by
  simp [rotateBy, hm]

/-- An advance `d` cycles after an advance turns the disk by `d` (R180). -/
theorem advanceToNow_pass_advanceToNow_rot (d : Nat) {s : State} (hm : s.motorRunning = true) :
    (advanceToNow ((advanceToNow s).pass d)).rot =
      { (advanceToNow s).rot.turn s.period d with lastUpdateCycle := s.now + d } := by
  have hlast : (advanceToNow s).rot.lastUpdateCycle = s.now := by rw [advanceToNow_rot hm]
  rw [advanceToNow_rot (by simpa using hm)]
  simp [hlast]

/-- Two advances are one at the later Cycle (R180). -/
theorem advanceToNow_pass_rot (d : Nat) {s : State} (hm : s.motorRunning = true) (hP : 0 < s.period)
    (hl : s.rot.lastUpdateCycle ≤ s.now) :
    (advanceToNow ((advanceToNow s).pass d)).rot = (advanceToNow (s.pass d)).rot := by
  have hsum : s.now - s.rot.lastUpdateCycle + d = s.now + d - s.rot.lastUpdateCycle :=
    (Nat.sub_add_comm hl).symm
  rw [advanceToNow_pass_advanceToNow_rot d hm, advanceToNow_rot hm, advanceToNow_rot (s := s.pass d) hm,
    Rotation.turn_stamped_turn _ _ _ _ hP, hsum]
  rfl

/-- Settles O38: after an advance the later one turns the disk by the `d` cycles between them. -/
theorem rotationAdvances : Obligations.RotationAdvances := by
  intro s d hP hl u t
  constructor
  case left =>
    intro hm
    have hu : u.rot.rotationalCounter < s.period := by
      show (advanceToNow s).rot.rotationalCounter < s.period
      rw [advanceToNow_rot hm]
      exact s.rot.turn_counter_lt _ hP
    have htu : t = advanceToNow ((advanceToNow s).pass d) := by simp [t, u, State.pass]
    have ht : t.rot = { u.rot.turn s.period d with lastUpdateCycle := s.now + d } := by
      rw [htu, advanceToNow_pass_advanceToNow_rot d hm]
    have hone : t.rot = (advanceToNow (s.pass d)).rot := by rw [htu, advanceToNow_pass_rot d hm hP hl]
    refine ⟨hu, ?_, ?_, ?_, hone⟩
    · rw [ht]; rfl
    · rw [ht]
    · rw [ht]; exact u.rot.turn_count s.period d
  case right =>
    intro hm
    have hu : u = s := advanceToNow_stopped hm
    show advanceToNow { u with now := s.now + d } = _
    rw [hu]
    exact advanceToNow_stopped (s := s.pass d) hm

/-! ### Accurate and fast timing -/

/-- The snapshot is the pair an advance would leave (R172). -/
theorem getSnapshot_eq_advanceToNow (s : State) :
    getSnapshot s = ((advanceToNow s).rot.rotationalCounter, (advanceToNow s).rot.rotationCount) := by
  unfold getSnapshot advanceToNow
  split <;> rfl

/-- With the motor running a snapshot `d` cycles later shows the disk turned by all the time since the last update. -/
theorem getSnapshot_pass (d : Nat) {s : State} (hm : s.motorRunning = true) :
    getSnapshot (s.pass d) =
      ((s.rot.turn s.period (s.now + d - s.rot.lastUpdateCycle)).rotationalCounter,
        (s.rot.turn s.period (s.now + d - s.rot.lastUpdateCycle)).rotationCount) := by
  rw [getSnapshot_eq_advanceToNow, advanceToNow_rot (s := s.pass d) hm]
  rfl

/-- The cycles a `WarpOrDelay` call forwards to the transport (R173). -/
def State.forwarded (s : State) (call : Nat × Nat) : Nat :=
  if s.flags.accurateSectorTiming then call.1 else min call.1 call.2

theorem forwarded_accurate {s : State} (h : s.flags.accurateSectorTiming = true) : s.forwarded = Prod.fst := by
  funext call
  simp [State.forwarded, h]

theorem forwarded_le (s : State) (call : Nat × Nat) : s.forwarded call ≤ call.1 := by
  unfold State.forwarded
  split
  · exact Nat.le_refl _
  · exact Nat.min_le_left _ _

@[simp] theorem forwarded_warpOrDelay (s : State) (c m : Nat) : (warpOrDelay c m s).forwarded = s.forwarded := by
  funext call
  simp [State.forwarded]

@[simp] theorem warpOrDelay_out (s : State) (c m : Nat) :
    (warpOrDelay c m s).out = s.out ++ [.delay (s.forwarded (c, m))] := by
  unfold warpOrDelay State.forwarded
  split <;> simp [State.emit]

theorem warpOrDelay_rot_accurate (c m : Nat) {s : State} (h : s.flags.accurateSectorTiming = true) :
    (warpOrDelay c m s).rot = s.rot := by
  simp [warpOrDelay, h, State.emit]

theorem warpOrDelay_rot_fast (c m : Nat) {s : State} (h : s.flags.accurateSectorTiming = false)
    (hm : s.motorRunning = true) (hP : 0 < s.period) :
    (warpOrDelay c m s).rot =
      { s.rot.turn s.period (s.now - s.rot.lastUpdateCycle + (c - min c m)) with lastUpdateCycle := s.now } := by
  have hwarp : (warpOrDelay c m s).rot = (rotateBy (c - min c m) (advanceToNow s)).rot := by
    simp [warpOrDelay, h, State.emit]
  rw [hwarp, rotateBy_rot _ (by simpa using hm), advanceToNow_rot hm]
  simpa using Rotation.turn_stamped_turn _ _ _ _ hP

theorem warpOrDelay_lastUpdateCycle_le (c m : Nat) {s : State} (hm : s.motorRunning = true) (hP : 0 < s.period)
    (hl : s.rot.lastUpdateCycle ≤ s.now) :
    (warpOrDelay c m s).rot.lastUpdateCycle ≤ (warpOrDelay c m s).now := by
  cases h : s.flags.accurateSectorTiming with
  | true => simpa [warpOrDelay_rot_accurate c m h] using hl
  | false => simp [warpOrDelay_rot_fast c m h hm hP]

/-- In either mode one `WarpOrDelay` call, once its forwarded delay has passed, turns the disk by its cycles (R173). -/
theorem getSnapshot_warpOrDelay (c m d : Nat) {s : State} (hm : s.motorRunning = true) (hP : 0 < s.period)
    (hl : s.rot.lastUpdateCycle ≤ s.now) :
    getSnapshot ((warpOrDelay c m s).pass (s.forwarded (c, m) + d)) = getSnapshot (s.pass (c + d)) := by
  rw [getSnapshot_pass _ (by simpa using hm), getSnapshot_pass _ hm]
  cases h : s.flags.accurateSectorTiming with
  | true => simp [warpOrDelay_rot_accurate c m h, forwarded_accurate h]
  | false =>
    have hmin : min c m ≤ c := Nat.min_le_left c m
    have hcycles : c - min c m + (min c m + d) = c + d := by omega
    have hsum : s.now - s.rot.lastUpdateCycle + (c - min c m) + (min c m + d) =
        s.now + (c + d) - s.rot.lastUpdateCycle := by
      rw [Nat.add_assoc, hcycles, Nat.sub_add_comm hl]
    rw [warpOrDelay_rot_fast c m h hm hP, ← hsum]
    simp [State.forwarded, h, Rotation.turn_stamped_turn _ _ _ _ hP]

theorem runWarps_cons (call : Nat × Nat) (cs : List (Nat × Nat)) (s : State) :
    runWarps (call :: cs) s = runWarps cs (warpOrDelay call.1 call.2 s) := rfl

theorem runWarps_out (cs : List (Nat × Nat)) (s : State) :
    (runWarps cs s).out = s.out ++ (cs.map s.forwarded).map .delay := by
  induction cs generalizing s with
  | nil => simp [runWarps]
  | cons call cs ih => simp [runWarps_cons, ih]

/-- In either mode the calls of a sequence, once all they forwarded has passed, turn the disk by all their cycles. -/
theorem getSnapshot_runWarps (cs : List (Nat × Nat)) (d : Nat) {s : State} (hm : s.motorRunning = true)
    (hP : 0 < s.period) (hl : s.rot.lastUpdateCycle ≤ s.now) :
    getSnapshot ((runWarps cs s).pass ((cs.map s.forwarded).sum + d)) =
      getSnapshot (s.pass ((cs.map Prod.fst).sum + d)) := by
  induction cs generalizing s d with
  | nil => rfl
  | cons call cs ih =>
    obtain ⟨c, m⟩ := call
    have hrest := ih (s.forwarded (c, m) + d) (s := warpOrDelay c m s) (by simpa using hm) (by simpa using hP)
      (warpOrDelay_lastUpdateCycle_le c m hm hP hl)
    have hfirst := getSnapshot_warpOrDelay c m ((cs.map Prod.fst).sum + d) hm hP hl
    rw [forwarded_warpOrDelay] at hrest
    simp only [runWarps_cons, List.map_cons, List.sum_cons]
    calc getSnapshot ((runWarps cs (warpOrDelay c m s)).pass (s.forwarded (c, m) + (cs.map s.forwarded).sum + d))
        = getSnapshot ((runWarps cs (warpOrDelay c m s)).pass
            ((cs.map s.forwarded).sum + (s.forwarded (c, m) + d))) := by congr 2; omega
      _ = getSnapshot ((warpOrDelay c m s).pass ((cs.map Prod.fst).sum + (s.forwarded (c, m) + d))) := hrest
      _ = getSnapshot ((warpOrDelay c m s).pass (s.forwarded (c, m) + ((cs.map Prod.fst).sum + d))) := by congr 2; omega
      _ = getSnapshot (s.pass (c + ((cs.map Prod.fst).sum + d))) := hfirst
      _ = getSnapshot (s.pass (c + (cs.map Prod.fst).sum + d)) := by rw [Nat.add_assoc]

@[simp] theorem runWarps_now (cs : List (Nat × Nat)) (s : State) : (runWarps cs s).now = s.now := by
  induction cs generalizing s with
  | nil => rfl
  | cons call cs ih => simp [runWarps_cons, ih]

theorem runWarps_pass (cs : List (Nat × Nat)) (d : Nat) (s : State) :
    (runWarps cs s).pass d = { runWarps cs s with now := s.now + d } := by
  rw [State.pass, runWarps_now]

@[simp] theorem delaySum_map_delay (delays : List Nat) : delaySum (delays.map .delay) = delays.sum := by
  induction delays with
  | nil => rfl
  | cons c delays ih => simp [delaySum, ih]

/-- The state in accurate or in fast timing. -/
def State.timed (accurate : Bool) (s : State) : State :=
  { s with flags := { s.flags with accurateSectorTiming := accurate } }

/-- What a sequence of calls shows, once what they forwarded has passed, does not depend on the timing mode (R181). -/
theorem getSnapshot_runWarps_timed (cs : List (Nat × Nat)) (accurate : Bool) {s : State} (hm : s.motorRunning = true)
    (hP : 0 < s.period) (hl : s.rot.lastUpdateCycle ≤ s.now) :
    getSnapshot ((runWarps cs (s.timed accurate)).pass (cs.map (s.timed accurate).forwarded).sum) =
      getSnapshot (s.pass (cs.map Prod.fst).sum) :=
  getSnapshot_runWarps cs 0 (s := s.timed accurate) hm hP hl

/-- Fast timing forwards no more cycles than accurate timing (R181). -/
theorem sum_forwarded_le (cs : List (Nat × Nat)) (s t : State) (h : t.flags.accurateSectorTiming = true) :
    (cs.map s.forwarded).sum ≤ (cs.map t.forwarded).sum := by
  rw [forwarded_accurate h]
  exact List.sum_le_sum fun call _ => forwarded_le s call

/-- Settles O39: in either mode the angle and the count, after what was forwarded, are those `s` has once the cycles of
all calls have passed. -/
theorem warpEquivalence : Obligations.WarpEquivalence := by
  intro s cs hP hm hl slow fast
  refine ⟨(cs.map (s.timed true).forwarded).map .delay, (cs.map (s.timed false).forwarded).map .delay,
    runWarps_out cs (s.timed true), runWarps_out cs (s.timed false), ?_, ?_⟩
  · simpa only [delaySum_map_delay] using sum_forwarded_le cs (s.timed false) (s.timed true) rfl
  · have hsame := (getSnapshot_runWarps_timed cs true hm hP hl).trans
      (getSnapshot_runWarps_timed cs false hm hP hl).symm
    rw [runWarps_pass, runWarps_pass, getSnapshot_eq_advanceToNow, getSnapshot_eq_advanceToNow] at hsame
    simp only [delaySum_map_delay]
    exact Prod.mk.inj hsame

/-! ### The seek -/

theorem Wire.after_eq_self {w : Wire} {now : Cycle} {id : Word32} {as : List Action}
    (h : ∀ a ∈ as, w.push now id a = w) : w.after now id as = w := by
  induction as with
  | nil => rfl
  | cons a as ih =>
    simp only [Wire.after, List.foldl_cons, h a List.mem_cons_self]
    exact ih fun b hb => h b (List.mem_cons_of_mem a hb)

/-- Seek sounds are no calls of the transport (R177). -/
@[simp] theorem Wire.after_seekActions (w : Wire) (now : Cycle) (id : Word32) (s : State) (cyl base : Nat) :
    w.after now id (seekActions s cyl base) = w := by
  refine Wire.after_eq_self fun a ha => ?_
  obtain ⟨k, rfl⟩ : ∃ k, a = .seekSound k := by
    unfold seekActions seekSounds at ha
    split at ha
    · obtain ⟨i, -, rfl⟩ := List.mem_map.1 ha
      exact ⟨_, rfl⟩
    · cases ha
  rfl

/-- `StepCycles` between two head positions: a forward seek of a reversing profile takes one step and one settle more
(R175). -/
theorem stepCycles_sub (q : Profile) (target track : Nat) :
    stepCycles q ((target : Int) - track) =
      let steps := (target - track) + (track - target)
      let extra := q.reverseOnForwardSeeks = true ∧ track < target
      (steps * q.cyclesPerTrackStep + (if extra then q.cyclesPerTrackStep + q.cyclesForHeadSettle else 0),
        if extra then steps + 1 else steps) := by
  have hsteps : ((target : Int) - track).natAbs = (target - track) + (track - target) := by omega
  have hforward : (0 < (target : Int) - track) ↔ track < target := by omega
  simp only [stepCycles, hsteps, hforward, Bool.and_eq_true, decide_eq_true_eq]
  split <;> simp [Nat.add_assoc]

/-- Settles O40: the state by `seekTo_eq`, the sounds and the cycles by what `StepCycles` counts. -/
theorem seekTakes : Obligations.SeekTakes := by
  intro s cyl base q target steps extra sounds
  have hcount := stepCycles_sub q target s.currentTrack
  have hsounds : seekActions s cyl base = sounds := by
    unfold seekActions seekSounds
    rw [show (trackOf s.prof cyl : Int) - s.currentTrack = (target : Int) - s.currentTrack from rfl, hcount]
  have hstill : (target : Int) - s.currentTrack = 0 ↔ target = s.currentTrack := by omega
  constructor
  · rw [seekTo_eq, Wire.after_seekActions, hsounds]
    rfl
  · show (stepCycles q ((target : Int) - s.currentTrack)).1 +
      (if (target : Int) - s.currentTrack = 0 then 0 else _) = _
    rw [hcount]
    simp only [hstill]
    rfl

end Sys2Proof.Machine

/-! PROOF. The dispatcher (42_dispatch.md R210 to R220): its loop ends within its bound and leaves the command over or
suspended, every step keeps the invariant, and the transport's and the front end's events that resume, feed or abort a
command: a fence (R206, R207), a received data frame (R208), an abort (R205, R216) and `SetEnabled` (49_facade.md R423). -/

namespace Sys2Proof.Machine

/-! ### The dispatcher's loop -/

/-- One turn of the loop stays within the bound when the turns after it do. -/
theorem processLoop_succ_unbound {n : Nat} {s : State}
    (h : ∀ u, s.active = true → handler s = .ok u → Unbound (processLoop n u)) : Unbound (processLoop (n + 1) s) := by
  unfold processLoop
  split
  · next hrun =>
    obtain ⟨hactive, _⟩ := Bool.and_eq_true_iff.1 hrun
    exact (Unbound.handler s).bind fun u hu => h u hactive hu
  · exact .ok s

/-- Where the command is over or waits, the loop stops, whatever is left of its bound. -/
theorem processLoop_unbound_of_settled {s : State} (n : Nat) (h : s.settled = true) : Unbound (processLoop n s) := by
  rw [processLoop_finished n s (settled_done s h)]
  exact .ok s

/-- No `Goto` leads to another one: the states 10 of read and 3 and 5 of format, to which one leads, end or suspend the
command (42_dispatch.md R218). -/
theorem handler_settled_of_ranTo {s u v : State} (hu : u.active = true)
    (hgoto : (s.cmd.code = .read ∧ s.cmd.state = 0 ∧ ranTo s u 10) ∨
      (s.cmd.code = .format ∧ (s.cmd.state = 2 ∧ ranTo s u 3 ∨ s.cmd.state = 4 ∧ ranTo s u 5)))
    (h : handler u = .ok v) : v.settled = true := by
  have htarget : (u.cmd.code = .read ∧ u.cmd.state = 10) ∨ (u.cmd.code = .format ∧ (u.cmd.state = 3 ∨ u.cmd.state = 5)) := by
    rcases hgoto with ⟨hcode, _, hran⟩ | ⟨hcode, ⟨_, hran⟩ | ⟨_, hran⟩⟩ <;> simp [hran.1, hran.2.1, hcode]
  rcases handler_ran u v hu h with hv | ⟨hcode, hstate, _⟩ | ⟨hcode, hstate⟩
  · exact hv
  · simp [hcode, hstate] at htarget
  · rcases hstate with ⟨hstate, _⟩ | ⟨hstate, _⟩ <;> simp [hcode, hstate] at htarget

/-- The dispatcher's loop never reaches its bound: its second turn, if there is one, is at the target of a `Goto`, and the
command is over or waits after it (42_dispatch.md R210, R218). -/
theorem processCommand_unbound (s : State) : Unbound (processCommand s) := by
  refine processLoop_succ_unbound fun u hs hsu => ?_
  rcases handler_ran s u hs hsu with hsettled | hgoto
  · exact processLoop_unbound_of_settled 2 hsettled
  · refine processLoop_succ_unbound fun v hu huv => ?_
    exact processLoop_unbound_of_settled 1 (handler_settled_of_ranTo hu hgoto huv)

/-- Settles O57: no `Goto` leads to another one, so two handler invocations are enough. -/
theorem eventSettles : Obligations.EventSettles := by
  intro s hactive hrunning
  exact ⟨processCommand_unbound s, fun t h => processCommand_settled s t h (.inl (by simp [hactive, hrunning]))⟩

/-! ### Every step -/

/-- The event taken next changes the inbox and the transport's queue, nothing else. -/
theorem State.nextEvent_rest {s : State} {c : Candidate} (h : s.nextEvent = some c) :
    ∃ (inbox : List TimedEvent) (wire : Wire), c.rest = { s with inbox := inbox, wire := wire } := by
  refine s.nextEvent_elim (P := fun c => ∃ (inbox : List TimedEvent) (wire : Wire),
    c.rest = { s with inbox := inbox, wire := wire }) (fun e others c hc => ?_) (fun c hc => ?_) (fun c hc => ?_) c h
  · exact ⟨others, s.wire, (s.inboxOffer_some e others c hc).2⟩
  · obtain ⟨_, wire, hrest⟩ := s.fenceCandidate_some c hc
    exact ⟨s.inbox, wire, hrest⟩
  · exact ⟨s.inbox, s.wire, (s.timerCandidate_some c hc).2⟩

/-- Taking the next event, at its Cycle, keeps the invariant. -/
theorem Candidate.state_inv {s : State} {c : Candidate} (h : s.nextEvent = some c) (hinv : s.Inv) : c.state.Inv := by
  obtain ⟨inbox, wire, hrest⟩ := State.nextEvent_rest h
  have hstate : c.state = { s with inbox := inbox, wire := wire, now := c.time, reply := .none } := by
    rw [Candidate.state, hrest]
  rw [hstate]
  exact State.inv_of_same s _ hinv rfl rfl

/-- Settles O58: with no event due nothing changes; else the state the event is handled in has the invariant, and every
event keeps it. -/
theorem stepKeepsInv : Obligations.StepKeepsInv := by
  intro s t hinv h
  cases hnext : s.nextEvent with
  | none =>
    rw [step, hnext] at h
    cases h
    exact hinv
  | some c =>
    rw [step_of_nextEvent hnext] at h
    exact handle_inv c.event c.state t h (Candidate.state_inv hnext hinv)

/-! ### Fences -/

/-- An admitted event's outcome is its handler's. -/
theorem deliver_admitted {s : State} (e : Event) (had : s.admitted) :
    (deliver e s).toOutcome = (handleEvent e s).toOutcome := by
  rw [deliver, admit_eq_ok s had, Result.ok_bind]

theorem State.active_iff (s : State) : s.active = true ↔ s.cmd.code ≠ .none := by simp [State.active]

/-- With no command active a fence is ignored (42_dispatch.md R207). -/
theorem onSerialFence_idle {s : State} (id : Word32) (hidle : s.cmd.code = .none) : onSerialFence id s = .ok s := by
  rw [onSerialFence, if_neg (by simp [State.active_iff, hidle])]

/-- A fence an active command does not wait for is a programming error (60_exceptions.md R468). -/
theorem onSerialFence_notAwaited {s : State} {id : Word32} (hcode : s.cmd.code ≠ .none)
    (hother : ¬(s.cmd.waiting = true ∧ s.cmd.state = id)) :
    onSerialFence id s = programmingError .fenceNotAwaited := by
  rw [onSerialFence, if_pos (s.active_iff.2 hcode), if_neg fun hawaited => hother ⟨hawaited.1, hawaited.2.symm⟩]

/-- Settles O17: an admitted fence is handled by the two branches of `OnSerialFence` that run no handler. -/
theorem staleFence : Obligations.StaleFence := by
  intro s id had
  refine ⟨fun hidle => deliver_ok s s _ had (onSerialFence_idle id hidle), fun hcode hother => ?_⟩
  calc handle (.serialFence id) s
    _ = (onSerialFence id s).toOutcome := deliver_admitted (.serialFence id) had
    _ = .refused (.programmingError .fenceNotAwaited) := by rw [onSerialFence_notAwaited hcode hother]; rfl

/-! ### Received data frames -/

theorem requireWithin_of_le {offset length size : Nat} (s : State) (h : offset + length ≤ size) :
    requireWithin offset length size s = .ok s := if_pos h

/-- An access past the end of a space is the fault (20_memory.md R83). -/
theorem requireWithin_of_lt {offset length size : Nat} (s : State) (h : size < offset + length) :
    requireWithin offset length size s = .error (.fault .pastEndOfSpace) := if_neg (Nat.not_le.2 h)

/-- The unit when its transport's queue goes on behind a completed receive (20_memory.md R88, R103). -/
def State.pastReceive (s : State) : State :=
  { s with wire := if s.selfTimed then s.wire.completeReceive s.now else s.wire }

@[simp] theorem pastReceive_active (s : State) : s.pastReceive.active = s.active := rfl
@[simp] theorem pastReceive_rxOffset (s : State) : s.pastReceive.rxOffset = s.rxOffset := rfl

/-- `OnSerialReceiveComplete` by its branches (42_dispatch.md R208): the queue goes on, and with a command active the bytes
are stored, or lie past the end of RECV. -/
theorem onSerialReceiveComplete_eq (data : List Byte) (checksumOK : Bool) (s : State) :
    onSerialReceiveComplete data checksumOK s =
      if s.cmd.code = .none then .ok s.pastReceive
      else if s.rxOffset + data.length ≤ Config.bufSize then
        .ok { s.pastReceive with
          recvBuf := s.recvBuf.writeBytes s.rxOffset data
          cmd := { s.cmd with rxLen := data.length, rxChecksumOK := checksumOK } }
      else .error (.fault .pastEndOfSpace) := by
  have hqueue : (if s.selfTimed then { s with wire := s.wire.completeReceive s.now } else s) = s.pastReceive := by
    unfold State.pastReceive
    split <;> rfl
  unfold onSerialReceiveComplete
  dsimp only
  rw [hqueue, pastReceive_active, pastReceive_rxOffset]
  by_cases hidle : s.cmd.code = .none
  · rw [if_pos hidle, if_neg fun hactive => s.active_iff.1 hactive hidle, Result.pure_eq]
  · rw [if_neg hidle, if_pos (s.active_iff.2 hidle)]
    by_cases hfits : s.rxOffset + data.length ≤ Config.bufSize
    · rw [if_pos hfits, requireWithin_of_le s.pastReceive hfits]
      rfl
    · rw [if_neg hfits, requireWithin_of_lt s.pastReceive (Nat.not_le.1 hfits)]
      rfl

/-- Settles O35: idle, RECV is as it was; with a command active it is RECV after a store, which reads back as the bytes and
elsewhere as before, and a store that does not fit is the fault. -/
theorem payloadReceived : Obligations.PayloadReceived := by
  intro s id data ok had queue
  refine ⟨fun hstored => ?_, fun hcode hpast => ?_⟩
  · by_cases hidle : s.cmd.code = .none
    · refine ⟨s.recvBuf, deliver_ok s _ _ had ?_, fun hcode => absurd hidle hcode, fun _ _ => rfl⟩
      rw [if_pos hidle]
      exact (onSerialReceiveComplete_eq data ok s).trans (if_pos hidle)
    · have hfits := hstored.resolve_left hidle
      refine ⟨s.recvBuf.writeBytes s.rxOffset data, deliver_ok s _ _ had ?_,
        fun _ => s.recvBuf.readBytes_writeBytes s.rxOffset data,
        fun a houtside => s.recvBuf.read_writeBytes_of_not_mem s.rxOffset a data (houtside.resolve_left hidle)⟩
      rw [if_neg hidle]
      exact (onSerialReceiveComplete_eq data ok s).trans ((if_neg hidle).trans (if_pos hfits))
  · calc handle (.serialReceiveComplete id data ok) s
      _ = (onSerialReceiveComplete data ok s).toOutcome := deliver_admitted (.serialReceiveComplete id data ok) had
      _ = .fault .pastEndOfSpace := by
        rw [onSerialReceiveComplete_eq, if_neg hcode, if_neg (Nat.not_le.2 hpast)]
        rfl

/-! ### Aborts and `SetEnabled` -/

/-- With no command active there is nothing to abort (42_dispatch.md R205). -/
theorem abortCommand_idle (fromTransport : Bool) {s : State} (hidle : s.cmd.code = .none) :
    abortCommand fromTransport s = s := by
  rw [abortCommand, if_neg (by simp [State.active_iff, hidle])]

/-- Settles O49: each event is one update of the record. The transport's abort is `AbortCommand` alone; disabling is
`AbortCommand`, then `TurnOffMotor`. -/
theorem abortEvent : Obligations.AbortEvent := by
  intro s had
  refine ⟨fun hidle => deliver_ok s _ _ had ?_, fun hcode => deliver_ok s _ _ had ?_, deliver_ok s _ _ had rfl,
    deliver_ok s _ _ had ?_⟩
  · exact congrArg Except.ok (abortCommand_idle true hidle)
  · refine congrArg Except.ok ((abortCommand_eq true s hcode).trans ?_)
    simp only [if_true, List.append_nil]
  · exact congrArg (fun t : State => Except.ok { t with enabled := false }) (turnOffMotor_abortCommand_eq s)

end Sys2Proof.Machine

/-! PROOF. The choice among the physical copies of a sector (43_rw_common.md R246 to R249, R260) and the fixed cycle of
phantom copies under fast timing (R263). -/

namespace Sys2Proof.Machine

/-! ### The classes of copies -/

theorem Copy.density_iff {mfm : Bool} {c : Copy} : c.density mfm = true ↔ c.2.mfm = mfm := beq_iff_eq

theorem Copy.addressed_iff {mfm : Bool} {c : Copy} :
    c.addressed mfm = true ↔
      c.2.mfm = mfm ∧ ¬(c.2.fdcStatus.getLsbD 4 = false ∧ c.2.fdcStatus.getLsbD 3 = false) := by
  rw [Copy.addressed, Bool.and_eq_true, Copy.density_iff, Bool.not_eq_true', ← Bool.not_eq_true]
  simp only [addrInvalid, Bool.and_eq_true, Bool.not_eq_true']

/-- With a valid address field, record-not-found at all is record-not-found alone (43_rw_common.md R260). -/
theorem Copy.eligible_iff {mfm isRead : Bool} {c : Copy} :
    c.eligible mfm isRead = true ↔
      (c.2.mfm = mfm ∧ ¬(c.2.fdcStatus.getLsbD 4 = false ∧ c.2.fdcStatus.getLsbD 3 = false)) ∧
        ¬(isRead = true ∧ c.2.fdcStatus.getLsbD 4 = false) := by
  rw [Copy.eligible, Bool.and_eq_true, Copy.addressed_iff]
  refine and_congr_right fun ⟨_, hvalid⟩ => ?_
  simp only [dataMissing, Bool.not_eq_true', Bool.and_eq_false_iff]
  grind

theorem missingStatus_eq (p : Params) (mfm : Bool) (copies : List Copy) :
    missingStatus p mfm copies =
      if (∃ c ∈ copies, c.density mfm = true) ∧ ∀ c ∈ copies, ¬c.addressed mfm = true then p.fdcAddrCrc
      else p.fdcRnf :=
  if_congr (by simp) rfl rfl

/-! ### The selection -/

theorem forcedAt_iff {forced : List Byte} {k : Nat} {c : Copy} :
    forcedAt forced k c = true ↔ forced.getD c.1 0 ≠ 0 ∧ (forced.getD c.1 0).toNat = k + 1 := by
  simp [forcedAt]

/-- Where in the list the chosen copy stands, and by which of the three rules of 43_rw_common.md R246 it was chosen. -/
theorem chooseCopy_first (s : State) (k : Nat) (c : Copy) (rest : List Copy) :
    ∃ i : Nat, (c :: rest)[i]? = some (chooseCopy s k c rest) ∧
      if ∃ d ∈ c :: rest, forcedAt s.forcedOrder k d = true then
        forcedAt s.forcedOrder k (chooseCopy s k c rest) = true ∧
          ∀ (j : Nat) d, j < i → (c :: rest)[j]? = some d → ¬forcedAt s.forcedOrder k d = true
      else if s.flags.accurateSectorTiming = true ∧ s.cmd.bufferHit = false then
        (∀ d ∈ c :: rest, copyWait s (chooseCopy s k c rest) ≤ copyWait s d) ∧
          ∀ (j : Nat) d, j < i → (c :: rest)[j]? = some d → copyWait s (chooseCopy s k c rest) < copyWait s d
      else i = k % (c :: rest).length := by
  unfold chooseCopy
  cases hfind : (c :: rest).find? (forcedAt s.forcedOrder k) with
  | some f =>
    obtain ⟨i, hi, hforced, hfirst⟩ := find_first _ _ hfind
    exact ⟨i, hi, by rw [if_pos ⟨f, List.mem_of_getElem? hi, hforced⟩]; exact ⟨hforced, hfirst⟩⟩
  | none =>
    have hnone : ¬∃ d ∈ c :: rest, forcedAt s.forcedOrder k d = true := by simpa using hfind
    simp only [if_neg hnone]
    by_cases hnear : s.flags.accurateSectorTiming = true ∧ s.cmd.bufferHit = false
    · obtain ⟨i, hi, hmin, hfirst⟩ := nearest_first (copyWait s) c rest
      rw [if_pos (by simpa using hnear)]
      exact ⟨i, hi, by rw [if_pos hnear]; exact ⟨hmin, hfirst⟩⟩
    · rw [if_neg (by simpa using hnear)]
      have hlt : k % (c :: rest).length < (c :: rest).length := Nat.mod_lt _ (by simp)
      exact ⟨k % (c :: rest).length, by rw [List.getElem?_eq_getElem hlt, List.getD_eq_getElem _ _ hlt],
        by rw [if_neg hnear]⟩

/-! ### The phantom counters -/

theorem advancePhantom_phantom (v n : Nat) (s : State) : (advancePhantom v n s).phantom v = (s.phantom v + 1) % n :=
  (setEntry_getD _ _ _ _ _).trans (if_pos rfl)

theorem resolveSector_absent {s : State} {v : Nat} (isRead : Bool)
    (h : s.flags.diskPresent = false ∨ v = 0 ∨ s.geom.totalSectors < v) :
    resolveSector v isRead s = (.notFound s.params.fdcRnf, s) :=
  if_pos (by simpa [or_assoc] using h)

/-- Settles O36: the eligible copies are the list `E`; with none of them the sector is not found, otherwise one is chosen
by `chooseCopy_first` and only the counter's array changes. -/
theorem resolveChoice : Obligations.ResolveChoice := by
  intro s v isRead absent
  refine ⟨fun habsent => resolveSector_absent isRead habsent, fun hpresent => ⟨fun hnone => ?_, fun hsome => ?_⟩⟩
  · have hempty : (s.copies (s.virtSector v)).filter (Copy.eligible s.geom.mfm isRead) = [] :=
      List.filter_eq_nil_iff.2 fun c hc he => hnone c hc (Copy.eligible_iff.1 he)
    rw [resolve_present s v isRead hpresent, hempty]
    simp only [missingStatus_eq, Copy.density_iff, Copy.addressed_iff]
  · have hmem : ∀ c, c ∈ (s.copies (s.virtSector v)).filter (Copy.eligible s.geom.mfm isRead) ↔
        c ∈ s.copies (s.virtSector v) ∧ _ := fun c => List.mem_filter.trans (and_congr_right fun _ => Copy.eligible_iff)
    have hresolve := resolve_present s v isRead hpresent
    refine ⟨_, hmem, List.filter_sublist, ?_⟩
    cases hE : (s.copies (s.virtSector v)).filter (Copy.eligible s.geom.mfm isRead) with
    | nil =>
      obtain ⟨c, hc⟩ := hsome
      exact absurd ((hmem c).2 hc) (hE ▸ List.not_mem_nil)
    | cons c rest =>
      rw [hE] at hresolve
      obtain ⟨i, hi, hchoice⟩ := chooseCopy_first s (s.phantom v) c rest
      have hv : v - 1 + 1 = v := Nat.succ_pred_eq_of_ne_zero fun h => hpresent (.inr (.inl h))
      simp only [forcedAt_iff] at hchoice
      refine ⟨i, _, hi, ⟨_, hresolve, ?_, ?_, fun x hx => ?_⟩, hchoice⟩
      · exact (setEntry_length _ _ _ _).trans (by rw [hv])
      · exact (setEntry_getD _ _ _ _ _).trans (if_pos rfl)
      · exact (setEntry_getD _ _ _ _ _).trans (if_neg hx)

/-! ### The cycle of phantom copies -/

/-- The conditions under which the counter alone chooses among the copies `info` of sector `v`: fast timing, no forced
order, every copy eligible (43_rw_common.md R263). -/
structure State.Cycles (s : State) (v : Nat) (isRead : Bool) (info : VirtSector) : Prop where
  present : ¬(s.flags.diskPresent = false ∨ v = 0 ∨ s.geom.totalSectors < v)
  fast : s.flags.accurateSectorTiming = false
  unforced : ∀ b ∈ s.forcedOrder, b = 0
  listed : s.virtSector v = info
  nonempty : 0 < info.count
  eligible : ∀ c ∈ s.copies info, c.eligible s.geom.mfm isRead = true

theorem State.Cycles.advanced {s : State} {v : Nat} {isRead : Bool} {info : VirtSector}
    (h : s.Cycles v isRead info) (n : Nat) : (advancePhantom v n s).Cycles v isRead info :=
  ⟨h.present, h.fast, h.unforced, h.listed, h.nonempty, h.eligible⟩

/-- One resolution under these conditions takes the counter's copy and moves the counter on. -/
theorem State.Cycles.resolveSector_eq {s : State} {v : Nat} {isRead : Bool} {info : VirtSector}
    (h : s.Cycles v isRead info) :
    ∃ x, resolveSector v isRead s =
      (.found (info.start + s.phantom v % info.count) x, advancePhantom v info.count s) := by
  obtain ⟨hlength, hindex⟩ := copies_eq s info
  have hresolve := resolve_present s v isRead h.present
  rw [h.listed, List.filter_eq_self.2 h.eligible] at hresolve
  cases hcopies : s.copies info with
  | nil => exact absurd h.nonempty (by simp [← hlength, hcopies])
  | cons c rest =>
    rw [hcopies] at hresolve hlength hindex
    obtain ⟨i, hi, hchoice⟩ := chooseCopy_first s (s.phantom v) c rest
    have hunforced : ¬∃ d ∈ c :: rest, forcedAt s.forcedOrder (s.phantom v) d = true := fun ⟨d, _, hd⟩ =>
      (forcedAt_iff.1 hd).1 (getD_zero_of_all s.forcedOrder h.unforced d.1)
    rw [if_neg hunforced, if_neg (by simp [h.fast]), hlength] at hchoice
    rw [← hchoice, ← hindex i _ hi]
    exact ⟨_, hresolve⟩

/-- Consecutive resolutions take the copies in cyclic order from the counter's position. -/
theorem State.Cycles.resolveTimes_eq {v : Nat} {isRead : Bool} {info : VirtSector} (n : Nat) {s : State}
    (h : s.Cycles v isRead info) :
    (resolveTimes v isRead n s).1 = (List.range n).map fun i => info.start + (s.phantom v + i) % info.count := by
  induction n generalizing s with
  | zero => rfl
  | succ n ih =>
    obtain ⟨x, hx⟩ := h.resolveSector_eq
    have hshift : ∀ i, ((s.phantom v + 1) % info.count + i) % info.count = (s.phantom v + (i + 1)) % info.count :=
      fun i => by rw [Nat.mod_add_mod]; congr 1; omega
    rw [resolveTimes, hx]
    simp only [ih (h.advanced info.count), advancePhantom_phantom, hshift, List.range_succ_eq_map,
      List.map_cons, List.map_map, Function.comp_def, Nat.add_zero, Nat.succ_eq_add_one]

/-- One turn of the counter meets every copy once. -/
theorem nodup_cycle (start k count : Nat) : ((List.range count).map fun i => start + (k + i) % count).Nodup := by
  refine List.nodup_range.map_on fun i hi j hj hij => ?_
  have hmod : k + i ≡ k + j [MOD count] := Nat.add_left_cancel hij
  exact Nat.ModEq.eq_of_lt_of_lt (Nat.ModEq.add_left_cancel' k hmod) (List.mem_range.1 hi) (List.mem_range.1 hj)

/-- Settles O37, by induction on the number of resolutions: each leaves the conditions of the cycle as they were. -/
theorem phantomCycle : Obligations.PhantomCycle := by
  intro s v n isRead info hdisk hlow hhigh hfast hunforced hlisted hcount heligible k
  have hcycles : s.Cycles v isRead info := ⟨by grind, hfast, hunforced, hlisted, hcount, heligible⟩
  exact ⟨⟨_, Prod.ext (hcycles.resolveTimes_eq n) rfl⟩, nodup_cycle info.start k info.count⟩

end Sys2Proof.Machine

/-! PROOF. The read/write common path (43_rw_common.md): the seek decision of state 10 with and without a buffer hit
(R242 to R244), and the search attempts of states 13 to 16 with their retries (R250 to R258). -/

namespace Sys2Proof.Machine

/-! ### States with the same drive -/

/-- `v` and `s` have the same profile, parameters, flags, clock, motor and head: what the delays, the penalties and the
sounds of the common path read besides the rotation. -/
structure State.SameDrive (v s : State) : Prop where
  params : v.params = s.params
  mode : v.mode = s.mode
  variant : v.indusVariant = s.indusVariant
  flags : v.flags = s.flags
  now : v.now = s.now
  deadline : v.motorOffDeadline = s.motorOffDeadline
  track : v.currentTrack = s.currentTrack

theorem State.SameDrive.prof {v s : State} (h : v.SameDrive s) : v.prof = s.prof := by
  simp only [State.prof, h.params, h.mode, h.variant]

theorem State.SameDrive.motorRunning {v s : State} (h : v.SameDrive s) : v.motorRunning = s.motorRunning := by
  simp only [State.motorRunning, h.deadline]

theorem State.SameDrive.warpAction {v s : State} (h : v.SameDrive s) : v.warpAction = s.warpAction := by
  funext c
  rw [State.warpAction, h.flags, State.warpAction]

theorem State.SameDrive.stepActions_eq {v s : State} (h : v.SameDrive s) : stepActions v = stepActions s := by
  funext base steps
  simp only [stepActions, h.flags, h.prof]

theorem State.SameDrive.retryPenalty_eq {v s : State} (h : v.SameDrive s) : retryPenalty v = retryPenalty s := by
  funext n kind
  simp only [retryPenalty, State.profileKey, h.params, h.mode, h.variant, h.prof]

theorem State.SameDrive.spinUpDelay_eq {v s : State} (h : v.SameDrive s) : spinUpDelay v = spinUpDelay s := by
  simp only [spinUpDelay, h.prof, h.motorRunning]

theorem State.SameDrive.motorOnDeadline_eq {v s : State} (h : v.SameDrive s) : motorOnDeadline v = motorOnDeadline s := by
  simp only [motorOnDeadline, h.deadline, h.now, h.prof]

theorem State.SameDrive.spinActions_eq {v s : State} (h : v.SameDrive s) (cyl : Nat) :
    spinActions v cyl = spinActions s cyl := by
  simp only [spinActions, motorOnActions, seekActions, h.spinUpDelay_eq, h.warpAction, h.prof, h.flags, h.deadline, h.now,
    h.track]

/-- `WarpOrDelay(cycles, 0)`, then `Wait(next)`, after `AdvanceToNow`. -/
theorem wait_warpOrDelay_eq {v s : State} (h : v.SameDrive s) (hrot : v.rot = (advanceToNow s).rot) (next : Word32)
    (c : Nat) :
    wait next (warpOrDelay c 0 v) =
      { v with
        rot := s.warped c
        cmd := { v.cmd with state := next, waiting := true }
        out := v.out ++ ([s.warpAction c] ++ [.insertFence next])
        wire := v.wire.after v.now 0 ([s.warpAction c] ++ [.insertFence next]) } := by
  rw [warpOrDelay_eq c v s h.motorRunning hrot h.prof h.now (by rw [h.flags]), wait_eq]
  simp only [List.append_assoc, Wire.after_append]

/-! ### The handlers of the sector commands -/

theorem handler_of_read {s : State} (h : s.cmd.code = .read) : handler s = readHandler s := by rw [handler, h]

theorem handler_of_write {s : State} (h : s.cmd.code = .write) : handler s = writeHandler s := by rw [handler, h]

/-! ### The seek decision of state 10 -/

theorem bufferingApplies_read {u : State} (h : u.cmd.isRead = true) : bufferingApplies u = u.buffers u.cmd.sector := by
  simp [bufferingApplies, State.buffers, h]

theorem bufferingApplies_write {u : State} (h : u.cmd.isRead = false) : bufferingApplies u = false := by
  simp [bufferingApplies, h]

/-- `noteTarget` as one update of the command record. -/
theorem noteTarget_eq (cyl : Nat) (u : State) :
    noteTarget cyl u = { u with cmd := { u.cmd with
      targetTrack := cyl
      buffering := bufferingApplies u
      bufferHit := bufferingApplies u && decide (u.bufferedTrack = some cyl) } } := rfl

theorem State.SameDrive.of_noteTarget {u s : State} (h : u.SameDrive s) (cyl : Nat) : (noteTarget cyl u).SameDrive s :=
  ⟨h.params, h.mode, h.variant, h.flags, h.now, h.deadline, h.track⟩

/-- On a buffer hit only the FDC-command delay passes (43_rw_common.md R242, R244). -/
theorem seekDecision_hit {u s : State} {cyl : Nat} (h : u.SameDrive s) (hrot : u.rot = (advanceToNow s).rot)
    (hcyl : cylinderOf u.params u.geom.toLayout u.cmd.sector.toNat = cyl) (hbuffers : bufferingApplies u = true)
    (hheld : u.bufferedTrack = some cyl) :
    seekDecision u =
      { u with
        rot := s.warped s.prof.cyclesToFDCCommand
        cmd := { u.cmd with targetTrack := cyl, buffering := true, bufferHit := true, state := 13, waiting := true }
        out := u.out ++ ([s.warpAction s.prof.cyclesToFDCCommand] ++ [.insertFence 13])
        wire := u.wire.after u.now 0 ([s.warpAction s.prof.cyclesToFDCCommand] ++ [.insertFence 13]) } := by
  have hhit : (bufferingApplies u && decide (u.bufferedTrack = some cyl)) = true := by simp [hbuffers, hheld]
  unfold seekDecision
  dsimp only
  rw [hcyl, if_pos (show (noteTarget cyl u).cmd.bufferHit = true from hhit), (h.of_noteTarget cyl).prof,
    wait_warpOrDelay_eq (h.of_noteTarget cyl) hrot, noteTarget_eq, hhit, hbuffers]

/-- With no buffer hit the motor is started, the head moved and the time spent (43_rw_common.md R242). -/
theorem seekDecision_seeks {u s : State} {cyl : Nat} (h : u.SameDrive s) (hrot : u.rot = s.rot) (hP : 0 < s.period)
    (hcyl : cylinderOf u.params u.geom.toLayout u.cmd.sector.toNat = cyl)
    (hmiss : (bufferingApplies u && decide (u.bufferedTrack = some cyl)) = false) :
    seekDecision u =
      { u with
        rot := s.spunLater (spinUpDelay s + seekCycles s.prof s.currentTrack cyl)
        currentTrack := trackOf s.prof cyl
        motorOffDeadline := some (motorOnDeadline s)
        cmd := { u.cmd with
          targetTrack := cyl
          buffering := bufferingApplies u
          bufferHit := false
          state := 13
          waiting := true }
        out := u.out ++ (spinActions s cyl ++ [.insertFence 13])
        wire := u.wire.after u.now 0 (spinActions s cyl ++ [.insertFence 13]) } := by
  have hv := h.of_noteTarget cyl
  have hmissed : ¬(noteTarget cyl u).cmd.bufferHit = true := by rw [noteTarget_eq, hmiss]; exact Bool.false_ne_true
  unfold seekDecision
  dsimp only
  rw [hcyl, if_neg hmissed, spinAndSeek_stale cyl _ (by rw [State.period, hv.prof]; exact hP), wait_eq, hv.prof, hv.track,
    hv.spinUpDelay_eq, hv.motorOnDeadline_eq, hv.spinActions_eq,
    State.spunLater_of_same _ _ s hv.motorRunning hrot hv.prof hv.now (by rw [hv.flags]), noteTarget_eq, hmiss]
  simp only [List.append_assoc, Wire.after_append]

theorem validSector_iff {u : State} : validSector u = true ↔ u.sectorValid u.cmd.sector := by
  unfold validSector State.sectorValid
  rw [Bool.and_eq_true, decide_eq_true_iff]
  split <;> rw [decide_eq_true_iff]

/-- State 0 of a read of a legal sector outside the RAM windows accepts it (44_cmd_read.md R292, R293). -/
theorem readState0_accepts {u : State} (hwindow : u.ramWindowAt u.cmd.sector false = none)
    (hvalid : u.sectorValid u.cmd.sector) : readState0 u = .ok (readAccept u) := by
  have hnone : vendorRamWindow u false = none := hwindow
  rw [readState0, hnone]
  exact if_pos (validSector_iff.2 hvalid)

/-- READ of a legal sector outside the RAM windows runs state 0 and the seek decision in one event
(44_cmd_read.md R291, R293). -/
theorem exec_read_seeks {s : State} {f : Operands} (hready : s.ready f) (hspeed : s.speedAccepted f)
    (hwindow : s.ramWindowAt (sectorOperand f) false = none) (hvalid : s.sectorValid (sectorOperand f)) :
    exec (.read f) s =
      .next { seekDecision (readAccept (s.started f s.params.opcodes.read .read true false)) with reply := .start } := by
  have haccept := readState0_accepts (u := s.started f s.params.opcodes.read .read true false) hwindow hvalid
  have hu := readAccept_started s f s.params.opcodes.read .read true false
  obtain ⟨u, hdef⟩ : ∃ u, u = readAccept (s.started f s.params.opcodes.read .read true false) := ⟨_, rfl⟩
  rw [← hdef] at haccept hu ⊢
  have hcode : u.cmd.code = .read := by rw [hu]; rfl
  have hstate : u.cmd.state = 10 := by rw [hu]
  have hstate10 : handler u = .ok (seekDecision u) := by
    rw [handler_of_read hcode, readHandler, hstate]
    show rwState10 u = _
    rw [rwState10, if_neg (by simp [hcode])]
  have hruns : processCommand (s.started f s.params.opcodes.read .read true false) = .ok (seekDecision u) :=
    processCommand_twice _ u _ ((handler_of_read rfl).trans haccept) rfl rfl hstate10 (by simp [State.active, hcode])
      (by rw [hu]; rfl) (by simp [seekDecision])
  calc exec (.read f) s
    _ = runRow f ⟨some s.params.opcodes.read, fun _ => true, .read, true, false⟩ s := rfl
    _ = .next { seekDecision u with reply := .start } := by
      rw [runRow_ready s f _ _ hready hspeed rfl rfl, hruns]
      rfl

/-- Settles O6: the seek decision of the accepted read finds the cylinder in the buffer. -/
theorem readBufferHit : Obligations.ReadBufferHit := by
  intro s f cyl hready hspeed hwindow hvalid hcyl hbuffers hheld
  have hu := readAccept_started s f s.params.opcodes.read .read true false
  have hexec := exec_read_seeks hready hspeed hwindow hvalid
  obtain ⟨u, hdef⟩ : ∃ u, u = readAccept (s.started f s.params.opcodes.read .read true false) := ⟨_, rfl⟩
  rw [← hdef] at hu hexec
  have hsector : u.cmd.sector = sectorOperand f := by rw [hu]; rfl
  have happlies : bufferingApplies u = true := by
    rw [bufferingApplies_read (by rw [hu]; rfl), hsector, hu]
    exact hbuffers
  have hhit := seekDecision_hit (u := u) (s := s) (cyl := cyl)
    (by rw [hu]; exact ⟨rfl, rfl, rfl, rfl, rfl, rfl, rfl⟩) (by rw [hu]) (by rw [hsector, hu]; exact hcyl) happlies
    (by rw [hu]; exact hheld)
  rw [hexec, hhit, hu]
  simp only [List.append_assoc, Wire.after_append]

/-- Settles O20: the data frame is acknowledged, and a write never hits the buffer. -/
theorem writeSeeks : Obligations.WriteSeeks := by
  intro s cyl hawaits hcode hisRead hchecksum hcyl
  have hstate10 : handler (s.fenced 10) = .ok (seekDecision (beginTransferACKData (s.fenced 10))) := by
    rw [handler_of_write (s := s.fenced 10) hcode]
    show rwState10 (s.fenced 10) = _
    rw [rwState10, if_pos (show (s.fenced 10).cmd.code = .write from hcode), if_neg (by simp [State.fenced, hchecksum])]
  have hack := beginTransferACKData_eq (s.fenced 10)
  obtain ⟨u, hu⟩ : ∃ u, u = beginTransferACKData (s.fenced 10) := ⟨_, rfl⟩
  rw [← hu] at hack hstate10
  have hseek := seekDecision_seeks (u := u) (s := s) (cyl := cyl)
    (by rw [hack]; exact ⟨rfl, rfl, rfl, rfl, rfl, rfl, rfl⟩) (by rw [hack]; rfl) hawaits.1.period_pos
    (by rw [hack]; exact hcyl) (by rw [bufferingApplies_write (by rw [hack]; exact hisRead), Bool.false_and])
  rw [bufferingApplies_write (by rw [hack]; exact hisRead)] at hseek
  rw [handle_fence_once s _ 10 hawaits (by simp [hcode]) hstate10 (by rw [hseek]; exact Bool.and_false _), hseek, hack]
  simp only [List.append_assoc, Wire.after_append]
  rfl

/-! ### The search -/

/-- One attempt once its resolution is noted in `v`, as one update: again with the penalty `pen`, or on to the outcome
state, where `drop` says that a failed buffer hit is forgotten (43_rw_common.md R244, R250, R253 to R257). -/
theorem searchAttempt_eq {s v : State} {id : Word32} {kind : SearchKind} {pen : Nat × Nat} {again drop : Prop}
    [Decidable again] [Decidable drop] (rotDelay : Nat) (hv : v.SameDrive s) (hrot : v.rot = (advanceToNow s).rot)
    (hid : v.cmd.state = id) (hagain : (kind ≠ .ok ∧ attempt id < maxAttempts v) ↔ again)
    (hpen : again → retryPenalty s (attempt id) kind = pen)
    (hdrop : (v.cmd.bufferHit = true ∧ kind ≠ .ok ∧ s.prof.bufferTrackReadErrors = false) ∧ ¬again ↔ drop) :
    let cycles := rotDelay + (if again then pen.1 else 0)
    let next : Word32 := if again then id + 1 else 20
    let acts := (if again then stepActions s rotDelay pen.2 else []) ++ [s.warpAction cycles] ++ [.insertFence next]
    (if kind ≠ .ok ∧ attempt v.cmd.state < maxAttempts v then searchAgain kind rotDelay v
      else searchDone kind rotDelay v) =
      { v with
        rot := s.warped cycles
        bufferedTrack := if drop then none else v.bufferedTrack
        cmd := { v.cmd with state := next, waiting := true }
        out := v.out ++ acts
        wire := v.wire.after v.now 0 acts } := by
  subst hid
  dsimp only
  by_cases hmore : again
  · rw [if_pos (hagain.2 hmore), if_pos hmore, if_pos hmore, if_pos hmore, if_neg fun h => (hdrop.2 h).2 hmore]
    have hsounds := emitSeek_eq rotDelay pen.2 v
    rw [hv.stepActions_eq, after_step] at hsounds
    have hsounded : (emitSeekSounds rotDelay pen.2 v).SameDrive s := by
      rw [hsounds]
      exact ⟨hv.params, hv.mode, hv.variant, hv.flags, hv.now, hv.deadline, hv.track⟩
    unfold searchAgain
    dsimp only
    rw [hv.retryPenalty_eq, hpen hmore, wait_warpOrDelay_eq hsounded (by rw [hsounds]; exact hrot), hsounds]
    simp only [List.append_assoc, Wire.after_append]
  · rw [if_neg (hmore ∘ hagain.1), if_neg hmore, if_neg hmore, if_neg hmore, Nat.add_zero, List.nil_append]
    have hdropped : dropBuffer kind v = { v with bufferedTrack := if drop then none else v.bufferedTrack } := by
      have hcond : (v.cmd.bufferHit && decide (kind ≠ .ok) && !s.prof.bufferTrackReadErrors) = true ↔ drop := by
        simpa [hmore, and_assoc] using hdrop
      rw [dropBuffer, hv.prof]
      by_cases hd : drop
      · rw [if_pos (hcond.2 hd), if_pos hd]
      · rw [if_neg (hd ∘ hcond.1), if_neg hd]
    have hsame : (dropBuffer kind v).SameDrive s := by
      rw [hdropped]
      exact ⟨hv.params, hv.mode, hv.variant, hv.flags, hv.now, hv.deadline, hv.track⟩
    rw [searchDone, wait_warpOrDelay_eq hsame (by rw [hdropped]; exact hrot), hdropped]

/-- The rotation of a resumed command after `AdvanceToNow` is that of the waiting one. -/
theorem advanceToNow_fenced (s : State) (id : Word32) :
    advanceToNow (s.fenced id) = { s.fenced id with rot := (advanceToNow s).rot } :=
  advanceToNow_of_same (s.fenced id) s rfl rfl rfl rfl

/-- A fence of states 13 to 16 notes the resolution and decides between another attempt and the outcome state
(43_rw_common.md R250). -/
theorem handle_search {s u v t : State} {id : Word32} {r : Resolution} {kind : SearchKind} {rotDelay : Nat}
    (hawaits : s.awaits id) (hcode : s.cmd.code = .read ∨ s.cmd.code = .write) (hlow : 13 ≤ id.toNat)
    (hhigh : id.toNat ≤ 16)
    (hresolve : resolveSector s.cmd.sector.toNat s.cmd.isRead (advanceToNow (s.fenced id)) = (r, u))
    (hnote : noteResolution r u = (v, kind, rotDelay))
    (hattempt : (if kind ≠ .ok ∧ attempt v.cmd.state < maxAttempts v then searchAgain kind rotDelay v
      else searchDone kind rotDelay v) = t)
    (hwaits : t.cmd.waiting = true) :
    handle (.serialFence id) s = .next t := by
  have hactive : s.cmd.code ≠ .none := by rcases hcode with h | h <;> simp [h]
  have hsearch : rwSearch (s.fenced id) = t := by
    have hcmd : (advanceToNow (s.fenced id)).cmd = (s.fenced id).cmd := by simp
    rw [← hattempt, rwSearch]
    dsimp only
    rw [hcmd, show (s.fenced id).cmd.sector = s.cmd.sector from rfl, show (s.fenced id).cmd.isRead = s.cmd.isRead from rfl,
      hresolve]
    dsimp only
    rw [hnote]
  refine handle_fence_once s t id hawaits hactive ?_ (by simp [hwaits])
  rw [handler_search s id hcode hlow hhigh, hsearch]

/-- Settles O21: with no copy the attempt has failed, whatever the status. -/
theorem searchMisses : Obligations.SearchMisses := by
  intro s id status hawaits hcode hlow hhigh w hresolve pen budget again rotDelay cycles next acts
  have hw : w = { s.fenced id with rot := (advanceToNow s).rot } := advanceToNow_fenced s id
  obtain ⟨v, hv⟩ : ∃ v, v = noteMissing status w := ⟨_, rfl⟩
  have hnote : noteResolution (.notFound status) w = (v, .missing, rotDelay) := by
    rw [hv, hw]
    rfl
  rw [hw] at hv
  have hattempt := searchAttempt_eq (s := s) (v := v) (id := id) (kind := .missing) (pen := pen) (again := again)
    (drop := ¬again ∧ s.cmd.bufferHit = true ∧ s.prof.bufferTrackReadErrors = false) rotDelay
    (by rw [hv]; exact ⟨rfl, rfl, rfl, rfl, rfl, rfl, rfl⟩) (by rw [hv]; rfl) (by rw [hv]; rfl)
    (by rw [hv]; exact and_iff_right (by decide)) (fun _ => rfl)
    (by rw [hv]; exact ⟨fun ⟨⟨hhit, _, herrors⟩, hlast⟩ => ⟨hlast, hhit, herrors⟩,
      fun ⟨hlast, hhit, herrors⟩ => ⟨⟨hhit, by decide, herrors⟩, hlast⟩⟩)
  rw [handle_search hawaits hcode hlow hhigh hresolve hnote hattempt rfl, hv]
  rfl

/-- A resolution that selects a copy changes the phantom counters only (43_rw_common.md R246, R248). -/
theorem eq_of_resolveSector_found {v : Nat} {isRead : Bool} {s u : State} {p : Nat} {x : PhysSector}
    (h : resolveSector v isRead s = (.found p x, u)) : u = { s with phantomCounter := u.phantomCounter } := by
  rcases resolveSector_state v isRead s with ⟨status, hmissing⟩ | ⟨n, q, y, hfound⟩
  · rw [hmissing] at h
    cases h
  · rw [hfound] at h
    cases h
    rfl

theorem foundKind_ne_ok {v : State} : foundKind v ≠ .ok ↔ v.cmd.isRead = true ∧ v.fdcStatus ≠ Config.fdcOk := by
  have hcond : (v.cmd.isRead && decide (v.fdcStatus ≠ Config.fdcOk)) = true ↔
      v.cmd.isRead = true ∧ v.fdcStatus ≠ Config.fdcOk := by rw [Bool.and_eq_true, decide_eq_true_iff]
  rw [foundKind, ← hcond]
  split
  next hbad => exact iff_of_true (by decide) hbad
  next hok => exact iff_of_false (by decide) hok

theorem foundKind_of_ne_ok {v : State} (h : foundKind v ≠ .ok) : foundKind v = .dataError := by
  unfold foundKind at h ⊢
  split <;> simp_all

/-- Settles O22: the attempt has failed only for a read of a copy with an unclean status; of the resolution's state only
the phantom counters differ. -/
theorem searchFinds : Obligations.SearchFinds := by
  intro s u id p x hawaits hcode hlow hhigh hresolve status pen budget bad again pos rotDelay cycles next acts
  have hu : u = { s.fenced id with rot := (advanceToNow s).rot, phantomCounter := u.phantomCounter } := by
    have hfound := eq_of_resolveSector_found hresolve
    rwa [advanceToNow_fenced] at hfound
  obtain ⟨counters, hcounters⟩ : ∃ counters, counters = u.phantomCounter := ⟨_, rfl⟩
  rw [← hcounters] at hu ⊢
  obtain ⟨v, hv⟩ : ∃ v, v = noteFound p x u := ⟨_, rfl⟩
  rw [hu] at hv
  have hkind : foundKind v ≠ .ok ↔ bad := by
    rw [foundKind_ne_ok, hv]
    rfl
  have hnote : noteResolution (.found p x) u = (v, foundKind v, rotDelay) := by
    rw [hv, hu]
    rfl
  have hattempt := searchAttempt_eq (s := s) (v := v) (id := id) (kind := foundKind v) (pen := pen) (again := again)
    (drop := bad ∧ ¬again ∧ s.cmd.bufferHit = true ∧ s.prof.bufferTrackReadErrors = false) rotDelay
    (by rw [hv]; exact ⟨rfl, rfl, rfl, rfl, rfl, rfl, rfl⟩) (by rw [hv]; rfl) (by rw [hv]; rfl)
    (by rw [hkind, hv]; rfl) (fun hagain => by rw [foundKind_of_ne_ok (hkind.2 hagain.1)]; rfl)
    (by
      have hhit : v.cmd.bufferHit = s.cmd.bufferHit := by rw [hv]; rfl
      rw [hkind, hhit]
      tauto)
  rw [handle_search hawaits hcode hlow hhigh hresolve hnote hattempt rfl, hv]
  rfl

end Sys2Proof.Machine

/-! PROOF. READ (44_cmd_read.md): its first event, which answers from a RAM window, refuses the sector or seeks (R292, R293,
R298), the outcome state 20 with and without a copy (R294, R296), and the end of a read and of a write (R295,
45_cmd_write.md R321). The refusal is that of PUT and WRITE too (45_cmd_write.md R312). -/

namespace Sys2Proof.Machine

/-! ### The first event of a sector command -/

/-- A sector command whose state 0 ends the command is over in the event of its frame. -/
theorem exec_of_ended {s : State} {f : Operands} {i : Instr} {op : BitVec 7} {logical : LogicalCommand}
    {isRead verify : Bool} {t : State}
    (hexec : exec i s = runRow f ⟨some op, fun _ => true, logical, isRead, verify⟩ s) (hready : s.ready f)
    (hspeed : s.speedAccepted f) (hlogical : logical ≠ .none)
    (hrun : handler (s.started f op logical isRead verify) = .ok (endCommand t)) :
    exec i s = .next { endCommand t with reply := .start } := by
  have hended : processCommand (s.started f op logical isRead verify) = .ok (endCommand t) :=
    processCommand_once _ _ hrun ((State.active_iff _).2 hlogical) rfl (by simp [State.active, ActiveCommand.ended])
  rw [hexec, runRow_ready s f _ op hready hspeed rfl rfl, hended]
  rfl

/-! ### Illegal sectors -/

/-- State 0 of a read refuses an illegal sector outside the RAM windows (44_cmd_read.md R292). -/
theorem readState0_refuses {u : State} (hwindow : u.ramWindowAt u.cmd.sector false = none)
    (hinvalid : ¬u.sectorValid u.cmd.sector) : readState0 u = .ok (endCommand (beginTransferNAKCommand u)) := by
  have hnone : vendorRamWindow u false = none := hwindow
  rw [readState0, hnone]
  exact if_neg (hinvalid ∘ validSector_iff.1)

/-- State 0 of a write refuses an illegal sector outside the RAM windows (45_cmd_write.md R312). -/
theorem writeState0_refuses {u : State} (hwindow : u.ramWindowAt u.cmd.sector true = none)
    (hinvalid : ¬u.sectorValid u.cmd.sector) : writeState0 u = .ok (endCommand (beginTransferNAKCommand u)) := by
  have hnone : vendorRamWindow u true = none := hwindow
  rw [writeState0, hnone]
  exact if_neg (hinvalid ∘ validSector_iff.1)

/-- A sector command whose state 0 takes the `NAK` exception rejects its frame (60_exceptions.md R462). -/
theorem exec_rejected {s : State} {f : Operands} {i : Instr} {op : BitVec 7} {logical : LogicalCommand}
    {isRead verify : Bool} (hexec : exec i s = runRow f ⟨some op, fun _ => true, logical, isRead, verify⟩ s)
    (hready : s.ready f) (hspeed : s.speedAccepted f) (hlogical : logical ≠ .none)
    (hrun : handler (s.started f op logical isRead verify) =
      .ok (endCommand (beginTransferNAKCommand (s.started f op logical isRead verify)))) :
    exec i s = .next (s.rejected f op logical isRead verify (s.replyFast f, s.frameFast)) :=
  (exec_of_ended hexec hready hspeed hlogical hrun).trans
    (congrArg _ (endCommand_nak_startedAt s f op ⟨logical, isRead, verify, s.replyFast f, s.frameFast⟩))

/-- Settles O14, by the instruction: state 0 of its handler finds neither a window nor a legal sector. -/
theorem sectorRejected : Obligations.SectorRejected := by
  intro s f i op logical isRead verify hrow hready hspeed hwindow hinvalid
  simp only [List.mem_cons, Prod.mk.injEq, List.not_mem_nil, or_false] at hrow
  obtain ⟨rfl, rfl, rfl, rfl, rfl⟩ | ⟨rfl, rfl, rfl, rfl, rfl⟩ | ⟨rfl, rfl, rfl, rfl, rfl⟩ := hrow
  case inl =>
    exact exec_rejected rfl hready hspeed (by decide)
      ((handler_of_read rfl).trans (readState0_refuses (u := s.started f _ .read true false) hwindow hinvalid))
  case inr.inl =>
    exact exec_rejected rfl hready hspeed (by decide)
      ((handler_of_write rfl).trans (writeState0_refuses (u := s.started f _ .write false false) hwindow hinvalid))
  case inr.inr =>
    exact exec_rejected rfl hready hspeed (by decide)
      ((handler_of_write rfl).trans (writeState0_refuses (u := s.started f _ .write false true) hwindow hinvalid))

/-! ### The RAM window -/

/-- A vendor window lies inside drive RAM (20_memory.md R96). -/
theorem ramWindowAt_within {s : State} {v : Word16} {isWrite : Bool} {a : Nat} (had : s.admitted)
    (h : s.ramWindowAt v isWrite = some a) : a + 128 ≤ s.params.driveRamSize := by
  obtain ⟨-, -, -, hparams, -⟩ := had
  unfold State.ramWindowAt at h
  split at h
  · exact (Params.wf_tables s.params hparams).1 _ a h
  · cases h

theorem sendResult_of_le {n : Nat} (success : Bool) (s : State) (h : n ≤ Config.bufSize) :
    sendResult success n s = .ok (sentResult success n s) :=
  (sendResult_eq_ok success n s _).2 ⟨h, rfl⟩

/-- What the RAM-window read has done before `EndCommand`. -/
def ramWindowSent (a : Nat) (s : State) : State :=
  sentResult true 128 (writeSend 0 (s.driveRAM.readBytes a 128)
    (beginTransferACKCmd { s with cmd := { s.cmd with ramAddr := some a, len := 128 } }))

/-- State 0 of a read in a RAM window (44_cmd_read.md R292, R298). -/
theorem readState0_ramWindow {u : State} {a : Nat} (hwindow : u.ramWindowAt u.cmd.sector false = some a)
    (hwithin : a + 128 ≤ u.params.driveRamSize) : readState0 u = .ok (endCommand (ramWindowSent a u)) := by
  have hsome : vendorRamWindow u false = some a := hwindow
  obtain ⟨v, hv⟩ : ∃ v, v = beginTransferACKCmd { u with cmd := { u.cmd with ramAddr := some a, len := 128 } } := ⟨_, rfl⟩
  have hsize : a + 128 ≤ v.params.driveRamSize := by rw [hv]; simpa using hwithin
  have hram : v.driveRAM = u.driveRAM := by rw [hv]; simp
  rw [readState0, hsome, ramWindowSent]
  show readRamWindow a u = _
  unfold readRamWindow
  dsimp only
  rw [← hv, requireRamWindow, requireWithin_of_le v hsize, Result.ok_bind, sendResult_of_le _ _ (by decide), hram]
  rfl

/-- The bytes just stored at the start of SEND are what a result of their length sends. -/
theorem sentResult_writeSend_eq (success : Bool) (bytes : List Byte) {n : Nat} (hlength : bytes.length = n) (s : State) :
    sentResult success n (writeSend 0 bytes s) =
      { s with
        xferCyclesPerBit := (s.rateOf s.cmd.rawCommand s.cmd.highSpeedFlag).1
        xferCyclesPerByte := (s.rateOf s.cmd.rawCommand s.cmd.highSpeedFlag).2
        cmd := { s.cmd with state := s.cmd.state + 1 + 1 }
        lastOpError := if s.cmd.code = .status then s.lastOpError else !success
        sendBuf := s.sendBuf.writeBytes 0 bytes
        out := s.out ++ resultActions (s.rateOf s.cmd.rawCommand s.cmd.highSpeedFlag) success
          (dataFrameDelay s.prof s.cmd.highSpeedFlag n) bytes
        wire := s.wire.after s.now 0 (resultActions (s.rateOf s.cmd.rawCommand s.cmd.highSpeedFlag) success
          (dataFrameDelay s.prof s.cmd.highSpeedFlag n) bytes) } := by
  have hsent : (writeSend 0 bytes s).sendBytes n = bytes := by
    rw [← hlength]
    exact s.sendBuf.readBytes_writeBytes 0 bytes
  rw [sentResult_eq, hsent]
  rfl

end Sys2Proof.Machine

namespace Sys2Proof

open Machine

/-- Settles O7: state 0 of the read acknowledges, sends the window's bytes and ends the command. It stands outside
`Machine`, where `readRamWindow` is the model's operation. -/
theorem readRamWindow : Obligations.ReadRamWindow := by
  intro s f a hready hspeed hwindow raw rate bytes acts
  have hrun := readState0_ramWindow (u := s.started f s.params.opcodes.read .read true false) hwindow
    (ramWindowAt_within hready.1 hwindow)
  rw [exec_of_ended (i := .read f) rfl hready hspeed (by decide) ((handler_of_read rfl).trans hrun), ramWindowSent,
    sentResult_writeSend_eq true _ (Memory.length_readBytes _ _ _), beginTransferACKCmd_eq, endCommand_eq]
  simp only [State.started, acts, List.append_assoc, Wire.after_append]
  rfl

end Sys2Proof

namespace Sys2Proof.Machine

/-! ### The seek -/

/-- With the rotation up to date already, the disk turns on from where it stands (41_rotation_seek.md R173). -/
theorem State.spunLater_of_advanced {u s : State} (h : u.SameDrive s) (hrot : u.rot = (advanceToNow s).rot) :
    u.spunLater = s.spun := by
  have hcurrent : advanceToNow u = u := advanceToNow_of_advanced u s h.motorRunning hrot h.prof h.now
  have hperiod : u.period = s.period := by rw [State.period, h.prof, State.period]
  have hon : (if u.motorRunning then u.rot else { u.rot with lastUpdateCycle := u.now }) = motorOnRot s := by
    unfold motorOnRot
    rw [h.motorRunning, hrot, h.now]
    split
    · rfl
    · next hstopped => rw [advanceToNow_stopped (by simpa using hstopped)]
  have hmotor : motorOnRot u = motorOnRot s := by rw [← hon, motorOnRot, hcurrent]
  funext cycles
  rw [State.spunLater, State.spun, hon, hmotor, hperiod, h.flags]

/-- Settles O5: the seek decision of the accepted read misses the buffer, and the rotation is up to date. -/
theorem readSeeks : Obligations.ReadSeeks := by
  intro s f cyl hready hspeed hwindow hvalid hcyl hmiss ackRate acts
  have hu := readAccept_started s f s.params.opcodes.read .read true false
  have hexec := exec_read_seeks hready hspeed hwindow hvalid
  obtain ⟨u, hdef⟩ : ∃ u, u = readAccept (s.started f s.params.opcodes.read .read true false) := ⟨_, rfl⟩
  rw [← hdef] at hu hexec
  have hsame : u.SameDrive s := by rw [hu]; exact ⟨rfl, rfl, rfl, rfl, rfl, rfl, rfl⟩
  have hsector : u.cmd.sector = sectorOperand f := by rw [hu]; rfl
  have hbuffers : bufferingApplies u = s.buffers (sectorOperand f) := by
    rw [bufferingApplies_read (by rw [hu]; rfl), hsector, hu]
    rfl
  have hmissed : (bufferingApplies u && decide (u.bufferedTrack = some cyl)) = false := by
    have htrack : u.bufferedTrack = s.bufferedTrack := by rw [hu]
    rw [hbuffers, htrack, ← Bool.not_eq_true, Bool.and_eq_true, decide_eq_true_iff]
    exact hmiss
  have hseek := seekDecision_seeks (u := u) (s := u) (cyl := cyl) ⟨rfl, rfl, rfl, rfl, rfl, rfl, rfl⟩ rfl
    (by rw [State.period, hsame.prof]; exact hready.1.period_pos) (by rw [hsector, hu]; exact hcyl) hmissed
  rw [State.spunLater_of_advanced hsame (by rw [hu]), hsame.spinUpDelay_eq, hsame.prof, hsame.track,
    hsame.motorOnDeadline_eq, hsame.spinActions_eq, hbuffers] at hseek
  rw [hexec, hseek, hu]
  simp only [acts, List.append_assoc, Wire.after_append]
  rfl

/-! ### The time and the reply of the outcome state -/

/-- The last part of state 20, as one update: the result with the bytes SEND holds, the bookkeeping, and the wait for
state 21 (44_cmd_read.md R294, R296). -/
def readReplied (ok : Bool) (u : State) : State :=
  let rate := u.rateOf u.cmd.rawCommand u.cmd.highSpeedFlag
  let acts := resultActions rate ok (dataFrameDelay u.prof u.cmd.highSpeedFlag u.cmd.len) (u.sendBytes u.cmd.len) ++
    [.insertFence 21]
  { u with
    bufferedTrack :=
      if u.cmd.buffering then (if ok || u.prof.bufferTrackReadErrors then some u.cmd.targetTrack else none)
      else u.bufferedTrack
    lastReadSector := u.cmd.sector
    cmd := { u.cmd with state := 21, waiting := true }
    lastOpError := !ok
    xferCyclesPerBit := rate.1
    xferCyclesPerByte := rate.2
    out := u.out ++ acts
    wire := u.wire.after u.now 0 acts }

theorem wait_noteRead_sentResult_eq (ok : Bool) {u : State} (hcode : u.cmd.code = .read) :
    wait 21 (noteRead ok (sentResult ok u.cmd.len u)) = readReplied ok u := by
  have hresult : u.cmd.code ≠ .status := by simp [hcode]
  rw [sentResult_eq, if_neg hresult, wait_eq, noteRead]
  dsimp only [readReplied]
  simp only [List.append_assoc, Wire.after_append]
  rfl

/-- A fence at state 20 of a read runs the outcome state: its time, its data, and the reply (44_cmd_read.md R294). -/
theorem handle_readOutcome {s v u : State} (hawaits : s.awaits 20) (hcode : s.cmd.code = .read)
    (htime : readOutcomeTime (s.fenced 20) = v) (hdata : readOutcomeData v = .ok u) (hcode' : u.cmd.code = .read)
    (hlen : u.cmd.len ≤ Config.bufSize) :
    handle (.serialFence 20) s = .next (readReplied (readOk u) u) := by
  refine handle_fence_once s _ 20 hawaits (by simp [hcode]) ?_ (Bool.and_false _)
  rw [handler_of_read (s := s.fenced 20) hcode]
  show readState20 (s.fenced 20) = _
  rw [readState20, htime, hdata, Result.ok_bind]
  dsimp only
  rw [sendResult_of_le _ _ hlen, Result.ok_bind, wait_noteRead_sentResult_eq _ hcode', Result.pure_eq]

/-! ### A read with no copy -/

/-- With no copy the post-read delay is all the time that passes (44_cmd_read.md R294). -/
theorem readOutcomeTime_missing {s : State} (hmissing : s.cmd.physSector = none) :
    readOutcomeTime (s.fenced 20) =
      { s.fenced 20 with
        rot := if s.flags.accurateSectorTiming then s.rot else s.warped (postReadToCECycles s)
        out := s.out ++ [s.warpAction (postReadToCECycles s)]
        wire := s.wire.after s.now 0 [s.warpAction (postReadToCECycles s)] } := by
  have hnone : (s.fenced 20).cmd.physSector = none := hmissing
  rw [readOutcomeTime, hnone]
  show warpOrDelay (postReadToCECycles s) 0 (s.fenced 20) = _
  rw [warpOrDelay_stale, State.warped_of_same _ (s.fenced 20) s rfl rfl rfl rfl rfl]
  rfl

/-- Settles O24: with no copy the post-read delay passes, and SEND is sent as it is. -/
theorem readMissing : Obligations.ReadMissing := by
  intro s hawaits hcode hmissing hlen rate acts
  have htime := readOutcomeTime_missing hmissing
  obtain ⟨u, hu⟩ : ∃ u, readOutcomeTime (s.fenced 20) = u := ⟨_, rfl⟩
  rw [hu] at htime
  have hcmd : u.cmd = (s.fenced 20).cmd := by rw [htime]
  have hphys : u.cmd.physSector = none := by rw [hcmd]; exact hmissing
  have hdata : readOutcomeData u = .ok u := by rw [readOutcomeData, hphys]
  have hbad : readOk u = false := by rw [readOk, hphys]; rfl
  rw [handle_readOutcome hawaits hcode hu hdata (by rw [hcmd]; exact hcode) (by rw [hcmd]; exact hlen), hbad, htime]
  dsimp only [readReplied, acts]
  simp only [List.append_assoc, Wire.after_append]
  rfl

/-! ### SEND after a physical read -/

/-- The first bytes of `m` are `bytes`, and the others are those of `old`. -/
def Memory.Holds (m old : Memory) (bytes : List Byte) : Prop := ∀ a, m.read a = bytes.getD a (old.read a)

theorem Memory.Holds.readBytes_eq {m old : Memory} {bytes : List Byte} {n : Nat} (h : m.Holds old bytes)
    (hlength : bytes.length = n) : m.readBytes 0 n = bytes := by
  refine List.ext_getElem (by simp [hlength]) fun i _ hi => ?_
  simp [Memory.readBytes, h i, hi]

theorem Memory.Holds.read_of_le {m old : Memory} {bytes : List Byte} {a : Nat} (h : m.Holds old bytes)
    (ha : bytes.length ≤ a) : m.read a = old.read a := by
  rw [h a, List.getD_eq_default _ _ ha]

/-- A store of the first bytes. -/
theorem Memory.holds_writeBytes (m : Memory) (bytes : List Byte) : (m.writeBytes 0 bytes).Holds m bytes := by
  intro a
  by_cases ha : a < bytes.length
  · have hread := m.read_writeBytes_mem 0 a bytes ha
    rw [Nat.zero_add] at hread
    rw [hread, List.getD_eq_getElem _ _ ha, List.getD_eq_getElem _ _ ha]
  · rw [List.getD_eq_default _ _ (Nat.not_lt.1 ha)]
    exact m.read_writeBytes_of_not_mem 0 a bytes (by omega)

/-- A store over the bytes from `off` to the last. -/
theorem Memory.Holds.writeBytes_tail {m old : Memory} {bytes tail : List Byte} {off : Nat} (h : m.Holds old bytes)
    (htail : tail.length = bytes.length - off) : (m.writeBytes off tail).Holds old (bytes.take off ++ tail) := by
  intro a
  by_cases hin : off ≤ a ∧ a < bytes.length
  case pos =>
    obtain ⟨i, rfl⟩ := Nat.exists_eq_add_of_le hin.1
    have htake : (bytes.take off).length = off := by rw [List.length_take]; omega
    rw [m.read_writeBytes_mem off i tail (by omega), List.getD_append_right _ _ _ _ (by omega), htake,
      Nat.add_sub_cancel_left, List.getD_eq_getElem _ _ (by omega), List.getD_eq_getElem _ _ (by omega)]
  case neg =>
    rw [m.read_writeBytes_of_not_mem off a tail (by omega), h a]
    by_cases ha : a < bytes.length
    · have hkept : a < (bytes.take off).length := by rw [List.length_take]; omega
      rw [List.getD_append _ _ _ _ hkept, List.getD_eq_getElem _ _ ha, List.getD_eq_getElem _ _ hkept, List.getElem_take]
    · rw [List.getD_eq_default _ _ (Nat.not_lt.1 ha), List.getD_eq_default]
      rw [List.length_append, List.length_take]
      omega

theorem physBytes_length (x : PhysSector) (n : Nat) : (physBytes x n).length = n := by
  unfold physBytes
  split
  · exact List.length_replicate
  · rw [List.length_append, Memory.length_readBytes, List.length_replicate]
    omega

/-- The reply of `n` bytes of a read and the weak-bit register after it: the bytes from the start of the weak region, if
there is one, are corrupted (43_rw_common.md R261). -/
def weakReply (p : Params) (r : Word32) (weak : Option Nat) (n : Nat) (bytes : List Byte) : List Byte × Word32 :=
  let weakened := weaken p r (bytes.drop (weak.getD n))
  (bytes.take (weak.getD n) ++ weakened.1, weakened.2)

theorem weakReply_length (p : Params) (r : Word32) (weak : Option Nat) (n : Nat) (bytes : List Byte) :
    (weakReply p r weak n bytes).1.length = bytes.length := by
  simp only [weakReply, List.length_append, List.length_take, weaken_length, List.length_drop]
  omega

/-- With no weak region the reply is the bytes read, and the register stays. -/
theorem weakReply_none (p : Params) (r : Word32) {n : Nat} {bytes : List Byte} (hlength : bytes.length = n) :
    weakReply p r none n bytes = (bytes, r) := by
  subst hlength
  simp [weakReply, weaken]

/-- The weak-bit corruption of SEND once a read has filled it (44_cmd_read.md R294). -/
theorem readWeak_eq {w : State} {old : Memory} {bytes : List Byte} (hlength : bytes.length = w.cmd.len)
    (hsend : w.sendBuf = old.writeBytes 0 bytes) :
    let reply := weakReply w.params w.weakBitLFSR w.cmd.physWeakOffset w.cmd.len bytes
    ∃ m : Memory, m.Holds old reply.1 ∧ readWeak w = { w with sendBuf := m, weakBitLFSR := reply.2 } := by
  have hfilled : w.sendBuf.Holds old bytes := hsend ▸ old.holds_writeBytes bytes
  dsimp only
  unfold readWeak
  cases w.cmd.physWeakOffset with
  | none =>
    rw [weakReply_none _ _ hlength]
    exact ⟨w.sendBuf, hfilled, rfl⟩
  | some off =>
    have htail : w.sendBuf.readBytes off (w.cmd.len - off) = bytes.drop off := by
      rw [hsend, old.readBytes_tail bytes off _ hlength]
    refine ⟨w.sendBuf.writeBytes off (weaken w.params w.weakBitLFSR (bytes.drop off)).1, ?_, ?_⟩
    · exact hfilled.writeBytes_tail (by rw [weaken_length, List.length_drop])
    · dsimp only [applyWeakBits]
      rw [htail]
      rfl

/-! ### A read of a copy -/

/-- The time of state 20 with a copy: the rotation snaps to it, and its transfer and the post-read delay pass
(44_cmd_read.md R294). -/
theorem readOutcomeTime_served {s : State} {p : Nat} (hP : 0 < s.period) (hcopy : s.cmd.physSector = some p) :
    let cycles := (if s.cmd.bufferHit then 0 else sectorXferCycles s (readTimedBytes s)) + postReadToCECycles s
    readOutcomeTime (s.fenced 20) =
      { s.fenced 20 with
        rot := s.snapped s.cmd.physPos cycles
        out := s.out ++ [s.warpAction cycles]
        wire := s.wire.after s.now 0 [s.warpAction cycles] } := by
  intro cycles
  have hsome : (s.fenced 20).cmd.physSector = some p := hcopy
  rw [readOutcomeTime, hsome]
  dsimp only
  have hcycles : (if (snapRotation (s.fenced 20).cmd.physPos (s.fenced 20)).cmd.bufferHit then 0
      else sectorXferCycles (snapRotation (s.fenced 20).cmd.physPos (s.fenced 20))
        (readTimedBytes (snapRotation (s.fenced 20).cmd.physPos (s.fenced 20)))) +
      postReadToCECycles (snapRotation (s.fenced 20).cmd.physPos (s.fenced 20)) = cycles := by
    rw [snapRotation_eq]
    rfl
  rw [hcycles, snap_warp_eq _ _ (s.fenced 20) hP, State.snapped_of_same _ _ (s.fenced 20) s rfl rfl rfl rfl rfl]
  rfl

/-- The data of state 20 with a copy: SEND holds the reply, zeros with a CRC status if the read throws
(44_cmd_read.md R294, 20_memory.md R98). -/
theorem readOutcomeData_served {v : State} {p : Nat} (hcopy : v.cmd.physSector = some p)
    (hlen : v.cmd.len ≤ Config.bufSize) :
    let x := v.physSector p
    let weak := if x.readError then none else v.cmd.physWeakOffset
    let reply := weakReply v.params v.weakBitLFSR weak v.cmd.len (physBytes x v.cmd.len)
    ∃ m : Memory, m.Holds v.sendBuf reply.1 ∧ readOutcomeData v = .ok { v with
      fdcStatus := if x.readError then v.params.fdcCrc else v.fdcStatus
      weakBitLFSR := reply.2
      sendBuf := m
      out := v.out ++ [.readPhysicalSector p v.cmd.len]
      wire := v.wire.after v.now 0 [.readPhysicalSector p v.cmd.len] } := by
  intro x weak reply
  have hlength := physBytes_length x v.cmd.len
  obtain ⟨w, hw⟩ : ∃ w, w = writeSend 0 (physBytes x v.cmd.len) (v.emit (.readPhysicalSector p v.cmd.len)) := ⟨_, rfl⟩
  have hread : readPhys p v.cmd.len v = .ok (x.readError, w) := (readPhys_eq_ok p _ v w _).2 ⟨hlen, rfl, hw⟩
  have hdata : readOutcomeData v = .ok (if x.readError then setFdcStatus w.params.fdcCrc w else readWeak w) := by
    rw [readOutcomeData, hcopy]
    dsimp only
    rw [hread]
    rfl
  rw [emit_eq] at hw
  rw [hdata]
  cases hthrown : x.readError with
  | true =>
    have hreply : reply = (physBytes x v.cmd.len, v.weakBitLFSR) := by
      simp only [reply, weak, hthrown, if_true]
      exact weakReply_none _ _ hlength
    rw [hreply]
    exact ⟨_, v.sendBuf.holds_writeBytes _, by rw [hw]; rfl⟩
  | false =>
    have hreply : reply = weakReply w.params w.weakBitLFSR w.cmd.physWeakOffset w.cmd.len (physBytes x v.cmd.len) := by
      simp only [reply, weak, hthrown]
      rw [hw]
      rfl
    obtain ⟨m, hholds, hweak⟩ := readWeak_eq (w := w) (old := v.sendBuf) (bytes := physBytes x v.cmd.len)
      (by rw [hw]; exact hlength) (by rw [hw]; rfl)
    rw [← hreply] at hholds hweak
    refine ⟨m, hholds, ?_⟩
    rw [hweak, hw]
    rfl

/-- Settles O23: the time, then the data, of state 20 with a copy; the reply is what SEND then holds. -/
theorem readServed : Obligations.ReadServed := by
  intro s p hawaits hcode hcopy hlen x n rate cycles status ok weak off weakened bytes acts
  have htime := readOutcomeTime_served hawaits.1.period_pos hcopy
  obtain ⟨v, hv⟩ : ∃ v, readOutcomeTime (s.fenced 20) = v := ⟨_, rfl⟩
  rw [hv] at htime
  have hcmd : v.cmd = (s.fenced 20).cmd := by rw [htime]
  obtain ⟨m, hholds, hdata⟩ := readOutcomeData_served (v := v) (p := p) (by rw [hcmd]; exact hcopy)
    (by rw [hcmd]; exact hlen)
  obtain ⟨u, hu⟩ : ∃ u, readOutcomeData v = .ok u := ⟨_, hdata⟩
  have hsame := Except.ok.inj (hu.symm.trans hdata)
  rw [htime] at hsame hholds
  have hsends : m.Holds s.sendBuf bytes := hholds
  have hlength : bytes.length = n := (weakReply_length _ _ weak n _).trans (physBytes_length x n)
  have hbytes : m.readBytes 0 n = bytes := hsends.readBytes_eq hlength
  have hsent : u.sendBytes u.cmd.len = bytes := by rw [hsame]; exact hbytes
  have hok : readOk u = ok := by
    have hphys : u.cmd.physSector = some p := by rw [hsame]; exact hcopy
    rw [readOk, hphys, hsame]
    rfl
  refine ⟨m, hbytes, fun a ha => hsends.read_of_le (hlength ▸ ha), ?_⟩
  rw [handle_readOutcome hawaits hcode hv hu (by rw [hsame]; exact hcode) (by rw [hsame]; exact hlen), hok, readReplied,
    hsent, hsame]
  dsimp only [acts]
  simp only [List.append_assoc, Wire.after_append]
  rfl

/-! ### The end of a command -/

/-- Settles O18: the handler of each command ends it at its last state. -/
theorem commandEnds : Obligations.CommandEnds := by
  intro s id hawaits hlast
  have hrun : handler (s.fenced id) = .ok (endCommand (s.fenced id)) := by
    obtain ⟨hcode, rfl⟩ | ⟨hcode, rfl⟩ := hlast
    · exact handler_of_read (s := s.fenced 21) hcode
    · exact handler_of_write (s := s.fenced 60) hcode
  have hactive : s.cmd.code ≠ .none := by rcases hlast with ⟨hcode, -⟩ | ⟨hcode, -⟩ <;> simp [hcode]
  rw [handle_fence_once s _ id hawaits hactive hrun (by simp [State.active, ActiveCommand.ended]), endCommand_eq]
  rfl

end Sys2Proof.Machine

/-! PROOF. PUT and WRITE (45_cmd_write.md): the first event, which awaits the payload of a sector or of a RAM window
(R312, R313), the outcome state 20, which stores the payload or refuses it (R318, R319, R322), and the store in drive
RAM of state 50 (R320). The seek decision and the search are the common path's. -/

namespace Sys2Proof.Machine

/-! ### The first event of a write -/

/-- PUT and WRITE are rows of the logical command Write that differ in the opcode and in the verify flag
(45_cmd_write.md R311). -/
theorem exec_of_mem_writeRows {s : State} {f : Operands} {i : Instr} {op : BitVec 7} {verify : Bool}
    (hrow : (i, op, verify) ∈
      [(Instr.put f, s.params.opcodes.put, false), (Instr.write f, s.params.opcodes.write, true)]) :
    exec i s = runRow f ⟨some op, fun _ => true, .write, false, verify⟩ s := by
  simp only [List.mem_cons, Prod.mk.injEq, List.not_mem_nil, or_false] at hrow
  obtain ⟨rfl, rfl, rfl⟩ | ⟨rfl, rfl, rfl⟩ := hrow
  case inl => rfl
  case inr => rfl

/-- A command whose state 0 waits for a fence is suspended in the event of its frame. -/
theorem exec_of_waits {s : State} {f : Operands} {i : Instr} {op : BitVec 7} {logical : LogicalCommand}
    {isRead verify : Bool} {t : State}
    (hexec : exec i s = runRow f ⟨some op, fun _ => true, logical, isRead, verify⟩ s) (hready : s.ready f)
    (hspeed : s.speedAccepted f) (hlogical : logical ≠ .none)
    (hrun : handler (s.started f op logical isRead verify) = .ok t) (hwaits : t.cmd.waiting = true) :
    exec i s = .next { t with reply := .start } := by
  have hsuspended : processCommand (s.started f op logical isRead verify) = .ok t :=
    processCommand_once _ _ hrun ((State.active_iff _).2 hlogical) rfl (by simp [hwaits])
  rw [hexec, runRow_ready s f _ op hready hspeed rfl rfl, hsuspended]
  rfl

theorem receivePayload_of_le {n : Nat} (s : State) (h : n ≤ Config.bufSize) :
    receivePayload n s = .ok (armedReceive n s) :=
  (receivePayload_eq_ok n s _).2 ⟨h, rfl⟩

/-- The command frame is acknowledged, a receive of `n` bytes armed, and the fence `next` awaited. -/
def payloadAwaited (n : Nat) (next : Word32) (u : State) : State := wait next (armedReceive n (beginTransferACKCmd u))

/-- At state 0 the acknowledgement makes the receive the second transport call, so its id is 2 (48_transfer.md R410). -/
theorem payloadAwaited_eq (n : Nat) (next : Word32) {u : State} (hstate : u.cmd.state = 0) :
    let rate := u.rateOf u.cmd.rawCommand u.cmd.highSpeedFlag
    let acts := ackActions (u.rateOf u.cmd.rawCommand u.cmd.highSpeedFrame) u.prof.cyclesToACKSent ++
      receiveActions rate n ++ [.insertFence next]
    payloadAwaited n next u =
      { u with
        cmd := { u.cmd with rxChecksumOK := false, rxLen := 0, state := next, waiting := true }
        xferCyclesPerBit := rate.1
        xferCyclesPerByte := rate.2
        rxOffset := 0
        out := u.out ++ acts
        wire := u.wire.after u.now 2 acts } := by
  have hid : u.cmd.state + 1 + 1 = 2 := by rw [hstate]; rfl
  intro rate acts
  rw [payloadAwaited, beginTransferACKCmd_eq, armedReceive_eq, wait_eq]
  dsimp only [acts]
  simp only [hid, List.append_assoc, Wire.after_append]
  rfl

/-- State 0 of a write of a legal sector outside the RAM windows accepts it (45_cmd_write.md R313). -/
theorem writeState0_accepts {u : State} {n : Nat} (hwindow : u.ramWindowAt u.cmd.sector true = none)
    (hvalid : u.sectorValid u.cmd.sector) (hlength : xferLen u.geom u.cmd.sector.toNat = n)
    (hn : n ≤ Config.bufSize) :
    writeState0 u = .ok (payloadAwaited n 10
      { u.emit (.checkSectorBreakpoint u.cmd.sector) with cmd := { u.cmd with len := n } }) := by
  subst hlength
  have hnone : vendorRamWindow u true = none := hwindow
  rw [writeState0, hnone]
  dsimp only
  rw [if_pos (validSector_iff.2 hvalid), writeAccept]
  dsimp only
  rw [receivePayload_of_le _ (by simpa using hn)]
  simp [payloadAwaited]

/-- Settles O8: state 0 of the write checks the breakpoint and awaits the payload of the sector's length. -/
theorem writeAccepted : Obligations.WriteAccepted := by
  intro s f i op verify hrow hready hspeed hwindow hvalid hlen raw rate len acts
  have hrun := writeState0_accepts (u := s.started f op .write false verify) (n := len) hwindow hvalid rfl hlen
  rw [payloadAwaited_eq _ _ rfl] at hrun
  rw [exec_of_waits (exec_of_mem_writeRows hrow) hready hspeed (by decide) ((handler_of_write rfl).trans hrun) rfl,
    emit_eq]
  simp only [State.started, acts, List.append_assoc, Wire.after_append]
  rfl

/-- State 0 of a write in a RAM window (45_cmd_write.md R312). -/
theorem writeState0_ramWindow {u : State} {a : Nat} (hwindow : u.ramWindowAt u.cmd.sector true = some a) :
    writeState0 u = .ok (payloadAwaited 128 50 { u with cmd := { u.cmd with ramAddr := some a, len := 128 } }) := by
  have hsome : vendorRamWindow u true = some a := hwindow
  rw [writeState0, hsome]
  show writeRamWindow a u = _
  rw [writeRamWindow]
  dsimp only
  rw [receivePayload_of_le _ (by decide)]
  rfl

end Sys2Proof.Machine

namespace Sys2Proof

open Machine

/-- Settles O9: state 0 of the write notes the window and awaits its 128 bytes. It stands outside `Machine`, where
`writeRamWindow` is the model's operation. -/
theorem writeRamWindow : Obligations.WriteRamWindow := by
  intro s f i op verify a hrow hready hspeed hwindow raw rate acts
  have hrun := writeState0_ramWindow (u := s.started f op .write false verify) hwindow
  rw [payloadAwaited_eq _ _ rfl] at hrun
  rw [exec_of_waits (exec_of_mem_writeRows hrow) hready hspeed (by decide) ((handler_of_write rfl).trans hrun) rfl]
  simp only [State.started, acts, List.append_assoc, Wire.after_append]
  rfl

end Sys2Proof

namespace Sys2Proof.Machine

/-! ### The refusals of state 20 -/

theorem noteStatus_eq (status : Option Byte) (s : State) :
    noteStatus status s = { s with fdcStatus := status.getD s.fdcStatus } := by
  cases status <;> rfl

/-- The Error response and the end of the command, as one update (60_exceptions.md R463). -/
theorem takeException_errorResponse_eq (status : Option Byte) (u : State) :
    let rate := u.rateOf u.cmd.rawCommand u.cmd.highSpeedFlag
    let acts := errorActions rate ++ endActions u
    takeException (.errorResponse status) u = .ok { u with
      cmd := u.cmd.ended
      fdcStatus := status.getD u.fdcStatus
      lastOpError := true
      xferCyclesPerBit := rate.1
      xferCyclesPerByte := rate.2
      motorOffDeadline := endDeadline u
      out := u.out ++ acts
      wire := u.wire.after u.now 0 acts } := by
  intro rate acts
  rw [takeException, noteStatus_eq, beginTransferError_eq, endCommand_eq]
  dsimp only [acts]
  simp only [List.append_assoc, Wire.after_append]
  rfl

/-- A fence at state 20 of a write runs the outcome state, which ends the command. -/
theorem handle_writeOutcome {s t : State} (hawaits : s.awaits 20) (hcode : s.cmd.code = .write)
    (hrun : writeState20 (s.fenced 20) = .ok t) (hended : t.cmd.code = .none) :
    handle (.serialFence 20) s = .next t :=
  handle_fence_once s t 20 hawaits (by simp [hcode]) ((handler_of_write (s := s.fenced 20) hcode).trans hrun)
    (by simp [State.active, hended])

/-- The track buffer is dropped before state 20's tests (45_cmd_write.md R318). -/
def State.bufferDropped (s : State) : State := { s with bufferedTrack := none }

/-- The FDC status of a refusal, if it has one: only that of a protected disk does (45_cmd_write.md R318, R319). -/
def State.writeRefusalStatus (s : State) : Option Byte :=
  if s.flags.diskPresent = true ∧ s.flags.writeEnabled = false then some 0xBF else none

/-- The three refusals of state 20, in the order of their tests (60_exceptions.md R476). -/
theorem writeState20_refuses {u : State}
    (hrefused : u.flags.diskPresent = false ∨ u.flags.writeEnabled = false ∨ u.cmd.physSector = none) :
    writeState20 u = takeException (.errorResponse u.writeRefusalStatus) u.bufferDropped := by
  unfold writeState20 State.writeRefusalStatus
  by_cases hdisk : u.flags.diskPresent = false
  case pos =>
    rw [if_pos hdisk, if_neg (by simp [hdisk])]
    rfl
  rw [if_neg hdisk]
  by_cases hprotected : u.flags.writeEnabled = false
  case pos =>
    rw [if_pos hprotected, if_pos ⟨by simpa using hdisk, hprotected⟩]
    rfl
  have hmissing : u.cmd.physSector = none := (hrefused.resolve_left hdisk).resolve_left hprotected
  rw [if_neg hprotected, if_neg fun hwp => hprotected hwp.2, hmissing]
  rfl

/-- Settles O26: each refusal is an Error response, and of them only write protection sets the status. -/
theorem writeRefused : Obligations.WriteRefused := by
  intro s hawaits hcode hrefused rate acts
  have hstatus : s.writeRefusalStatus.getD s.fdcStatus =
      if s.flags.diskPresent = true ∧ s.flags.writeEnabled = false then 0xBF else s.fdcStatus := by
    unfold State.writeRefusalStatus
    split <;> rfl
  have hrun := writeState20_refuses (u := s.fenced 20) hrefused
  rw [takeException_errorResponse_eq] at hrun
  rw [handle_writeOutcome hawaits hcode hrun rfl, ← hstatus]
  rfl

/-! ### The store of state 20 -/

/-- The rotation snaps to the copy and the write's delay passes (45_cmd_write.md R318). -/
theorem writeTime_eq {u : State} (hP : 0 < u.period) :
    writeTime u =
      { u with
        rot := u.snapped u.cmd.physPos (writeDelay u)
        out := u.out ++ [u.warpAction (writeDelay u)]
        wire := u.wire.after u.now 0 [u.warpAction (writeDelay u)] } := by
  have hdelay : writeDelay (snapRotation u.cmd.physPos u) = writeDelay u := by rw [snapRotation_eq]; rfl
  rw [writeTime]
  rw [hdelay, snap_warp_eq _ _ u hP]

/-- A clean status completes the write, another is an Error; either ends the command (45_cmd_write.md R318). -/
theorem writeResponse_eq {u : State} (hcode : u.cmd.code = .write) :
    let rate := u.rateOf u.cmd.rawCommand u.cmd.highSpeedFlag
    let acts := (if u.fdcStatus = Config.fdcOk then completeActions rate else errorActions rate) ++ endActions u
    writeResponse u = .ok { u with
      cmd := u.cmd.ended
      lastOpError := decide (u.fdcStatus ≠ Config.fdcOk)
      xferCyclesPerBit := rate.1
      xferCyclesPerByte := rate.2
      motorOffDeadline := endDeadline u
      out := u.out ++ acts
      wire := u.wire.after u.now 0 acts } := by
  intro rate acts
  by_cases hok : u.fdcStatus = Config.fdcOk
  case pos =>
    have hresult : u.cmd.code ≠ .status := by simp [hcode]
    have hclean : decide (u.fdcStatus ≠ Config.fdcOk) = false := by simp [hok]
    dsimp only [acts]
    rw [writeResponse, if_pos hok, if_pos hok, hclean, beginTransferComplete_eq, if_neg hresult, endCommand_eq]
    simp only [List.append_assoc, Wire.after_append]
    rfl
  case neg =>
    have hbad : decide (u.fdcStatus ≠ Config.fdcOk) = true := by simp [hok]
    dsimp only [acts]
    rw [writeResponse, if_neg hok, if_neg hok, hbad, takeException_errorResponse_eq]
    rfl

/-- With a present, writable disk and a copy, state 20 performs the write (45_cmd_write.md R318). -/
theorem writeState20_stores {u : State} {p : Nat} (hdisk : u.flags.diskPresent = true)
    (hwritable : u.flags.writeEnabled = true) (hcopy : u.cmd.physSector = some p) :
    writeState20 u = writeOutcome p u.bufferDropped := by
  unfold writeState20
  dsimp only
  rw [if_neg (by simp [hdisk]), if_neg (by simp [hwritable]), hcopy]
  rfl

/-- The unit once the physical write is made and its status noted (20_memory.md R98, 45_cmd_write.md R318). -/
def State.physWritten (s : State) (p : Nat) : State :=
  let x := s.physSector p
  let bytes := s.recvBytes (min s.cmd.len x.physSize)
  { s with
    fdcStatus := if x.writeError then s.params.fdcCrc else Config.fdcOk
    disk := { s.disk with image := s.disk.image.map fun img =>
      { img with phys := img.phys.set p (x.store s.freeCtr bytes) } }
    freeCtr := s.freeCtr + 1
    out := s.out ++ [.writePhysicalSector p bytes]
    wire := s.wire.after s.now 0 [.writePhysicalSector p bytes] }

/-- The physical write, its time, and its response. -/
theorem writeOutcome_eq {u : State} {p : Nat} (hlen : u.cmd.len ≤ Config.bufSize) :
    writeOutcome p u = writeResponse (writeTime (u.physWritten p)) := by
  rw [writeOutcome, (writePhys_eq_ok p u.cmd.len u _ _).2 ⟨hlen, rfl, rfl⟩]
  rfl

/-- Settles O25: the store of the payload, the time of the sector, and the response to the write. -/
theorem writeStored : Obligations.WriteStored := by
  intro s p hawaits hcode hdisk hwritable hcopy hlen x rate bytes status cycles acts
  obtain ⟨w, hw⟩ : ∃ w, w = (s.fenced 20).bufferDropped.physWritten p := ⟨_, rfl⟩
  have hstores : writeState20 (s.fenced 20) = writeResponse (writeTime w) := by
    rw [writeState20_stores (u := s.fenced 20) hdisk hwritable hcopy,
      writeOutcome_eq (u := (s.fenced 20).bufferDropped) hlen, hw]
  have hperiod : 0 < w.period := by rw [hw]; exact hawaits.1.period_pos
  have hcycles : writeDelay w = cycles := by rw [hw]; rfl
  have hsnapped : w.snapped s.cmd.physPos cycles = s.snapped s.cmd.physPos cycles := by
    subst hw
    exact State.snapped_of_same _ _ _ s rfl rfl rfl rfl rfl
  have hpos : w.cmd.physPos = s.cmd.physPos := by rw [hw]; rfl
  have htime := writeTime_eq hperiod
  rw [hcycles, hpos, hsnapped] at htime
  obtain ⟨v, hv⟩ : ∃ v, v = writeTime w := ⟨_, rfl⟩
  rw [← hv] at hstores htime
  rw [writeResponse_eq (by rw [htime, hw]; exact hcode)] at hstores
  rw [handle_writeOutcome hawaits hcode hstores rfl, htime, hw]
  dsimp only [State.physWritten, acts]
  simp only [List.append_assoc, Wire.after_append]
  rfl

/-! ### The RAM window -/

/-- The payload stored at a window inside drive RAM (45_cmd_write.md R320). -/
theorem storeRamWindow_within {u : State} (hwithin : u.ramAddress + 128 ≤ u.params.driveRamSize) :
    storeRamWindow u = .ok { u with driveRAM := u.driveRAM.writeBytes u.ramAddress (u.recvBytes 128) } := by
  rw [storeRamWindow]
  rw [requireRamWindow, requireWithin_of_le u hwithin]
  rfl

/-- Settles O27: the data frame is acknowledged, its payload stored in drive RAM, and the command completed. -/
theorem ramWindowStored : Obligations.RamWindowStored := by
  intro s a hawaits hcode hchecksum haddress hwithin rate acts
  subst haddress
  have hack := beginTransferACKData_eq (s.fenced 50)
  obtain ⟨u, hu⟩ : ∃ u, u = beginTransferACKData (s.fenced 50) := ⟨_, rfl⟩
  rw [← hu] at hack
  have hstored := storeRamWindow_within (u := u) (by rw [hack]; exact hwithin)
  obtain ⟨v, hv⟩ : ∃ v, storeRamWindow u = .ok v := ⟨_, hstored⟩
  have hsame := Except.ok.inj (hv.symm.trans hstored)
  have hrun : handler (s.fenced 50) = .ok (wait 60 (beginTransferComplete v)) := by
    rw [handler_of_write (s := s.fenced 50) hcode]
    show writeState50 (s.fenced 50) = _
    rw [writeState50, if_neg (by simp [State.fenced, hchecksum]), ← hu, hv]
    rfl
  have hresult : v.cmd.code ≠ .status := by
    have hwrite : v.cmd.code = .write := by rw [hsame, hack]; exact hcode
    simp [hwrite]
  rw [handle_fence_once s _ 50 hawaits (by simp [hcode]) hrun (Bool.and_false _), beginTransferComplete_eq,
    if_neg hresult, wait_eq, hsame, hack]
  dsimp only [acts]
  simp only [List.append_assoc, Wire.after_append]
  rfl

end Sys2Proof.Machine

/-! PROOF. The format commands (46_cmd_format.md): the first event, which acknowledges the frame and awaits a skewed
format's block (R332); states 2 and 3, which refuse the format, fail it or replace the image (R334 to R337, R345); and
states 4 and 5, which step over the tracks and reply (R338, R340). -/

namespace Sys2Proof.Machine

/-! ### The first event -/

theorem handler_of_format {s : State} (h : s.cmd.code = .format) : handler s = formatHandler s := by rw [handler, h]

/-- An accepted row runs as one without a gate does: reception tests the gate and nothing later reads it
(30_encoding.md R118, R119). -/
theorem runRow_eq_ungated {s : State} {f : Operands} {r : Row} {op : BitVec 7} (hready : s.ready f)
    (hspeed : s.speedAccepted f) (hop : r.opcode = some op) (hgate : r.gate s.prof = true) :
    runRow f r s = runRow f ⟨some op, fun _ => true, r.logical, r.isRead, r.verify⟩ s :=
  (runRow_ready s f r op hready hspeed hop hgate).trans
    (runRow_ready s f ⟨some op, fun _ => true, r.logical, r.isRead, r.verify⟩ op hready hspeed rfl rfl).symm

/-- The three format instructions are rows of the one logical command (46_cmd_format.md R331). -/
theorem exec_of_mem_formatRows {s : State} {f : Operands} {i : Instr} {op : BitVec 7}
    (hrow : i ∈ [Instr.format f, Instr.formatSkewed f, Instr.formatBoot f]) (hready : s.ready f)
    (hspeed : s.speedAccepted f) (hop : i.opcode s.params.opcodes = some op) (hgate : gateOf s.prof i = true) :
    exec i s = runRow f ⟨some op, fun _ => true, .format, false, false⟩ s := by
  simp only [List.mem_cons, List.not_mem_nil, or_false] at hrow
  obtain rfl | rfl | rfl := hrow
  case inl => exact runRow_eq_ungated hready hspeed hop hgate
  case inr.inl => exact runRow_eq_ungated hready hspeed hop hgate
  case inr.inr => exact runRow_eq_ungated hready hspeed hop hgate

/-- The frame of a format is that of the skewed format exactly when its opcode is (46_cmd_format.md R332). -/
theorem skewed_started_iff {s : State} {f : Operands} {op : BitVec 7} {logical : LogicalCommand}
    {isRead verify : Bool} :
    (s.started f op logical isRead verify).skewed ↔ op = s.params.opcodes.formatSkewed :=
  iff_of_eq (congrArg (· = _) (baseOpcode_commandByte f.h op))

/-- The provisional reply length of state 0 (46_cmd_format.md R332, R341). -/
def State.replySized (s : State) : State := { s with cmd := { s.cmd with len := formatReplyLen s.geom } }

/-- Without a payload state 0 acknowledges and waits (46_cmd_format.md R332). -/
theorem formatState0_plain {u : State} (hplain : ¬u.skewed) :
    formatState0 u = .ok (wait 2 (beginTransferACKCmd u.replySized)) := by
  have hskewed : ¬isSkewed (beginTransferACKCmd u.replySized) = true := by
    rw [beginTransferACKCmd_eq]
    exact isSkewed_neg _ hplain
  rw [formatState0]
  show formatPayload (beginTransferACKCmd u.replySized) >>= _ = _
  rw [formatPayload, if_neg hskewed]
  rfl

/-- State 0 of a skewed format awaits its 128 bytes (46_cmd_format.md R332). -/
theorem formatState0_skewed {u : State} (hskewed : u.skewed) :
    formatState0 u = .ok (payloadAwaited 128 2 u.replySized) := by
  have hpayload : isSkewed (beginTransferACKCmd u.replySized) = true := by
    rw [beginTransferACKCmd_eq]
    exact isSkewed_pos _ hskewed
  rw [formatState0]
  show formatPayload (beginTransferACKCmd u.replySized) >>= _ = _
  rw [formatPayload, if_pos hpayload, receivePayload_of_le _ (by decide)]
  rfl

/-- Settles O10: state 0 of a format that is not the skewed one acknowledges and waits. -/
theorem formatAccepted : Obligations.FormatAccepted := by
  intro s f i op hrow hready hspeed hop hgate hplain ackRate acts
  have hformat : i ∈ [Instr.format f, Instr.formatSkewed f, Instr.formatBoot f] := by
    simp only [List.mem_cons, List.not_mem_nil, or_false] at hrow ⊢
    exact hrow.imp_right .inr
  have hrun := formatState0_plain (u := s.started f op .format false false) (hplain ∘ skewed_started_iff.1)
  rw [exec_of_waits (exec_of_mem_formatRows hformat hready hspeed hop hgate) hready hspeed (by decide)
    ((handler_of_format rfl).trans hrun) rfl, beginTransferACKCmd_eq, wait_eq]
  simp only [State.replySized, State.started, acts, List.append_assoc, Wire.after_append]
  rfl

/-- Settles O11: state 0 of the skewed format acknowledges, awaits its 128 bytes and waits. -/
theorem formatSkewedAccepted : Obligations.FormatSkewedAccepted := by
  intro s f i hrow hready hspeed hop hgate op rate acts
  have hrun := formatState0_skewed (u := s.started f op .format false false) (skewed_started_iff.2 rfl)
  rw [payloadAwaited_eq _ _ rfl] at hrun
  rw [exec_of_waits (exec_of_mem_formatRows hrow hready hspeed hop hgate) hready hspeed (by decide)
    ((handler_of_format rfl).trans hrun) rfl]
  simp only [State.replySized, State.started, acts, List.append_assoc, Wire.after_append]
  rfl

/-! ### The refusals of state 2 -/

/-- The FDC status of a refused format, if it has one: a rejected block has none (46_cmd_format.md R334, R335). -/
def State.formatRefusalStatus (s : State) : Option Byte :=
  if s.flags.diskPresent = false then some s.params.fdcRnf
  else if s.flags.writeEnabled = false ∨ s.flags.formatEnabled = false then some Config.fdcWriteProtect
  else none

/-- The refusals of state 2, in the order of their tests (60_exceptions.md R476); none changes the state. -/
theorem formatEnabledChecks_refuses {u : State}
    (hrefused : u.flags.diskPresent = false ∨ u.flags.writeEnabled = false ∨ u.flags.formatEnabled = false ∨
      u.skewed ∧ ¬u.acceptsPercom (percomAt u.recvBuf)) :
    formatEnabledChecks u = formatFail u.formatRefusalStatus u := by
  unfold formatEnabledChecks State.formatRefusalStatus
  by_cases hdisk : u.flags.diskPresent = false
  case pos => rw [if_pos hdisk, if_pos hdisk]
  rw [if_neg hdisk, if_neg hdisk]
  by_cases hprotected : u.flags.writeEnabled = false ∨ u.flags.formatEnabled = false
  case pos => rw [if_pos hprotected, if_pos (Bool.and_eq_false_iff.2 hprotected)]
  rw [if_neg hprotected, if_neg (hprotected ∘ Bool.and_eq_false_iff.1)]
  obtain ⟨hskewed, hrejected⟩ : u.skewed ∧ ¬u.acceptsPercom (percomAt u.recvBuf) := by tauto
  rw [formatDensity_reject u hskewed hrejected]
  rfl

/-- Settles O29: each refusal is an Error response with the 0xFF frame, in the state the acknowledgement left. -/
theorem formatRefused : Obligations.FormatRefused := by
  intro s hawaits hcode hlen hchecksum hrefused rate acts
  have hstatus : s.formatRefusalStatus.getD s.fdcStatus =
      if s.flags.diskPresent = false then s.params.fdcRnf
      else if s.flags.writeEnabled = false ∨ s.flags.formatEnabled = false then 0xBF
      else s.fdcStatus := by
    unfold State.formatRefusalStatus
    split
    · rfl
    · split <;> rfl
  have hrun : handler (s.fenced 2) = formatFail s.formatRefusalStatus (formatChecked s) := by
    rw [formatState2_eq s hcode hchecksum]
    exact formatEnabledChecks_refuses (u := formatChecked s) hrefused
  rw [formatFail_eq _ (formatChecked s) hlen (by simp [formatChecked, hcode])] at hrun
  rw [handle_fence_once s _ 2 hawaits (by simp [hcode]) hrun rfl, ← hstatus]
  dsimp only [formatChecked, acts]
  simp only [List.append_assoc, Wire.after_append]
  rfl

/-! ### The image of state 3 -/

/-- Two handler invocations settle the fence. -/
theorem handle_fence_twice {s u t : State} {id : Word32} (hawaits : s.awaits id) (hactive : s.cmd.code ≠ .none)
    (hfirst : handler (s.fenced id) = .ok u) (hactive' : u.cmd.code ≠ .none) (hruns : u.cmd.waiting = false)
    (hsecond : handler u = .ok t) (hsettled : (t.active && !t.cmd.waiting) = false) :
    handle (.serialFence id) s = .next t := by
  rw [handle_fence s id hawaits hactive, processCommand_twice (s.fenced id) u t hfirst
    ((State.active_iff _).2 hactive) rfl hsecond ((State.active_iff u).2 hactive') hruns hsettled]
  rfl

/-- The unit when state 3 of a format begins: a skewed block is in force (46_cmd_format.md R335). -/
def State.formatReady (s : State) : State :=
  let inForce := s.skewed ∧ s.prof.writePERCOMChangesDensity = true
  { formatChecked s with
    percom := s.formatPercom
    geom :=
      if inForce then { s.geom with toLayout := geometryOfPercom (s.storedPercom (percomAt s.recvBuf)) } else s.geom
    bufferedTrack := if inForce then none else s.bufferedTrack
    cmd := { s.cmd with waiting := false, state := 3 } }

/-- A format that passes state 2's checks goes on to state 3, whose outcome settles the fence. -/
theorem handle_formatState3 {s t : State} (hawaits : s.awaits 2) (hcode : s.cmd.code = .format)
    (hchecksum : s.skewed → s.cmd.rxChecksumOK = true) (hdisk : s.flags.diskPresent = true)
    (hwritable : s.flags.writeEnabled = true) (hformattable : s.flags.formatEnabled = true)
    (haccepted : s.skewed → s.acceptsPercom (percomAt s.recvBuf)) (hrun : formatState3 s.formatReady = .ok t)
    (hsettled : (t.active && !t.cmd.waiting) = false) : handle (.serialFence 2) s = .next t := by
  have hactive : s.cmd.code ≠ .none := by simp [hcode]
  have hfirst : handler (s.fenced 2) = .ok s.formatReady := by
    rw [formatState2_eq s hcode hchecksum]
    exact formatEnabledChecks_go (formatChecked s) hdisk hwritable hformattable haccepted
  have hsecond : handler s.formatReady = .ok t := by
    rw [handler_of_format (s := s.formatReady) hcode]
    exact hrun
  exact handle_fence_twice hawaits hactive hfirst hactive rfl hsecond hsettled

/-- The unit after the Disk Interface was told to format and holds `img` (20_memory.md R91, R94). -/
def State.formatCalled (s : State) (g : Layout) (img : Option Image) : State :=
  { s with
    disk := { s.disk with image := img }
    freeCtr := s.freeCtr + 1
    out := s.out ++ [.formatDisk g]
    wire := s.wire.after s.now 0 [.formatDisk g] }

/-- A storage error leaves the sector table and spoils the bytes (60_exceptions.md R465). -/
theorem formatDisk_throws {u : State} (g : Layout) (herror : u.disk.formatError = true) :
    formatDisk g u = (true, u.formatCalled g (u.disk.image.map fun img => spoiltImage img u.freeCtr)) := by
  simp only [formatDisk, emit_disk, herror, if_true]
  rfl

/-- Without a storage error the disk holds the image of the geometry asked for (46_cmd_format.md R337). -/
theorem formatDisk_formats {u : State} (g : Layout) (herror : u.disk.formatError = false) :
    formatDisk g u = (false, u.formatCalled g (some (formattedImage u.params u.freeCtr g))) := by
  simp only [formatDisk, emit_disk, herror, Bool.false_eq_true, if_false]
  rfl

/-- Settles O31: the throw is an Error response with the 0xFF frame and the CRC status, before any movement. -/
theorem formatThrows : Obligations.FormatThrows := by
  intro s hawaits hcode hlen hchecksum hdisk hwritable hformattable haccepted herror rate g inForce acts
  obtain ⟨u, hu⟩ : ∃ u, u = s.formatReady.formatCalled g (s.disk.image.map fun img => spoiltImage img s.freeCtr) :=
    ⟨_, rfl⟩
  have hrun : formatState3 s.formatReady = formatFail (some s.params.fdcCrc) u := by
    have hthrown := formatDisk_throws (u := s.formatReady) g herror
    rw [formatState3, show formatGeometry s.formatReady = g from rfl, hthrown, hu]
    rfl
  have hresult : s.cmd.code ≠ .status := by simp [hcode]
  rw [formatFail_eq _ u (by rw [hu]; exact hlen) (by rw [hu]; exact hresult)] at hrun
  rw [handle_formatState3 hawaits hcode hchecksum hdisk hwritable hformattable haccepted hrun rfl, hu]
  dsimp only [State.formatCalled, State.formatReady, formatChecked, acts, inForce]
  simp only [List.append_assoc, Wire.after_append]
  rfl

/-- With an image in the disk the geometry, the PERCOM block and the register files follow it (46_cmd_format.md R337). -/
theorem formatRefresh_eq {v : State} {img : Image} (himage : v.disk.image = some img)
    (hpresent : v.flags.diskPresent = true) :
    formatRefresh v = { v with
      percom := percomOfGeometry img.geometry.toLayout
      geom := img.geometry
      bufferedTrack := none
      phantomCounter := List.replicate img.geometry.totalSectors 0
      forcedOrder := List.replicate img.phys.length 0
      cmd := { v.cmd with physSector := none, len := formatReplyLen img.geometry, formatTrack := 0 } } := by
  have hflags : { v.flags with diskPresent := true } = v.flags := by rw [← hpresent]
  simp only [formatRefresh, clearSectorArrays, refreshGeometry_eq, State.refreshedPercom, State.refreshedGeometry,
    State.physCount, himage, Option.isSome_some, hflags]

/-- Cylinder 0 is the step unit 0, with half tracks or without (10_state.md R27). -/
@[simp] theorem trackOf_zero (q : Profile) : trackOf q 0 = 0 := by unfold trackOf; split <;> rfl

/-- The motor is started and the head moved home by a unit whose drive is that of `s` (46_cmd_format.md R337). -/
theorem wait_spinAndSeek_home {u s : State} (h : u.SameDrive s) (hrot : u.rot = s.rot) (hP : 0 < s.period)
    (next : Word32) :
    wait next (spinAndSeek 0 u) =
      { u with
        rot := s.spunLater (spinUpDelay s + seekCycles s.prof s.currentTrack 0)
        currentTrack := 0
        motorOffDeadline := some (motorOnDeadline s)
        cmd := { u.cmd with state := next, waiting := true }
        out := u.out ++ (spinActions s 0 ++ [.insertFence next])
        wire := u.wire.after u.now 0 (spinActions s 0 ++ [.insertFence next]) } := by
  rw [spinAndSeek_stale 0 u (by rw [State.period, h.prof]; exact hP), wait_eq, trackOf_zero, h.prof, h.track,
    h.spinUpDelay_eq, h.motorOnDeadline_eq, h.spinActions_eq,
    State.spunLater_of_same _ u s h.motorRunning hrot h.prof h.now (by rw [h.flags])]
  simp only [List.append_assoc, Wire.after_append]

/-- Settles O30: the disk formats, the unit follows the new image, and the head is moved home. -/
theorem formatPerformed : Obligations.FormatPerformed := by
  intro s hawaits hcode hchecksum hdisk hwritable hformattable haccepted herror rate g new acts
  obtain ⟨v, hv⟩ : ∃ v, v = s.formatReady.formatCalled g (some new) := ⟨_, rfl⟩
  have hrun : formatState3 s.formatReady = .ok (wait 4 (spinAndSeek 0 (formatRefresh v))) := by
    have hformats := formatDisk_formats (u := s.formatReady) g herror
    rw [formatState3, show formatGeometry s.formatReady = g from rfl, hformats, hv]
    rfl
  have hrefresh := formatRefresh_eq (v := v) (img := new) (by rw [hv]; rfl) (by rw [hv]; exact hdisk)
  obtain ⟨u, hu⟩ : ∃ u, u = formatRefresh v := ⟨_, rfl⟩
  rw [← hu] at hrun hrefresh
  rw [hv] at hrefresh
  have hsame : u.SameDrive s := by rw [hrefresh]; exact ⟨rfl, rfl, rfl, rfl, rfl, rfl, rfl⟩
  rw [handle_formatState3 hawaits hcode hchecksum hdisk hwritable hformattable haccepted hrun (Bool.and_false _),
    wait_spinAndSeek_home hsame (by rw [hrefresh]; rfl) hawaits.1.period_pos, hrefresh]
  dsimp only [State.formatCalled, State.formatReady, formatChecked, acts]
  simp only [List.append_assoc, Wire.after_append]
  rfl

/-! ### The track loop and the reply -/

/-- Settles O32: the head moves to the track, the seek's time passes, and the command waits for the next one. -/
theorem formatTracks : Obligations.FormatTracks := by
  intro s hawaits hcode hleft t cycles acts
  obtain ⟨u, hu⟩ : ∃ u : State, u =
    { seekTo t 0 (s.fenced 4) with cmd := { (seekTo t 0 (s.fenced 4)).cmd with formatTrack := t + 1 } } := ⟨_, rfl⟩
  have hrun : handler (s.fenced 4) = .ok (wait 4 (warpOrDelay cycles 0 u)) := by
    rw [handler_of_format (s := s.fenced 4) hcode, hu]
    show formatState4 (s.fenced 4) = _
    rw [formatState4]
    exact if_neg (Nat.not_le.2 hleft)
  rw [seekTo_eq] at hu
  have hwarped : u.warped cycles = s.warped cycles := by
    rw [hu]
    exact State.warped_of_same cycles _ s rfl rfl rfl rfl rfl
  rw [handle_fence_once s _ 4 hawaits (by simp [hcode]) hrun (Bool.and_false _), warpOrDelay_stale, wait_eq, hwarped, hu]
  dsimp only [acts]
  simp only [List.append_assoc, Wire.after_append]
  rfl

@[simp] theorem length_formatReply (n : Nat) : (formatReply n).length = n := List.length_replicate

/-- State 5 sends the 0xFF frame with a clean status and ends the command (46_cmd_format.md R340). -/
theorem formatState5_eq {u : State} (hlen : u.cmd.len ≤ Config.bufSize) (hcode : u.cmd.code = .format) :
    let rate := u.rateOf u.cmd.rawCommand u.cmd.highSpeedFlag
    let acts := resultActions rate true (dataFrameDelay u.prof u.cmd.highSpeedFlag u.cmd.len)
      (formatReply u.cmd.len) ++ endActions u
    formatState5 u = .ok { u with
      cmd := u.cmd.ended
      fdcStatus := Config.fdcOk
      lastOpError := false
      sendBuf := u.sendBuf.writeBytes 0 (formatReply u.cmd.len)
      xferCyclesPerBit := rate.1
      xferCyclesPerByte := rate.2
      motorOffDeadline := endDeadline u
      out := u.out ++ acts
      wire := u.wire.after u.now 0 acts } := by
  intro rate acts
  have hresult : u.cmd.code ≠ .status := by simp [hcode]
  have hrun : formatState5 u =
      .ok (endCommand (sentResult true u.cmd.len (writeSend 0 (formatReply u.cmd.len) (setFdcStatus Config.fdcOk u)))) := by
    rw [formatState5, requireWithin_of_le u (by simpa using hlen), Result.ok_bind, sendResult_of_le _ _ hlen]
    rfl
  rw [hrun, sentResult_writeSend_eq true _ (length_formatReply _), endCommand_eq]
  dsimp only [acts]
  simp only [List.append_assoc, Wire.after_append]
  rw [if_neg (show (setFdcStatus Config.fdcOk u).cmd.code ≠ .status from hresult)]
  rfl

/-- Settles O33: with no track left state 4 goes on to state 5, which replies and ends the command. -/
theorem formatReplies : Obligations.FormatReplies := by
  intro s hawaits hcode hdone hlen rate acts
  have hactive : s.cmd.code ≠ .none := by simp [hcode]
  have hfirst : handler (s.fenced 4) = .ok (goto 5 (s.fenced 4)) := by
    rw [handler_of_format (s := s.fenced 4) hcode]
    show formatState4 (s.fenced 4) = _
    rw [formatState4]
    exact if_pos hdone
  have hsecond : handler (goto 5 (s.fenced 4)) = formatState5 (goto 5 (s.fenced 4)) := by
    rw [handler_of_format (s := goto 5 (s.fenced 4)) hcode]
    rfl
  rw [formatState5_eq (u := goto 5 (s.fenced 4)) hlen hcode] at hsecond
  exact handle_fence_twice hawaits hactive hfirst hactive rfl hsecond rfl

end Sys2Proof.Machine

/-! PROOF. The commands that are over, or have their payload awaited, in the event of their frame
(47_cmd_status_percom_misc.md): STATUS (R351), READ_PERCOM (R361), GET_HS_INDEX (R370), the Happy commands (R371 to R375),
WRITE_PERCOM (R363) and INDUS_EXECUTE (R376). -/

namespace Sys2Proof.Machine

/-! ### Replies -/

/-- A command that has just begun has everything that `SameDrive` names from the state before its frame. -/
theorem State.SameDrive.of_started (s : State) (f : Operands) (op : BitVec 7) (logical : LogicalCommand)
    (isRead verify : Bool) : (s.started f op logical isRead verify).SameDrive s :=
  ⟨rfl, rfl, rfl, rfl, rfl, rfl, rfl⟩

/-- The acknowledgement of a command frame changes nothing that `SameDrive` names. -/
theorem State.SameDrive.beginTransferACKCmd {u s : State} (h : u.SameDrive s) :
    (Machine.beginTransferACKCmd u).SameDrive s := by
  rw [beginTransferACKCmd_eq]
  exact ⟨h.params, h.mode, h.variant, h.flags, h.now, h.deadline, h.track⟩

/-- Acknowledge, let `cycles` pass from the stop bit of the ACK, store the reply in SEND and send it
(48_transfer.md R400, R404): the shape of STATUS and of READ_PERCOM. -/
def delayedReply (cycles : Nat) (bytes : List Byte) (u : State) : State :=
  sentResult true bytes.length (writeSend 0 bytes (warpOrDelayFromStopBit cycles (beginTransferACKCmd u)))

/-- A delayed reply of a command that has just begun, as one update of the state before its frame. -/
theorem delayedReply_started (cycles : Nat) (bytes : List Byte) (s : State) (f : Operands) (op : BitVec 7)
    (logical : LogicalCommand) (isRead verify : Bool) :
    let raw := commandByte f.h op
    let ackRate := s.rateOf raw s.frameFast
    let rate := s.rateOf raw (s.replyFast f)
    let lag := satSub cycles ackRate.1
    let acts := startActions ++ ackActions ackRate s.prof.cyclesToACKSent ++ [s.warpAction lag] ++
      resultActions rate true (dataFrameDelay s.prof (s.replyFast f) bytes.length) bytes
    delayedReply cycles bytes (s.started f op logical isRead verify) =
      { s with
        rot := s.warped lag
        cmd := { s.startedCommand f op logical isRead verify with state := 3 }
        lastOpError := if logical = .status then s.lastOpError else false
        sendBuf := s.sendBuf.writeBytes 0 bytes
        xferCyclesPerBit := rate.1
        xferCyclesPerByte := rate.2
        out := s.out ++ acts
        wire := s.wire.after s.now 0 acts } := by
  intro raw ackRate rate lag acts
  have hu := beginTransferACKCmd_eq (s.started f op logical isRead verify)
  have hsame := (State.SameDrive.of_started s f op logical isRead verify).beginTransferACKCmd
  obtain ⟨u, hdef⟩ : ∃ u, u = beginTransferACKCmd (s.started f op logical isRead verify) := ⟨_, rfl⟩
  rw [← hdef] at hu hsame
  have hrot : u.rot = (advanceToNow s).rot := by rw [hu]; rfl
  have hlag : satSub cycles u.xferCyclesPerBit = lag := by rw [hu]; rfl
  rw [delayedReply, ← hdef, warpOrDelayFromStopBit, hlag,
    warpOrDelay_eq lag u s hsame.motorRunning hrot hsame.prof hsame.now (by rw [hsame.flags]),
    sentResult_writeSend_eq true bytes rfl, hu]
  simp only [State.started, acts, List.append_assoc, Wire.after_append]
  rfl

/-- A command that ends with a delayed reply is over in the event of its frame. -/
theorem exec_of_delayedReply {s : State} {f : Operands} {i : Instr} {op : BitVec 7} {logical : LogicalCommand}
    {isRead verify : Bool} {cycles n : Nat} {bytes : List Byte}
    (hexec : exec i s = runRow f ⟨some op, fun _ => true, logical, isRead, verify⟩ s) (hready : s.ready f)
    (hspeed : s.speedAccepted f) (hlogical : logical ≠ .none) (hlength : bytes.length = n)
    (hrun : handler (s.started f op logical isRead verify) =
      .ok (endCommand (delayedReply cycles bytes (s.started f op logical isRead verify)))) :
    let raw := commandByte f.h op
    let ackRate := s.rateOf raw s.frameFast
    let rate := s.rateOf raw (s.replyFast f)
    let lag := satSub cycles ackRate.1
    let acts := startActions ++ ackActions ackRate s.prof.cyclesToACKSent ++ [s.warpAction lag] ++
      resultActions rate true (dataFrameDelay s.prof (s.replyFast f) n) bytes ++ endActions s
    exec i s = .next { s with
      rot := s.warped lag
      cmd := (s.startedCommand f op logical isRead verify).ended
      lastOpError := if logical = .status then s.lastOpError else false
      sendBuf := s.sendBuf.writeBytes 0 bytes
      xferCyclesPerBit := rate.1
      xferCyclesPerByte := rate.2
      motorOffDeadline := endDeadline s
      out := s.out ++ acts
      wire := s.wire.after s.now 0 acts
      reply := .start } := by
  intro raw ackRate rate lag acts
  subst hlength
  rw [exec_of_ended hexec hready hspeed hlogical hrun, delayedReply_started, endCommand_eq]
  simp only [acts, List.append_assoc, Wire.after_append]
  rfl

/-- The status bytes are those at the frame's Cycle: nothing that they read changes until they are sent
(47_cmd_status_percom_misc.md R351 to R353). -/
theorem statusReply_delayed (cycles : Nat) (s : State) (f : Operands) (op : BitVec 7) (logical : LogicalCommand)
    (isRead verify : Bool) :
    statusReply (warpOrDelayFromStopBit cycles (beginTransferACKCmd (s.started f op logical isRead verify))) =
      statusReply s := by
  rw [warpOrDelayFromStopBit, warpOrDelay_stale, beginTransferACKCmd_eq]
  rfl

/-- Settles O1: STATUS is a delayed reply of its four bytes, and the one command that leaves `st.lastOpError` alone. -/
theorem statusResult : Obligations.StatusResult := by
  intro s f hready hspeed
  have hrun : handler (s.started f s.params.opcodes.status .status false false) =
      .ok (endCommand (delayedReply s.prof.cyclesACKStopBitToStatusComplete (statusReply s)
        (s.started f s.params.opcodes.status .status false false))) := by
    show statusState0 _ = _
    have hprof : (beginTransferACKCmd (s.started f s.params.opcodes.status .status false false)).prof = s.prof :=
      (State.SameDrive.of_started ..).beginTransferACKCmd.prof
    unfold statusState0
    dsimp only
    rw [hprof, statusReply_delayed, sendResult_of_le _ _ (by decide)]
    rfl
  exact exec_of_delayedReply (i := .status f) rfl hready hspeed (by decide) rfl hrun

/-- Settles O2: READ_PERCOM is a delayed reply of the twelve bytes of the block. -/
theorem readPercomResult : Obligations.ReadPercomResult := by
  intro s f hready hspeed hgate
  have hrun : handler (s.started f s.params.opcodes.readPercom .readPercom false false) =
      .ok (endCommand (delayedReply s.prof.cyclesACKStopBitToReadPERCOMComplete (percomBytes s.percom)
        (s.started f s.params.opcodes.readPercom .readPercom false false))) := by
    show readPercomState0 _ = _
    have hprof : (beginTransferACKCmd (s.started f s.params.opcodes.readPercom .readPercom false false)).prof = s.prof :=
      (State.SameDrive.of_started ..).beginTransferACKCmd.prof
    have hpercom : (warpOrDelayFromStopBit s.prof.cyclesACKStopBitToReadPERCOMComplete
        (beginTransferACKCmd (s.started f s.params.opcodes.readPercom .readPercom false false))).percom = s.percom := by
      rw [warpOrDelayFromStopBit, warpOrDelay_stale, beginTransferACKCmd_eq]
      rfl
    unfold readPercomState0
    dsimp only
    rw [hprof, hpercom, sendResult_of_le _ _ (by decide)]
    rfl
  exact exec_of_delayedReply (i := .readPercom f) (runRow_eq_ungated hready hspeed rfl hgate) hready hspeed (by decide)
    rfl hrun

/-- Settles O3: GET_HS_INDEX acknowledges, sends its one byte at once, and ends. -/
theorem highSpeedIndexResult : Obligations.HighSpeedIndexResult := by
  intro s f hready hspeed hgate raw rate acts
  have hrun : handler (s.started f s.params.opcodes.getHsIndex .getHighSpeedIndex false false) =
      .ok (endCommand (sentResult true 1 (writeSend 0 [s.prof.highSpeedIndex]
        (beginTransferACKCmd (s.started f s.params.opcodes.getHsIndex .getHighSpeedIndex false false))))) := by
    show hsIndexState0 _ = _
    have hprof : (beginTransferACKCmd (s.started f s.params.opcodes.getHsIndex .getHighSpeedIndex false false)).prof =
        s.prof := (State.SameDrive.of_started ..).beginTransferACKCmd.prof
    unfold hsIndexState0
    dsimp only
    rw [hprof, sendResult_of_le _ _ (by decide)]
    rfl
  rw [exec_of_ended (i := .getHsIndex f) (logical := .getHighSpeedIndex) (runRow_eq_ungated hready hspeed rfl hgate) hready
    hspeed (by decide) hrun, sentResult_writeSend_eq (n := 1) true [s.prof.highSpeedIndex] rfl, beginTransferACKCmd_eq,
    endCommand_eq]
  simp only [State.started, acts, List.append_assoc, Wire.after_append]
  rfl

/-! ### Acknowledged and completed -/

/-- A row whose handler acknowledges and completes is over in the event of its frame, with nothing else done
(47_cmd_status_percom_misc.md R371). -/
theorem exec_of_acknowledgeAndComplete {s : State} {f : Operands} {i : Instr} {op : BitVec 7} {logical : LogicalCommand}
    (hexec : exec i s = runRow f ⟨some op, fun _ => true, logical, false, false⟩ s) (hready : s.ready f)
    (hspeed : s.speedAccepted f) (hlogical : logical ≠ .none) (hresult : logical ≠ .status)
    (hrun : handler (s.started f op logical false false) =
      .ok (acknowledgeAndComplete (s.started f op logical false false))) :
    let raw := commandByte f.h op
    let rate := s.rateOf raw (s.replyFast f)
    let acts := startActions ++ ackActions (s.rateOf raw s.frameFast) s.prof.cyclesToACKSent ++
      completeActions rate ++ endActions s
    exec i s = .next { s with
      rot := (advanceToNow s).rot
      cmd := (s.startedCommand f op logical false false).ended
      lastOpError := false
      xferCyclesPerBit := rate.1
      xferCyclesPerByte := rate.2
      motorOffDeadline := endDeadline s
      out := s.out ++ acts
      wire := s.wire.after s.now 0 acts
      reply := .start } := by
  intro raw rate acts
  rw [exec_of_ended hexec hready hspeed hlogical hrun, beginTransferACKCmd_eq, beginTransferComplete_eq,
    if_neg (by exact hresult), endCommand_eq]
  simp only [State.started, acts, List.append_assoc, Wire.after_append]
  rfl

/-- Settles O4: each of the four rows acknowledges and completes. -/
theorem happyResult : Obligations.HappyResult := by
  intro s f op i logical hrow hready hspeed hfamily hop
  have hgate : decide (s.prof.family = .happy) = true := decide_eq_true hfamily
  simp only [List.mem_cons, Prod.mk.injEq, List.not_mem_nil, or_false] at hrow
  obtain ⟨rfl, rfl⟩ | ⟨rfl, rfl⟩ | ⟨rfl, rfl⟩ | ⟨rfl, rfl⟩ := hrow
  all_goals
    exact exec_of_acknowledgeAndComplete (runRow_eq_ungated hready hspeed hop hgate) hready hspeed (by decide) (by decide) rfl

/-! ### Uploads -/

/-- A row whose handler awaits a payload is suspended in the event of its frame. -/
theorem exec_of_payloadAwaited {s : State} {f : Operands} {i : Instr} {op : BitVec 7} {logical : LogicalCommand} {n : Nat}
    (hexec : exec i s = runRow f ⟨some op, fun _ => true, logical, false, false⟩ s) (hready : s.ready f)
    (hspeed : s.speedAccepted f) (hlogical : logical ≠ .none)
    (hrun : handler (s.started f op logical false false) =
      .ok (payloadAwaited n 1 (s.started f op logical false false))) :
    let raw := commandByte f.h op
    let rate := s.rateOf raw (s.replyFast f)
    let acts := startActions ++ ackActions (s.rateOf raw s.frameFast) s.prof.cyclesToACKSent ++
      receiveActions rate n ++ [.insertFence 1]
    exec i s = .next { s with
      rot := (advanceToNow s).rot
      cmd := { s.startedCommand f op logical false false with state := 1, waiting := true }
      xferCyclesPerBit := rate.1
      xferCyclesPerByte := rate.2
      rxOffset := 0
      out := s.out ++ acts
      wire := s.wire.after s.now 2 acts
      reply := .start } := by
  intro raw rate acts
  rw [payloadAwaited_eq _ _ rfl] at hrun
  rw [exec_of_waits hexec hready hspeed hlogical hrun rfl]
  simp only [State.started, acts, List.append_assoc, Wire.after_append]
  rfl

/-- Settles O12: state 0 of either upload acknowledges and awaits its payload, which fits RECV. -/
theorem uploadAccepted : Obligations.UploadAccepted := by
  intro s f i op logical n hrow hready hspeed hop hgate
  simp only [List.mem_cons, Prod.mk.injEq, List.not_mem_nil, or_false] at hrow
  obtain ⟨rfl, rfl, rfl⟩ | ⟨rfl, rfl, rfl⟩ := hrow
  case inl =>
    refine exec_of_payloadAwaited (runRow_eq_ungated hready hspeed hop hgate) hready hspeed (by decide) ?_
    show writePercomState0 _ = _
    rw [writePercomState0, receivePayload_of_le _ (by decide)]
    rfl
  case inr =>
    have ⟨⟨_, _, _, hparams, _⟩, _⟩ := hready
    obtain ⟨-, hfits, -⟩ := Params.wf_tables s.params hparams
    refine exec_of_payloadAwaited (runRow_eq_ungated hready hspeed hop hgate) hready hspeed (by decide) ?_
    have hlength : (beginTransferACKCmd (s.started f op .indusExecute false false)).params.indusExecLen =
        s.params.indusExecLen := congrArg Params.indusExecLen (State.SameDrive.of_started ..).beginTransferACKCmd.params
    show indusState0 _ = _
    unfold indusState0
    dsimp only
    rw [hlength, receivePayload_of_le _ hfits]
    rfl

end Sys2Proof.Machine

/-! PROOF. The payloads of WRITE_PERCOM and INDUS_EXECUTE (47_cmd_status_percom_misc.md R363 to R368, R376 to R378), and the
data frame with a bad checksum, whichever command awaits it (60_exceptions.md R464). -/

namespace Sys2Proof.Machine

/-! ### A bad checksum -/

/-- The data NAK and the end of the command, as one update (60_exceptions.md R464). -/
theorem takeException_dataNak_eq (u : State) :
    let rate := u.rateOf u.cmd.rawCommand u.cmd.highSpeedFlag
    let acts := nakActions rate u.prof.cyclesToACKSent ++ endActions u
    takeException .dataNak u = .ok { u with
      cmd := u.cmd.ended
      xferCyclesPerBit := rate.1
      xferCyclesPerByte := rate.2
      motorOffDeadline := endDeadline u
      out := u.out ++ acts
      wire := u.wire.after u.now 0 acts } := by
  intro rate acts
  rw [takeException, beginTransferNAKData_eq, endCommand_eq]
  dsimp only [acts]
  simp only [List.append_assoc, Wire.after_append]
  rfl

theorem handler_of_writePercom {s : State} (h : s.cmd.code = .writePercom) : handler s = writePercomHandler s := by
  rw [handler, h]

theorem handler_of_indusExecute {s : State} (h : s.cmd.code = .indusExecute) : handler s = indusHandler s := by
  rw [handler, h]

/-- The states that a data frame resumes (60_exceptions.md R464). -/
def State.receives (s : State) (id : Word32) : Prop :=
  (s.cmd.code, id) ∈ [(LogicalCommand.write, (10 : Word32)), (.write, 50), (.writePercom, 1), (.indusExecute, 1)] ∨
    s.cmd.code = .format ∧ id = 2 ∧ s.skewed

/-- Each of those states tests the checksum before anything else. -/
theorem handler_badChecksum {s : State} {id : Word32} (hreceives : s.receives id) (hbad : s.cmd.rxChecksumOK = false) :
    handler (s.fenced id) = takeException .dataNak (s.fenced id) := by
  rcases hreceives with hrow | ⟨hcode, rfl, hskewed⟩
  case inl =>
    simp only [List.mem_cons, Prod.mk.injEq, List.not_mem_nil, or_false] at hrow
    obtain ⟨hcode, rfl⟩ | ⟨hcode, rfl⟩ | ⟨hcode, rfl⟩ | ⟨hcode, rfl⟩ := hrow
    case inl =>
      rw [handler_of_write (s := s.fenced 10) hcode]
      show rwState10 (s.fenced 10) = _
      rw [rwState10, if_pos (show (s.fenced 10).cmd.code = .write from hcode)]
      exact if_pos hbad
    case inr.inl =>
      rw [handler_of_write (s := s.fenced 50) hcode]
      exact if_pos hbad
    case inr.inr.inl =>
      rw [handler_of_writePercom (s := s.fenced 1) hcode]
      exact if_pos hbad
    case inr.inr.inr =>
      rw [handler_of_indusExecute (s := s.fenced 1) hcode]
      exact if_pos hbad
  case inr =>
    rw [handler_of_format (s := s.fenced 2) hcode]
    show formatState2 (s.fenced 2) = _
    rw [formatState2, if_pos (isSkewed_pos (s.fenced 2) hskewed)]
    exact if_pos hbad

theorem State.active_of_receives {s : State} {id : Word32} (h : s.receives id) : s.cmd.code ≠ .none := by
  intro hnone
  simp [State.receives, hnone] at h

/-- Settles O19: whichever state the data frame resumes, it takes the data NAK exception. -/
theorem dataFrameRejected : Obligations.DataFrameRejected := by
  intro s id hawaits hbad hreceives
  have hrun := handler_badChecksum (s := s) hreceives hbad
  rw [takeException_dataNak_eq] at hrun
  exact handle_fence_once s _ id hawaits (State.active_of_receives hreceives) hrun rfl

/-! ### A PERCOM block -/

/-- An accepted block is acknowledged, stored and completed (47_cmd_status_percom_misc.md R363). -/
theorem writePercomState1_accepts {u : State} (hgood : u.cmd.rxChecksumOK = true) (hcode : u.cmd.code ≠ .status)
    (haccepts : u.acceptsPercom (percomAt u.recvBuf)) :
    let stored := u.storedPercom (percomAt u.recvBuf)
    let inForce := u.prof.writePERCOMChangesDensity = true
    let rate := u.rateOf u.cmd.rawCommand u.cmd.highSpeedFlag
    let acts := ackActions rate u.prof.cyclesToACKSent ++ completeActions rate ++ endActions u
    writePercomState1 u = .ok { u with
      percom := stored
      geom := if inForce then { u.geom with toLayout := geometryOfPercom stored } else u.geom
      bufferedTrack := if inForce then none else u.bufferedTrack
      cmd := u.cmd.ended
      lastOpError := false
      xferCyclesPerBit := rate.1
      xferCyclesPerByte := rate.2
      motorOffDeadline := endDeadline u
      out := u.out ++ acts
      wire := u.wire.after u.now 0 acts } := by
  intro stored inForce rate acts
  have hack := beginTransferACKData_eq u
  obtain ⟨v, hv⟩ : ∃ v, v = beginTransferACKData u := ⟨_, rfl⟩
  rw [← hv] at hack
  have hset := setPercomData_accept (percomAt u.recvBuf) v (by rw [hack]; exact haccepts)
  have hresult : ¬v.cmd.code = .status := by rw [hack]; exact hcode
  rw [writePercomState1, if_neg (by simp [hgood]), ← hv]
  dsimp only
  rw [hset, if_pos rfl, beginTransferComplete_eq, if_neg hresult, endCommand_eq, hack]
  dsimp only [acts]
  simp only [List.append_assoc, Wire.after_append]
  rfl

/-- A rejected block is acknowledged and answered with an Error, and changes nothing else. -/
theorem writePercomState1_rejects {u : State} (hgood : u.cmd.rxChecksumOK = true)
    (hrejects : ¬u.acceptsPercom (percomAt u.recvBuf)) :
    let rate := u.rateOf u.cmd.rawCommand u.cmd.highSpeedFlag
    let acts := ackActions rate u.prof.cyclesToACKSent ++ errorActions rate ++ endActions u
    writePercomState1 u = .ok { u with
      cmd := u.cmd.ended
      lastOpError := true
      xferCyclesPerBit := rate.1
      xferCyclesPerByte := rate.2
      motorOffDeadline := endDeadline u
      out := u.out ++ acts
      wire := u.wire.after u.now 0 acts } := by
  intro rate acts
  have hack := beginTransferACKData_eq u
  obtain ⟨v, hv⟩ : ∃ v, v = beginTransferACKData u := ⟨_, rfl⟩
  rw [← hv] at hack
  have hset := setPercomData_reject (percomAt u.recvBuf) v (by rw [hack]; exact hrejects)
  rw [writePercomState1, if_neg (by simp [hgood]), ← hv]
  dsimp only
  rw [hset, if_neg (by simp), takeException_errorResponse_eq, hack]
  dsimp only [acts]
  simp only [List.append_assoc, Wire.after_append]
  rfl

/-- Settles O28, by whether `SetPERCOMData` accepts the block. -/
theorem percomWritten : Obligations.PercomWritten := by
  intro s hawaits hcode hgood d xf stored accepted inForce rate acts
  have hactive : s.cmd.code ≠ .none := by simp [hcode]
  have hresult : s.cmd.code ≠ .status := by simp [hcode]
  have hhandler : handler (s.fenced 1) = writePercomState1 (s.fenced 1) := handler_of_writePercom (s := s.fenced 1) hcode
  by_cases haccepts : accepted
  case pos =>
    have hforce : inForce ↔ s.prof.writePERCOMChangesDensity = true := and_iff_right haccepts
    rw [writePercomState1_accepts (u := s.fenced 1) hgood hresult haccepts] at hhandler
    rw [handle_fence_once s _ 1 hawaits hactive hhandler rfl]
    simp only [acts, hforce, if_pos haccepts, decide_eq_false (not_not.2 haccepts)]
    rfl
  case neg =>
    have hforce : ¬inForce := fun h => haccepts h.1
    rw [writePercomState1_rejects (u := s.fenced 1) hgood haccepts] at hhandler
    rw [handle_fence_once s _ 1 hawaits hactive hhandler rfl]
    simp only [acts, if_neg hforce, if_neg haccepts, decide_eq_true haccepts]
    rfl

/-! ### An Indus GT upload -/

/-- With a profile that is well formed, `SelectProfile` is one update of the record (49_facade.md R425). -/
theorem selectProfile_eq {mode : Nat} {v : IndusVariant} {s : State} (hmode : s.params.hasMode mode = true)
    (hwf : (s.params.profile mode v).wf s.params.maxIdleTimer = true) :
    let old := (advanceToNow s).rot
    selectProfile mode v s = .ok { s with
      mode := mode
      indusVariant := v
      rot := { old with
        rotationalCounter := rescaleCounter s.period (s.params.profile mode v).cyclesPerDiskRotation
          old.rotationalCounter } } := by
  unfold selectProfile
  rw [if_neg (by simp [hmode]), if_neg (by simp [hwf])]
  dsimp only
  rw [advanceToNow_eq]
  rfl

/-- The variant in force once an upload is classified (47_cmd_status_percom_misc.md R376, R377). -/
def State.uploadedVariant (s : State) : IndusVariant :=
  ((indusFirmwareClassify s.params (s.recvBytes s.params.indusExecLen)).map firmwareVariant).getD s.indusVariant

/-- The unit with a variant selected: the disk keeps its angle in the new period, and with the variant it has already
nothing changes (47_cmd_status_percom_misc.md R378). -/
def State.withVariant (s : State) (v : IndusVariant) : State :=
  let old := (advanceToNow s).rot
  { s with
    indusVariant := v
    rot :=
      if v = s.indusVariant then s.rot
      else
        { old with
          rotationalCounter :=
            rescaleCounter s.period (s.params.profile s.mode v).cyclesPerDiskRotation old.rotationalCounter } }

theorem State.withVariant_self (s : State) : s.withVariant s.indusVariant = s := by
  rw [State.withVariant, if_pos rfl]

/-- The selection of a classified upload (47_cmd_status_percom_misc.md R376, R378). -/
theorem selectFirmware_eq {fw : Option IndusFirmware} {s : State} {v : IndusVariant}
    (hv : (fw.map firmwareVariant).getD s.indusVariant = v) (hmode : s.params.hasMode s.mode = true)
    (hwf : (s.params.profile s.mode v).wf s.params.maxIdleTimer = true) :
    selectFirmware fw s = .ok (s.withVariant v) := by
  subst hv
  cases fw with
  | none => exact congrArg Except.ok s.withVariant_self.symm
  | some f =>
    change (s.params.profile s.mode (firmwareVariant f)).wf s.params.maxIdleTimer = true at hwf
    show (if firmwareVariant f = s.indusVariant then .ok s else selectProfile s.mode (firmwareVariant f) s) =
      .ok (s.withVariant (firmwareVariant f))
    by_cases hsame : firmwareVariant f = s.indusVariant
    case pos => rw [if_pos hsame, hsame, s.withVariant_self]
    case neg => rw [if_neg hsame, selectProfile_eq hmode hwf, State.withVariant, if_neg hsame]

/-- State 1 of an upload with a good data frame: acknowledged, selected, and completed at the new profile's rate
(47_cmd_status_percom_misc.md R376). -/
theorem indusState1_selects {u : State} (hgood : u.cmd.rxChecksumOK = true) (hcode : u.cmd.code ≠ .status)
    (hfits : u.params.indusExecLen ≤ Config.bufSize) (hmode : u.params.hasMode u.mode = true)
    (hwf : (u.params.profile u.mode u.uploadedVariant).wf u.params.maxIdleTimer = true) :
    let v := u.withVariant u.uploadedVariant
    let rate := v.rateOf u.cmd.rawCommand u.cmd.highSpeedFlag
    let acts := ackActions (u.rateOf u.cmd.rawCommand u.cmd.highSpeedFlag) u.prof.cyclesToACKSent ++
      completeActions rate ++ endActions v
    indusState1 u = .ok { v with
      cmd := u.cmd.ended
      lastOpError := false
      xferCyclesPerBit := rate.1
      xferCyclesPerByte := rate.2
      motorOffDeadline := endDeadline v
      out := u.out ++ acts
      wire := u.wire.after u.now 0 acts } := by
  intro v rate acts
  have hack := beginTransferACKData_eq u
  obtain ⟨w, hw⟩ : ∃ w, w = beginTransferACKData u := ⟨_, rfl⟩
  rw [← hw] at hack
  have hadvance := advanceToNow_of_same w u (by rw [hack]; rfl) (by rw [hack]) (by rw [hack]; rfl) (by rw [hack])
  have hselect : selectFirmware (indusFirmwareClassify w.params (w.recvBytes w.params.indusExecLen)) w =
      .ok (w.withVariant u.uploadedVariant) :=
    selectFirmware_eq (by rw [hack]; rfl) (by rw [hack]; exact hmode) (by rw [hack]; exact hwf)
  have hselected : w.withVariant u.uploadedVariant = { v with
      cmd := w.cmd
      xferCyclesPerBit := w.xferCyclesPerBit
      xferCyclesPerByte := w.xferCyclesPerByte
      out := w.out
      wire := w.wire } := by
    rw [State.withVariant, hadvance, hack]
    rfl
  have hresult : ¬w.cmd.code = .status := by rw [hack]; exact hcode
  rw [indusState1, if_neg (by simp [hgood])]
  dsimp only
  rw [← hw, requireWithin_of_le w (by rw [hack]; simpa using hfits), Result.ok_bind, hselect, Result.ok_bind,
    beginTransferComplete_eq, hselected, if_neg hresult, endCommand_eq, hack]
  dsimp only [acts]
  simp only [List.append_assoc, Wire.after_append]
  rfl

/-- Settles O34: the upload selects the variant it is classified as, or keeps the one in force. -/
theorem indusFirmware : Obligations.IndusFirmware := by
  intro s hawaits hcode hgood v hwf old newP u rate acts
  obtain ⟨-, hmode, -, hparams, -⟩ := hawaits.1
  obtain ⟨-, hfits, -⟩ := Params.wf_tables s.params hparams
  have hv : v = s.uploadedVariant := by
    show (match indusFirmwareClassify s.params (s.recvBytes s.params.indusExecLen) with
      | none => s.indusVariant
      | some .synchromesh => .synchromesh
      | some .superSynchromesh => .superSynchromesh) = _
    unfold State.uploadedVariant
    rcases indusFirmwareClassify s.params (s.recvBytes s.params.indusExecLen) with _ | _ | _ <;> rfl
  have hhandler : handler (s.fenced 1) = indusState1 (s.fenced 1) := handler_of_indusExecute (s := s.fenced 1) hcode
  have hadvance := advanceToNow_of_same (s.fenced 1) s rfl rfl rfl rfl
  rw [indusState1_selects (u := s.fenced 1) hgood (by simp [State.fenced, hcode]) hfits hmode (hv ▸ hwf)] at hhandler
  rw [handle_fence_once s _ 1 hawaits (by simp [hcode]) hhandler rfl]
  simp only [acts, rate, u, newP, old, hv, State.withVariant, hadvance]
  rfl

end Sys2Proof.Machine

/-! PROOF. What the status bytes say (47_cmd_status_percom_misc.md R352, R353), which PERCOM blocks are accepted (R366 to
R369), and the two conversions between blocks and geometries (R364, R365). -/

namespace Sys2Proof.Machine

/-! ### The status bytes -/

theorem getLsbD_bitIf (c : Bool) (mask : Byte) (i : Nat) : (bitIf c mask).getLsbD i = (c && mask.getLsbD i) := by
  cases c <;> simp [bitIf]

/-- The bit of a byte that its one-bit mask selects. -/
theorem getLsbD_singleBit {k i : Nat} (hk : k < 8) : (BitVec.twoPow 8 k).getLsbD i = decide (i = k) := by
  rw [BitVec.getLsbD_twoPow, decide_eq_true hk, Bool.true_and]
  exact decide_eq_decide.2 eq_comm

/-- Status byte 0 in terms of the bits it sets (47_cmd_status_percom_misc.md R352). -/
theorem statusByte0_eq (s : State) :
    statusByte0 s =
      bitIf s.lastOpError (BitVec.twoPow 8 2) |||
      bitIf (s.flags.diskPresent && !s.flags.writeEnabled) (BitVec.twoPow 8 3) |||
      bitIf s.motorRunning (BitVec.twoPow 8 4) |||
      bitIf (decide (s.geom.bytesPerSector = 256)) (BitVec.twoPow 8 5) |||
      bitIf (s.geom.mfm && decide (s.geom.bytesPerSector = 128)) (BitVec.twoPow 8 7) := rfl

theorem getLsbD_statusByte0_iff (s : State) (i : Nat) :
    (statusByte0 s).getLsbD i = true ↔
      i = 2 ∧ s.lastOpError = true ∨
      i = 3 ∧ s.flags.diskPresent = true ∧ s.flags.writeEnabled = false ∨
      i = 4 ∧ s.motorRunning = true ∨
      i = 5 ∧ s.geom.bytesPerSector = 256 ∨
      i = 7 ∧ s.geom.mfm = true ∧ s.geom.bytesPerSector = 128 := by
  rw [statusByte0_eq]
  simp only [BitVec.getLsbD_or, getLsbD_bitIf, getLsbD_singleBit (show 2 < 8 by decide),
    getLsbD_singleBit (show 3 < 8 by decide), getLsbD_singleBit (show 4 < 8 by decide),
    getLsbD_singleBit (show 5 < 8 by decide), getLsbD_singleBit (show 7 < 8 by decide), Bool.or_eq_true,
    Bool.and_eq_true, Bool.not_eq_true', decide_eq_true_eq, or_assoc]
  simp only [and_comm]

/-- The not-ready bit is bit 7 (10_state.md R41). -/
theorem fdcNotReadyBit_eq : Config.fdcNotReadyBit = BitVec.twoPow 8 7 := rfl

theorem getLsbD_statusByte1_iff {s : State} {i : Nat} (hi : i < 8) :
    (statusByte1 s).getLsbD i = true ↔
      if i = 7 then s.prof.supportsNotReady = false ∨ s.flags.diskPresent = true ∧ s.fdcStatus.getLsbD 7 = true
      else s.fdcStatus.getLsbD i = true := by
  have hmask : Config.fdcNotReadyBit.getLsbD i = decide (i = 7) := by
    rw [fdcNotReadyBit_eq, getLsbD_singleBit (by decide)]
  unfold statusByte1
  by_cases hready : s.prof.supportsNotReady = false
  case pos =>
    rw [if_pos hready, BitVec.getLsbD_or, hmask]
    by_cases h7 : i = 7 <;> simp [h7, hready]
  case neg =>
    rw [if_neg hready]
    by_cases hdisk : s.flags.diskPresent = false
    case pos =>
      rw [if_pos hdisk, BitVec.getLsbD_and, BitVec.getLsbD_not, hmask]
      by_cases h7 : i = 7 <;> simp [h7, hready, hdisk, hi]
    case neg =>
      rw [if_neg hdisk]
      by_cases h7 : i = 7 <;> simp [h7, hready, hdisk]

/-- Settles O41: byte 0 is a union of one-bit masks, and byte 1 differs from the FDC status in the not-ready bit only. -/
theorem statusBytes : Obligations.StatusBytes := by
  intro s i hi
  exact ⟨getLsbD_statusByte0_iff s i, getLsbD_statusByte1_iff hi⟩

/-! ### Which blocks are accepted -/

theorem legalSectorSize_eq_false_iff (n : Nat) : legalSectorSize n = false ↔ n ∉ [128, 256, 512, 8192] := by
  simp [legalSectorSize, and_assoc]

theorem beWord_eq_zero_iff (hi lo : Byte) : beWord hi lo = 0 ↔ hi = 0 ∧ lo = 0 := by
  unfold beWord
  bv_omega

/-- A block is invalid exactly when one of the five conditions holds (47_cmd_status_percom_misc.md R366). -/
theorem percomValid_eq_false_iff (d : Percom) :
    percomValid d = false ↔
      d.b0 = 0 ∨ d.b2 = 0 ∧ d.b3 = 0 ∨ 2 ≤ d.b4.toNat ∨
      65535 < d.b0.toNat * (256 * d.b2.toNat + d.b3.toNat) * (d.b4.toNat + 1) ∨
      256 * d.b6.toNat + d.b7.toNat ∉ [128, 256, 512, 8192] := by
  rw [← beWord_eq_zero_iff d.b2 d.b3]
  simp only [percomValid, Bool.and_eq_false_iff, decide_eq_false_iff_not, not_not, not_lt, not_le,
    legalSectorSize_eq_false_iff, or_assoc, ne_eq]
  rfl

/-- What `SetPERCOMData` answers (47_cmd_status_percom_misc.md R366). -/
theorem setPercomData_fst_iff (d : Percom) (s : State) : (setPercomData d s).1 = true ↔ s.acceptsPercom d := by
  by_cases h : s.acceptsPercom d
  · rw [setPercomData_accept d s h]
    exact iff_of_true rfl h
  · rw [setPercomData_reject d s h]
    exact iff_of_false Bool.false_ne_true h

/-- The block an accepted one leaves (47_cmd_status_percom_misc.md R366, R368). -/
theorem setPercomData_snd_percom {d : Percom} {s : State} (h : s.acceptsPercom d) :
    (setPercomData d s).2.percom = s.storedPercom d := by
  rw [setPercomData_accept d s h]

theorem xf551Normalize_mem (p : Params) (d : Percom) :
    xf551Normalize p d ∈ [p.xf551Geometry0, p.xf551Geometry1, p.xf551Geometry2] := by
  unfold xf551Normalize xf551Geometry
  split
  · simp
  · split <;> simp

/-- Settles O42: off the XF551 the verdict is the block's validity; on it every block is accepted, and the stored one
describes the geometry it is normalised to, which a block can hold. -/
theorem percomValidation : Obligations.PercomValidation := by
  intro s d
  refine ⟨fun hother => ?_, fun hxf => ?_⟩
  case refine_1 =>
    have haccepts : s.acceptsPercom d ↔ percomValid d = true := or_iff_right hother
    have hverdict : (setPercomData d s).1 = false ↔ percomValid d = false := by
      rw [← Bool.not_eq_true, setPercomData_fst_iff, haccepts, Bool.not_eq_true]
    refine ⟨hverdict.trans (percomValid_eq_false_iff d), fun hrejected => ?_, fun haccepted => ?_⟩
    · rw [setPercomData_reject d s fun h => Bool.false_ne_true (hrejected.symm.trans ((setPercomData_fst_iff d s).2 h))]
    · rw [setPercomData_snd_percom ((setPercomData_fst_iff d s).1 haccepted), State.storedPercom, if_neg hother]
  case refine_2 =>
    have haccepts : s.acceptsPercom d := .inl hxf
    refine ⟨(setPercomData_fst_iff d s).2 haccepts, fun hparams => ?_⟩
    obtain ⟨-, -, h26, hrepresentable⟩ := Params.wf_tables s.params hparams
    rw [setPercomData_snd_percom haccepts, State.storedPercom, if_pos hxf, geometryOfPercom_of _ (hrepresentable d)]
    exact ⟨xf551Normalize_mem s.params d, h26 d⟩

/-! ### Blocks and geometries -/

/-- A block can hold the geometry that it describes. -/
theorem geometryOfPercom_representable (b : Percom) : (geometryOfPercom b).representable := by
  have hword (hi lo : Byte) : beWord hi lo < 65536 := by unfold beWord; omega
  have hsides : b.b4.toNat + 1 ≤ 256 := b.b4.isLt
  exact ⟨b.b0.isLt, hword b.b2 b.b3, Nat.le_add_left 1 _, hsides, hword b.b6 b.b7⟩

theorem percomHighByte_beWord (index : Nat) (hi lo : Byte) : percomHighByte index (beWord hi lo) = hi := by
  refine BitVec.eq_of_toNat_eq ?_
  have hlow := lo.isLt
  have hhigh := hi.isLt
  rw [percomHighByte_toNat _ _ (by unfold beWord; omega)]
  unfold beWord
  omega

theorem percomLowByte_beWord (hi lo : Byte) : BitVec.ofNat 8 (beWord hi lo % 256) = lo := by
  refine BitVec.eq_of_toNat_eq ?_
  have hlow := lo.isLt
  rw [BitVec.toNat_ofNat]
  unfold beWord
  omega

theorem percomSidesByte_succ (sides : Byte) : percomSidesByte (sides.toNat + 1) = sides := by
  have hsides := sides.isLt
  exact BitVec.eq_of_toNat_eq (percomSidesByte_toNat _ (by omega) (by omega))

/-- Settles O43: the conversions are inverse byte by byte, but for the bytes a re-derived block names. -/
theorem geometryRoundTrip : Obligations.GeometryRoundTrip := by
  intro g
  refine ⟨geometryOfPercom_of g, rfl, rfl, rfl, rfl, rfl, fun b => ⟨geometryOfPercom_representable b, ?_⟩⟩
  simp only [percomOfGeometry, geometryOfPercom, BitVec.ofNat_toNat, BitVec.setWidth_eq, percomHighByte_beWord,
    percomLowByte_beWord, percomSidesByte_succ]
  rfl

end Sys2Proof.Machine

/-! PROOF. The runs that stop when an event is admitted (40_profile_table.md R153, 60_exceptions.md R468, R469), and the
settings, notifications and timer that a unit is told of (49_facade.md R425 to R434, R439). -/

namespace Sys2Proof.Machine

/-! ### Runs outside the contract -/

/-- A frame for this unit while a command is active stops the run (60_exceptions.md R469). -/
theorem receiveFrame_overlapping {s : State} {f : Operands} (op : BitVec 7) (row : Option Row) (had : s.admitted)
    (hon : s.enabled = true) (hdevice : f.device.toNat = s.params.deviceBase.toNat + s.unit.toNat)
    (hcode : s.cmd.code ≠ .none) : receiveFrame f op row s = .error (.refused .overlappingCommand) := by
  have hclaims : s.claims f = true := by simp [State.claims, hdevice]
  rw [receiveFrame, admit_eq_ok s had, Result.ok_bind, if_neg (by simp [hon]), if_neg (by simp [hclaims]),
    if_pos (s.active_iff.2 hcode)]

/-- A frame that is not admitted stops the run for the reason it is not. -/
theorem exec_notAdmitted {s : State} {r : Refusal} (i : Instr) (h : admitEvent s = .error (.refused r)) :
    exec i s = .refused r := by
  obtain ⟨op, row, hexec⟩ := exec_receives i s
  rw [hexec, receiveFrame, h]
  rfl

/-- With the clock and the mode in range, admission tests the profile, then the parameters, then the head. -/
theorem admitEvent_inRange {s : State} (hclock : s.now < Config.clockLimit) (hmode : s.params.hasMode s.mode = true) :
    admitEvent s =
      if s.prof.wf s.params.maxIdleTimer = false then .error (.refused .profileNotWellFormed)
      else if s.params.wf = false then .error (.refused .parametersNotWellFormed)
      else if Config.trackLimit ≤ s.currentTrack then programmingError .trackOutOfRange
      else .ok s := by
  rw [admitEvent, requireProfile, if_neg (Nat.not_le.2 hclock), if_neg (by simp [hmode])]
  split
  · rfl
  · split <;> rfl

/-- Settles O15: each clause is a branch of admission, or of the reception of a claimed frame. -/
theorem overlapRefused : Obligations.OverlapRefused := by
  intro s i
  refine ⟨fun had hon hdevice hcode => ?_, fun hclock hmode => ?_⟩
  case refine_1 =>
    obtain ⟨op, row, hexec⟩ := exec_receives i s
    rw [hexec, receiveFrame_overlapping op row had hon hdevice hcode]
    rfl
  case refine_2 =>
    have hadmit := admitEvent_inRange hclock hmode
    refine ⟨fun hprofile => exec_notAdmitted i ?_, fun hprofile => ?_⟩
    · rw [hadmit, if_pos hprofile]
    · rw [if_neg (by simp [hprofile])] at hadmit
      refine ⟨fun hparams => exec_notAdmitted i ?_, fun hparams htrack => exec_notAdmitted i ?_⟩
      · rw [hadmit, if_pos hparams]
      · rw [hadmit, if_neg (by simp [hparams]), if_pos htrack]
        rfl

/-! ### The motor-off event -/

/-- During a command the deadline moves a full timeout ahead (49_facade.md R439). -/
theorem motorOffTimer_active {s : State} (hrunning : s.motorOffDeadline ≠ none) (hcode : s.cmd.code ≠ .none) :
    motorOffTimer s = { s with
      motorOffDeadline := some (s.now + s.prof.cyclesToMotorOff)
      out := s.out ++ [.schedule s.prof.cyclesToMotorOff] } := by
  obtain ⟨d, hd⟩ := Option.ne_none_iff_exists'.1 hrunning
  unfold motorOffTimer
  rw [hd]
  exact if_pos (s.active_iff.2 hcode)

/-- A motor sound is an action without effect on the transport's queue (20_memory.md R92). -/
theorem emitMotorSound_eq (on : Bool) (s : State) :
    emitMotorSound on s = { s with out := s.out ++ if s.flags.driveSoundsEnabled then [.motorSound on] else [] } := by
  unfold emitMotorSound
  split
  · rfl
  · rw [List.append_nil]

/-- With no command active the disk stops at the angle it has reached (49_facade.md R439). -/
theorem motorOffTimer_idle {s : State} (hrunning : s.motorOffDeadline ≠ none) (hidle : s.cmd.code = .none) :
    motorOffTimer s = { s with
      rot := (advanceToNow s).rot
      motorOffDeadline := none
      out := s.out ++ [.setMotorIndicator false] ++ if s.flags.driveSoundsEnabled then [.motorSound false] else [] } := by
  obtain ⟨d, hd⟩ := Option.ne_none_iff_exists'.1 hrunning
  have hstops : motorOffTimer s =
      emitMotorSound false (({ advanceToNow s with motorOffDeadline := none } : State).emit (.setMotorIndicator false)) := by
    unfold motorOffTimer
    rw [hd]
    exact if_neg (by simp [State.active_iff, hidle])
  rw [hstops, emitMotorSound_eq, advanceToNow_eq]
  rfl

/-- Settles O48, by whether the motor-off event is pending and a command active. -/
theorem motorTimer : Obligations.MotorTimer := by
  intro s had
  refine ⟨fun hnone => deliver_ok s _ _ had ?_, fun hrunning hcode => deliver_ok s _ _ had ?_,
    fun hrunning hidle => deliver_ok s _ _ had ?_⟩
  · rw [handleEvent, motorOffTimer, hnone]
  · exact congrArg Except.ok (motorOffTimer_active hrunning hcode)
  · exact congrArg Except.ok (motorOffTimer_idle hrunning hidle)

/-! ### A change of disk -/

/-- What every change of disk re-derives, whether or not a command is in flight (49_facade.md R426 to R428). -/
theorem clearSectorArrays_refreshed_eq (u : State) :
    clearSectorArrays (refreshFlags (refreshGeometry u)) = { u with
      flags := u.refreshedFlags
      geom := u.refreshedGeometry
      percom := u.refreshedPercom
      phantomCounter := List.replicate u.refreshedGeometry.totalSectors 0
      forcedOrder := List.replicate u.physCount 0 } := by
  rw [refreshGeometry_eq]
  rfl

/-- Settles O46, by whether a read or a write is in flight. -/
theorem diskChanged : Obligations.DiskChanged := by
  intro s d had u inFlight
  refine deliver_ok s _ _ had (congrArg Except.ok ?_)
  show onDiskChanged u = _
  unfold onDiskChanged
  rw [clearSectorArrays_refreshed_eq]
  by_cases hflight : inFlight
  case pos =>
    simp only [if_pos hflight]
    exact if_pos hflight
  case neg =>
    simp only [if_neg hflight]
    exact if_neg hflight

/-! ### The emulation mode -/

/-- A counter within the old period is scaled to one within the new period (49_facade.md R425). -/
theorem rescaleCounter_lt {oldP newP counter : Nat} (h : counter < oldP) (hnew : 0 < newP) :
    rescaleCounter oldP newP counter < newP := by
  unfold rescaleCounter
  split
  · next hsame => exact hsame ▸ h
  · rw [Nat.div_lt_iff_lt_mul (Nat.zero_lt_of_lt h), Nat.mul_comm newP]
    exact Nat.mul_lt_mul_of_pos_right h hnew

/-- A mode beyond the table is a programming error (60_exceptions.md R468). -/
theorem selectProfile_outOfRange {mode : Nat} (v : IndusVariant) {s : State} (hmode : s.params.hasMode mode = false) :
    selectProfile mode v s = programmingError .modeOutOfRange := if_pos hmode

/-- `SetEmulationMode` keeps the angle of the disk, and so a counter within its period (49_facade.md R425). -/
theorem setEmulationMode_eq {mode : Nat} {s : State} (hmode : s.params.hasMode mode = true)
    (hwf : (s.params.getProfile mode).wf s.params.maxIdleTimer = true) :
    let old := (advanceToNow s).rot
    setEmulationMode mode s = .ok { s with
      mode := mode
      indusVariant := .base
      rot := { old with
        rotationalCounter :=
          rescaleCounter s.period (s.params.getProfile mode).cyclesPerDiskRotation old.rotationalCounter } } :=
  selectProfile_eq hmode hwf

/-! ### Settings and notifications -/

/-- The motor's sound is called for when the motor runs and the new flag is set (49_facade.md R431; log 35). -/
theorem onAudioModeChanged_eq (s : State) :
    onAudioModeChanged s = { s with
      flags := { s.flags with driveSoundsEnabled := s.disk.driveSoundsEnabled }
      out := s.out ++ if s.motorRunning ∧ s.disk.driveSoundsEnabled = true then [.motorSound true] else [] } := by
  have hsound (b : Bool) : (if b then [Action.motorSound b] else []) = if b = true then [.motorSound true] else [] := by
    cases b <;> rfl
  unfold onAudioModeChanged
  by_cases hmotor : s.motorRunning = true
  case pos =>
    refine (if_pos hmotor).trans ?_
    simp only [emitMotorSound_eq, hsound, hmotor, true_and]
  case neg =>
    have hsilent : ¬(s.motorRunning = true ∧ s.disk.driveSoundsEnabled = true) := fun h => hmotor h.1
    rw [if_neg hsilent, List.append_nil]
    exact if_neg hmotor

/-- Settles O47, event by event. The rescaled counter stays below the new period, which a well-formed profile has
positive; one entry of the forced orders is set. -/
theorem modeChanged : Obligations.ModeChanged := by
  intro s had
  refine ⟨fun mode => ⟨fun hmode hwf => ?_, fun hmode => ?_⟩, fun w f => deliver_ok s _ _ had rfl,
    fun a => deliver_ok s _ _ had rfl, fun a => deliver_ok s _ _ had ?_, fun b => deliver_ok s _ _ had rfl, fun p k => ?_⟩
  case refine_1 =>
    have hset := deliver_ok s _ (.setEmulationMode mode) had (setEmulationMode_eq hmode hwf)
    refine ⟨hset, fun hcounter t ht => ?_⟩
    obtain rfl := Host.Outcome.next.inj (hset.symm.trans ht)
    exact rescaleCounter_lt hcounter (Profile.wf_period_pos _ _ hwf)
  case refine_2 =>
    calc handle (.setEmulationMode mode) s
      _ = (setEmulationMode mode s).toOutcome := deliver_admitted (.setEmulationMode mode) had
      _ = .refused (.programmingError .modeOutOfRange) := by
        rw [setEmulationMode, selectProfile_outOfRange .base hmode]
        rfl
  case refine_3 =>
    exact congrArg Except.ok (onAudioModeChanged_eq { s with disk := { s.disk with driveSoundsEnabled := a } })
  case refine_4 =>
    refine ⟨setEntry 0 p k s.forcedOrder, deliver_ok s _ _ had rfl, setEntry_length _ _ _ _, ?_, fun x hx => ?_⟩
    · rw [setEntry_getD, if_pos rfl]
    · rw [setEntry_getD, if_neg hx]

end Sys2Proof.Machine

/-! PROOF. `Reset` and `Init` (70_reset_and_hazards.md R500 to R506), and `SaveState` and `LoadState`: the records that are
rejected (49_facade.md R449), and the unit that a saved record gives (R446 to R448, R450). -/

namespace Sys2Proof.Machine

/-! ### Reset and initialisation -/

/-- A unit that meets the conditions of a selected profile is left as it is (40_profile_table.md R153). -/
theorem requireProfile_of {u : State} (hclock : u.now < Config.clockLimit) (hmode : u.params.hasMode u.mode = true)
    (hwf : u.prof.wf u.params.maxIdleTimer = true) (hparams : u.params.wf = true) : requireProfile u = .ok u := by
  rw [requireProfile, if_neg (Nat.not_le.2 hclock), if_neg (by simp [hmode]), if_neg (by simp [hwf]),
    if_neg (by simp [hparams])]

/-- The base profile is selected where it is well formed. -/
theorem selectBase_eq {u : State} (hclock : u.now < Config.clockLimit) (hmode : u.params.hasMode u.mode = true)
    (hwf : (u.params.getProfile u.mode).wf u.params.maxIdleTimer = true) (hparams : u.params.wf = true) :
    selectBase u = .ok { u with indusVariant := .base } :=
  requireProfile_of (u := { u with indusVariant := .base }) hclock hmode hwf hparams

/-- What `Reset` leaves of a unit (70_reset_and_hazards.md R501). -/
def State.afterReset (v : State) : State :=
  let q := v.params.getProfile v.mode
  let acts := abortActions v ++ motorOffActions v
  { v with
    indusVariant := .base
    rot := { rotationalCounter := initialRotationOffset v.params v.unit % q.cyclesPerDiskRotation
             rotationCount := 0
             lastUpdateCycle := v.now }
    fdcStatus := q.powerOnFDCStatus
    lastOpError := false
    currentTrack := resetTrack v.params q
    bufferedTrack := none
    lastReadSector := 0
    flags := v.refreshedFlags
    geom := v.refreshedGeometry
    percom := v.refreshedPercom
    phantomCounter := List.replicate v.refreshedGeometry.totalSectors 0
    cmd := if v.cmd.code = .none then v.cmd else v.cmd.ended
    motorOffDeadline := none
    xferCyclesPerBit := q.cyclesPerSIOBit
    xferCyclesPerByte := q.cyclesPerSIOByte
    out := v.out ++ acts
    wire := v.wire.after v.now 0 acts }

/-- `Reset` aborts and stops the motor, selects the base profile, and assigns the registers. -/
theorem resetUnit_eq {v : State} (hclock : v.now < Config.clockLimit) (hmode : v.params.hasMode v.mode = true)
    (hwf : (v.params.getProfile v.mode).wf v.params.maxIdleTimer = true) (hparams : v.params.wf = true) :
    Machine.resetUnit v = .ok v.afterReset := by
  rw [Machine.resetUnit, turnOffMotor_abortCommand_eq, selectBase_eq (by exact hclock) (by exact hmode) (by exact hwf)
    (by exact hparams), Result.ok_bind, resetRegisters_eq]
  rfl

/-- The unit that `Init` resets (70_reset_and_hazards.md R500). -/
def State.initialised (s : State) (unit : Byte) (configured : Option Nat) : State :=
  { s with
    unit := unit
    enabled := false
    mode := configured.getD 0
    motorOffDeadline := none
    cmd := s.cmd.ended
    flags := { s.flags with trackBufferingDisabled := false }
    weakBitLFSR := s.params.weakLfsrSeed
    sendBuf := Memory.zero
    recvBuf := Memory.zero
    driveRAM := Memory.zero
    forcedOrder := List.replicate s.physCount 0 }

/-- `Init` of a unit number below `NUM_UNITS` resets the unit: the base profile, which it selects before, is what `Reset`
selects. -/
theorem initUnit_eq {s : State} {unit : Byte} {configured : Option Nat} (hunit : unit.toNat < s.params.numUnits)
    (hclock : s.now < Config.clockLimit) (hmode : s.params.hasMode (configured.getD 0) = true)
    (hwf : (s.params.getProfile (configured.getD 0)).wf s.params.maxIdleTimer = true) (hparams : s.params.wf = true) :
    initUnit unit configured s = .ok (s.initialised unit configured).afterReset := by
  have hbase : selectBase (s.initialised unit configured) =
      .ok { s.initialised unit configured with indusVariant := .base } := selectBase_eq hclock hmode hwf hparams
  rw [initUnit, if_neg (Nat.not_le.2 hunit)]
  show selectBase (s.initialised unit configured) >>= Machine.resetUnit = _
  rw [hbase, Result.ok_bind, resetUnit_eq (by exact hclock) (by exact hmode) (by exact hwf) (by exact hparams)]
  rfl

end Sys2Proof.Machine

namespace Sys2Proof

open Machine

/-- Settles O50: `Reset` by its operations, and `Init` as the reset of the unit it initialises. It stands outside
`Machine`, where `resetUnit` is the model's operation. -/
theorem resetUnit : Obligations.ResetUnit := by
  intro s had after
  have ⟨hclock, hmode, _, hparams, _⟩ := had
  refine ⟨fun hwf => deliver_ok s _ .reset had (resetUnit_eq hclock hmode hwf hparams), fun unit configured =>
    ⟨fun hunit => ?_, fun hunit hmode' hwf =>
      deliver_ok s _ (.init unit configured) had (initUnit_eq hunit hclock hmode' hwf hparams)⟩⟩
  calc handle (.init unit configured) s
    _ = (initUnit unit configured s).toOutcome := deliver_admitted (.init unit configured) had
    _ = .refused (.programmingError .unitOutOfRange) := by
      rw [initUnit, if_pos hunit]
      rfl

end Sys2Proof

namespace Sys2Proof.Machine

/-! ### Rejected records -/

theorem SavedState.listedState_iff (b : SavedState) :
    b.listedState = true ↔
      ∃ c, LogicalCommand.ofNumber b.activeCommand = some c ∧ b.activeCommandState.toNat ∈ c.states := by
  unfold SavedState.listedState
  cases LogicalCommand.ofNumber b.activeCommand <;> simp

/-- The checks of 49_facade.md R449. -/
theorem SavedState.valid_iff (p : Params) (b : SavedState) :
    b.valid p = true ↔
      b.idleTimerRemaining < p.maxIdleTimer ∧ b.currentTrack < 65535 ∧ b.activeCommand ≤ 13 ∧
        b.rotationFraction.num < b.rotationFraction.den ∧
        ∃ c, LogicalCommand.ofNumber b.activeCommand = some c ∧ b.activeCommandState.toNat ∈ c.states := by
  simp only [SavedState.valid, Frac.belowOne, Bool.and_eq_true, decide_eq_true_eq, b.listedState_iff, and_assoc]

/-- Settles O51: a record with one of these values fails the check of it. -/
theorem loadRejected : Obligations.LoadRejected := by
  intro s b had hbad
  refine deliver_ok s _ (.loadState b) had (if_neg fun hvalid => ?_)
  obtain ⟨hidle, htrack, hcommand, hangle, c, hc, hstate⟩ := (b.valid_iff s.params).1 hvalid
  rcases hbad with h | h | h | h | ⟨c', hc', hunlisted⟩
  case inl => exact Nat.not_lt.2 h hidle
  case inr.inl => exact Nat.not_lt.2 h htrack
  case inr.inr.inl => exact Nat.not_lt.2 hcommand h
  case inr.inr.inr.inl => exact Nat.not_lt.2 h hangle
  case inr.inr.inr.inr =>
    obtain rfl := Option.some.inj (hc.symm.trans hc')
    exact hunlisted hstate

/-! ### Saved commands -/

theorem LogicalCommand.ofNumber_number (c : LogicalCommand) : LogicalCommand.ofNumber c.number = some c := by
  cases c <;> rfl

theorem LogicalCommand.number_eq_zero_iff (c : LogicalCommand) : c.number = 0 ↔ c = .none := by
  cases c <;> decide

/-- Between events a command waits exactly when there is one (42_dispatch.md R217). -/
theorem State.waiting_of_settled {s : State} (h : s.settled = true) : s.cmd.waiting = decide (s.cmd.code ≠ .none) := by
  unfold State.settled at h
  by_cases hcode : s.cmd.code = .none
  · rw [if_neg (by simp [State.active_iff, hcode])] at h
    simp_all
  · rw [if_pos (s.active_iff.2 hcode)] at h
    simp_all

/-- A saved command is restored with its elapsed time (49_facade.md R447, R450). -/
theorem restoreFields_saveState_cmd {s : State} (t : State) (hsettled : s.settled = true) :
    (restoreFields (saveState s) t).cmd = { s.cmd with
      startTime := if s.cmd.code = .none then t.cmd.startTime else (t.now : Int) - s.elapsed
      startRotationalPosition := t.cmd.startRotationalPosition } := by
  have hnumber : (saveState s).activeCommand ≠ 0 ↔ s.cmd.code ≠ .none := not_congr s.cmd.code.number_eq_zero_iff
  have hcode : (LogicalCommand.ofNumber (saveState s).activeCommand).getD .none = s.cmd.code :=
    congrArg (Option.getD · _) s.cmd.code.ofNumber_number
  have hwaiting : decide ((saveState s).activeCommand ≠ 0) = s.cmd.waiting :=
    (decide_eq_decide.2 hnumber).trans (State.waiting_of_settled hsettled).symm
  unfold restoreFields
  dsimp only
  rw [hcode, hwaiting]
  simp only [hnumber, ite_not]
  rfl

/-! ### Loading -/

/-- What is dropped before a load: the command, the motor-off event and the transport's queue; the fields of the command
record that a load keeps are kept (49_facade.md R447). -/
theorem dropRunning_frame (t : State) :
    ∃ cmd deadline out wire,
      dropRunning t = { t with cmd := cmd, motorOffDeadline := deadline, out := out, wire := wire } ∧
        cmd.startTime = t.cmd.startTime ∧ cmd.startRotationalPosition = t.cmd.startRotationalPosition := by
  obtain ⟨cmd, deadline, out, wire, haborts, hkept⟩ : ∃ cmd deadline out wire,
      abortCommand false t = { t with cmd := cmd, motorOffDeadline := deadline, out := out, wire := wire } ∧
        cmd.startTime = t.cmd.startTime ∧ cmd.startRotationalPosition = t.cmd.startRotationalPosition := by
    by_cases hidle : t.cmd.code = .none
    · exact ⟨_, _, _, _, abortCommand_idle false hidle, rfl, rfl⟩
    · exact ⟨_, _, _, _, abortCommand_eq false t hidle, rfl, rfl⟩
  rw [dropRunning, haborts]
  split
  · exact ⟨_, _, _, _, rfl, hkept⟩
  · exact ⟨_, _, _, _, rfl, hkept⟩

/-- The rotational state and the motor timer of a load, as one update (49_facade.md R447, R448). -/
theorem restoreTimers_eq (b : SavedState) (s : State) :
    restoreTimers b s = { s with
      rot := { rotationalCounter := b.rotationFraction.scale s.period, rotationCount := 0, lastUpdateCycle := s.now }
      motorOffDeadline := if 0 < b.idleTimerRemaining then some (s.now + b.idleTimerRemaining) else none
      out := s.out ++ if 0 < b.idleTimerRemaining then [.schedule b.idleTimerRemaining] else [] } := by
  unfold restoreTimers
  split
  · rfl
  · rw [List.append_nil]

/-- A valid record whose profile is well formed is loaded (49_facade.md R447). -/
theorem loadState_eq {b : SavedState} {t : State} (had : t.admitted) (hvalid : b.valid t.params = true)
    (hwf : (t.params.profile t.mode b.indusVariant).wf t.params.maxIdleTimer = true) :
    loadState b t = .ok { restoreTimers b (restoreFields b (dropRunning t)) with
      wire := b.transportBlob.load t.now
      rxOffset := b.transportBlob.rxOffset
      reply := .loaded } := by
  obtain ⟨hclock, hmode, -, hparams, -⟩ := had
  obtain ⟨cmd, deadline, out, wire, hdrop, -⟩ := dropRunning_frame t
  have hrequire : requireProfile (restoreFields b (dropRunning t)) = .ok (restoreFields b (dropRunning t)) := by
    rw [hdrop]
    exact requireProfile_of hclock hmode hwf hparams
  rw [loadState, if_pos hvalid, restore, hrequire, Result.ok_bind, restoreTimers_eq, hdrop]
  rfl

/-- The angle that a load restores is the saved one: in the same period the fraction scales back (49_facade.md R448). -/
theorem rotationFraction_scale {s : State} (hP : 0 < s.period) : (rotationFraction s).scale s.period = (getSnapshot s).1 :=
  Nat.mul_div_cancel _ hP

/-- The saved time left on the motor timer, counted from the load. -/
theorem saveState_motorOff (s : State) (now : Cycle) :
    (if 0 < (saveState s).idleTimerRemaining then some (now + (saveState s).idleTimerRemaining) else none) =
      s.motorOffDeadline.bind fun d => if d ≤ s.now then none else some (now + (d - s.now)) := by
  unfold saveState
  cases hd : s.motorOffDeadline with
  | none => rfl
  | some d =>
    simp only [Option.bind_some, Nat.sub_pos_iff_lt]
    by_cases hdue : d ≤ s.now
    · rw [if_pos hdue, if_neg (Nat.not_lt.2 hdue)]
    · rw [if_neg hdue, if_pos (Nat.lt_of_not_le hdue)]

/-- Settles O52: the loaded unit is one update of the loader, whose fields are read off; the buffers are stored again in
canonical form, and the next fence is as far ahead as it was. -/
theorem saveLoad : Obligations.SaveLoad := by
  intro s t hsettled _ had hsameParams hsameMode hwf hvalid
  have hperiod : 0 < s.period := Profile.wf_period_pos _ _ hwf
  obtain ⟨cmd, deadline, out, wire, hdrop, hstart, hposition⟩ := dropRunning_frame t
  have hload := loadState_eq (b := saveState s) had (by rw [hsameParams]; exact hvalid)
    (by rw [hsameParams, hsameMode]; exact hwf)
  have hcmd := restoreFields_saveState_cmd (dropRunning t) hsettled
  rw [restoreTimers_eq, hdrop] at hload
  rw [hdrop] at hcmd
  refine ⟨deliver_ok t _ .saveState had rfl, _, deliver_ok t _ (.loadState (saveState s)) had hload, ?_, rfl, rfl, rfl, rfl,
    rfl, rfl, rfl, rfl, rfl, rfl, rfl, rfl, ?_, ?_, fun a => ⟨?_, ?_, ?_⟩, rfl, rfl, ?_, rfl, rfl, rfl, rfl, rfl, rfl⟩
  case refine_1 =>
    rw [hstart, hposition] at hcmd
    exact hcmd
  case refine_2 =>
    have hsame : t.params.profile t.mode s.indusVariant = s.prof := by rw [hsameParams, hsameMode]; rfl
    have hangle : (rotationFraction s).scale (t.params.profile t.mode s.indusVariant).cyclesPerDiskRotation =
        (getSnapshot s).1 := by rw [hsame]; exact rotationFraction_scale hperiod
    exact congrArg (fun n => (⟨n, 0, t.now⟩ : Rotation)) hangle
  case refine_3 =>
    refine (saveState_motorOff s t.now).trans ?_
    cases s.motorOffDeadline <;> rfl
  case refine_4 => exact Memory.read_normalise _ _
  case refine_5 => exact Memory.read_normalise _ _
  case refine_6 => exact Memory.read_normalise _ _
  case refine_7 =>
    intro c id q hsync hahead hfence
    exact Wire.firstFence_load_save s.wire s.now t.now c s.rxOffset id q hsync hahead hfence

end Sys2Proof.Machine
